-- ==== Sys2Proof/Word.lean ====
section
/-! DEFINITION. The words of the machine: a 32-bit word (R10, `XLEN = 32`), a byte, and the raw
fields of an encoding. Only the types and their plainest arithmetic stand here. -/

namespace Sys2Proof

/-- A word: a general register, a control register, the PC, an address (R10, `XLEN`). -/
abbrev Word := BitVec 32

/-- The smallest addressable unit of memory (R120). -/
abbrev Byte := BitVec 8

/-- A 4-bit register field, naming `r0`..`r15` (R51, R204). -/
abbrev RegNum := BitVec 4

/-- A count of ticks: virtual time, and the time an event fires (R77, R550, R554). -/
abbrev Ticks := BitVec 64

/-- One bit as a word: `zext_32` of a flag (R13). -/
def boolWord (b : Bool) : Word := if b then 1#32 else 0#32

end Sys2Proof
end

