-- ==== Sys2Proof/Config.lean ====
section
/-! DEFINITION. What an implementation fixes (R10, R11): the parameters of one simulator instance, held
as one plain structure that State carries and no step changes, the tables of the syscall bridge
(R456, R457, R460, R480), the types of what crosses the host vtable (R481), and the free values: the
answers of the host (R482), the RAM content that `RAM_INIT = arbitrary` leaves open (R123), and a tick count
past its 64 bits (R554). -/

namespace Sys2Proof

/-- The byte order of every RAM and ROM access (R133). -/
inductive Endian
  | little
  | big
  deriving DecidableEq, Repr, Inhabited

/-- What a RAM byte that nothing has written reads as (R123). -/
inductive RamInit
  | zero
  | arbitrary
  deriving DecidableEq, Repr, Inhabited

/-- The calls of the syscall bridge (R456). -/
inductive Syscall
  | exit | open_ | close | read | write | lseek | unlink | rename | stat | fstat | lstat
  | truncate | ftruncate | pipe | time
  deriving DecidableEq, Repr, Inhabited

/-- The host's symbolic errnos (R457); `other` is one with no entry in the RT table. -/
inductive HostErrno
  | eperm | enoent | eintr | eio | ebadf | eagain | enomem | eacces | efault | eexist | enotdir
  | eisdir | espipe | epipe | enametoolong | einval | enfile | emfile | efbig | enospc | erofs
  | enosys
  | other (n : Nat)
  deriving DecidableEq, Repr, Inhabited

/-- The access part of an open call (R460, `flags[1:0]`). -/
inductive HostAccess
  | readOnly | writeOnly | readWrite
  deriving DecidableEq, Repr, Inhabited

/-- The host's symbolic open flags (R460). -/
inductive HostFlag
  | append | create | truncate | exclusive
  deriving DecidableEq, Repr, Inhabited

/-- What `OFLAG_MAP` hands to the host: the access and the flags that are set (R460). -/
structure HostOpenFlags where
  access : HostAccess
  flags : List HostFlag
  deriving DecidableEq, Repr, Inhabited

/-- The fields of the target's stat structure (R480). -/
inductive StatField
  | dev | ino | mode | nlink | uid | gid | rdev | size | atime | mtime | ctime | blksize | blocks
  deriving DecidableEq, Repr, Inhabited

/-- A stat record as the host gives it: the fields it supplies. A field it does not supply is
zero-filled (R480). -/
structure HostStat where
  fields : List (StatField × Int)
  deriving DecidableEq, Repr, Inhabited

/-- One call of a host vtable entry, with its arguments (R481). The core never makes `pipe` or
`error` (R481, 90_conflicts.md C2). -/
inductive HostCall
  | open_ (path : List Byte) (flags : HostOpenFlags) (mode : Word)
  | close (h : Nat)
  | read (h : Nat) (n : Nat)
  | write (h : Nat) (data : List Byte)
  | lseek (h : Nat) (offset : Int) (whence : Nat)
  | unlink (path : List Byte)
  | rename (old new : List Byte)
  | stat (path : List Byte)
  | lstat (path : List Byte)
  | fstat (h : Nat)
  | truncate (path : List Byte) (length : Int)
  | ftruncate (h : Nat) (length : Int)
  | pipe
  | time
  | getLastErrno
  | print (data : List Byte)
  | error (msg : List Byte)
  deriving DecidableEq, Repr, Inhabited

/-- What a host primitive answers (R481). Every primitive reads the part of it that its result has:
`error = some e` is `Err`, with `e` what `get_last_errno` then answers; `value` is a handle, a
count, a position or a time; `data` is the bytes of a read; `stat` is a stat record. `stop` says
whether the host raised the stop request while it answered (R8, R264). -/
structure HostReply where
  error : Option HostErrno
  value : Int
  data : List Byte
  stat : HostStat
  stop : Bool
  deriving DecidableEq, Repr, Inhabited

/-- One host primitive's outcome: a reply, or a call that blocks for ever
(93_implementation_defined.md S9). -/
inductive HostAnswer
  | reply (r : HostReply)
  | never
  deriving DecidableEq, Repr, Inhabited

/-- The parameters of one instance (R10, R11). `XLEN`, `NGPR`, `NBANKED`, `NBANKS` and
`NACC` are built into the types of State. `PIPE_BUF` is read by no rule but for the reference value of
`PIPE_CAP`. -/
structure Config where
  endian : Endian
  strictAlign : Bool
  hasFaultVector : Bool
  blockBits : Nat
  nmap : Nat
  ramSize : Nat
  romBase : Nat
  romSize : Nat
  ramInit : RamInit
  nlevels : Nat
  unitCost : Nat
  memWait : Nat
  uartTxTicks : Nat
  wdtLevel : Nat
  syscallTrap : BitVec 4
  nfd : Nat
  pipeBuf : Nat
  pipeCap : Nat
  pathMax : Nat
  sysroot : List Byte
  syscallMap : List (Word × Syscall)
  errnoMap : List (HostErrno × Word)
  oflagMap : List (Word × HostFlag)
  statLayout : List StatField
  deriving DecidableEq, Repr

/-- The RT syscall table (R456). -/
def Config.rtSyscalls : List (Word × Syscall) :=
  [(1, .exit), (2, .open_), (3, .close), (4, .read), (5, .write), (6, .lseek), (7, .unlink),
   (8, .rename), (9, .stat), (10, .fstat), (11, .lstat), (12, .truncate), (13, .ftruncate),
   (14, .pipe), (15, .time)]

/-- The RT errno table (R457). -/
def Config.rtErrnos : List (HostErrno × Word) :=
  [(.eperm, 1), (.enoent, 2), (.eintr, 4), (.eio, 5), (.ebadf, 9), (.eagain, 11), (.enomem, 12),
   (.eacces, 13), (.efault, 14), (.eexist, 17), (.enotdir, 20), (.eisdir, 21), (.einval, 22),
   (.enfile, 23), (.emfile, 24), (.efbig, 27), (.enospc, 28), (.espipe, 29), (.erofs, 30),
   (.epipe, 32), (.enosys, 88), (.enametoolong, 91)]

/-- The RT open-flag table (R460): one target bit each. -/
def Config.rtOpenFlags : List (Word × HostFlag) :=
  [(0x0008, .append), (0x0200, .create), (0x0400, .truncate), (0x0800, .exclusive)]

/-- The RT stat layout, 13 fields of 4 bytes (R480). -/
def Config.rtStatLayout : List StatField :=
  [.dev, .ino, .mode, .nlink, .uid, .gid, .rdev, .size, .atime, .mtime, .ctime, .blksize, .blocks]

/-- `PIPE_CAP` as R10 gives it from `PIPE_BUF`. -/
def Config.pipeCapOf (pipeBuf : Nat) : Nat := 10 * pipeBuf

/-- The reference parameters (R10). DESIGN CHOICE (unsafe for claims about State.reset alone,
assumption 1): the two parameters R10 leaves OPEN are `endian = little` and an empty `sysroot`. -/
def Config.reference : Config where
  endian := .little
  strictAlign := true
  hasFaultVector := true
  blockBits := 16
  nmap := 16
  ramSize := 0x00100000
  romBase := 0x08000000
  romSize := 0x00010000
  ramInit := .zero
  nlevels := 15
  unitCost := 1
  memWait := 0
  uartTxTicks := 10
  wdtLevel := 15
  syscallTrap := 15
  nfd := 16
  pipeBuf := 512
  pipeCap := Config.pipeCapOf 512
  pathMax := 1024
  sysroot := []
  syscallMap := Config.rtSyscalls
  errnoMap := Config.rtErrnos
  oflagMap := Config.rtOpenFlags
  statLayout := Config.rtStatLayout

/-- The side conditions R10, R126, R138 and R356 put on the parameters: a block is at least 8 bytes
and inside a segment, the regions are whole blocks of the physical space below the device region,
the mapping registers end below `IC_PENDING`, and the levels have a bit and a vector each (R525, R541). -/
def Config.wf (c : Config) : Bool :=
  decide (3 ≤ c.blockBits) && decide (c.blockBits ≤ 28) && decide (c.nmap ≤ 64) &&
  decide (c.ramSize % 2 ^ c.blockBits = 0) && decide (c.romBase % 2 ^ c.blockBits = 0) &&
  decide (c.romSize % 2 ^ c.blockBits = 0) && decide (c.ramSize ≤ c.romBase) &&
  decide (c.romBase + c.romSize ≤ 0xF0000000) && decide (3 ≤ c.nfd) && decide (c.nlevels ≤ 15)

/-- Free value (R123, 93_implementation_defined.md T1, assumption 2): the byte that RAM address `a` holds
before anything writes it when `RAM_INIT = arbitrary`. Fixed once chosen: it depends on the
address alone. -/
opaque Config.ramByte : Nat → Byte

/-- Free value (R482, assumption 3): the answer of the host to the core's `n`-th call, for a
call the state's own list of answers does not cover. -/
opaque Config.hostAnswer : Nat → HostAnswer

/-- Free value (R77, R550, R554, assumption 7): what a tick count becomes where the exact sum `n` does not fit its 64
bits. -/
opaque Config.lateTime : Nat → Ticks

end Sys2Proof
end

