-- ==== Sys2Proof/Syntax.lean ====
section
/-! DEFINITION. The instructions of RT: one constructor for each row of spec/opcode_table.json (R208, R209), with the raw
immediate and register fields as operands, and the fetch unit that holds one long instruction or
a pair of short ones (R201). -/

namespace Sys2Proof

/-- The seven control registers (R63). -/
inductive CReg
  | psw | bpsw | bpc | evb | cause | badaddr | supp
  deriving DecidableEq, Repr, Inhabited

/-- The instructions of RT (R208, R209). The short forms come first. -/
inductive Instr
  -- no-operations (44_system.md)
  | nop
  | hint (ra rb : RegNum)
  -- moves, arithmetic, logic, shifts, compares (41_alu.md)
  | mv (ra rb : RegNum)
  | not (ra rb : RegNum)
  | neg (ra rb : RegNum)
  | add (ra rb : RegNum)
  | addc (ra rb : RegNum)
  | sub (ra rb : RegNum)
  | subb (ra rb : RegNum)
  | and (ra rb : RegNum)
  | or (ra rb : RegNum)
  | xor (ra rb : RegNum)
  | mul (ra rb : RegNum)
  | sll (ra rb : RegNum)
  | srl (ra rb : RegNum)
  | sra (ra rb : RegNum)
  | cmpeq (ra rb : RegNum)
  | cmplt (ra rb : RegNum)
  | cmpltu (ra rb : RegNum)
  | addi (ra : RegNum) (imm : BitVec 6)
  | ldi (ra : RegNum) (imm : BitVec 6)
  | slli (ra : RegNum) (sh : BitVec 5)
  | srli (ra : RegNum) (sh : BitVec 5)
  | srai (ra : RegNum) (sh : BitVec 5)
  | cmpeqi (ra : RegNum) (imm : BitVec 6)
  | cmplti (ra : RegNum) (imm : BitVec 6)
  -- register-indirect loads and stores (42_loadstore.md)
  | ldb (ra rb : RegNum)
  | ldbu (ra rb : RegNum)
  | ldh (ra rb : RegNum)
  | ldhu (ra rb : RegNum)
  | ldw (ra rb : RegNum)
  | ld2w (ra rb : RegNum)
  | stb (ra rb : RegNum)
  | sth (ra rb : RegNum)
  | stw (ra rb : RegNum)
  | st2w (ra rb : RegNum)
  -- short branches, jumps, predicates (43_control.md)
  | bra (disp : BitVec 10)
  | brt (disp : BitVec 10)
  | brf (disp : BitVec 10)
  | bl (disp : BitVec 10)
  | jmp (rb : RegNum)
  | jl (rb : RegNum)
  | exet
  | exef
  | exect
  | execf
  -- control-register moves (44_system.md)
  | mvfc (ra : RegNum) (cr : CReg)
  | mvtc (cr : CReg) (rb : RegNum)
  -- long immediates (41_alu.md)
  | ldil (ra : RegNum) (imm : BitVec 16)
  | ldih (ra : RegNum) (imm : BitVec 16)
  | addil (ra rb : RegNum) (imm : BitVec 16)
  | andil (ra rb : RegNum) (imm : BitVec 16)
  | oril (ra rb : RegNum) (imm : BitVec 16)
  | xoril (ra rb : RegNum) (imm : BitVec 16)
  -- base-plus-displacement loads and stores (42_loadstore.md)
  | ldbD (ra rb : RegNum) (imm : BitVec 16)
  | ldbuD (ra rb : RegNum) (imm : BitVec 16)
  | ldhD (ra rb : RegNum) (imm : BitVec 16)
  | ldhuD (ra rb : RegNum) (imm : BitVec 16)
  | ldwD (ra rb : RegNum) (imm : BitVec 16)
  | ld2wD (ra rb : RegNum) (imm : BitVec 16)
  | stbD (ra rb : RegNum) (imm : BitVec 16)
  | sthD (ra rb : RegNum) (imm : BitVec 16)
  | stwD (ra rb : RegNum) (imm : BitVec 16)
  | st2wD (ra rb : RegNum) (imm : BitVec 16)
  -- long branches (43_control.md)
  | braL (disp : BitVec 16)
  | brtL (disp : BitVec 16)
  | brfL (disp : BitVec 16)
  | blL (disp : BitVec 16)
  -- system (44_system.md)
  | trap (n : BitVec 4)
  | rti
  | wait
  | stop
  | brk
  deriving DecidableEq, Repr, Inhabited

/-- The order in which a pair executes: the document's encoding bit (R201, R254). -/
inductive Order
  | leftFirst
  | rightFirst
  deriving DecidableEq, Repr, Inhabited

/-- A fetch unit (R201). `left` sits in bits 29:15 and `right` in bits 14:0 whatever the order. -/
inductive FetchUnit
  | pair (order : Order) (left right : Instr)
  | long (i : Instr)
  deriving DecidableEq, Repr, Inhabited

/-- Which instructions exist as long instructions; every other one is a short sub-instruction, and none is both
(R210). -/
def Instr.isLong : Instr → Bool
  | .nop | .hint _ _ | .mv _ _ | .not _ _ | .neg _ _ | .add _ _ | .addc _ _ | .sub _ _
  | .subb _ _ | .and _ _ | .or _ _ | .xor _ _ | .mul _ _ | .sll _ _ | .srl _ _ | .sra _ _
  | .cmpeq _ _ | .cmplt _ _ | .cmpltu _ _ | .addi _ _ | .ldi _ _ | .slli _ _ | .srli _ _
  | .srai _ _ | .cmpeqi _ _ | .cmplti _ _ | .ldb _ _ | .ldbu _ _ | .ldh _ _ | .ldhu _ _
  | .ldw _ _ | .ld2w _ _ | .stb _ _ | .sth _ _ | .stw _ _ | .st2w _ _ | .bra _ | .brt _
  | .brf _ | .bl _ | .jmp _ | .jl _ | .exet | .exef | .exect | .execf | .mvfc _ _
  | .mvtc _ _ => false
  | .ldil _ _ | .ldih _ _ | .addil _ _ _ | .andil _ _ _ | .oril _ _ _ | .xoril _ _ _
  | .ldbD _ _ _ | .ldbuD _ _ _ | .ldhD _ _ _ | .ldhuD _ _ _ | .ldwD _ _ _ | .ld2wD _ _ _
  | .stbD _ _ _ | .sthD _ _ _ | .stwD _ _ _ | .st2wD _ _ _ | .braL _ | .brtL _ | .brfL _
  | .blL _ | .trap _ | .rti | .wait | .stop | .brk => true

end Sys2Proof
end

