-- ==== Sys2Proof/WellFormed.lean ====
section
/-! DEFINITION. Which terms of Syntax stand for an encoding (R208, R209, R213). The fields' widths and
the type of control registers rule out the rest. -/

namespace Sys2Proof

/-- A register pair is named by its even register (R213, R356, R360). -/
def evenReg (r : RegNum) : Bool := r.getLsbD 0 == false

/-- A hint carries a field that is not 0: with both 0 the encoding is `NOP` (R208, R215). -/
def hintFields (ra rb : RegNum) : Bool := ra != 0#4 || rb != 0#4

/-- The instruction has an encoding of its own (R213, R215). -/
def Instr.wf : Instr → Bool
  | .hint ra rb => hintFields ra rb
  | .ld2w ra _ | .st2w ra _ | .ld2wD ra _ _ | .st2wD ra _ _ => evenReg ra
  | .nop | .mv _ _ | .not _ _ | .neg _ _ | .add _ _ | .addc _ _ | .sub _ _
  | .subb _ _ | .and _ _ | .or _ _ | .xor _ _ | .mul _ _ | .sll _ _ | .srl _ _ | .sra _ _
  | .cmpeq _ _ | .cmplt _ _ | .cmpltu _ _ | .addi _ _ | .ldi _ _ | .slli _ _ | .srli _ _
  | .srai _ _ | .cmpeqi _ _ | .cmplti _ _ | .ldb _ _ | .ldbu _ _ | .ldh _ _ | .ldhu _ _
  | .ldw _ _ | .stb _ _ | .sth _ _ | .stw _ _ | .bra _ | .brt _
  | .brf _ | .bl _ | .jmp _ | .jl _ | .exet | .exef | .exect | .execf | .mvfc _ _
  | .mvtc _ _
  | .ldil _ _ | .ldih _ _ | .addil _ _ _ | .andil _ _ _ | .oril _ _ _ | .xoril _ _ _
  | .ldbD _ _ _ | .ldbuD _ _ _ | .ldhD _ _ _ | .ldhuD _ _ _ | .ldwD _ _ _
  | .stbD _ _ _ | .sthD _ _ _ | .stwD _ _ _ | .braL _ | .brtL _ | .brfL _
  | .blL _ | .trap _ | .rti | .wait | .stop | .brk => true

/-- A pair holds two short sub-instructions, a long unit one long instruction, each with an encoding
(R201, R210). -/
def FetchUnit.wf : FetchUnit → Bool
  | .pair _ l r => !l.isLong && !r.isLong && l.wf && r.wf
  | .long i => i.isLong && i.wf

end Sys2Proof
end

