-- ==== Sys2Proof/Decode.lean ====
section
/-! DEFINITION. From bytes to a fetch unit and back (30_encoding.md). Decoding is total: it gives a fetch unit or names
why it does not. The encoder after it is written from the same tables (R201, R208, R209, R220). -/

namespace Sys2Proof

/-! ### Byte order (R134) -/

/-- The value of bytes at increasing addresses, the first byte least significant (R134). -/
def assembleLittle : List Byte → Nat
  | [] => 0
  | b :: bs => b.toNat + 256 * assembleLittle bs

/-- The value of bytes at increasing addresses in the target's byte order (R134). -/
def assemble (e : Endian) (bs : List Byte) : Nat :=
  match e with
  | .little => assembleLittle bs
  | .big => assembleLittle bs.reverse

/-- The `n` low bytes of `v`, least significant first. -/
def disassembleLittle : Nat → Nat → List Byte
  | 0, _ => []
  | n + 1, v => BitVec.ofNat 8 v :: disassembleLittle n (v / 256)

/-- The `n` bytes that read back as `v` in the target's byte order (R134). -/
def disassemble (e : Endian) (n v : Nat) : List Byte :=
  match e with
  | .little => disassembleLittle n v
  | .big => (disassembleLittle n v).reverse

/-! ### Decoding -/

/-- Why a fetch unit has no meaning (R211 to R213), or why no unit could be read. -/
inductive DecodeError
  /-- `FM = 11` (R212). -/
  | reservedFormat
  /-- A short `(op, fn)` the map marks reserved or does not list (R211). -/
  | reservedShort (op : BitVec 5) (fn : BitVec 2)
  /-- A long `op6` the map does not list (R212). -/
  | reservedLong (op6 : BitVec 6)
  /-- A field that must be 0 is not (R213). -/
  | nonZeroField
  /-- A register pair named by its odd register (R213). -/
  | oddPair
  /-- A control-register number above 6 (R213). -/
  | noControlRegister (n : BitVec 4)
  /-- Fewer than the 4 bytes of a unit (R200). -/
  | truncated
  deriving DecidableEq, Repr, Inhabited

/-- The control register a 4-bit field names (R63, R204). -/
def cregOf (n : BitVec 4) : Option CReg :=
  match n with
  | 0#4 => some .psw
  | 1#4 => some .bpsw
  | 2#4 => some .bpc
  | 3#4 => some .evb
  | 4#4 => some .cause
  | 5#4 => some .badaddr
  | 6#4 => some .supp
  | _ => none

/-- `i` where the fields that must be 0 are 0 (R213). -/
def requireZero (ok : Bool) (i : Instr) : Except DecodeError Instr :=
  if ok then .ok i else .error .nonZeroField

/-- `i` where the pair's register is even (R213). -/
def requireEven (ra : RegNum) (i : Instr) : Except DecodeError Instr :=
  if evenReg ra then .ok i else .error .oddPair

/-- The short opcode map (R208), on the four fields of a sub-instruction (R202). In format RI the
immediate is `rb ++ fn`, in format B the displacement is `ra ++ rb ++ fn`. -/
def shortOf (op : BitVec 5) (ra rb : BitVec 4) (fn : BitVec 2) : Except DecodeError Instr :=
  match op, fn with
  | 0x00#5, 0#2 => .ok (if hintFields ra rb then .hint ra rb else .nop)
  | 0x00#5, 1#2 => .ok (.mv ra rb)
  | 0x00#5, 2#2 => .ok (.not ra rb)
  | 0x00#5, 3#2 => .ok (.neg ra rb)
  | 0x01#5, 0#2 => .ok (.add ra rb)
  | 0x01#5, 1#2 => .ok (.addc ra rb)
  | 0x01#5, 2#2 => .ok (.sub ra rb)
  | 0x01#5, 3#2 => .ok (.subb ra rb)
  | 0x02#5, 0#2 => .ok (.and ra rb)
  | 0x02#5, 1#2 => .ok (.or ra rb)
  | 0x02#5, 2#2 => .ok (.xor ra rb)
  | 0x02#5, 3#2 => .ok (.mul ra rb)
  | 0x03#5, 0#2 => .ok (.sll ra rb)
  | 0x03#5, 1#2 => .ok (.srl ra rb)
  | 0x03#5, 2#2 => .ok (.sra ra rb)
  | 0x04#5, 0#2 => .ok (.cmpeq ra rb)
  | 0x04#5, 1#2 => .ok (.cmplt ra rb)
  | 0x04#5, 2#2 => .ok (.cmpltu ra rb)
  | 0x05#5, _ => .ok (.addi ra (rb ++ fn))
  | 0x06#5, _ => .ok (.ldi ra (rb ++ fn))
  | 0x07#5, _ => requireZero (rb.getLsbD 3 == false) (.slli ra ((rb ++ fn).extractLsb' 0 5))
  | 0x08#5, _ => requireZero (rb.getLsbD 3 == false) (.srli ra ((rb ++ fn).extractLsb' 0 5))
  | 0x09#5, _ => requireZero (rb.getLsbD 3 == false) (.srai ra ((rb ++ fn).extractLsb' 0 5))
  | 0x0A#5, _ => .ok (.cmpeqi ra (rb ++ fn))
  | 0x0B#5, _ => .ok (.cmplti ra (rb ++ fn))
  | 0x0C#5, 0#2 => .ok (.ldb ra rb)
  | 0x0C#5, 1#2 => .ok (.ldbu ra rb)
  | 0x0C#5, 2#2 => .ok (.ldh ra rb)
  | 0x0C#5, 3#2 => .ok (.ldhu ra rb)
  | 0x0D#5, 0#2 => .ok (.ldw ra rb)
  | 0x0D#5, 1#2 => requireEven ra (.ld2w ra rb)
  | 0x0E#5, 0#2 => .ok (.stb ra rb)
  | 0x0E#5, 1#2 => .ok (.sth ra rb)
  | 0x0E#5, 2#2 => .ok (.stw ra rb)
  | 0x0E#5, 3#2 => requireEven ra (.st2w ra rb)
  | 0x10#5, _ => .ok (.bra (ra ++ rb ++ fn))
  | 0x11#5, _ => .ok (.brt (ra ++ rb ++ fn))
  | 0x12#5, _ => .ok (.brf (ra ++ rb ++ fn))
  | 0x13#5, _ => .ok (.bl (ra ++ rb ++ fn))
  | 0x14#5, 0#2 => requireZero (ra == 0#4) (.jmp rb)
  | 0x14#5, 1#2 => requireZero (ra == 0#4) (.jl rb)
  | 0x15#5, 0#2 => requireZero (ra == 0#4 && rb == 0#4) .exet
  | 0x15#5, 1#2 => requireZero (ra == 0#4 && rb == 0#4) .exef
  | 0x15#5, 2#2 => requireZero (ra == 0#4 && rb == 0#4) .exect
  | 0x15#5, 3#2 => requireZero (ra == 0#4 && rb == 0#4) .execf
  | 0x16#5, 0#2 =>
    match cregOf rb with
    | some c => .ok (.mvfc ra c)
    | none => .error (.noControlRegister rb)
  | 0x16#5, 1#2 =>
    match cregOf ra with
    | some c => .ok (.mvtc c rb)
    | none => .error (.noControlRegister ra)
  | op, fn => .error (.reservedShort op fn)

/-- The long opcode map (R209), on the four fields of a long instruction (R203). -/
def longOf (op6 : BitVec 6) (ra rb : BitVec 4) (imm : BitVec 16) : Except DecodeError Instr :=
  match op6 with
  | 0x01#6 => requireZero (rb == 0#4) (.ldil ra imm)
  | 0x02#6 => requireZero (rb == 0#4) (.ldih ra imm)
  | 0x03#6 => .ok (.addil ra rb imm)
  | 0x04#6 => .ok (.andil ra rb imm)
  | 0x05#6 => .ok (.oril ra rb imm)
  | 0x06#6 => .ok (.xoril ra rb imm)
  | 0x08#6 => .ok (.ldbD ra rb imm)
  | 0x09#6 => .ok (.ldbuD ra rb imm)
  | 0x0A#6 => .ok (.ldhD ra rb imm)
  | 0x0B#6 => .ok (.ldhuD ra rb imm)
  | 0x0C#6 => .ok (.ldwD ra rb imm)
  | 0x0D#6 => requireEven ra (.ld2wD ra rb imm)
  | 0x10#6 => .ok (.stbD ra rb imm)
  | 0x11#6 => .ok (.sthD ra rb imm)
  | 0x12#6 => .ok (.stwD ra rb imm)
  | 0x13#6 => requireEven ra (.st2wD ra rb imm)
  | 0x18#6 => requireZero (ra == 0#4 && rb == 0#4) (.braL imm)
  | 0x19#6 => requireZero (ra == 0#4 && rb == 0#4) (.brtL imm)
  | 0x1A#6 => requireZero (ra == 0#4 && rb == 0#4) (.brfL imm)
  | 0x1B#6 => requireZero (ra == 0#4 && rb == 0#4) (.blL imm)
  | 0x30#6 => requireZero (ra == 0#4 && rb == 0#4 && imm.extractLsb' 4 12 == 0#12) (.trap (imm.extractLsb' 0 4))
  | 0x31#6 => requireZero (ra == 0#4 && rb == 0#4 && imm == 0#16) .rti
  | 0x32#6 => requireZero (ra == 0#4 && rb == 0#4 && imm == 0#16) .wait
  | 0x33#6 => requireZero (ra == 0#4 && rb == 0#4 && imm == 0#16) .stop
  | 0x34#6 => requireZero (ra == 0#4 && rb == 0#4 && imm == 0#16) .brk
  | op6 => .error (.reservedLong op6)

/-- A sub-instruction from its 15 bits (R202, R208). -/
def decodeShort (s : BitVec 15) : Except DecodeError Instr :=
  shortOf (s.extractLsb' 10 5) (s.extractLsb' 6 4) (s.extractLsb' 2 4) (s.extractLsb' 0 2)

/-- A long instruction from the word that holds it (R203, R209). -/
def decodeLong (w : Word) : Except DecodeError Instr :=
  longOf (w.extractLsb' 24 6) (w.extractLsb' 20 4) (w.extractLsb' 16 4) (w.extractLsb' 0 16)

/-- Both halves of a pair; either one being illegal makes the unit illegal, whether or not it would have executed
(R214). -/
def decodePair (o : Order) (w : Word) : Except DecodeError FetchUnit :=
  match decodeShort (w.extractLsb' 15 15) with
  | .error e => .error e
  | .ok l =>
    match decodeShort (w.extractLsb' 0 15) with
    | .error e => .error e
    | .ok r => .ok (.pair o l r)

/-- A fetch unit from its word, by `FM = w[31:30]` alone (R200, R201). -/
def decodeUnit (w : Word) : Except DecodeError FetchUnit :=
  match w.extractLsb' 30 2 with
  | 0#2 => decodePair .leftFirst w
  | 1#2 => decodePair .rightFirst w
  | 2#2 =>
    match decodeLong w with
    | .error e => .error e
    | .ok i => .ok (.long i)
  | _ => .error .reservedFormat

/-- A fetch unit from bytes in the target's byte order, with the bytes left over (R135, R200). -/
def decodeBytes (e : Endian) (bs : List Byte) : Except DecodeError (FetchUnit × List Byte) :=
  if bs.length < 4 then .error .truncated
  else
    match decodeUnit (BitVec.ofNat 32 (assemble e (bs.take 4))) with
    | .error err => .error err
    | .ok u => .ok (u, bs.drop 4)

/-! ### Encoding -/

/-- The number of a control register (R63). -/
def CReg.number : CReg → BitVec 4
  | .psw => 0#4
  | .bpsw => 1#4
  | .bpc => 2#4
  | .evb => 3#4
  | .cause => 4#4
  | .badaddr => 5#4
  | .supp => 6#4

/-- A sub-instruction's bits from its four fields (R202, R220). -/
def mkShort (op : BitVec 5) (ra rb : BitVec 4) (fn : BitVec 2) : BitVec 15 :=
  op ++ ra ++ rb ++ fn

/-- A long instruction's word from its four fields (R203, R220). -/
def mkLong (op6 : BitVec 6) (ra rb : BitVec 4) (imm : BitVec 16) : Word :=
  2#2 ++ op6 ++ ra ++ rb ++ imm

/-- Format RI: the immediate in `s[5:0]` (R202). -/
def mkImm (op : BitVec 5) (ra : BitVec 4) (imm : BitVec 6) : BitVec 15 :=
  mkShort op ra (imm.extractLsb' 2 4) (imm.extractLsb' 0 2)

/-- Format RI with a 5-bit amount: `s[5] = 0` (R205, R213). -/
def mkShift (op : BitVec 5) (ra : BitVec 4) (sh : BitVec 5) : BitVec 15 :=
  mkImm op ra (0#1 ++ sh)

/-- Format B: the displacement in `s[9:0]` (R202). -/
def mkBranch (op : BitVec 5) (d : BitVec 10) : BitVec 15 :=
  mkShort op (d.extractLsb' 6 4) (d.extractLsb' 2 4) (d.extractLsb' 0 2)

/-- The 15 bits of a short sub-instruction (R208). A long instruction has none; it is given those of
`NOP`, and FetchUnit.wf keeps it out of a pair. -/
def encodeShort : Instr → BitVec 15
  | .nop => mkShort 0x00 0 0 0
  | .hint ra rb => mkShort 0x00 ra rb 0
  | .mv ra rb => mkShort 0x00 ra rb 1
  | .not ra rb => mkShort 0x00 ra rb 2
  | .neg ra rb => mkShort 0x00 ra rb 3
  | .add ra rb => mkShort 0x01 ra rb 0
  | .addc ra rb => mkShort 0x01 ra rb 1
  | .sub ra rb => mkShort 0x01 ra rb 2
  | .subb ra rb => mkShort 0x01 ra rb 3
  | .and ra rb => mkShort 0x02 ra rb 0
  | .or ra rb => mkShort 0x02 ra rb 1
  | .xor ra rb => mkShort 0x02 ra rb 2
  | .mul ra rb => mkShort 0x02 ra rb 3
  | .sll ra rb => mkShort 0x03 ra rb 0
  | .srl ra rb => mkShort 0x03 ra rb 1
  | .sra ra rb => mkShort 0x03 ra rb 2
  | .cmpeq ra rb => mkShort 0x04 ra rb 0
  | .cmplt ra rb => mkShort 0x04 ra rb 1
  | .cmpltu ra rb => mkShort 0x04 ra rb 2
  | .addi ra imm => mkImm 0x05 ra imm
  | .ldi ra imm => mkImm 0x06 ra imm
  | .slli ra sh => mkShift 0x07 ra sh
  | .srli ra sh => mkShift 0x08 ra sh
  | .srai ra sh => mkShift 0x09 ra sh
  | .cmpeqi ra imm => mkImm 0x0A ra imm
  | .cmplti ra imm => mkImm 0x0B ra imm
  | .ldb ra rb => mkShort 0x0C ra rb 0
  | .ldbu ra rb => mkShort 0x0C ra rb 1
  | .ldh ra rb => mkShort 0x0C ra rb 2
  | .ldhu ra rb => mkShort 0x0C ra rb 3
  | .ldw ra rb => mkShort 0x0D ra rb 0
  | .ld2w ra rb => mkShort 0x0D ra rb 1
  | .stb ra rb => mkShort 0x0E ra rb 0
  | .sth ra rb => mkShort 0x0E ra rb 1
  | .stw ra rb => mkShort 0x0E ra rb 2
  | .st2w ra rb => mkShort 0x0E ra rb 3
  | .bra d => mkBranch 0x10 d
  | .brt d => mkBranch 0x11 d
  | .brf d => mkBranch 0x12 d
  | .bl d => mkBranch 0x13 d
  | .jmp rb => mkShort 0x14 0 rb 0
  | .jl rb => mkShort 0x14 0 rb 1
  | .exet => mkShort 0x15 0 0 0
  | .exef => mkShort 0x15 0 0 1
  | .exect => mkShort 0x15 0 0 2
  | .execf => mkShort 0x15 0 0 3
  | .mvfc ra c => mkShort 0x16 ra c.number 0
  | .mvtc c rb => mkShort 0x16 c.number rb 1
  | .ldil _ _ | .ldih _ _ | .addil _ _ _ | .andil _ _ _ | .oril _ _ _ | .xoril _ _ _
  | .ldbD _ _ _ | .ldbuD _ _ _ | .ldhD _ _ _ | .ldhuD _ _ _ | .ldwD _ _ _ | .ld2wD _ _ _
  | .stbD _ _ _ | .sthD _ _ _ | .stwD _ _ _ | .st2wD _ _ _ | .braL _ | .brtL _ | .brfL _
  | .blL _ | .trap _ | .rti | .wait | .stop | .brk => mkShort 0x00 0 0 0

/-- A pair's word: `FM`, the left half, the right half (R201, R220). -/
def mkPair (o : Order) (l r : BitVec 15) : Word :=
  match o with
  | .leftFirst => 0#2 ++ l ++ r
  | .rightFirst => 1#2 ++ l ++ r

/-- The word of one instruction alone: a long instruction is a unit of its own (R209); a short one is
assembled as `A -> nop`, in the left slot (R218). -/
def encodeInstr : Instr → Word
  | .ldil ra imm => mkLong 0x01 ra 0 imm
  | .ldih ra imm => mkLong 0x02 ra 0 imm
  | .addil ra rb imm => mkLong 0x03 ra rb imm
  | .andil ra rb imm => mkLong 0x04 ra rb imm
  | .oril ra rb imm => mkLong 0x05 ra rb imm
  | .xoril ra rb imm => mkLong 0x06 ra rb imm
  | .ldbD ra rb imm => mkLong 0x08 ra rb imm
  | .ldbuD ra rb imm => mkLong 0x09 ra rb imm
  | .ldhD ra rb imm => mkLong 0x0A ra rb imm
  | .ldhuD ra rb imm => mkLong 0x0B ra rb imm
  | .ldwD ra rb imm => mkLong 0x0C ra rb imm
  | .ld2wD ra rb imm => mkLong 0x0D ra rb imm
  | .stbD ra rb imm => mkLong 0x10 ra rb imm
  | .sthD ra rb imm => mkLong 0x11 ra rb imm
  | .stwD ra rb imm => mkLong 0x12 ra rb imm
  | .st2wD ra rb imm => mkLong 0x13 ra rb imm
  | .braL d => mkLong 0x18 0 0 d
  | .brtL d => mkLong 0x19 0 0 d
  | .brfL d => mkLong 0x1A 0 0 d
  | .blL d => mkLong 0x1B 0 0 d
  | .trap n => mkLong 0x30 0 0 (0#12 ++ n)
  | .rti => mkLong 0x31 0 0 0
  | .wait => mkLong 0x32 0 0 0
  | .stop => mkLong 0x33 0 0 0
  | .brk => mkLong 0x34 0 0 0
  | i => mkPair .leftFirst (encodeShort i) (encodeShort .nop)

/-- The word of a fetch unit (R201, R220). -/
def encodeUnit : FetchUnit → Word
  | .pair o l r => mkPair o (encodeShort l) (encodeShort r)
  | .long i => encodeInstr i

/-- The unit that holds `i` alone (R218). -/
def unitOf (i : Instr) : FetchUnit :=
  if i.isLong then .long i else .pair .leftFirst i .nop

/-! ### The opcode table's numbering -/

/-- The unit word whose low `nbits` bits are those of `w`, every bit above them 0. A short row of
the table (15 bits) so lies in the right half of `nop -> s`, with `FM = 00` (R201, R216). -/
def tableWord (nbits w : Nat) : Word := BitVec.ofNat 32 (w % 2 ^ nbits)

/-- The instruction the decoder reads from the bits `w` of an opcode-table row, its bytes laid out
little-endian: a long unit's instruction, or the right half of a pair whose left half is the `NOP`
of zeros. -/
def decodeTableWord (nbits w : Nat) : Option Instr :=
  match decodeBytes .little (disassemble .little 4 (tableWord nbits w).toNat) with
  | .ok (.long i, _) => some i
  | .ok (.pair .leftFirst .nop r, _) => some r
  | .ok (.pair _ _ _, _) => none
  | .error _ => none

end Sys2Proof
end

