-- ==== Sys2Proof/Machine/State.lean ====
section
/-! DEFINITION. The state of the machine as plain data (10_state.md, 20_memory.md R126, 45_syscall_bridge.md R452 to
R454, 60_exceptions.md R541 to R558), what it holds at reset (R80, R600, R608), and the reasons a
step can stop. -/

namespace Sys2Proof.Machine

/-! ### Why a step stops -/

/-- Why the machine makes no progress: the two places where the spec's own procedure does not end.
Everything else, including every stop of the run (R266), is a state. -/
inductive Fault
  /-- Raised by a syscall whose host call blocks for ever (R464, 93_implementation_defined.md S9:
  the model is stuck inside that call). Safe: the model stops where the hardware makes no progress
  either. -/
  | hostNeverAnswers
  /-- Raised by the step's event drain when a periodic timer whose period has been set to 0 expires: by
  R551, R552 and R556 the drain then fires events at one instant without end (assumption 4).
  Safe: the model stops where the procedure does not end. -/
  | endlessEventDrain
  deriving DecidableEq, Repr

/-- Why an instruction has no meaning. -/
inductive Refusal
  /-- Raised by an arm of exec whose instruction is not modelled. No arm does so. Safe. -/
  | notModelled (mnemonic : String)
  deriving DecidableEq, Repr

/-! ### Stops of the run (R77, R266) -/

/-- The symbolic signals a stop reason names (R266). -/
inductive Signal
  | sigint | sigtrap | sigbus | sigsegv | sigill
  deriving DecidableEq, Repr, Inhabited

/-- The stop reasons (R266). -/
inductive StopReason
  | exited (code : Word)
  | stopped (sig : Signal)
  | signalled (sig : Signal)
  | trapped
  deriving DecidableEq, Repr, Inhabited

/-- Whether the engine may execute (R77): `stopped none` until the first `resume`. -/
inductive Run
  | running
  | stopped (reason : Option StopReason)
  deriving DecidableEq, Repr, Inhabited

/-! ### Registers -/

/-- A physical general register: 0 to 7 are bank 0, 8 to 15 bank 1, 16 to 23 the shared `r8` to `r15`
(R54). -/
abbrev PReg := Fin 24

/-- The control registers (R63). -/
structure CRegs where
  psw : Word
  bpsw : Word
  bpc : Word
  evb : Word
  cause : Word
  badaddr : Word
  supp : Word
  deriving DecidableEq, Repr

/-! ### The fetch unit in progress (R70 to R75, R250) -/

/-- The destination of a deferred register write (R70). -/
inductive Dest
  | gpr (p : PReg)
  | cr (c : CReg)
  deriving DecidableEq, Repr, Inhabited

/-- A device register (R138); `map k` is `MAP[k]` (R126). -/
inductive DevReg
  | map (k : Nat)
  | icPending | icMask | icLatched | icControl | icLevel
  | tmrCtrl | tmrPeriod | tmrStatus | tmrNow | tmrNowh
  | uartTxdata | uartStatus | uartCtrl
  | wdtCtrl | wdtReload | wdtKick | wdtStatus
  deriving DecidableEq, Repr, Inhabited

/-- A deferred slot of the write-back queue (R70). -/
inductive WbEntry
  | reg (dest : Dest) (value mask : Word)
  | mem (pa : Nat) (bytes : List Byte)
  | dev (r : DevReg) (value : Word)
  deriving DecidableEq, Repr, Inhabited

/-- What an instruction asks of the engine at the end of its unit (R265). -/
inductive Request
  | exit (code : Word)
  | brk
  | trapped
  deriving DecidableEq, Repr, Inhabited

/-- The unit in progress (R250): its word `w`, the write-back queue `Q` (R70), the next PC `npc`
(R256), the request `req` (R265), whether its second half was suppressed (R258), the number of data accesses
`acc`, the effective view `(eff_RB, eff_SM)` (R74), and whether it has raised (R262). -/
structure UnitState where
  word : Word
  queue : List WbEntry
  npc : Option Word
  req : Option Request
  suppressed : Bool
  acc : Nat
  effRB : Bool
  effSM : Bool
  raised : Bool
  deriving DecidableEq, Repr

/-! ### Events and devices -/

/-- A device callback with its argument (R550, R556 to R558). -/
inductive Callback
  | timerExpire (gen : Nat)
  | txDone (b : Byte)
  | wdtExpire (gen : Nat)
  deriving DecidableEq, Repr, Inhabited

/-- An entry of the event queue (R550). -/
structure Event where
  fireTime : Ticks
  seq : Nat
  callback : Callback
  deriving DecidableEq, Repr

/-- The device registers (R78, R126, R541 to R545, R556 to R558). `UART_TXDATA`, `WDT_KICK`, `IC_LEVEL`,
`TMR_NOW` and `TMR_NOWH` store nothing of their own. -/
structure Devices where
  maps : List Word
  icPending : Word
  icMask : Word
  icLatched : Word
  icControl : Word
  tmrCtrl : Word
  tmrPeriod : Word
  tmrStatus : Word
  uartStatus : Word
  uartCtrl : Word
  wdtCtrl : Word
  wdtReload : Word
  wdtStatus : Word
  tgen : Nat
  wgen : Nat
  deriving DecidableEq, Repr

/-! ### Memory, files, host -/

/-- Physical RAM and ROM: the bytes that differ from what an unlisted address reads as, addresses
strictly rising (Memory.wf). -/
abbrev Memory := List Host.Cell

/-- A slot of the virtual file-descriptor table (R452). -/
inductive FdSlot
  | free
  | host (h : Nat)
  | pipeRd (p : Nat)
  | pipeWr (p : Nat)
  deriving DecidableEq, Repr, Inhabited

/-- An emulated pipe (R454). -/
structure Pipe where
  buf : List Byte
  rdOpen : Bool
  wrOpen : Bool
  deriving DecidableEq, Repr, Inhabited

/-- A pipe notification, with the reader's target fd (R479). -/
inductive Notification
  | pipeNonEmpty (fd : Nat)
  | pipeEmpty (fd : Nat)
  deriving DecidableEq, Repr, Inhabited

/-- The host as the core sees it (R479, R481, R482). The MODEL's own fields: `script`, the answers to
the calls still to come, and `served`, the number of calls answered; a call past the end of `script`
is answered by the free value `Config.hostAnswer`; `arrivals` says, for each poll at the end of a step still to come, whether
the host raises the stop request before it (R264, assumption 13), and past its end it does not. `calls` is every vtable call made, oldest first,
`notes` the host-visible log, `lastErrno` the error of the last `Err`. -/
structure HostState where
  script : List HostAnswer
  served : Nat
  arrivals : List Bool
  calls : List HostCall
  notes : List Notification
  lastErrno : Option HostErrno
  deriving DecidableEq, Repr

/-- The whole state: the configuration (R11), the architectural state (10_state.md), the unit in
progress, the engine's state (R77), the devices, memory, the bridge's state and the host. -/
structure State where
  cfg : Config
  regs : Vector Word 24
  pc : Word
  cr : CRegs
  unit : UnitState
  run : Run
  singleStep : Bool
  waiting : Bool
  stopRequest : Bool
  time : Ticks
  events : List Event
  seq : Nat
  dev : Devices
  mem : Memory
  fds : List FdSlot
  pipes : List (Nat × Pipe)
  nextPipe : Nat
  host : HostState
  deriving DecidableEq, Repr

/-- What an instruction or a step answers. -/
abbrev Result := Host.Outcome State Fault Refusal

/-! ### Reset -/

/-- The control registers at reset (R80). -/
def CRegs.reset : CRegs where
  psw := 0x00000400
  bpsw := 0
  bpc := 0
  evb := 0
  cause := 0
  badaddr := 0
  supp := 0

/-- No unit in progress: the queue is empty and the effective view is that of `psw` (R74, R75). -/
def UnitState.idle (psw : Word) : UnitState where
  word := 0
  queue := []
  npc := none
  req := none
  suppressed := false
  acc := 0
  effRB := psw.getLsbD 9
  effSM := psw.getLsbD 10
  raised := false

/-- The bits of the levels `1..NLEVELS`: 15:1 in the reference (R10, R541 to R543). -/
def levelMask (c : Config) : Word := BitVec.ofNat 32 (2 ^ (c.nlevels + 1) - 2)

/-- The devices at reset (R600 step 3): every level is masked (R542, R601). -/
def Devices.reset (c : Config) : Devices where
  maps := List.replicate c.nmap 0
  icPending := 0
  icMask := levelMask c
  icLatched := 0
  icControl := 0x00000001
  tmrCtrl := 0
  tmrPeriod := 0
  tmrStatus := 0
  uartStatus := 0
  uartCtrl := 0
  wdtCtrl := 0
  wdtReload := 0
  wdtStatus := 0
  tgen := 0
  wgen := 0

/-- The fd table when the instance is opened: slots 0, 1 and 2 are the host's (R452). -/
def openFds (c : Config) : List FdSlot :=
  ([FdSlot.host 0, FdSlot.host 1, FdSlot.host 2] ++
    List.replicate (c.nfd - 3) FdSlot.free).take c.nfd

/-- A host nothing has been asked of. -/
def HostState.fresh : HostState where
  script := []
  served := 0
  arrivals := []
  calls := []
  notes := []
  lastErrno := none

/-- The instance `open(config)` creates (R608): memory with nothing written, the fd table of R452, and
every other piece of state as R600 sets it with `ENTRY = 0`. -/
def State.opened (c : Config) : State where
  cfg := c
  regs := Vector.replicate 24 0
  pc := 0
  cr := CRegs.reset
  unit := UnitState.idle CRegs.reset.psw
  run := .stopped none
  singleStep := false
  waiting := false
  stopRequest := false
  time := 0
  events := []
  seq := 0
  dev := Devices.reset c
  mem := []
  fds := openFds c
  pipes := []
  nextPipe := 0
  host := HostState.fresh

/-- The machine right after reset (R600, R608): an instance of the reference parameters. -/
def State.reset : State := State.opened Config.reference

end Sys2Proof.Machine
end

