-- ==== Sys2Proof/Machine/Flags.lean ====
section
/-! DEFINITION. The PSW's fields (R58), every flag computation of 41_alu.md, and the masked queue entry by
which an instruction writes flags (R71). -/

namespace Sys2Proof.Machine

/-! ### The PSW's fields (R58, R62) -/

/-- C, bit 0 (R58). -/
def pswC (psw : Word) : Bool := psw.getLsbD 0

/-- Z, bit 1 (R58). -/
def pswZ (psw : Word) : Bool := psw.getLsbD 1

/-- F0, bit 2 (R58). -/
def pswF0 (psw : Word) : Bool := psw.getLsbD 2

/-- IE, bit 8 (R58). -/
def pswIE (psw : Word) : Bool := psw.getLsbD 8

/-- RB, bit 9 (R58). -/
def pswRB (psw : Word) : Bool := psw.getLsbD 9

/-- SM, bit 10 (R58). -/
def pswSM (psw : Word) : Bool := psw.getLsbD 10

/-! ### What flags are computed from (R303 to R330) -/

/-- Z: the 32-bit result is zero (R60). -/
def isZero (r : Word) : Bool := r == 0#32

/-- The carry out of bit 31 of `a + b + c` (R303, R304, R330). -/
def addCarry (a b : Word) (c : Bool) : Bool :=
  decide (2 ^ 32 ≤ a.toNat + b.toNat + c.toNat)

/-- The borrow of `a - b - c` (R305, R306, R330). -/
def subBorrow (a b : Word) (c : Bool) : Bool :=
  decide (a.toNat < b.toNat + c.toNat)

/-! ### Writing flags (R71) -/

/-- The flags an instruction writes, with their new values; `none` is a flag it does not write. -/
structure FlagWrites where
  c : Option Bool
  z : Option Bool
  f0 : Option Bool
  deriving DecidableEq, Repr

/-- One flag's contribution to a masked write: its bit if it is written and set. -/
def flagBit (f : Option Bool) (bit : Word) : Word :=
  match f with
  | some true => bit
  | some false => 0#32
  | none => 0#32

/-- One flag's contribution to the mask: its bit if it is written. -/
def flagMask (f : Option Bool) (bit : Word) : Word :=
  match f with
  | some _ => bit
  | none => 0#32

/-- The one masked entry on the PSW that writes exactly the named flags (R71). -/
def flagsEntry (f : FlagWrites) : WbEntry :=
  .reg (.cr .psw)
    (flagBit f.c 1#32 ||| flagBit f.z 2#32 ||| flagBit f.f0 4#32)
    (flagMask f.c 1#32 ||| flagMask f.z 2#32 ||| flagMask f.f0 4#32)

/-- Flags of an add or subtract: C and Z (R303 to R306). -/
def flagsCZ (c : Bool) (r : Word) : FlagWrites := ⟨some c, some (isZero r), none⟩

/-- Flags of a logic, shift or multiply: Z alone (R307 to R313). -/
def flagsZ (r : Word) : FlagWrites := ⟨none, some (isZero r), none⟩

/-- Flags of a compare: F0 alone (R314 to R316). -/
def flagsF0 (b : Bool) : FlagWrites := ⟨none, none, some b⟩

end Sys2Proof.Machine
end

