-- ==== Sys2Proof/Machine/Devices.lean ====
section
/-! DEFINITION. The device registers and what reading and writing them does (R126, R138, R541 to R545,
R556 to R559), the interrupt level (R545), the event queue (R550, R551) and the callbacks it drains
(R552, R556 to R558). -/

namespace Sys2Proof.Machine

/-! ### Addresses (R126, R138) -/

/-- The device register at a physical address: the list of R138. -/
def devRegAt (c : Config) (pa : Word) : Option DevReg :=
  match pa.toNat with
  | 0xF0000100 => some .icPending
  | 0xF0000104 => some .icMask
  | 0xF0000108 => some .icLatched
  | 0xF000010C => some .icControl
  | 0xF0000110 => some .icLevel
  | 0xF0000200 => some .tmrCtrl
  | 0xF0000204 => some .tmrPeriod
  | 0xF0000208 => some .tmrStatus
  | 0xF000020C => some .tmrNow
  | 0xF0000210 => some .tmrNowh
  | 0xF0000300 => some .uartTxdata
  | 0xF0000304 => some .uartStatus
  | 0xF0000308 => some .uartCtrl
  | 0xF0000400 => some .wdtCtrl
  | 0xF0000404 => some .wdtReload
  | 0xF0000408 => some .wdtKick
  | 0xF000040C => some .wdtStatus
  | a =>
    if 0xF0000000 ≤ a ∧ a < 0xF0000000 + 4 * c.nmap ∧ a % 4 = 0 then
      some (.map ((a - 0xF0000000) / 4))
    else none

/-! ### The interrupt controller (R541 to R545) -/

/-- Level `L`'s bit, for `1 <= L <= NLEVELS`; any other level has none (R10, R541). -/
def levelBit (c : Config) (l : Nat) : Word :=
  if 1 ≤ l ∧ l ≤ c.nlevels then 1#32 <<< l else 0#32

/-- `assert_interrupt(L)` (R541). -/
def Devices.assertInterrupt (d : Devices) (c : Config) (l : Nat) : Devices :=
  { d with icPending := d.icPending ||| levelBit c l }

/-- `clear_interrupt(L)` (R541). -/
def Devices.clearInterrupt (d : Devices) (c : Config) (l : Nat) : Devices :=
  { d with icPending := d.icPending &&& ~~~ levelBit c l }

/-- Delivery of level `L` acknowledges it: its pending and latched bits are cleared (R540). -/
def Devices.acknowledge (d : Devices) (c : Config) (l : Nat) : Devices :=
  { d with icPending := d.icPending &&& ~~~ levelBit c l
           icLatched := d.icLatched &&& ~~~ levelBit c l }

/-- The largest `L <= n` with bit `L` set, or 0 (R545). -/
def highestLevel (w : Word) : Nat → Nat
  | 0 => 0
  | n + 1 => if w.getLsbD (n + 1) then n + 1 else highestLevel w n

/-- `IC_LEVEL` (R545): 0 when the controller is off (R544), else the largest requested level that is
not masked. -/
def State.icLevel (s : State) : Nat :=
  if s.dev.icControl.getLsbD 0 then
    highestLevel ((s.dev.icPending ||| s.dev.icLatched) &&& ~~~ s.dev.icMask) s.cfg.nlevels
  else 0

/-! ### Reading (R143, R556 to R559) -/

/-- A device read: the register's current value, with no side effect (R143). `TMR_NOW` and `TMR_NOWH`
show the issue time (R556); write-only registers read 0 (R557, R558). -/
def State.devRead (s : State) : DevReg → Word
  | .map k => s.dev.maps.getD k 0#32
  | .icPending => s.dev.icPending
  | .icMask => s.dev.icMask
  | .icLatched => s.dev.icLatched
  | .icControl => s.dev.icControl
  | .icLevel => BitVec.ofNat 32 s.icLevel
  | .tmrCtrl => s.dev.tmrCtrl
  | .tmrPeriod => s.dev.tmrPeriod
  | .tmrStatus => s.dev.tmrStatus
  | .tmrNow => s.time.extractLsb' 0 32
  | .tmrNowh => s.time.extractLsb' 32 32
  | .uartTxdata => 0#32
  | .uartStatus => s.dev.uartStatus
  | .uartCtrl => s.dev.uartCtrl
  | .wdtCtrl => s.dev.wdtCtrl
  | .wdtReload => s.dev.wdtReload
  | .wdtKick => 0#32
  | .wdtStatus => s.dev.wdtStatus

/-! ### The event queue (R550, R551) -/

/-- `t + n` ticks, in 64 bits. Where the sum does not fit, the spec states no result but that time does not decrease and
that an event is not scheduled before `now` (R550, R554): a free value not below `t` (assumption 7). -/
def addTicks (t : Ticks) (n : Nat) : Ticks :=
  if t.toNat + n < 2 ^ 64 then BitVec.ofNat 64 (t.toNat + n)
  else if t ≤ Config.lateTime (t.toNat + n) then Config.lateTime (t.toNat + n)
  else t

/-- Insert an event after every entry with a smaller or equal fire time (R551). -/
def insertEvent (e : Event) : List Event → List Event
  | [] => [e]
  | f :: rest => if f.fireTime ≤ e.fireTime then f :: insertEvent e rest else e :: f :: rest

/-- `schedule(now, delay, callback, arg)` (R551). -/
def State.schedule (s : State) (now : Ticks) (delay : Nat) (cb : Callback) : State :=
  { s with events := insertEvent ⟨addTicks now delay, s.seq, cb⟩ s.events
           seq := s.seq + 1 }

/-! ### Writing (R141, R541 to R544, R556 to R559) -/

/-- Write `TMR_CTRL` (R556). -/
def State.writeTmrCtrl (s : State) (v : Word) (now : Ticks) : State :=
  let ctrl := v &&& 0x000000F3#32
  let gen := s.dev.tgen + 1
  if ctrl.getLsbD 0 then
    if s.dev.tmrPeriod = 0#32 then
      { s with dev := { s.dev with tmrCtrl := ctrl &&& ~~~ 1#32, tgen := gen } }
    else
      { s with dev := { s.dev with tmrCtrl := ctrl, tgen := gen } }.schedule
        now s.dev.tmrPeriod.toNat (.timerExpire gen)
  else { s with dev := { s.dev with tmrCtrl := ctrl, tgen := gen } }

/-- Write `UART_TXDATA` (R557): a byte written while a transmit is in progress is dropped. -/
def State.writeUartTxdata (s : State) (v : Word) (now : Ticks) : State :=
  if s.dev.uartStatus.getLsbD 0 then
    { s with dev := { s.dev with uartStatus := s.dev.uartStatus ||| 2#32 } }
  else
    { s with dev := { s.dev with uartStatus := s.dev.uartStatus ||| 1#32 } }.schedule
      now s.cfg.uartTxTicks (.txDone (v.extractLsb' 0 8))

/-- `Rearm(now)` of the watchdog (R558). -/
def State.rearmWdt (s : State) (now : Ticks) : State :=
  let gen := s.dev.wgen + 1
  if s.dev.wdtCtrl.getLsbD 0 ∧ 1 ≤ s.dev.wdtReload.toNat then
    { s with dev := { s.dev with wgen := gen } }.schedule now s.dev.wdtReload.toNat (.wdtExpire gen)
  else { s with dev := { s.dev with wgen := gen } }

/-- A device register's write function, run at commit with the issue time as `now` (R141, R551). Reserved
bits are masked, "write 1 to clear" bits are cleared by a 1, and a read-only register ignores the
write (R559). -/
def State.devWrite (s : State) (r : DevReg) (v : Word) (now : Ticks) : State :=
  match r with
  | .map k => { s with dev := { s.dev with maps := s.dev.maps.set k (v &&& 0xC000FFFF#32) } }
  | .icPending => { s with dev := { s.dev with icPending := s.dev.icPending &&& ~~~ v } }
  | .icMask => { s with dev := { s.dev with icMask := v &&& levelMask s.cfg } }
  | .icLatched => { s with dev := { s.dev with icLatched := v &&& levelMask s.cfg } }
  | .icControl => { s with dev := { s.dev with icControl := v &&& 1#32 } }
  | .icLevel => s
  | .tmrCtrl => s.writeTmrCtrl v now
  | .tmrPeriod => { s with dev := { s.dev with tmrPeriod := v } }
  | .tmrStatus => { s with dev := { s.dev with tmrStatus := s.dev.tmrStatus &&& ~~~ (v &&& 1#32) } }
  | .tmrNow => s
  | .tmrNowh => s
  | .uartTxdata => s.writeUartTxdata v now
  | .uartStatus => { s with dev := { s.dev with uartStatus := s.dev.uartStatus &&& ~~~ (v &&& 2#32) } }
  | .uartCtrl => { s with dev := { s.dev with uartCtrl := v &&& 0x000000F1#32 } }
  | .wdtCtrl => { s with dev := { s.dev with wdtCtrl := v &&& 1#32 } }.rearmWdt now
  | .wdtReload => { s with dev := { s.dev with wdtReload := v } }
  | .wdtKick => s.rearmWdt now
  | .wdtStatus => { s with dev := { s.dev with wdtStatus := s.dev.wdtStatus &&& ~~~ (v &&& 1#32) } }

/-! ### The callbacks (R556 to R558) -/

/-- Bits 7:4 of a control register: the level a device asserts (R556, R557). -/
def levelField (ctrl : Word) : Nat := (ctrl.extractLsb' 4 4).toNat

/-- `TimerExpire(g, now)` (R556). -/
def State.timerExpire (s : State) (g : Nat) (now : Ticks) : State :=
  if g = s.dev.tgen ∧ s.dev.tmrCtrl.getLsbD 0 then
    let d := { s.dev with tmrStatus := s.dev.tmrStatus ||| 1#32 }
    let d := if levelField d.tmrCtrl ≠ 0 then d.assertInterrupt s.cfg (levelField d.tmrCtrl) else d
    if d.tmrCtrl.getLsbD 1 then
      { s with dev := d }.schedule now d.tmrPeriod.toNat (.timerExpire d.tgen)
    else { s with dev := { d with tmrCtrl := d.tmrCtrl &&& ~~~ 1#32 } }
  else s

/-- `TxDone(b, now)` (R557). `host.print` answers nothing (R481). -/
def State.txDone (s : State) (b : Byte) : State :=
  let d := { s.dev with uartStatus := s.dev.uartStatus &&& ~~~ 1#32 }
  let d :=
    if d.uartCtrl.getLsbD 0 ∧ levelField d.uartCtrl ≠ 0 then
      d.assertInterrupt s.cfg (levelField d.uartCtrl)
    else d
  { s with host := { s.host with calls := s.host.calls ++ [.print [b]] }
           dev := d }

/-- `WdtExpire(g, now)` (R558). -/
def State.wdtExpire (s : State) (g : Nat) : State :=
  if g = s.dev.wgen ∧ s.dev.wdtCtrl.getLsbD 0 then
    { s with dev :=
        { s.dev with wdtStatus := s.dev.wdtStatus ||| 1#32 }.assertInterrupt s.cfg s.cfg.wdtLevel }
  else s

/-- Run an event's callback with `now` its fire time (R552). An event of an older generation is a
no-op (R555). -/
def State.fire (s : State) (e : Event) : State :=
  match e.callback with
  | .timerExpire g => s.timerExpire g e.fireTime
  | .txDone b => s.txDone b
  | .wdtExpire g => s.wdtExpire g

/-! ### Draining (R552) -/

/-- Some event is due at `upto`. -/
def eventDue (upto : Ticks) : List Event → Bool
  | [] => false
  | e :: _ => decide (e.fireTime ≤ upto)

/-- How many firings a drain up to the time `upto` can take: each entry, and each reload of it, counts at most
the ticks from its fire time to `upto`. A drain that needs more never ends (R551, R552, R556). -/
def drainBound (upto : Ticks) : List Event → Nat
  | [] => 0
  | e :: rest => (upto.toNat + 1 - e.fireTime.toNat) + drainBound upto rest

/-- Pop and fire the due events in order, at most `fuel` of them; `none` when some are still due after
that. -/
def State.drain (upto : Ticks) : Nat → State → Option State
  | 0, s => if eventDue upto s.events then none else some s
  | fuel + 1, s =>
    match s.events with
    | [] => some s
    | e :: rest =>
      if e.fireTime ≤ upto then State.drain upto fuel ({ s with events := rest }.fire e)
      else some s

/-- `Advance(to)` (R552); `none` when it never ends. -/
def State.advance (s : State) (upto : Ticks) : Option State :=
  State.drain upto (drainBound upto s.events) s

end Sys2Proof.Machine
end

