-- ==== Sys2Proof/Machine/Memory.lean ====
section
/-! DEFINITION. Physical memory (R121 to R124): a list of the bytes that differ from what an unlisted
address reads as, in one canonical form, and the reads and writes that keep it. -/

namespace Sys2Proof.Machine

/-- The physical address is a RAM byte (R122). -/
def inRam (c : Config) (a : Nat) : Bool := decide (a < c.ramSize)

/-- What an address nothing has written reads as: RAM by `RAM_INIT` (R123), ROM as `open` fills it,
zero (R608). -/
def Memory.unlisted (c : Config) (a : Nat) : Byte :=
  match c.ramInit with
  | .zero => 0#8
  | .arbitrary => if inRam c a then Config.ramByte a else 0#8

/-- The byte at a physical address. -/
def Memory.read (c : Config) : Memory → Nat → Byte
  | [], a => Memory.unlisted c a
  | (k, v) :: rest, a => if k = a then v else Memory.read c rest a

/-- Write the byte at a physical address, keeping the canonical form: a byte equal to what the unlisted
address reads as is not listed. -/
def Memory.write (c : Config) : Memory → Nat → Byte → Memory
  | [], a, b => if b = Memory.unlisted c a then [] else [(a, b)]
  | (k, v) :: rest, a, b =>
    if a < k then
      if b = Memory.unlisted c a then (k, v) :: rest else (a, b) :: (k, v) :: rest
    else if a = k then
      if b = Memory.unlisted c a then rest else (a, b) :: rest
    else (k, v) :: Memory.write c rest a b

/-- The first address listed lies above `a`. -/
def Memory.above (a : Nat) : Memory → Bool
  | [] => true
  | (k, _) :: _ => decide (a < k)

/-- The canonical form: addresses strictly rising, and no entry equal to what its address reads as
unlisted. -/
def Memory.wf (c : Config) : Memory → Bool
  | [] => true
  | (k, v) :: rest =>
    decide (v ≠ Memory.unlisted c k) && Memory.above k rest && Memory.wf c rest

/-- The `n` bytes at increasing physical addresses. -/
def Memory.readBytes (c : Config) (m : Memory) : Nat → Nat → List Byte
  | _, 0 => []
  | pa, n + 1 => Memory.read c m pa :: Memory.readBytes c m (pa + 1) n

/-- Write bytes at increasing physical addresses. -/
def Memory.writeBytes (c : Config) : Memory → Nat → List Byte → Memory
  | m, _, [] => m
  | m, pa, b :: bs => Memory.writeBytes c (Memory.write c m pa b) (pa + 1) bs

end Sys2Proof.Machine
end

