-- ==== Sys2Proof/Machine/Operands.lean ====
section
/-! DEFINITION. Every operand form: how an encoded immediate, amount, displacement or address becomes a
word (R205, R350, R379). -/

namespace Sys2Proof.Machine

/-- `simm6` (R205). -/
def simm6 (imm : BitVec 6) : Word := imm.signExtend 32

/-- `simm16` (R205). -/
def simm16 (imm : BitVec 16) : Word := imm.signExtend 32

/-- `uimm16` (R205). -/
def uimm16 (imm : BitVec 16) : Word := imm.zeroExtend 32

/-- `uimm5`, a shift amount 0..31 (R205, R319). -/
def uimm5 (sh : BitVec 5) : Nat := sh.toNat

/-- A register shift's amount: the low five bits (R311). -/
def shiftAmount (v : Word) : Nat := (v.extractLsb' 0 5).toNat

/-- `disp10`, a byte offset (R205). -/
def disp10 (d : BitVec 10) : Word := (d.signExtend 32) <<< 2

/-- `disp16`, a byte offset (R205). -/
def disp16 (d : BitVec 16) : Word := (d.signExtend 32) <<< 2

/-- The effective address of base plus displacement (R350). -/
def dispAddress (base : Word) (imm : BitVec 16) : Word := base + simm16 imm

/-- `LDIH`'s result: the immediate above the low half kept (R325). -/
def highHalf (imm : BitVec 16) (old : Word) : Word :=
  (uimm16 imm) <<< 16 ||| (old.extractLsb' 0 16).zeroExtend 32

/-- A byte, sign-extended (R351). -/
def signByte (v : Nat) : Word := (BitVec.ofNat 8 v).signExtend 32

/-- A byte, zero-extended (R352). -/
def zeroByte (v : Nat) : Word := (BitVec.ofNat 8 v).zeroExtend 32

/-- A halfword, sign-extended (R353). -/
def signHalf (v : Nat) : Word := (BitVec.ofNat 16 v).signExtend 32

/-- A halfword, zero-extended (R354). -/
def zeroHalf (v : Nat) : Word := (BitVec.ofNat 16 v).zeroExtend 32

/-- A whole word (R355). -/
def wholeWord (v : Nat) : Word := BitVec.ofNat 32 v

/-- Bits 63:32 of a doubleword, `x[ra]` of a pair (R356). -/
def upperWord (v : Nat) : Word := BitVec.ofNat 32 (v / 2 ^ 32)

/-- Bits 31:0 of a doubleword, `x[ra + 1]` of a pair (R356). -/
def lowerWord (v : Nat) : Word := BitVec.ofNat 32 v

/-- The doubleword of a pair, `x[ra] ++ x[ra + 1]` (R360). -/
def pairValue (hi lo : Word) : Nat := hi.toNat * 2 ^ 32 + lo.toNat

end Sys2Proof.Machine
end

