-- ==== Sys2Proof/Machine/Ops.lean ====
section
/-! DEFINITION. The named operations every meaning is written over: registers and banks (R14, R55), the
write-back queue (R70 to R73), translation, clipping and the checked accesses (R127 to R140, R147),
taking an exception or interrupt (R262, R528) and returning from one (R418, R530). -/

namespace Sys2Proof.Machine

/-- Run `f` on the state a result holds; a fault or a refusal stays. -/
def andThen (o : Result) (f : State → Result) : Result :=
  match o with
  | .next s => f s
  | .fault r => .fault r
  | .refused r => .refused r

/-! ### General registers (R14, R54, R55) -/

/-- The physical register a field names under the bank bit `rb` (R55). -/
def phys (rb : Bool) (i : RegNum) : PReg :=
  if h : i.toNat < 8 then
    if rb then ⟨8 + i.toNat, by omega⟩ else ⟨i.toNat, by omega⟩
  else ⟨8 + i.toNat, by have := i.isLt; omega⟩

/-- `phys(i)` through the effective bank (R55, R74). -/
def State.physReg (s : State) (i : RegNum) : PReg := phys s.unit.effRB i

/-- A physical register's committed value. -/
def State.readPhys (s : State) (p : PReg) : Word := s.regs[p.val]

/-- `x[i]`: the committed value of the register the effective bank names (R14). -/
def State.readReg (s : State) (i : RegNum) : Word := s.readPhys (s.physReg i)

/-! ### Control registers (R63, R64) -/

/-- `WMASK(n)` (R63). -/
def crMask : CReg → Word
  | .psw => 0x00000707#32
  | .bpsw => 0x00000707#32
  | .bpc => 0xFFFFFFFC#32
  | .evb => 0xFFFFFF80#32
  | .cause => 0x80000F1F#32
  | .badaddr => 0xFFFFFFFF#32
  | .supp => 0x00000000#32

/-- `CR[n]`: the committed value (R14). -/
def State.readCr (s : State) : CReg → Word
  | .psw => s.cr.psw
  | .bpsw => s.cr.bpsw
  | .bpc => s.cr.bpc
  | .evb => s.cr.evb
  | .cause => s.cr.cause
  | .badaddr => s.cr.badaddr
  | .supp => s.cr.supp

/-- Put a value into a control register's storage. -/
def CRegs.set (r : CRegs) (n : CReg) (v : Word) : CRegs :=
  match n with
  | .psw => { r with psw := v }
  | .bpsw => { r with bpsw := v }
  | .bpc => { r with bpc := v }
  | .evb => { r with evb := v }
  | .cause => { r with cause := v }
  | .badaddr => { r with badaddr := v }
  | .supp => { r with supp := v }

/-- A masked write: only the bits of `mask` change (R64, R72). -/
def maskedWrite (old v mask : Word) : Word := (old &&& ~~~ mask) ||| (v &&& mask)

/-- An immediate write of a control register through its writable mask (R64, R79). -/
def State.writeCr (s : State) (n : CReg) (v : Word) : State :=
  { s with cr := s.cr.set n (maskedWrite (s.readCr n) v (crMask n)) }

/-! ### Pushing onto the write-back queue (R14, R70, R71) -/

/-- Push a deferred entry (R70). -/
def State.push (s : State) (e : WbEntry) : State :=
  { s with unit := { s.unit with queue := s.unit.queue ++ [e] } }

/-- `x[i] <- v` (R14). -/
def State.pushReg (s : State) (i : RegNum) (v : Word) : State :=
  s.push (.reg (.gpr (s.physReg i)) v 0xFFFFFFFF#32)

/-- `CR[n] <- v` (R14, R64). -/
def State.pushCr (s : State) (n : CReg) (v : Word) : State :=
  s.push (.reg (.cr n) v (crMask n))

/-- `flags <- ...` (R14, R71). -/
def State.pushFlags (s : State) (f : FlagWrites) : State :=
  s.push (flagsEntry f)

/-- `pc <- t`: record the unit's next PC (R14, R256). -/
def State.setNpc (s : State) (t : Word) : State :=
  { s with unit := { s.unit with npc := some t } }

/-- `req <- r` (R265). -/
def State.setReq (s : State) (r : Request) : State :=
  { s with unit := { s.unit with req := some r } }

/-- Set the effective view at once (R74). -/
def State.setEff (s : State) (rb sm : Bool) : State :=
  { s with unit := { s.unit with effRB := rb, effSM := sm } }

/-- Count a completed data access (R250, `acc`). -/
def State.countAccess (s : State) : State :=
  { s with unit := { s.unit with acc := s.unit.acc + 1 } }

/-- `stop(reason)` (R16, R266). -/
def State.stopRun (s : State) (r : StopReason) : State :=
  { s with run := .stopped (some r) }

/-! ### Commit and discard (R72, R73, R259) -/

/-- Apply one entry (R72); a device's write function sees the unit's issue time as `now` (R551). -/
def State.applyEntry (s : State) : WbEntry → State
  | .reg (.gpr p) v m => { s with regs := s.regs.set p.val (maskedWrite (s.readPhys p) v m) }
  | .reg (.cr n) v m => { s with cr := s.cr.set n (maskedWrite (s.readCr n) v m) }
  | .mem pa bytes => { s with mem := Memory.writeBytes s.cfg s.mem pa bytes }
  | .dev r v => s.devWrite r v s.time

/-- Apply entries in FIFO order, each once (R72). -/
def applyEntries : List WbEntry → State → State
  | [], s => s
  | e :: rest, s => applyEntries rest (s.applyEntry e)

/-- Empty the queue. -/
def State.clearQueue (s : State) : State :=
  { s with unit := { s.unit with queue := [] } }

/-- Set the effective view from the committed PSW (R75). -/
def State.refreshEff (s : State) : State :=
  s.setEff (pswRB s.cr.psw) (pswSM s.cr.psw)

/-- `Commit(Q)`, then the effective view again (R72, R75, R250). -/
def State.commit (s : State) : State :=
  (applyEntries s.unit.queue s).clearQueue.refreshEff

/-- `Discard(Q)`, then the effective view again (R73, R75). -/
def State.discard (s : State) : State := s.clearQueue.refreshEff

/-! ### Translation (R125 to R130) -/

/-- The kind of an access (R127). -/
inductive AccessKind
  | fetch | read | write
  deriving DecidableEq, Repr, Inhabited

/-- Why an access faults (R131, R132). -/
inductive MemFault
  | alignment | segmentation | bus
  deriving DecidableEq, Repr, Inhabited

/-- The segment selector `va[31:28]` (R125). -/
def segOf (va : Word) : BitVec 4 := va.extractLsb' 28 4

/-- `BLOCK` (R10). -/
def blockSize (c : Config) : Nat := 2 ^ c.blockBits

/-- `translate(va, len, kind, sm)`: the physical address and the clipped length, or a fault (R127,
R128). -/
def translate (c : Config) (maps : List Word) (va : Word) (len : Nat) (kind : AccessKind) (sm : Bool) :
    Except MemFault (Word × Nat) :=
  let off := va.toNat % blockSize c
  let clen := min len (blockSize c - off)
  if segOf va = 0x0#4 then .ok (va, clen)
  else if segOf va = 0x1#4 then
    let k := (va.extractLsb' 0 28).toNat / blockSize c
    if c.nmap ≤ k then .error .segmentation
    else
      let m := maps.getD k 0#32
      if !m.getLsbD 31 then .error .segmentation
      else if kind = .write ∧ m.getLsbD 30 then .error .segmentation
      else .ok ((((m.extractLsb' 0 16).zeroExtend 32) <<< c.blockBits) ||| BitVec.ofNat 32 off, clen)
  else if segOf va = 0xF#4 then
    if !sm then .error .segmentation
    else if kind = .fetch then .error .bus
    else .ok (va, clen)
  else .error .segmentation

/-- What backs a checked chunk: bytes, or a device register. -/
inductive Backing
  | bytes
  | device (r : DevReg)
  deriving DecidableEq, Repr, Inhabited

/-- The bytes `pa .. pa+c-1` lie in RAM (R130). -/
def chunkInRam (c : Config) (pa len : Nat) : Bool := decide (pa + len ≤ c.ramSize)

/-- The bytes `pa .. pa+c-1` lie in ROM (R130). -/
def chunkInRom (c : Config) (pa len : Nat) : Bool :=
  decide (c.romBase ≤ pa ∧ pa + len ≤ c.romBase + c.romSize)

/-- `phys_check(a, pa, c, kind)` (R130), for an access `width` bytes wide in all. A device access is 4
bytes wide, 4-byte aligned and names a listed register (R138). -/
def physCheck (c : Config) (a pa : Word) (len width : Nat) (kind : AccessKind) :
    Except MemFault Backing :=
  if segOf a = 0xF#4 then
    if width = 4 ∧ len = 4 then
      match devRegAt c pa with
      | some r => .ok (.device r)
      | none => .error .bus
    else .error .bus
  else if chunkInRam c pa.toNat len then .ok .bytes
  else if chunkInRom c pa.toNat len then
    if kind = .write then .error .bus else .ok .bytes
  else .error .bus

/-- A checked chunk of an access (R129). -/
structure Chunk where
  va : Word
  pa : Word
  len : Nat
  backing : Backing
  deriving DecidableEq, Repr

/-- `chunks` (R129) from `va` for `rem` bytes more. Every chunk has at least one byte, so `fuel = rem`
is enough. -/
def chunksFrom (c : Config) (maps : List Word) (kind : AccessKind) (sm : Bool) (width : Nat) :
    Nat → Word → Nat → Except MemFault (List Chunk)
  | 0, _, _ => .ok []
  | fuel + 1, a, rem =>
    if rem = 0 then .ok []
    else
      match translate c maps a rem kind sm with
      | .error e => .error e
      | .ok (pa, n) =>
        match physCheck c a pa n width kind with
        | .error e => .error e
        | .ok b =>
          match chunksFrom c maps kind sm width fuel (a + BitVec.ofNat 32 n) (rem - n) with
          | .error e => .error e
          | .ok rest => .ok (⟨a, pa, n, b⟩ :: rest)

/-- `chunks(va, n, kind, sm)` on the committed `MAP` registers (R129, R152). -/
def State.chunks (s : State) (va : Word) (n : Nat) (kind : AccessKind) (sm : Bool) :
    Except MemFault (List Chunk) :=
  chunksFrom s.cfg s.dev.maps kind sm n n va n

/-- The committed bytes of chunks, in order (R139). -/
def State.chunkBytes (s : State) : List Chunk → List Byte
  | [] => []
  | k :: rest => Memory.readBytes s.cfg s.mem k.pa.toNat k.len ++ s.chunkBytes rest

/-- The entries that write bytes to chunks, one each, in order (R140). -/
def chunkEntries : List Chunk → List Byte → List WbEntry
  | [], _ => []
  | k :: rest, bs => .mem k.pa.toNat (bs.take k.len) :: chunkEntries rest (bs.drop k.len)

/-- Write bytes to chunks at once (R458, R603). -/
def writeChunks (c : Config) : List Chunk → List Byte → Memory → Memory
  | [], _, m => m
  | k :: rest, bs, m =>
    writeChunks c rest (bs.drop k.len) (Memory.writeBytes c m k.pa.toNat (bs.take k.len))

/-! ### Data accesses (R136, R139, R140, R141) -/

/-- The access is misaligned and the configuration forbids that (R136). -/
def State.misaligned (s : State) (va : Word) (n : Nat) : Bool :=
  s.cfg.strictAlign && decide (va.toNat % n ≠ 0)

/-- The value a checked read gives: a device register's (R143), or the bytes in the target's byte
order (R134). -/
def State.valueOf (s : State) : List Chunk → Nat
  | ⟨_, _, _, .device r⟩ :: _ => (s.devRead r).toNat
  | cs => assemble s.cfg.endian (s.chunkBytes cs)

/-- `MemRead(va, n)` (R139). -/
def State.memRead (s : State) (va : Word) (n : Nat) : Except MemFault Nat :=
  if s.misaligned va n then .error .alignment
  else
    match s.chunks va n .read s.unit.effSM with
    | .error e => .error e
    | .ok cs => .ok (s.valueOf cs)

/-- The entries a checked write of `v` pushes: a device write (R141), or one memory entry per chunk
(R140). -/
def writeEntries (e : Endian) (n v : Nat) : List Chunk → List WbEntry
  | ⟨_, _, _, .device r⟩ :: _ => [.dev r (BitVec.ofNat 32 v)]
  | cs => chunkEntries cs (disassemble e n v)

/-- `MemWrite(va, n, v)`: the entries it pushes, or its fault (R140). -/
def State.memWrite (s : State) (va : Word) (n v : Nat) : Except MemFault (List WbEntry) :=
  if s.misaligned va n then .error .alignment
  else
    match s.chunks va n .write s.unit.effSM with
    | .error e => .error e
    | .ok cs => .ok (writeEntries s.cfg.endian n v cs)

/-- Push entries in order. -/
def State.pushAll (s : State) (es : List WbEntry) : State :=
  { s with unit := { s.unit with queue := s.unit.queue ++ es } }

/-- `Fetch(pc)`: 4 bytes with the committed `PSW.SM` (R147, R251); `none` is a fetch fault. -/
def State.fetch (s : State) : Option Word :=
  if s.pc.toNat % 4 ≠ 0 then none
  else
    match s.chunks s.pc 4 .fetch (pswSM s.cr.psw) with
    | .error _ => none
    | .ok cs => some (BitVec.ofNat 32 (assemble s.cfg.endian (s.chunkBytes cs)))

/-! ### Taking an exception or an interrupt (R262, R520, R525, R528) -/

/-- The synchronous exceptions (R520). -/
inductive Exc
  | illegalInstruction
  | busFault
  | segmentationFault
  | alignmentFault
  | softwareTrap (n : BitVec 4)
  deriving DecidableEq, Repr, Inhabited

/-- The exception's code (R520). -/
def Exc.code : Exc → Nat
  | .illegalInstruction => 1
  | .busFault => 2
  | .segmentationFault => 3
  | .alignmentFault => 4
  | .softwareTrap _ => 5

/-- The trap number of a software trap, else 0 (R68). -/
def Exc.trapNo : Exc → BitVec 4
  | .softwareTrap n => n
  | .illegalInstruction | .busFault | .segmentationFault | .alignmentFault => 0#4

/-- The signal a run stops with where the exception is not vectored (R266). A software trap is not raised there
(R526). -/
def Exc.signal : Exc → Signal
  | .illegalInstruction => .sigill
  | .busFault => .sigbus
  | .segmentationFault => .sigsegv
  | .alignmentFault => .sigbus
  | .softwareTrap _ => .sigtrap

/-- The exception a faulting data access raises (R132, R350). -/
def excOf : MemFault → Exc
  | .alignment => .alignmentFault
  | .segmentation => .segmentationFault
  | .bus => .busFault

/-- What trap entry is for (R528). -/
inductive TrapKind
  | exception (e : Exc) (badaddr : Word)
  | interrupt (level : Nat)
  deriving DecidableEq, Repr, Inhabited

/-- The vector's number (R525). -/
def TrapKind.vector : TrapKind → Nat
  | .exception e _ => e.code
  | .interrupt l => 16 + l

/-- What CAUSE records (R68, R528). -/
def TrapKind.cause : TrapKind → Word
  | .exception e _ => (e.trapNo.zeroExtend 32) <<< 8 ||| BitVec.ofNat 32 e.code
  | .interrupt l => 0x80000000#32 ||| BitVec.ofNat 32 l

/-- What BADADDR becomes: the recorded word, or its old value for an interrupt (R69, R528). -/
def TrapKind.badaddr (k : TrapKind) (old : Word) : Word :=
  match k with
  | .exception _ b => b
  | .interrupt _ => old

/-- The PSW of a handler: IE = 0, RB = 1, SM = 1, the flags kept (R528). -/
def handlerPsw (psw : Word) : Word := (psw &&& 0x00000007#32) ||| 0x00000600#32

/-- The handler's address: the word at `EVB + 4*v`, read in supervisor mode; `none` when that read
faults, a device address included (R525, R528). -/
def State.readVector (s : State) (v : Nat) : Option Word :=
  let va := s.cr.evb + BitVec.ofNat 32 (4 * v)
  if segOf va = 0xF#4 then none
  else
    match s.chunks va 4 .read true with
    | .error _ => none
    | .ok cs => some (BitVec.ofNat 32 (assemble s.cfg.endian (s.chunkBytes cs)))

/-- The control registers trap entry leaves, each written through its mask (R64, R528). -/
def trapCr (s : State) (k : TrapKind) (ret : Word) : CRegs :=
  { s.cr with
    psw := maskedWrite s.cr.psw (handlerPsw s.cr.psw) (crMask .psw)
    bpsw := maskedWrite s.cr.bpsw s.cr.psw (crMask .bpsw)
    bpc := maskedWrite s.cr.bpc ret (crMask .bpc)
    cause := maskedWrite s.cr.cause k.cause (crMask .cause)
    badaddr := maskedWrite s.cr.badaddr (k.badaddr s.cr.badaddr) (crMask .badaddr) }

/-- `TrapEntry(kind, info, ret)` (R528): one operation for exceptions and interrupts. When the vector
cannot be read, nothing of the entry is written and the run stops. -/
def State.trapEntry (s : State) (k : TrapKind) (ret : Word) : State :=
  match s.readVector k.vector with
  | none => s.stopRun (.signalled .sigbus)
  | some h =>
    { s with cr := trapCr s k ret
             unit := { s.unit with effRB := true, effSM := true }
             pc := h
             waiting := false }

/-- Mark the unit as having raised: nothing more of it executes (R262). -/
def State.markRaised (s : State) : State :=
  { s with unit := { s.unit with raised := true } }

/-- `Exception(E, info, ret)` up to the trap entry (R262, R526): the queue is discarded, then the run stops or the
handler is entered. The tick and the boundary that follow belong to the unit. -/
def State.takeException (s : State) (e : Exc) (badaddr ret : Word) : State :=
  let d := s.discard.markRaised
  if d.cfg.hasFaultVector then d.trapEntry (.exception e badaddr) ret
  else d.stopRun (.signalled e.signal)

/-- `raise IllegalInstruction(w)`, returning to the unit itself (R269, R520). -/
def State.raiseIllegal (s : State) : State :=
  s.takeException .illegalInstruction s.unit.word s.pc

/-- Raise the fault of a data access at `ea`, returning to the unit itself (R350, R520). -/
def State.raiseAccess (s : State) (f : MemFault) (ea : Word) : State :=
  s.takeException (excOf f) ea s.pc

/-- The return from a trap: PSW from BPSW, masked, and the PC from BPC (R418, R530). -/
def State.returnFromTrap (s : State) : State :=
  (s.pushCr .psw s.cr.bpsw).setNpc s.cr.bpc

/-- The run is going on. -/
def State.isRunning (s : State) : Bool := s.run == .running

/-- `InterruptCheck()` (R540): enter the handler of the highest unmasked level when IE is 1, and acknowledge that
level unless the entry stopped the run. -/
def State.interruptCheck (s : State) : State :=
  let l := s.icLevel
  if pswIE s.cr.psw ∧ l ≠ 0 then
    let t := s.trapEntry (.interrupt l) s.pc
    if t.isRunning then { t with dev := t.dev.acknowledge s.cfg l } else t
  else s

/-- In user mode, raise IllegalInstruction; in supervisor mode, do `f` (R269, R561). -/
def State.privileged (s : State) (f : State → State) : State :=
  if s.unit.effSM then f s else s.raiseIllegal

end Sys2Proof.Machine
end

