-- ==== Sys2Proof/Machine/Alu.lean ====
section
/-! DEFINITION. The register and ALU instructions (41_alu.md). Operands are read from the committed
state; results and flags are pushed onto the write-back queue. None of them raises. -/

namespace Sys2Proof.Machine

/-- Push a result and the flags it comes with, in that order. -/
def State.pushResult (s : State) (ra : RegNum) (r : Word) (f : FlagWrites) : State :=
  (s.pushReg ra r).pushFlags f

/-- Push a result with Z alone (R301, R307 to R313). -/
def State.pushZ (s : State) (ra : RegNum) (r : Word) : State :=
  s.pushResult ra r (flagsZ r)

/-- Push the sum `a + b + c` with its carry and Z (R303, R304, R317, R326). -/
def State.pushSum (s : State) (ra : RegNum) (a b : Word) (c : Bool) : State :=
  s.pushResult ra (a + b + boolWord c) (flagsCZ (addCarry a b c) (a + b + boolWord c))

/-- Push the difference `a - b - c` with its borrow and Z (R302, R305, R306). -/
def State.pushDiff (s : State) (ra : RegNum) (a b : Word) (c : Bool) : State :=
  s.pushResult ra (a - b - boolWord c) (flagsCZ (subBorrow a b c) (a - b - boolWord c))

/-- `MV` (R300). -/
def execMv (ra rb : RegNum) (s : State) : Result :=
  .next (s.pushReg ra (s.readReg rb))

/-- `NOT` (R301). -/
def execNot (ra rb : RegNum) (s : State) : Result :=
  .next (s.pushZ ra (~~~ s.readReg rb))

/-- `NEG` (R302): the borrow of `0 - b` is C. -/
def execNeg (ra rb : RegNum) (s : State) : Result :=
  .next (s.pushDiff ra 0#32 (s.readReg rb) false)

/-- `ADD` (R303). -/
def execAdd (ra rb : RegNum) (s : State) : Result :=
  .next (s.pushSum ra (s.readReg ra) (s.readReg rb) false)

/-- `ADDC` (R304): the committed C is the carry in. -/
def execAddc (ra rb : RegNum) (s : State) : Result :=
  .next (s.pushSum ra (s.readReg ra) (s.readReg rb) (pswC s.cr.psw))

/-- `SUB` (R305). -/
def execSub (ra rb : RegNum) (s : State) : Result :=
  .next (s.pushDiff ra (s.readReg ra) (s.readReg rb) false)

/-- `SUBB` (R306): the committed C is the borrow in. -/
def execSubb (ra rb : RegNum) (s : State) : Result :=
  .next (s.pushDiff ra (s.readReg ra) (s.readReg rb) (pswC s.cr.psw))

/-- `AND` (R307). -/
def execAnd (ra rb : RegNum) (s : State) : Result :=
  .next (s.pushZ ra (s.readReg ra &&& s.readReg rb))

/-- `OR` (R308). -/
def execOr (ra rb : RegNum) (s : State) : Result :=
  .next (s.pushZ ra (s.readReg ra ||| s.readReg rb))

/-- `XOR` (R309). -/
def execXor (ra rb : RegNum) (s : State) : Result :=
  .next (s.pushZ ra (s.readReg ra ^^^ s.readReg rb))

/-- `MUL`, the low word (R310). -/
def execMul (ra rb : RegNum) (s : State) : Result :=
  .next (s.pushZ ra (BitVec.ofNat 32 ((s.readReg ra).toNat * (s.readReg rb).toNat)))

/-- `SLL` (R311). -/
def execSll (ra rb : RegNum) (s : State) : Result :=
  .next (s.pushZ ra (s.readReg ra <<< shiftAmount (s.readReg rb)))

/-- `SRL` (R312). -/
def execSrl (ra rb : RegNum) (s : State) : Result :=
  .next (s.pushZ ra (s.readReg ra >>> shiftAmount (s.readReg rb)))

/-- `SRA` (R313). -/
def execSra (ra rb : RegNum) (s : State) : Result :=
  .next (s.pushZ ra ((s.readReg ra).sshiftRight (shiftAmount (s.readReg rb))))

/-- `CMPEQ` (R314). -/
def execCmpeq (ra rb : RegNum) (s : State) : Result :=
  .next (s.pushFlags (flagsF0 (s.readReg ra == s.readReg rb)))

/-- `CMPLT`, signed (R315). -/
def execCmplt (ra rb : RegNum) (s : State) : Result :=
  .next (s.pushFlags (flagsF0 ((s.readReg ra).slt (s.readReg rb))))

/-- `CMPLTU`, unsigned (R316). -/
def execCmpltu (ra rb : RegNum) (s : State) : Result :=
  .next (s.pushFlags (flagsF0 ((s.readReg ra).ult (s.readReg rb))))

/-- `ADDI` (R317). -/
def execAddi (ra : RegNum) (imm : BitVec 6) (s : State) : Result :=
  .next (s.pushSum ra (s.readReg ra) (simm6 imm) false)

/-- `LDI` (R318). -/
def execLdi (ra : RegNum) (imm : BitVec 6) (s : State) : Result :=
  .next (s.pushReg ra (simm6 imm))

/-- `SLLI` (R319). -/
def execSlli (ra : RegNum) (sh : BitVec 5) (s : State) : Result :=
  .next (s.pushZ ra (s.readReg ra <<< uimm5 sh))

/-- `SRLI` (R320). -/
def execSrli (ra : RegNum) (sh : BitVec 5) (s : State) : Result :=
  .next (s.pushZ ra (s.readReg ra >>> uimm5 sh))

/-- `SRAI` (R321). -/
def execSrai (ra : RegNum) (sh : BitVec 5) (s : State) : Result :=
  .next (s.pushZ ra ((s.readReg ra).sshiftRight (uimm5 sh)))

/-- `CMPEQI` (R322). -/
def execCmpeqi (ra : RegNum) (imm : BitVec 6) (s : State) : Result :=
  .next (s.pushFlags (flagsF0 (s.readReg ra == simm6 imm)))

/-- `CMPLTI`, signed (R323). -/
def execCmplti (ra : RegNum) (imm : BitVec 6) (s : State) : Result :=
  .next (s.pushFlags (flagsF0 ((s.readReg ra).slt (simm6 imm))))

/-- `LDIL` (R324). -/
def execLdil (ra : RegNum) (imm : BitVec 16) (s : State) : Result :=
  .next (s.pushReg ra (simm16 imm))

/-- `LDIH`: the low half of `ra` is kept (R325). -/
def execLdih (ra : RegNum) (imm : BitVec 16) (s : State) : Result :=
  .next (s.pushReg ra (highHalf imm (s.readReg ra)))

/-- `ADDIL` (R326). -/
def execAddil (ra rb : RegNum) (imm : BitVec 16) (s : State) : Result :=
  .next (s.pushSum ra (s.readReg rb) (simm16 imm) false)

/-- `ANDIL` (R327). -/
def execAndil (ra rb : RegNum) (imm : BitVec 16) (s : State) : Result :=
  .next (s.pushZ ra (s.readReg rb &&& uimm16 imm))

/-- `ORIL` (R328). -/
def execOril (ra rb : RegNum) (imm : BitVec 16) (s : State) : Result :=
  .next (s.pushZ ra (s.readReg rb ||| uimm16 imm))

/-- `XORIL` (R329). -/
def execXoril (ra rb : RegNum) (imm : BitVec 16) (s : State) : Result :=
  .next (s.pushZ ra (s.readReg rb ^^^ uimm16 imm))

end Sys2Proof.Machine
end

