-- ==== Sys2Proof/Machine/Control.lean ====
section
/-! DEFINITION. Branches, jumps and predicates (43_control.md). A taken transfer records the unit's next
PC; targets are relative to the address of the unit that holds the branch (R379). -/

namespace Sys2Proof.Machine

/-- A transfer to `pc + disp` (R379). -/
def State.branchBy (s : State) (disp : Word) : State := s.setNpc (s.pc + disp)

/-- A transfer to `pc + disp` when `cond` holds; not taken, it records nothing (R256, R381). -/
def State.branchIf (s : State) (cond : Bool) (disp : Word) : State :=
  if cond then s.branchBy disp else s

/-- Write the link register `r14` with `pc + 4` (R52, R379). -/
def State.link (s : State) : State := s.pushReg 14#4 (s.pc + 4#32)

/-- `BRA` (R380). -/
def execBra (d : BitVec 10) (s : State) : Result :=
  .next (s.branchBy (disp10 d))

/-- `BRT` (R381): the committed F0 decides. -/
def execBrt (d : BitVec 10) (s : State) : Result :=
  .next (s.branchIf (pswF0 s.cr.psw) (disp10 d))

/-- `BRF` (R382): the committed F0 decides. -/
def execBrf (d : BitVec 10) (s : State) : Result :=
  .next (s.branchIf (!pswF0 s.cr.psw) (disp10 d))

/-- `BL` (R383). -/
def execBl (d : BitVec 10) (s : State) : Result :=
  .next (s.link.branchBy (disp10 d))

/-- `BRA.L` (R386). -/
def execBraL (d : BitVec 16) (s : State) : Result :=
  .next (s.branchBy (disp16 d))

/-- `BRT.L` (R387): the committed F0 decides. -/
def execBrtL (d : BitVec 16) (s : State) : Result :=
  .next (s.branchIf (pswF0 s.cr.psw) (disp16 d))

/-- `BRF.L` (R388): the committed F0 decides. -/
def execBrfL (d : BitVec 16) (s : State) : Result :=
  .next (s.branchIf (!pswF0 s.cr.psw) (disp16 d))

/-- `BL.L` (R389). -/
def execBlL (d : BitVec 16) (s : State) : Result :=
  .next (s.link.branchBy (disp16 d))

/-- `JMP` (R384). -/
def execJmp (rb : RegNum) (s : State) : Result :=
  .next (s.setNpc (s.readReg rb))

/-- `JL` (R385): the target is the old value of `rb`, `r14` included. -/
def execJl (rb : RegNum) (s : State) : Result :=
  .next (s.link.setNpc (s.readReg rb))

/-- `EXET` (R391): no effect of its own; gating its partner is `gateOpen`, part of the unit (R255). -/
def execExet (s : State) : Result :=
  .next s

/-- `EXEF` (R392): no effect of its own; gating its partner is `gateOpen`, part of the unit (R255). -/
def execExef (s : State) : Result :=
  .next s

/-- `EXECT` (R393): no effect of its own; gating its partner is `gateOpen`, part of the unit (R255). -/
def execExect (s : State) : Result :=
  .next s

/-- `EXECF` (R394): no effect of its own; gating its partner is `gateOpen`, part of the unit (R255). -/
def execExecf (s : State) : Result :=
  .next s

/-- The condition of a predicate on the committed PSW (R391 to R394); an instruction that is no
predicate gates nothing. -/
def gateOpen (i : Instr) (psw : Word) : Bool :=
  match i with
  | .exet => pswF0 psw
  | .exef => !pswF0 psw
  | .exect => pswC psw
  | .execf => !pswC psw
  | .nop | .hint _ _ | .mv _ _ | .not _ _ | .neg _ _ | .add _ _ | .addc _ _ | .sub _ _
  | .subb _ _ | .and _ _ | .or _ _ | .xor _ _ | .mul _ _ | .sll _ _ | .srl _ _ | .sra _ _
  | .cmpeq _ _ | .cmplt _ _ | .cmpltu _ _ | .addi _ _ | .ldi _ _ | .slli _ _ | .srli _ _
  | .srai _ _ | .cmpeqi _ _ | .cmplti _ _ | .ldb _ _ | .ldbu _ _ | .ldh _ _ | .ldhu _ _
  | .ldw _ _ | .ld2w _ _ | .stb _ _ | .sth _ _ | .stw _ _ | .st2w _ _ | .bra _ | .brt _
  | .brf _ | .bl _ | .jmp _ | .jl _ | .mvfc _ _ | .mvtc _ _
  | .ldil _ _ | .ldih _ _ | .addil _ _ _ | .andil _ _ _ | .oril _ _ _ | .xoril _ _ _
  | .ldbD _ _ _ | .ldbuD _ _ _ | .ldhD _ _ _ | .ldhuD _ _ _ | .ldwD _ _ _ | .ld2wD _ _ _
  | .stbD _ _ _ | .sthD _ _ _ | .stwD _ _ _ | .st2wD _ _ _ | .braL _ | .brtL _ | .brfL _
  | .blL _ | .trap _ | .rti | .wait | .stop | .brk => true

end Sys2Proof.Machine
end

