-- ==== Sys2Proof/Machine/LoadStore.lean ====
section
/-! DEFINITION. The loads and stores (42_loadstore.md). A load pushes its register write and a store
its memory or device write; a fault discards the whole unit (R350). -/

namespace Sys2Proof.Machine

/-- A load of `n` bytes at `ea` into `ra`, through `ext` (R350). -/
def State.loadInto (s : State) (n : Nat) (ext : Nat → Word) (ra : RegNum) (ea : Word) : State :=
  match s.memRead ea n with
  | .error f => s.raiseAccess f ea
  | .ok v => s.countAccess.pushReg ra (ext v)

/-- A doubleword load into the pair `ra`, `ra + 1`, the upper word first (R356). -/
def State.loadPair (s : State) (ra : RegNum) (ea : Word) : State :=
  match s.memRead ea 8 with
  | .error f => s.raiseAccess f ea
  | .ok v => (s.countAccess.pushReg ra (upperWord v)).pushReg (ra + 1#4) (lowerWord v)

/-- A store of the `n` low bytes of `v` at `ea` (R350). -/
def State.storeFrom (s : State) (n v : Nat) (ea : Word) : State :=
  match s.memWrite ea n v with
  | .error f => s.raiseAccess f ea
  | .ok es => s.countAccess.pushAll es

/-- The doubleword a pair stores (R360). -/
def State.pairData (s : State) (ra : RegNum) : Nat :=
  pairValue (s.readReg ra) (s.readReg (ra + 1#4))

/-- `LDB` (R351). -/
def execLdb (ra rb : RegNum) (s : State) : Result :=
  .next (s.loadInto 1 signByte ra (s.readReg rb))

/-- `LDBU` (R352). -/
def execLdbu (ra rb : RegNum) (s : State) : Result :=
  .next (s.loadInto 1 zeroByte ra (s.readReg rb))

/-- `LDH` (R353). -/
def execLdh (ra rb : RegNum) (s : State) : Result :=
  .next (s.loadInto 2 signHalf ra (s.readReg rb))

/-- `LDHU` (R354). -/
def execLdhu (ra rb : RegNum) (s : State) : Result :=
  .next (s.loadInto 2 zeroHalf ra (s.readReg rb))

/-- `LDW` (R355). -/
def execLdw (ra rb : RegNum) (s : State) : Result :=
  .next (s.loadInto 4 wholeWord ra (s.readReg rb))

/-- `LD2W` (R356). -/
def execLd2w (ra rb : RegNum) (s : State) : Result :=
  .next (s.loadPair ra (s.readReg rb))

/-- `STB` (R357). -/
def execStb (ra rb : RegNum) (s : State) : Result :=
  .next (s.storeFrom 1 (s.readReg ra).toNat (s.readReg rb))

/-- `STH` (R358). -/
def execSth (ra rb : RegNum) (s : State) : Result :=
  .next (s.storeFrom 2 (s.readReg ra).toNat (s.readReg rb))

/-- `STW` (R359). -/
def execStw (ra rb : RegNum) (s : State) : Result :=
  .next (s.storeFrom 4 (s.readReg ra).toNat (s.readReg rb))

/-- `ST2W` (R360). -/
def execSt2w (ra rb : RegNum) (s : State) : Result :=
  .next (s.storeFrom 8 (s.pairData ra) (s.readReg rb))

/-- `LDB.D` (R351). -/
def execLdbD (ra rb : RegNum) (imm : BitVec 16) (s : State) : Result :=
  .next (s.loadInto 1 signByte ra (dispAddress (s.readReg rb) imm))

/-- `LDBU.D` (R352). -/
def execLdbuD (ra rb : RegNum) (imm : BitVec 16) (s : State) : Result :=
  .next (s.loadInto 1 zeroByte ra (dispAddress (s.readReg rb) imm))

/-- `LDH.D` (R353). -/
def execLdhD (ra rb : RegNum) (imm : BitVec 16) (s : State) : Result :=
  .next (s.loadInto 2 signHalf ra (dispAddress (s.readReg rb) imm))

/-- `LDHU.D` (R354). -/
def execLdhuD (ra rb : RegNum) (imm : BitVec 16) (s : State) : Result :=
  .next (s.loadInto 2 zeroHalf ra (dispAddress (s.readReg rb) imm))

/-- `LDW.D` (R355). -/
def execLdwD (ra rb : RegNum) (imm : BitVec 16) (s : State) : Result :=
  .next (s.loadInto 4 wholeWord ra (dispAddress (s.readReg rb) imm))

/-- `LD2W.D` (R356). -/
def execLd2wD (ra rb : RegNum) (imm : BitVec 16) (s : State) : Result :=
  .next (s.loadPair ra (dispAddress (s.readReg rb) imm))

/-- `STB.D` (R357). -/
def execStbD (ra rb : RegNum) (imm : BitVec 16) (s : State) : Result :=
  .next (s.storeFrom 1 (s.readReg ra).toNat (dispAddress (s.readReg rb) imm))

/-- `STH.D` (R358). -/
def execSthD (ra rb : RegNum) (imm : BitVec 16) (s : State) : Result :=
  .next (s.storeFrom 2 (s.readReg ra).toNat (dispAddress (s.readReg rb) imm))

/-- `STW.D` (R359). -/
def execStwD (ra rb : RegNum) (imm : BitVec 16) (s : State) : Result :=
  .next (s.storeFrom 4 (s.readReg ra).toNat (dispAddress (s.readReg rb) imm))

/-- `ST2W.D` (R360). -/
def execSt2wD (ra rb : RegNum) (imm : BitVec 16) (s : State) : Result :=
  .next (s.storeFrom 8 (s.pairData ra) (dispAddress (s.readReg rb) imm))

end Sys2Proof.Machine
end

