-- ==== Sys2Proof/Machine/Bridge.lean ====
section
/-! DEFINITION. The syscall bridge (45_syscall_bridge.md): the calls `TRAP SYSCALL_TRAP` makes, over the fd
table, the emulated pipes, checked copies of target memory, and the host. -/

namespace Sys2Proof.Machine

/-! ### Errnos and results (R451, R457) -/

/-- The errors the bridge generates itself (R457). -/
inductive BridgeError
  | ebadf | eagain | efault | einval | emfile | efbig | espipe | epipe | enosys | enametoolong
  deriving DecidableEq, Repr, Inhabited

/-- Their target numbers (R457). -/
def BridgeError.number : BridgeError → Word
  | .ebadf => 9
  | .eagain => 11
  | .efault => 14
  | .einval => 22
  | .emfile => 24
  | .efbig => 27
  | .espipe => 29
  | .epipe => 32
  | .enosys => 88
  | .enametoolong => 91

/-- The value a table gives a key. -/
def tableLookup {α β : Type} [DecidableEq α] : List (α × β) → α → Option β
  | [], _ => none
  | (k, v) :: rest, a => if a = k then some v else tableLookup rest a

/-- `Complete(v)` (R451). -/
def State.complete (s : State) (v : Word) : State :=
  (s.pushReg 0#4 v).pushReg 1#4 0#32

/-- `x[0] <- -1; x[1] <- e` (R451). -/
def State.failWith (s : State) (e : Word) : State :=
  (s.pushReg 0#4 0xFFFFFFFF#32).pushReg 1#4 e

/-- `Fail(e)` for an error of the bridge's own (R451). -/
def State.fail (s : State) (e : BridgeError) : State := s.failWith e.number

/-- `ERRNO_MAP(he)`, 0 when it has no entry (R451, R457). -/
def errnoNumber (c : Config) : Option HostErrno → Word
  | none => 0#32
  | some e => (tableLookup c.errnoMap e).getD 0#32

/-! ### The host (R481, R482) -/

/-- Record a vtable call that has no answer of its own (R481). -/
def State.recordCall (s : State) (c : HostCall) : State :=
  { s with host := { s.host with calls := s.host.calls ++ [c] } }

/-- The answer to the next call: the state's own, or the free value once those are used up
(assumption 3). -/
def State.nextAnswer (s : State) : HostAnswer :=
  match s.host.script with
  | a :: _ => a
  | [] => Config.hostAnswer s.host.served

/-- Ask the host: the call is recorded, and so is the error of an `Err` (R451); the host may raise the stop
request (R264). `none` is a call that blocks for ever. -/
def State.askHost (s : State) (c : HostCall) : Option (HostReply × State) :=
  match s.nextAnswer with
  | .never => none
  | .reply r =>
    some (r, { s with
      stopRequest := s.stopRequest || r.stop
      host := { s.host with
        script := s.host.script.tail
        served := s.host.served + 1
        calls := s.host.calls ++ [c]
        lastErrno := match r.error with
          | none => s.host.lastErrno
          | some e => some e } })

/-- `HostFail()` (R451): `get_last_errno`, translated. -/
def State.hostFail (s : State) : State :=
  (s.recordCall .getLastErrno).failWith (errnoNumber s.cfg s.host.lastErrno)

/-- Make a host call and finish: `ok` on `Ok`, `HostFail()` on `Err`; stuck when the host never answers
(93_implementation_defined.md S9). -/
def State.withHost (s : State) (c : HostCall) (ok : HostReply → State → State) : Result :=
  match s.askHost c with
  | none => .fault .hostNeverAnswers
  | some (r, t) =>
    match r.error with
    | none => .next (ok r t)
    | some _ => .next t.hostFail

/-! ### The fd table and the pipes (R452 to R455) -/

/-- The slot of a target fd; out of range there is none (R453). -/
def State.slot (s : State) (fd : Word) : FdSlot := s.fds.getD fd.toNat .free

/-- Set the slot of a target fd. -/
def State.setSlot (s : State) (fd : Nat) (x : FdSlot) : State :=
  { s with fds := s.fds.set fd x }

/-- The lowest-numbered `Free` slot from `base` on (R453). -/
def lowestFree : List FdSlot → Nat → Option Nat
  | [], _ => none
  | .free :: _, base => some base
  | .host _ :: rest, base => lowestFree rest (base + 1)
  | .pipeRd _ :: rest, base => lowestFree rest (base + 1)
  | .pipeWr _ :: rest, base => lowestFree rest (base + 1)

/-- The pipe of an id; a released one is empty with both ends closed. -/
def State.pipe (s : State) (p : Nat) : Pipe :=
  (tableLookup s.pipes p).getD ⟨[], false, false⟩

/-- Put a pipe's record in its place. -/
def setPipe (p : Nat) (x : Pipe) : List (Nat × Pipe) → List (Nat × Pipe)
  | [] => []
  | (k, v) :: rest => if k = p then (k, x) :: rest else (k, v) :: setPipe p x rest

/-- Release a pipe with its bytes (R454). -/
def dropPipe (p : Nat) : List (Nat × Pipe) → List (Nat × Pipe)
  | [] => []
  | (k, v) :: rest => if k = p then rest else (k, v) :: dropPipe p rest

/-- Keep a pipe while one of its ends is open, release it when both are closed (R454, R463). -/
def State.putPipe (s : State) (p : Nat) (x : Pipe) : State :=
  { s with pipes := if x.rdOpen || x.wrOpen then setPipe p x s.pipes else dropPipe p s.pipes }

/-- The target fd of a pipe's reader end, from `base` on (R479). -/
def readerFd (p : Nat) : List FdSlot → Nat → Option Nat
  | [], _ => none
  | x :: rest, base => if x = .pipeRd p then some base else readerFd p rest (base + 1)

/-- Append a notification to the host-visible log (R479). -/
def State.notify (s : State) (n : Notification) : State :=
  { s with host := { s.host with notes := s.host.notes ++ [n] } }

/-! ### Copies (R458, R459) -/

/-- The chunks of a range the bridge may touch: every chunk is backed and none is in segment 15
(R458). -/
def State.bridgeChunks (s : State) (va : Word) (n : Nat) (kind : AccessKind) : Option (List Chunk) :=
  match s.chunks va n kind s.unit.effSM with
  | .error _ => none
  | .ok cs => if cs.all (fun k => segOf k.va != 0xF#4) then some cs else none

/-- `CheckRange(va, n, kind)` (R458). -/
def State.checkRange (s : State) (va : Word) (n : Nat) (kind : AccessKind) : Bool :=
  (s.bridgeChunks va n kind).isSome

/-- `CopyIn(va, n)` (R458). -/
def State.copyIn (s : State) (va : Word) (n : Nat) : List Byte :=
  match s.bridgeChunks va n .read with
  | none => []
  | some cs => s.chunkBytes cs

/-- `CopyOut(va, bytes)`: written at once, not through the queue (R458). -/
def State.copyOut (s : State) (va : Word) (bytes : List Byte) : State :=
  match s.bridgeChunks va bytes.length .write with
  | none => s
  | some cs => { s with mem := writeChunks s.cfg cs bytes s.mem }

/-- `CopyInString`, with `n` bytes of the bound left (R459). -/
def State.copyInStringFrom (s : State) : Nat → Word → Except BridgeError (List Byte)
  | 0, _ => .error .enametoolong
  | n + 1, va =>
    match s.copyIn va 1 with
    | [] => .error .efault
    | b :: _ =>
      if b = 0#8 then .ok []
      else
        match s.copyInStringFrom n (va + 1#32) with
        | .error e => .error e
        | .ok bs => .ok (b :: bs)

/-- `CopyInString(va)` (R459). -/
def State.copyInString (s : State) (va : Word) : Except BridgeError (List Byte) :=
  s.copyInStringFrom s.cfg.pathMax va

/-- `HostPath(s)`: absolute paths get the `SYSROOT` prefix (R459). -/
def hostPath (c : Config) (p : List Byte) : List Byte :=
  match p with
  | b :: _ => if b = 0x2F#8 then c.sysroot ++ p else p
  | [] => []

/-- `enc32(v)`: 4 bytes in the target's byte order (R474). -/
def enc32 (e : Endian) (v : Nat) : List Byte := disassemble e 4 v

/-! ### Structures and flags (R460, R480) -/

/-- `OFLAG_MAP(flags)`; `none` for the access `flags[1:0] = 3` (R460). Bits outside the table are ignored. -/
def openFlags (c : Config) (flags : Word) : Option HostOpenFlags :=
  let fs := c.oflagMap.filterMap (fun e => if flags &&& e.1 = 0#32 then none else some e.2)
  match flags.extractLsb' 0 2 with
  | 0#2 => some ⟨.readOnly, fs⟩
  | 1#2 => some ⟨.writeOnly, fs⟩
  | 2#2 => some ⟨.readWrite, fs⟩
  | _ => none

/-- One field of a host stat record: its low 32 bits, or 0 when the host does not supply it (R480). -/
def statField (st : HostStat) (f : StatField) : Nat :=
  (BitVec.ofInt 32 ((tableLookup st.fields f).getD 0)).toNat

/-- `Serialize(st)` (R480). -/
def serializeStat (c : Config) (st : HostStat) : List Byte :=
  c.statLayout.flatMap (fun f => enc32 c.endian (statField st f))

/-- The bytes of a serialised stat record: 52 with the RT layout (R469, R480). -/
def statSize (c : Config) : Nat := 4 * c.statLayout.length

/-! ### The calls (R461 to R475). Each takes its arguments and the state. -/

/-- `exit(code)` (R461). -/
def sysExit (a1 : Word) (s : State) : Result := .next (s.setReq (.exit a1))

/-- `open(path, flags, mode)` (R462). -/
def sysOpen (a1 a2 a3 : Word) (s : State) : Result :=
  match s.copyInString a1 with
  | .error e => .next (s.fail e)
  | .ok p =>
    match openFlags s.cfg a2 with
    | none => .next (s.fail .einval)
    | some fl =>
      match lowestFree s.fds 0 with
      | none => .next (s.fail .emfile)
      | some f =>
        s.withHost (.open_ (hostPath s.cfg p) fl a3) fun r t =>
          (t.setSlot f (.host r.value.toNat)).complete (BitVec.ofNat 32 f)

/-- `close(fd)` (R463). -/
def sysClose (a1 : Word) (s : State) : Result :=
  match s.slot a1 with
  | .free => .next (s.fail .einval)
  | .host h => s.withHost (.close h) fun _ t => (t.setSlot a1.toNat .free).complete 0#32
  | .pipeRd p =>
    .next (((s.setSlot a1.toNat .free).putPipe p { s.pipe p with rdOpen := false }).complete 0#32)
  | .pipeWr p =>
    .next (((s.setSlot a1.toNat .free).putPipe p { s.pipe p with wrOpen := false }).complete 0#32)

/-- Drain `n` bytes of a pipe to target memory (R464): a drained buffer is freed and notified. -/
def State.drainPipe (s : State) (p n fd : Nat) (va : Word) : State :=
  let x := s.pipe p
  let t := (s.copyOut va (x.buf.take n)).putPipe p { x with buf := x.buf.drop n }
  if (x.buf.drop n).isEmpty then t.notify (.pipeEmpty fd) else t

/-- `read` from a pipe's reader end (R464). -/
def State.readPipe (s : State) (p fd : Nat) (va : Word) (len : Nat) : State :=
  let x := s.pipe p
  if len = 0 then s.complete 0#32
  else if x.buf.isEmpty then
    if x.wrOpen then s.fail .eagain else s.complete 0#32
  else
    let n := min len x.buf.length
    (s.drainPipe p n fd va).complete (BitVec.ofNat 32 n)

/-- `read(fd, buf, len)` (R464). A host read gives at most `len` bytes (R481). -/
def sysRead (a1 a2 a3 : Word) (s : State) : Result :=
  match s.slot a1 with
  | .free => .next (s.fail .einval)
  | .pipeWr _ => .next (s.fail .ebadf)
  | .host h =>
    if s.checkRange a2 a3.toNat .write then
      s.withHost (.read h a3.toNat) fun r t =>
        let b := r.data.take a3.toNat
        (t.copyOut a2 b).complete (BitVec.ofNat 32 b.length)
    else .next (s.fail .efault)
  | .pipeRd p =>
    if s.checkRange a2 a3.toNat .write then .next (s.readPipe p a1.toNat a2 a3.toNat)
    else .next (s.fail .efault)

/-- `write` to a pipe's writer end: all or nothing (R465). -/
def State.writePipe (s : State) (p : Nat) (b : List Byte) : State :=
  let x := s.pipe p
  if !x.rdOpen then s.fail .epipe
  else if s.cfg.pipeCap < x.buf.length + b.length then s.fail .efbig
  else
    let t := s.putPipe p { x with buf := x.buf ++ b }
    let t :=
      if x.buf.isEmpty && !b.isEmpty then
        match readerFd p s.fds 0 with
        | some fd => t.notify (.pipeNonEmpty fd)
        | none => t
      else t
    t.complete (BitVec.ofNat 32 b.length)

/-- `write(fd, buf, len)` (R465). A host write takes at most `len` bytes (R481). -/
def sysWrite (a1 a2 a3 : Word) (s : State) : Result :=
  match s.slot a1 with
  | .free => .next (s.fail .einval)
  | .pipeRd _ => .next (s.fail .ebadf)
  | .host h =>
    if s.checkRange a2 a3.toNat .read then
      s.withHost (.write h (s.copyIn a2 a3.toNat)) fun r t =>
        t.complete (BitVec.ofNat 32 (min r.value.toNat a3.toNat))
    else .next (s.fail .efault)
  | .pipeWr p =>
    if s.checkRange a2 a3.toNat .read then .next (s.writePipe p (s.copyIn a2 a3.toNat))
    else .next (s.fail .efault)

/-- `lseek(fd, offset, whence)` (R466): one signed 32-bit offset. -/
def sysLseek (a1 a2 a3 : Word) (s : State) : Result :=
  match s.slot a1 with
  | .free => .next (s.fail .einval)
  | .pipeRd _ => .next (s.fail .espipe)
  | .pipeWr _ => .next (s.fail .espipe)
  | .host h =>
    if a3.toNat ≤ 2 then
      s.withHost (.lseek h a2.toInt a3.toNat) fun r t => t.complete (BitVec.ofInt 32 r.value)
    else .next (s.fail .einval)

/-- `unlink(path)` (R467). -/
def sysUnlink (a1 : Word) (s : State) : Result :=
  match s.copyInString a1 with
  | .error e => .next (s.fail e)
  | .ok p => s.withHost (.unlink (hostPath s.cfg p)) fun _ t => t.complete 0#32

/-- `rename(old, new)` (R468): the first failure is reported. -/
def sysRename (a1 a2 : Word) (s : State) : Result :=
  match s.copyInString a1 with
  | .error e => .next (s.fail e)
  | .ok p =>
    match s.copyInString a2 with
    | .error e => .next (s.fail e)
    | .ok q =>
      s.withHost (.rename (hostPath s.cfg p) (hostPath s.cfg q)) fun _ t => t.complete 0#32

/-- Finish a stat call: the record to target memory, and 0 (R469). -/
def State.statDone (s : State) (va : Word) (r : HostReply) : State :=
  (s.copyOut va (serializeStat s.cfg r.stat)).complete 0#32

/-- `stat(path, buf)` (R469). -/
def sysStat (a1 a2 : Word) (s : State) : Result :=
  match s.copyInString a1 with
  | .error e => .next (s.fail e)
  | .ok p =>
    if s.checkRange a2 (statSize s.cfg) .write then
      s.withHost (.stat (hostPath s.cfg p)) fun r t => t.statDone a2 r
    else .next (s.fail .efault)

/-- `fstat(fd, buf)` (R470). -/
def sysFstat (a1 a2 : Word) (s : State) : Result :=
  match s.slot a1 with
  | .free => .next (s.fail .einval)
  | .pipeRd _ => .next (s.fail .einval)
  | .pipeWr _ => .next (s.fail .einval)
  | .host h =>
    if s.checkRange a2 (statSize s.cfg) .write then
      s.withHost (.fstat h) fun r t => t.statDone a2 r
    else .next (s.fail .efault)

/-- `lstat(path, buf)` (R471). -/
def sysLstat (a1 a2 : Word) (s : State) : Result :=
  match s.copyInString a1 with
  | .error e => .next (s.fail e)
  | .ok p =>
    if s.checkRange a2 (statSize s.cfg) .write then
      s.withHost (.lstat (hostPath s.cfg p)) fun r t => t.statDone a2 r
    else .next (s.fail .efault)

/-- `truncate(path, length)` (R472). -/
def sysTruncate (a1 a2 : Word) (s : State) : Result :=
  match s.copyInString a1 with
  | .error e => .next (s.fail e)
  | .ok p => s.withHost (.truncate (hostPath s.cfg p) a2.toInt) fun _ t => t.complete 0#32

/-- `ftruncate(fd, length)` (R473). -/
def sysFtruncate (a1 a2 : Word) (s : State) : Result :=
  match s.slot a1 with
  | .free => .next (s.fail .einval)
  | .pipeRd _ => .next (s.fail .einval)
  | .pipeWr _ => .next (s.fail .einval)
  | .host h => s.withHost (.ftruncate h a2.toInt) fun _ t => t.complete 0#32

/-- A new pipe in the two lowest free slots, its fds written to target memory (R474). -/
def State.newPipe (s : State) (rd wr : Nat) (va : Word) : State :=
  let p := s.nextPipe
  let t := (s.setSlot rd (.pipeRd p)).setSlot wr (.pipeWr p)
  let t := { t with pipes := t.pipes ++ [(p, Pipe.mk [] true true)], nextPipe := p + 1 }
  (t.copyOut va (enc32 s.cfg.endian rd ++ enc32 s.cfg.endian wr)).complete 0#32

/-- `pipe(ptr)` (R474). The host's `pipe` is not called (90_conflicts.md C2). -/
def sysPipe (a1 : Word) (s : State) : Result :=
  if s.checkRange a1 8 .write then
    match lowestFree s.fds 0 with
    | none => .next (s.fail .emfile)
    | some rd =>
      match lowestFree (s.fds.drop (rd + 1)) (rd + 1) with
      | none => .next (s.fail .emfile)
      | some wr => .next (s.newPipe rd wr a1)
  else .next (s.fail .efault)

/-- `time(ptr)` (R475). -/
def sysTime (a1 : Word) (s : State) : Result :=
  if a1 ≠ 0#32 ∧ s.checkRange a1 4 .write = false then .next (s.fail .efault)
  else
    s.withHost .time fun r t =>
      let v := BitVec.ofInt 32 r.value
      (if a1 = 0#32 then t else t.copyOut a1 (enc32 t.cfg.endian v.toNat)).complete v

/-- The rule of a call, with its arguments (R456). -/
def runSyscall (c : Syscall) (a1 a2 a3 : Word) (s : State) : Result :=
  match c with
  | .exit => sysExit a1 s
  | .open_ => sysOpen a1 a2 a3 s
  | .close => sysClose a1 s
  | .read => sysRead a1 a2 a3 s
  | .write => sysWrite a1 a2 a3 s
  | .lseek => sysLseek a1 a2 a3 s
  | .unlink => sysUnlink a1 s
  | .rename => sysRename a1 a2 s
  | .stat => sysStat a1 a2 s
  | .fstat => sysFstat a1 a2 s
  | .lstat => sysLstat a1 a2 s
  | .truncate => sysTruncate a1 a2 s
  | .ftruncate => sysFtruncate a1 a2 s
  | .pipe => sysPipe a1 s
  | .time => sysTime a1 s

/-- `Bridge()` (R450): the call number in `r0`, the arguments in `r1` to `r3`; no RT call uses `r4`
(R451). -/
def bridge (s : State) : Result :=
  match tableLookup s.cfg.syscallMap (s.readReg 0#4) with
  | none => .next (s.fail .enosys)
  | some c => runSyscall c (s.readReg 1#4) (s.readReg 2#4) (s.readReg 3#4) s

end Sys2Proof.Machine
end

