-- ==== Sys2Proof/Machine/System.lean ====
section
/-! DEFINITION. The system, control-register and environment instructions (44_system.md). `MVTC`, `RTI`, `WAIT` and
`STOP` are privileged (R561). -/

namespace Sys2Proof.Machine

/-- `NOP` (R410). -/
def execNop (s : State) : Result :=
  .next s

/-- `HINT`: executes as `NOP`, its fields ignored (R215, R411). -/
def execHint (_ra _rb : RegNum) (s : State) : Result :=
  .next s

/-- `MVFC`: the committed value; not privileged (R412). -/
def execMvfc (ra : RegNum) (cr : CReg) (s : State) : Result :=
  .next (s.pushReg ra (s.readCr cr))

/-- `MVTC`'s effect in supervisor mode (R413): the masked write is queued, and a write to the PSW sets the effective
view at once (R74). -/
def State.moveToCr (s : State) (cr : CReg) (v : Word) : State :=
  match cr with
  | .psw => (s.pushCr .psw v).setEff (pswRB v) (pswSM v)
  | .bpsw => s.pushCr .bpsw v
  | .bpc => s.pushCr .bpc v
  | .evb => s.pushCr .evb v
  | .cause => s.pushCr .cause v
  | .badaddr => s.pushCr .badaddr v
  | .supp => s.pushCr .supp v

/-- `MVTC` (R413). -/
def execMvtc (cr : CReg) (rb : RegNum) (s : State) : Result :=
  .next (s.privileged fun s => s.moveToCr cr (s.readReg rb))

/-- `TRAP` (R415): the bridge for `SYSCALL_TRAP`, else a software trap returning to `pc + 4`, or the request
`Trapped` where faults are not vectored. -/
def execTrap (n : BitVec 4) (s : State) : Result :=
  if n = s.cfg.syscallTrap then bridge s
  else if s.cfg.hasFaultVector then
    .next (s.takeException (.softwareTrap n) s.unit.word (s.pc + 4#32))
  else .next (s.setReq .trapped)

/-- `RTI` (R418). -/
def execRti (s : State) : Result :=
  .next (s.privileged fun s => s.returnFromTrap)

/-- `WAIT` (R419). -/
def execWait (s : State) : Result :=
  .next (s.privileged fun s => { s with waiting := true })

/-- `STOP`: the exit code is `x[0]` (R420). -/
def execStop (s : State) : Result :=
  .next (s.privileged fun s => s.setReq (.exit (s.readReg 0#4)))

/-- `BRK`: not privileged (R421). -/
def execBrk (s : State) : Result :=
  .next (s.setReq .brk)

end Sys2Proof.Machine
end

