-- ==== Sys2Proof/Machine/Dispatch.lean ====
section
/-! DEFINITION. `Exec(i)` (40_dispatch.md): one arm per instruction, each one call of its meaning. -/

namespace Sys2Proof.Machine

/-- `Exec(i)` (R250): what `i` reads, pushes, records and raises in the unit in progress. -/
def exec (i : Instr) (s : State) : Host.Outcome State Fault Refusal :=
  match i with
  | .nop => Sys2Proof.Machine.execNop s
  | .hint ra rb => Sys2Proof.Machine.execHint ra rb s
  | .mv ra rb => Sys2Proof.Machine.execMv ra rb s
  | .not ra rb => Sys2Proof.Machine.execNot ra rb s
  | .neg ra rb => Sys2Proof.Machine.execNeg ra rb s
  | .add ra rb => Sys2Proof.Machine.execAdd ra rb s
  | .addc ra rb => Sys2Proof.Machine.execAddc ra rb s
  | .sub ra rb => Sys2Proof.Machine.execSub ra rb s
  | .subb ra rb => Sys2Proof.Machine.execSubb ra rb s
  | .and ra rb => Sys2Proof.Machine.execAnd ra rb s
  | .or ra rb => Sys2Proof.Machine.execOr ra rb s
  | .xor ra rb => Sys2Proof.Machine.execXor ra rb s
  | .mul ra rb => Sys2Proof.Machine.execMul ra rb s
  | .sll ra rb => Sys2Proof.Machine.execSll ra rb s
  | .srl ra rb => Sys2Proof.Machine.execSrl ra rb s
  | .sra ra rb => Sys2Proof.Machine.execSra ra rb s
  | .cmpeq ra rb => Sys2Proof.Machine.execCmpeq ra rb s
  | .cmplt ra rb => Sys2Proof.Machine.execCmplt ra rb s
  | .cmpltu ra rb => Sys2Proof.Machine.execCmpltu ra rb s
  | .addi ra imm => Sys2Proof.Machine.execAddi ra imm s
  | .ldi ra imm => Sys2Proof.Machine.execLdi ra imm s
  | .slli ra sh => Sys2Proof.Machine.execSlli ra sh s
  | .srli ra sh => Sys2Proof.Machine.execSrli ra sh s
  | .srai ra sh => Sys2Proof.Machine.execSrai ra sh s
  | .cmpeqi ra imm => Sys2Proof.Machine.execCmpeqi ra imm s
  | .cmplti ra imm => Sys2Proof.Machine.execCmplti ra imm s
  | .ldb ra rb => Sys2Proof.Machine.execLdb ra rb s
  | .ldbu ra rb => Sys2Proof.Machine.execLdbu ra rb s
  | .ldh ra rb => Sys2Proof.Machine.execLdh ra rb s
  | .ldhu ra rb => Sys2Proof.Machine.execLdhu ra rb s
  | .ldw ra rb => Sys2Proof.Machine.execLdw ra rb s
  | .ld2w ra rb => Sys2Proof.Machine.execLd2w ra rb s
  | .stb ra rb => Sys2Proof.Machine.execStb ra rb s
  | .sth ra rb => Sys2Proof.Machine.execSth ra rb s
  | .stw ra rb => Sys2Proof.Machine.execStw ra rb s
  | .st2w ra rb => Sys2Proof.Machine.execSt2w ra rb s
  | .bra disp => Sys2Proof.Machine.execBra disp s
  | .brt disp => Sys2Proof.Machine.execBrt disp s
  | .brf disp => Sys2Proof.Machine.execBrf disp s
  | .bl disp => Sys2Proof.Machine.execBl disp s
  | .jmp rb => Sys2Proof.Machine.execJmp rb s
  | .jl rb => Sys2Proof.Machine.execJl rb s
  | .exet => Sys2Proof.Machine.execExet s
  | .exef => Sys2Proof.Machine.execExef s
  | .exect => Sys2Proof.Machine.execExect s
  | .execf => Sys2Proof.Machine.execExecf s
  | .mvfc ra cr => Sys2Proof.Machine.execMvfc ra cr s
  | .mvtc cr rb => Sys2Proof.Machine.execMvtc cr rb s
  | .ldil ra imm => Sys2Proof.Machine.execLdil ra imm s
  | .ldih ra imm => Sys2Proof.Machine.execLdih ra imm s
  | .addil ra rb imm => Sys2Proof.Machine.execAddil ra rb imm s
  | .andil ra rb imm => Sys2Proof.Machine.execAndil ra rb imm s
  | .oril ra rb imm => Sys2Proof.Machine.execOril ra rb imm s
  | .xoril ra rb imm => Sys2Proof.Machine.execXoril ra rb imm s
  | .ldbD ra rb imm => Sys2Proof.Machine.execLdbD ra rb imm s
  | .ldbuD ra rb imm => Sys2Proof.Machine.execLdbuD ra rb imm s
  | .ldhD ra rb imm => Sys2Proof.Machine.execLdhD ra rb imm s
  | .ldhuD ra rb imm => Sys2Proof.Machine.execLdhuD ra rb imm s
  | .ldwD ra rb imm => Sys2Proof.Machine.execLdwD ra rb imm s
  | .ld2wD ra rb imm => Sys2Proof.Machine.execLd2wD ra rb imm s
  | .stbD ra rb imm => Sys2Proof.Machine.execStbD ra rb imm s
  | .sthD ra rb imm => Sys2Proof.Machine.execSthD ra rb imm s
  | .stwD ra rb imm => Sys2Proof.Machine.execStwD ra rb imm s
  | .st2wD ra rb imm => Sys2Proof.Machine.execSt2wD ra rb imm s
  | .braL disp => Sys2Proof.Machine.execBraL disp s
  | .brtL disp => Sys2Proof.Machine.execBrtL disp s
  | .brfL disp => Sys2Proof.Machine.execBrfL disp s
  | .blL disp => Sys2Proof.Machine.execBlL disp s
  | .trap n => Sys2Proof.Machine.execTrap n s
  | .rti => Sys2Proof.Machine.execRti s
  | .wait => Sys2Proof.Machine.execWait s
  | .stop => Sys2Proof.Machine.execStop s
  | .brk => Sys2Proof.Machine.execBrk s

end Sys2Proof.Machine
end

