-- ==== Sys2Proof/Machine/Unit.lean ====
section
/-! DEFINITION. The fetch unit and the run loop around it (40_dispatch.md R250 to R270, 60_exceptions.md R547):
gating, execution in order, suppression, commit, virtual time, the boundary, and the wait step. -/

namespace Sys2Proof.Machine

/-! ### The boundary (R263) -/

/-- No unit is in progress: what a step leaves (R70, R75). -/
def State.endUnit (s : State) : State :=
  { s with unit := UnitState.idle s.cr.psw }

/-- What the host did while the step ran: it may have raised the stop request at any time up to the poll (R264, assumption
13). -/
def State.takeArrival (s : State) : State :=
  { s with stopRequest := s.stopRequest || s.host.arrivals.headD false
           host := { s.host with arrivals := s.host.arrivals.tail } }

/-- The stops of a boundary, in their order (R263, R264, R267). -/
def State.boundaryStops (s : State) (trapped : Bool) : State :=
  if trapped then s.stopRun .trapped
  else if s.stopRequest then { s with stopRequest := false }.stopRun (.stopped .sigint)
  else if s.singleStep then s.stopRun (.stopped .sigtrap)
  else s

/-- The part of a boundary after the events: the interrupt check, then the stops unless the interrupt's entry ended the
run (R16, R263, R267, assumption 5). -/
def State.boundaryCheck (s : State) (trapped : Bool) : State :=
  let t := s.takeArrival.interruptCheck
  if t.isRunning then t.boundaryStops trapped else t

/-- `Boundary(req)` (R263). -/
def State.boundary (s : State) (trapped : Bool) : Result :=
  match s.advance s.time with
  | none => .fault .endlessEventDrain
  | some t => .next (t.boundaryCheck trapped).endUnit

/-! ### Ending a unit (R250, R260 to R262, R265) -/

/-- The ticks of the unit (R261). -/
def State.tick (s : State) : State :=
  { s with time := addTicks s.time (s.cfg.unitCost + s.cfg.memWait * s.unit.acc) }

/-- Count a suppressed second half (R76, R258). -/
def State.countSuppressed (s : State) : State :=
  if s.unit.suppressed then { s with cr := { s.cr with supp := s.cr.supp + 1#32 } } else s

/-- `Commit(Q)` and the suppression count (R250, R259). -/
def State.commitUnit (s : State) : State := s.commit.countSuppressed

/-- `pc <- npc`, or `pc + 4` (R260). -/
def State.advancePc (s : State) : State :=
  { s with pc := s.unit.npc.getD (s.pc + 4#32) }

/-- The unit goes on past its commit: the PC, the ticks, the boundary (R250). -/
def State.goOn (s : State) (trapped : Bool) : Result :=
  s.advancePc.tick.boundary trapped

/-- The end of a unit none of whose instructions raised (R250, R265). -/
def State.completeUnit (s : State) : Result :=
  let t := s.commitUnit
  match t.unit.req with
  | some (.exit code) => .next (t.stopRun (.exited code)).endUnit
  | some .brk => .next (t.stopRun (.stopped .sigtrap)).endUnit
  | some .trapped => t.goOn true
  | none => t.goOn false

/-- The end of a unit that raised: nothing more when that stopped the run, else the ticks and a boundary
(R261, R262). -/
def State.endRaised (s : State) : Result :=
  if s.isRunning then s.tick.boundary false else .next s.endUnit

/-- The end of a unit (R250, R262). -/
def State.finishUnit (s : State) : Result :=
  if s.unit.raised then s.endRaised else s.completeUnit

/-! ### Executing a unit (R250 to R258) -/

/-- A unit starts with an empty queue and the effective view of the committed PSW (R70, R74). -/
def State.startUnit (s : State) (w : Word) : State :=
  { s with unit := { UnitState.idle s.cr.psw with word := w } }

/-- Mark the second half as suppressed (R258). -/
def State.suppress (s : State) : State :=
  { s with unit := { s.unit with suppressed := true } }

/-- Execute an enabled half; a gated-off one does nothing (R255). -/
def execHalf (enabled : Bool) (i : Instr) (s : State) : Result :=
  if enabled then exec i s else .next s

/-- The second half, after the first (R258, R262): not executed when the first raised, nor when it recorded a next
PC, which suppresses it. -/
def secondHalf (enabled : Bool) (i : Instr) (s : State) : Result :=
  if s.unit.raised then .next s
  else if s.unit.npc.isSome then .next s.suppress
  else execHalf enabled i s

/-- Both halves in execution order. Each gates the other by the committed PSW, before either executes
(R254, R255). -/
def execPair (first second : Instr) (s : State) : Result :=
  andThen (execHalf (gateOpen second s.cr.psw) first s)
    (secondHalf (gateOpen first s.cr.psw) second)

/-- The execution of a decoded unit, before its end (R253, R254). -/
def execUnit (u : FetchUnit) (s : State) : Result :=
  match u with
  | .long i => exec i s
  | .pair .leftFirst l r => execPair l r s
  | .pair .rightFirst l r => execPair r l s

/-- The unit whose word is `w`: decoded whole before anything of it executes (R214, R252). -/
def runWord (w : Word) (s : State) : Result :=
  match decodeUnit w with
  | .error _ => (s.startUnit w).raiseIllegal.finishUnit
  | .ok u => andThen (execUnit u (s.startUnit w)) State.finishUnit

/-- `StepUnit` (R250); a fetch fault stops the run and changes nothing else (R251). -/
def stepUnit (s : State) : Result :=
  match s.fetch with
  | none => .next (s.stopRun (.signalled .sigbus)).endUnit
  | some w => runWord w s

/-! ### The wait step (R546, R547) -/

/-- The wait step's stops (R547). -/
def State.waitStops (s : State) : State := s.boundaryStops false

/-- The wait step once its events are drained: a requested level ends the wait and is taken when IE is 1
(R547, assumption 5). -/
def State.waitCheck (s : State) : State :=
  let r := s.takeArrival
  if r.icLevel = 0 then r.waitStops
  else
    let t := { r with waiting := false }.interruptCheck
    if t.isRunning then t.waitStops else t

/-- The wait step with nothing requested: the stop request, else the jump to the next event, else idle
(R547). -/
def State.waitIdle (s : State) : Result :=
  if s.stopRequest then
    .next ({ s with stopRequest := false }.stopRun (.stopped .sigint)).endUnit
  else
    match s.events with
    | [] => .next (if s.singleStep then s.stopRun (.stopped .sigtrap) else s).endUnit
    | e :: _ =>
      match { s with time := e.fireTime }.advance e.fireTime with
      | none => .fault .endlessEventDrain
      | some t => .next t.waitCheck.endUnit

/-- `WaitStep` (R547). -/
def waitStep (s : State) : Result :=
  if s.icLevel = 0 then s.waitIdle else .next s.waitCheck.endUnit

/-- One step of the engine (R250, R270, R607): a stopped engine stays as it is until the driver
resumes it. -/
def engineStep (s : State) : Result :=
  match s.run with
  | .stopped _ => .next s
  | .running => if s.waiting then waitStep s else stepUnit s

/-! ### Placing a word where the next fetch reads (R604) -/

/-- Store a unit word where the next fetch reads it, as the loader would; where no fetch can read, there is
nowhere to store it (R603, R251). -/
def State.placeWord (s : State) (w : Word) : State :=
  match s.chunks s.pc 4 .fetch (pswSM s.cr.psw) with
  | .error _ => s
  | .ok cs => { s with mem := writeChunks s.cfg cs (disassemble s.cfg.endian 4 w.toNat) s.mem }

/-- What the driver's `resume` does before the first step (R607). -/
def State.setRunning (s : State) : State :=
  { s with run := .running, waiting := false }

end Sys2Proof.Machine
end

