-- ==== Sys2Proof/Machine/Step.lean ====
section
/-! DEFINITION. One step of the machine, and the placing of one instruction where it fetches next. -/

namespace Sys2Proof.Machine

/-- One step: a fetch unit with its boundary, or a wait step, or nothing while the run is stopped. -/
def step (s : State) : Host.Outcome State Fault Refusal := engineStep s

/-- Place an opcode-table instruction where the next step fetches, with the run going on: the loader's
writes and the driver's `resume` (assumption 6). -/
def State.withFetchWord (s : State) (nbits w : Nat) : State :=
  (s.placeWord (tableWord nbits w)).setRunning

end Sys2Proof.Machine
end

