-- ==== Sys2Proof/Machine/Driver.lean ====
section
/-! DEFINITION. What the outside world does to the machine between steps (00_scope.md R8, 70_reset_and_hazards.md
R600 to R609): the driver's calls and the host's stop request. A step makes none of them.

DESIGN CHOICE (assumption 22): R8 lets the driver call only while the engine is not running, and the loader only before execution,
and gives a call at another time no result. The functions here ask nothing about `run` (but for `resume`, which R607 makes depend on
it): at such a time they compute the same effect, which then says nothing about the hardware. -/

namespace Sys2Proof.Machine

/-! ### Reset and loading -/

/-- `reset(handle)` with the loader's `ENTRY` (R600, R602): memory, the fd table, the pipes, the host and the configuration
stay. Meant for an engine that is not running (assumption 22). -/
def State.driverReset (s : State) (entry : Word) : State :=
  { s with
    regs := Vector.replicate 24 0
    pc := entry
    cr := CRegs.reset
    unit := UnitState.idle CRegs.reset.psw
    run := .stopped none
    singleStep := false
    waiting := false
    stopRequest := false
    time := 0
    events := []
    seq := 0
    dev := Devices.reset s.cfg }

/-- A physical byte the loader may write: RAM or ROM (R603). -/
def loadable (c : Config) (a : Nat) : Bool :=
  inRam c a || decide (c.romBase ≤ a ∧ a < c.romBase + c.romSize)

/-- Every byte of a segment lies in RAM or ROM (R603). -/
def segmentLoadable (c : Config) (seg : Nat × List Byte) : Bool :=
  (List.range seg.2.length).all fun i => loadable c (seg.1 + i)

/-- Write segments in order, a later one over an earlier one (R603). -/
def loadInOrder (c : Config) : List (Nat × List Byte) → Memory → Memory
  | [], m => m
  | (pa, bytes) :: rest, m => loadInOrder c rest (Memory.writeBytes c m pa bytes)

/-- `load_segments` (R603); `none` where the whole load is refused. Meant for the time before execution
starts (assumption 22). -/
def State.loadSegments (s : State) (segs : List (Nat × List Byte)) : Option State :=
  if segs.all (segmentLoadable s.cfg) then some { s with mem := loadInOrder s.cfg segs s.mem }
  else none

/-! ### Running -/

/-- The reasons a `resume` does not leave (R266). -/
def StopReason.terminal : StopReason → Bool
  | .exited _ => true
  | .signalled _ => true
  | .stopped _ => false
  | .trapped => false

/-- What `resume(handle, single_step)` does before its first step (R607): nothing after a terminal stop. On an engine
that is running already it sets the single-step argument alone (assumption 22). -/
def State.resume (s : State) (single : Bool) : State :=
  match s.run with
  | .stopped (some r) =>
    if r.terminal then s else { s with run := .running, singleStep := single }
  | .stopped none => { s with run := .running, singleStep := single }
  | .running => { s with singleStep := single }

/-- The steps of a `resume`, at most `n` of them; a stopped engine takes none (R607). -/
def runSteps : Nat → State → Result
  | 0, s => .next s
  | n + 1, s =>
    match step s with
    | .next t => runSteps n t
    | .fault f => .fault f
    | .refused r => .refused r

/-- The host's stop request (R264). -/
def State.requestStop (s : State) : State := { s with stopRequest := true }

/-! ### The driver's register access (R606) -/

/-- What a register id names. -/
inductive DriverReg
  | gpr (p : PReg)
  | pc
  | cr (n : CReg)
  deriving DecidableEq, Repr

/-- The register of an id, under the committed bank (R606). -/
def driverReg (rb : Bool) (id : Nat) : Option DriverReg :=
  if id < 16 then some (.gpr (phys rb (BitVec.ofNat 4 id)))
  else if id = 16 then some .pc
  else if id < 24 then (cregOf (BitVec.ofNat 4 (id - 17))).map .cr
  else if h : id < 40 then some (.gpr ⟨id - 24, by omega⟩)
  else none

/-- The value a driver register holds (R606). -/
def State.driverValue (s : State) : DriverReg → Word
  | .gpr p => s.readPhys p
  | .pc => s.pc
  | .cr n => s.readCr n

/-- `read_register`: 4 bytes in the target's byte order, or none (R606). Meant for an engine that is not running (assumption
22). -/
def State.readRegister (s : State) (id : Nat) : List Byte :=
  match driverReg (pswRB s.cr.psw) id with
  | some r => disassemble s.cfg.endian 4 (s.driverValue r).toNat
  | none => []

/-- An immediate write of a driver register (R79, R606): a control register through its mask, and the effective view with
the PSW. -/
def State.setDriverReg (s : State) (r : DriverReg) (v : Word) : State :=
  match r with
  | .gpr p => { s with regs := s.regs.set p.val v }
  | .pc => { s with pc := v }
  | .cr n => if n = .psw then (s.writeCr n v).refreshEff else s.writeCr n v

/-- `write_register`: the first 4 bytes, written at once, and the bytes written (R606). DESIGN CHOICE (assumption 20): where
the register's mask drops bits, the answer is the 4 bytes given, not the value the register then holds. Meant for an engine that is not
running (R9, assumption 22). -/
def State.writeRegister (s : State) (id : Nat) (bytes : List Byte) : State × List Byte :=
  match driverReg (pswRB s.cr.psw) id with
  | none => (s, [])
  | some r =>
    if bytes.length < 4 then (s, [])
    else
      (s.setDriverReg r (BitVec.ofNat 32 (assemble s.cfg.endian (bytes.take 4))), bytes.take 4)

/-! ### Ending an instance (R609) -/

/-- Close the host fds above 2 of the given slots, in order; `none` when the host never answers one (assumption 11). -/
def closeSlots : List FdSlot → State → Option State
  | [], s => some s
  | .host h :: rest, s =>
    if h ≤ 2 then closeSlots rest s
    else
      match s.askHost (.close h) with
      | none => none
      | some (_, t) => closeSlots rest t
  | .free :: rest, s => closeSlots rest s
  | .pipeRd _ :: rest, s => closeSlots rest s
  | .pipeWr _ :: rest, s => closeSlots rest s

/-- `close(handle)`: what is left of the instance is the host (R609). Meant for an engine that is not running
(assumption 22). -/
def State.closeInstance (s : State) : Option HostState :=
  (closeSlots s.fds s).map (·.host)

end Sys2Proof.Machine
end

