-- ==== Sys2Proof/Safety.lean ====
section
/-! DEFINITION. The terms in which claims about the machine are made: what a state that a run can reach looks like, what
an instruction's queued effect is once it is committed, and what taking an exception leaves. -/

namespace Sys2Proof.Machine

/-- The byte at a physical address of RAM or ROM. -/
def State.byteAt (s : State) (a : Nat) : Byte := Memory.read s.cfg s.mem a

/-! ### Legal states -/

/-- Every reserved bit of a control register is 0: what lies outside `WMASK(n)` (R58, R63, R64). `SUPP` has no
reserved bit: it is written by no instruction, and counts (R76). -/
def CRegs.legal (r : CRegs) : Prop :=
  r.psw &&& ~~~ 0x00000707#32 = 0#32 ∧ r.bpsw &&& ~~~ 0x00000707#32 = 0#32 ∧
  r.bpc &&& ~~~ 0xFFFFFFFC#32 = 0#32 ∧ r.evb &&& ~~~ 0xFFFFFF80#32 = 0#32 ∧
  r.cause &&& ~~~ 0x80000F1F#32 = 0#32

/-- There are `NMAP` mapping registers, and every bit a device register's table does not name is 0 (R126, R541 to R544,
R556 to R559). -/
def Devices.legal (c : Config) (d : Devices) : Prop :=
  d.maps.length = c.nmap ∧ (∀ m ∈ d.maps, m &&& ~~~ 0xC000FFFF#32 = 0#32) ∧
  d.icPending &&& ~~~ levelMask c = 0#32 ∧ d.icMask &&& ~~~ levelMask c = 0#32 ∧
  d.icLatched &&& ~~~ levelMask c = 0#32 ∧ d.icControl &&& ~~~ 0x00000001#32 = 0#32 ∧
  d.tmrCtrl &&& ~~~ 0x000000F3#32 = 0#32 ∧ d.tmrStatus &&& ~~~ 0x00000001#32 = 0#32 ∧
  d.uartStatus &&& ~~~ 0x00000003#32 = 0#32 ∧ d.uartCtrl &&& ~~~ 0x000000F1#32 = 0#32 ∧
  d.wdtCtrl &&& ~~~ 0x00000001#32 = 0#32 ∧ d.wdtStatus &&& ~~~ 0x00000001#32 = 0#32

/-- `a` fires before `b`: the order of the event queue (R551). -/
def Event.before (a b : Event) : Prop :=
  a.fireTime < b.fireTime ∨ (a.fireTime = b.fireTime ∧ a.seq < b.seq)

/-- The event queue is ordered by `(fire_time, seq)`, every `seq` has been given out, and no event lies in the past
(R550, R551, R554). -/
def State.eventsLegal (s : State) : Prop :=
  s.events.Pairwise Event.before ∧ ∀ e ∈ s.events, e.seq < s.seq ∧ s.time ≤ e.fireTime

/-- The fd table has `NFD` slots; a pipe that is kept has an open end and at most `PIPE_CAP` bytes, and no other pipe has its name
(R452, R454, R465). -/
def State.bridgeLegal (s : State) : Prop :=
  s.fds.length = s.cfg.nfd ∧ (s.pipes.map Prod.fst).Nodup ∧ (∀ e ∈ s.pipes, e.1 < s.nextPipe) ∧
  ∀ e ∈ s.pipes, (e.2.rdOpen = true ∨ e.2.wrOpen = true) ∧ e.2.buf.length ≤ s.cfg.pipeCap

/-- No unit is in progress: the queue is empty and the effective view is that of the committed PSW (R70, R75). -/
def State.unitIdle (s : State) : Prop := s.unit = UnitState.idle s.cr.psw

/-! ### The committed effect of an instruction

An instruction pushes its writes, and they show when the unit commits (R70, R72). The effect of going from `s` to `t` is said
by comparing a commit after `t` with a commit after `s`: so it is said whatever the unit has queued before. -/

/-- One destination register and its new value. -/
def oneReg (p : PReg) (v : Word) : PReg → Option Word := fun q => if q = p then some v else none

/-- Two destination registers and their new values. -/
def twoRegs (p : PReg) (v : Word) (q : PReg) (w : Word) : PReg → Option Word :=
  fun r => if r = q then some w else if r = p then some v else none

/-- No destination register. -/
def noReg : PReg → Option Word := fun _ => none

/-- Nothing outside the unit in progress has changed from `s` to `t`: every register, flag, byte, device, event, file, and the
run itself. -/
def OnlyTheUnit (s t : State) : Prop := t = { s with unit := t.unit }

/-- The registers after the commit: the destinations hold their new values, every other register what it would have held. -/
def RegsAfter (s t : State) (dest : PReg → Option Word) : Prop :=
  ∀ p, t.commit.readPhys p = (dest p).getD (s.commit.readPhys p)

/-- The PSW after the commit: the flags written hold their new values, every other flag and bit what it would have held
(R71). -/
structure FlagsAfter (s t : State) (c z f0 : Option Bool) : Prop where
  carry : pswC t.commit.cr.psw = c.getD (pswC s.commit.cr.psw)
  zero : pswZ t.commit.cr.psw = z.getD (pswZ s.commit.cr.psw)
  pred : pswF0 t.commit.cr.psw = f0.getD (pswF0 s.commit.cr.psw)
  rest : ∀ i, 3 ≤ i → t.commit.cr.psw.getLsbD i = s.commit.cr.psw.getLsbD i

/-- Every control register but the PSW is as it would have been. -/
def OtherCrsKept (s t : State) : Prop :=
  ∀ n, n ≠ .psw → t.commit.readCr n = s.commit.readCr n

/-- Every device register, and the event queue, is as it would have been. -/
structure DevicesKept (s t : State) : Prop where
  dev : t.commit.dev = s.commit.dev
  events : t.commit.events = s.commit.events
  seq : t.commit.seq = s.commit.seq

/-- Every byte of memory is as it would have been. -/
def BytesKept (s t : State) : Prop := ∀ a, t.commit.byteAt a = s.commit.byteAt a

/-- The whole committed effect of an instruction that writes registers and flags and nothing else. -/
structure RegisterEffect (s t : State) (dest : PReg → Option Word) (c z f0 : Option Bool) : Prop where
  outside : OnlyTheUnit s t
  regs : RegsAfter s t dest
  flags : FlagsAfter s t c z f0
  crs : OtherCrsKept s t
  devices : DevicesKept s t
  bytes : BytesKept s t

/-- The unit in progress has changed in its queue alone. -/
def QueueOnly (s t : State) : Prop := t.unit = { s.unit with queue := t.unit.queue }

/-- The unit in progress has changed in its queue, and one more data access is counted. -/
def QueueAndAccess (s t : State) : Prop :=
  t.unit = { s.unit with queue := t.unit.queue, acc := s.unit.acc + 1 }

/-- The unit in progress has changed in its queue, and its next PC is `a`. -/
def QueueAndTarget (s t : State) (a : Word) : Prop :=
  t.unit = { s.unit with queue := t.unit.queue, npc := some a }

/-- The whole committed effect of a bridge call that has gone from `s` to `t`: what it queues are its result registers, and what it
wrote to memory at once has left `m`, over which the entries queued before it are committed as they would have been (R451, R458).
What it changes of the fd table, the pipes and the host is said beside this. -/
structure CallEffect (s t : State) (results : PReg → Option Word) (m : Memory) : Prop where
  queue : QueueOnly s t
  regs : RegsAfter s t results
  flags : FlagsAfter s t none none none
  crs : OtherCrsKept s t
  devices : DevicesKept s t
  mem : t.commit.mem = ({ s with mem := m } : State).commit.mem
  alone : s.unit.queue = [] → t.commit.mem = m

/-! ### Stores -/

/-- The address lies in one of the chunks. -/
def inChunks (cs : List Chunk) (a : Nat) : Prop :=
  ∃ k ∈ cs, k.pa.toNat ≤ a ∧ a < k.pa.toNat + k.len

/-- The whole committed effect of a store of the `n` low bytes of `v` to the chunks `cs`: those bytes in the target's order,
and nothing else. -/
structure StoreEffect (s t : State) (cs : List Chunk) (n v : Nat) : Prop where
  outside : OnlyTheUnit s t
  regs : RegsAfter s t noReg
  flags : FlagsAfter s t none none none
  crs : OtherCrsKept s t
  devices : DevicesKept s t
  stored : t.commit.mem = writeChunks s.cfg cs (disassemble s.cfg.endian n v) s.commit.mem
  frame : ∀ a, ¬ inChunks cs a → t.commit.byteAt a = s.commit.byteAt a

/-- The whole committed effect of a store of the word `v` to the device register `r`: its write function, run with the issue time
of the unit (R141, R551). -/
structure DeviceStoreEffect (s t : State) (r : DevReg) (v : Word) : Prop where
  outside : OnlyTheUnit s t
  regs : RegsAfter s t noReg
  flags : FlagsAfter s t none none none
  crs : OtherCrsKept s t
  bytes : BytesKept s t
  dev : t.commit.dev = (s.commit.devWrite r v s.time).dev
  events : t.commit.events = (s.commit.devWrite r v s.time).events
  seq : t.commit.seq = (s.commit.devWrite r v s.time).seq

/-! ### Accesses -/

/-- An access at `va` goes to the physical address `pa`: the direct segment, or a valid window of the mapped one (R125, R127). -/
def State.reaches (s : State) (va pa : Word) (kind : AccessKind) : Prop :=
  let k := va.toNat % 2 ^ 28 / blockSize s.cfg
  let m := s.dev.maps.getD k 0#32
  (segOf va = 0x0#4 ∧ pa = va) ∨
    (segOf va = 0x1#4 ∧ k < s.cfg.nmap ∧ m.getLsbD 31 = true ∧ (kind = .write → m.getLsbD 30 = false) ∧
      pa = ((m &&& 0x0000FFFF#32) <<< s.cfg.blockBits) ||| BitVec.ofNat 32 (va.toNat % blockSize s.cfg))

/-- The `n` bytes at `pa` lie in RAM, or, unless they are to be written, in ROM (R122, R124, R130). -/
def backed (c : Config) (pa : Word) (n : Nat) (kind : AccessKind) : Prop :=
  pa.toNat + n ≤ c.ramSize ∨
    (kind ≠ .write ∧ c.romBase ≤ pa.toNat ∧ pa.toNat + n ≤ c.romBase + c.romSize)

/-! ### Exceptions -/

/-- What taking an exception or interrupt changes from `s` to `t`, and what it leaves (R521, R528, R531): the queue of the unit is
gone, the control registers hold what was saved, the PC is the handler's address, and everything else is as before. -/
structure HandlerEntered (s t : State) (cause badaddr ret handler : Word) : Prop where
  pc : t.pc = handler
  psw : t.cr.psw = (s.cr.psw &&& 0x00000007#32) ||| 0x00000600#32
  bpsw : t.cr.bpsw = s.cr.psw
  bpc : t.cr.bpc = ret &&& 0xFFFFFFFC#32
  cause : t.cr.cause = cause
  badaddr : t.cr.badaddr = badaddr
  evb : t.cr.evb = s.cr.evb
  supp : t.cr.supp = s.cr.supp
  effRB : t.unit.effRB = true
  effSM : t.unit.effSM = true
  waiting : t.waiting = false
  rest : t = { s with pc := t.pc, cr := t.cr, unit := t.unit, waiting := t.waiting, dev := t.dev }

/-- A raised exception has discarded the unit and entered the handler; no device register has changed. -/
structure ExceptionTaken (s t : State) (cause badaddr ret handler : Word) : Prop where
  entered : HandlerEntered s t cause badaddr ret handler
  dev : t.dev = s.dev
  queue : t.unit.queue = []
  raised : t.unit.raised = true

/-! ### Names for what statements speak of -/

/-- The code CAUSE records for a faulting access (R520). -/
def faultCode : MemFault → Nat
  | .bus => 2
  | .segmentation => 3
  | .alignment => 4

/-- The signal a run stops with for a faulting access that is not vectored (R266). -/
def faultSignal : MemFault → Signal
  | .bus => .sigbus
  | .segmentation => .sigsegv
  | .alignment => .sigbus

/-- Every load with the bytes it reads and its effective address (R350 to R356). -/
def loadForms (s : State) (ra rb : RegNum) (imm : BitVec 16) : List (Instr × Nat × Word) :=
  [(.ldb ra rb, 1, s.readReg rb), (.ldbu ra rb, 1, s.readReg rb), (.ldh ra rb, 2, s.readReg rb),
   (.ldhu ra rb, 2, s.readReg rb), (.ldw ra rb, 4, s.readReg rb), (.ld2w ra rb, 8, s.readReg rb),
   (.ldbD ra rb imm, 1, s.readReg rb + imm.signExtend 32), (.ldbuD ra rb imm, 1, s.readReg rb + imm.signExtend 32),
   (.ldhD ra rb imm, 2, s.readReg rb + imm.signExtend 32), (.ldhuD ra rb imm, 2, s.readReg rb + imm.signExtend 32),
   (.ldwD ra rb imm, 4, s.readReg rb + imm.signExtend 32), (.ld2wD ra rb imm, 8, s.readReg rb + imm.signExtend 32)]

/-- Every store with the bytes it writes and its effective address (R350, R357 to R360). -/
def storeForms (s : State) (ra rb : RegNum) (imm : BitVec 16) : List (Instr × Nat × Word) :=
  [(.stb ra rb, 1, s.readReg rb), (.sth ra rb, 2, s.readReg rb), (.stw ra rb, 4, s.readReg rb),
   (.st2w ra rb, 8, s.readReg rb), (.stbD ra rb imm, 1, s.readReg rb + imm.signExtend 32),
   (.sthD ra rb imm, 2, s.readReg rb + imm.signExtend 32), (.stwD ra rb imm, 4, s.readReg rb + imm.signExtend 32),
   (.st2wD ra rb imm, 8, s.readReg rb + imm.signExtend 32)]

/-- The privileged instructions (R561). -/
def privilegedForms (cr : CReg) (rb : RegNum) : List Instr := [.mvtc cr rb, .rti, .wait, .stop]

/-- `x[i]` as a unit that starts now names it: through the committed bank (R55, R74). -/
def State.committedReg (s : State) (i : RegNum) : Word := s.readPhys (phys (pswRB s.cr.psw) i)

/-- The engine is about to run the unit `w`, fetched at the PC (R250, R251). -/
structure State.atUnit (s : State) (w : Word) : Prop where
  running : s.run = .running
  awake : s.waiting = false
  fetched : s.fetch = some w

/-- Nothing happens at the boundary: no event is queued, no level is requested, and nobody asked for a stop (R263). -/
structure State.quiet (s : State) : Prop where
  events : s.events = []
  level : s.icLevel = 0
  stopRequest : s.stopRequest = false
  singleStep : s.singleStep = false
  arrivals : s.host.arrivals = []

/-- A drain up to `upto` can go on for ever: the timer is periodic, and a reload falls at the instant that it fires, or may fall there
because the tick count no longer fits (R551, R552, R556, assumptions 4 and 7). -/
def State.endlessTimer (s : State) (upto : Ticks) : Prop :=
  s.dev.tmrCtrl.getLsbD 1 = true ∧ (s.dev.tmrPeriod = 0#32 ∨ 2 ^ 64 ≤ upto.toNat + s.dev.tmrPeriod.toNat)

/-- `t` is what executing the unit `w` leaves, before the unit ends (R250 to R254, R262). -/
def State.unitAnswers (s : State) (w : Word) (t : State) : Prop :=
  (∃ e, decodeUnit w = .error e ∧ t = (s.startUnit w).raiseIllegal) ∨
    ∃ u, decodeUnit w = .ok u ∧ execUnit u (s.startUnit w) = .next t

/-- What the boundary after a unit starts from, for the unit that has left `s` (R250, R262). -/
def State.atBoundary (s : State) : State := if s.unit.raised then s.tick else s.commitUnit.advancePc.tick

/-- The device registers that only a device write changes: no event and no delivered interrupt does. -/
structure SettingsKept (s t : State) : Prop where
  maps : t.dev.maps = s.dev.maps
  icMask : t.dev.icMask = s.dev.icMask
  icControl : t.dev.icControl = s.dev.icControl
  tmrPeriod : t.dev.tmrPeriod = s.dev.tmrPeriod
  uartCtrl : t.dev.uartCtrl = s.dev.uartCtrl
  wdtCtrl : t.dev.wdtCtrl = s.dev.wdtCtrl
  wdtReload : t.dev.wdtReload = s.dev.wdtReload

end Sys2Proof.Machine
end

