-- ==== Sys2Proof/Certificates/Slice0/Obligations.lean ====
section
/-! DEFINITION. The statements about the model that the provers settle, one `def Obligations.<Name> : Prop` each, listed in
OBLIGATIONS.json. -/

open Sys2Proof Sys2Proof.Machine

/-! ### Encoding -/

/-- The words R216 names, and words written out from the encodings of R208, R209 and R220, decode to what the spec says they are. -/
def Obligations.SpecWordsDecode : Prop :=
  decodeUnit 0x00000000#32 = .ok (.pair .leftFirst .nop .nop) ∧
  (∃ e, decodeUnit 0x80000000#32 = .error e) ∧
  (∀ w : Word, w.extractLsb' 30 2 = 3#2 → ∃ e, decodeUnit w = .error e) ∧
  decodeUnit 0x00248000#32 = .ok (.pair .leftFirst (.mv 1#4 2#4) .nop) ∧
  decodeUnit 0x02240000#32 = .ok (.pair .leftFirst (.add 1#4 2#4) .nop) ∧
  decodeUnit 0x0C300000#32 = .ok (.pair .leftFirst (.ldi 1#4 32#6) .nop) ∧
  decodeUnit 0x1A468000#32 = .ok (.pair .leftFirst (.ld2w 2#4 3#4) .nop) ∧
  decodeUnit 0x2A008448#32 = .ok (.pair .leftFirst .exef (.add 1#4 2#4)) ∧
  decodeUnit 0x4C209842#32 = .ok (.pair .rightFirst (.ldi 1#4 1#6) (.ldi 1#4 2#6)) ∧
  decodeUnit 0x8110FFFE#32 = .ok (.long (.ldil 1#4 0xFFFE#16)) ∧
  decodeUnit 0x98000100#32 = .ok (.long (.braL 0x0100#16)) ∧
  decodeUnit 0xB0000003#32 = .ok (.long (.trap 3#4)) ∧
  decodeUnit 0xB1000000#32 = .ok (.long .rti)

/-- Decoding the encoding of a well-formed unit gives the unit back, from its word and from its bytes in either byte order (R135,
R201 to R209, R220). -/
def Obligations.UnitRoundTrip : Prop :=
  ∀ u : FetchUnit, u.wf = true →
    decodeUnit (encodeUnit u) = .ok u ∧
    ∀ (e : Endian) (rest : List Byte),
      decodeBytes e (disassemble e 4 (encodeUnit u).toNat ++ rest) = .ok (u, rest)

/-- A word that decodes has one meaning: the unit is well formed, and encoding it gives the word back (R200, R201, R208 to R213). -/
def Obligations.DecodedUnitsReencode : Prop :=
  ∀ (w : Word) (u : FetchUnit), decodeUnit w = .ok u → u.wf = true ∧ encodeUnit u = w

/-- Every reserved short `(op, fn)` and long `op6`, and `FM = 11`, is illegal, whatever the other fields hold (R211, R212); an illegal
half makes the whole unit illegal (R214). -/
def Obligations.IllegalEncodingsRefused : Prop :=
  (∀ (op : BitVec 5) (ra rb : RegNum) (fn : BitVec 2),
    (op = 0x0F#5 ∨ 0x17 ≤ op.toNat ∨ (fn = 3#2 ∧ (op = 0x03#5 ∨ op = 0x04#5)) ∨
      (2 ≤ fn.toNat ∧ (op = 0x0D#5 ∨ op = 0x14#5 ∨ op = 0x16#5))) →
    ∃ e, decodeShort (mkShort op ra rb fn) = .error e) ∧
  (∀ (op6 : BitVec 6) (ra rb : RegNum) (imm : BitVec 16),
    (op6 = 0x00#6 ∨ op6 = 0x07#6 ∨ op6 = 0x0E#6 ∨ op6 = 0x0F#6 ∨ (0x14 ≤ op6.toNat ∧ op6.toNat ≤ 0x17) ∨
      (0x1C ≤ op6.toNat ∧ op6.toNat ≤ 0x2F) ∨ 0x35 ≤ op6.toNat) →
    ∃ e, decodeUnit (mkLong op6 ra rb imm) = .error e) ∧
  (∀ w : Word, w.extractLsb' 30 2 = 3#2 → ∃ e, decodeUnit w = .error e) ∧
  (∀ (o : Order) (l r : BitVec 15), (∃ e, decodeShort l = .error e) ∨ (∃ e, decodeShort r = .error e) →
    ∃ e, decodeUnit (mkPair o l r) = .error e)

/-! ### Reset -/

/-- What the driver's reset sets and what it leaves (R80, R600). That IC_MASK is `levelMask` for an `NLEVELS` (R10) other than 15 is the
model's reading (assumption 21); for 15 it is the rules' own 0x0000_FFFE, as the clause after it says. That a reset
of a running engine does the same is the model's choice (R8, assumption 22). -/
def Obligations.ResetSets : Prop :=
  ∀ (s : State) (entry : Word),
    let t := s.driverReset entry
    (∀ p, t.readPhys p = 0#32) ∧ t.pc = entry ∧ t.cr.psw = 0x00000400#32 ∧ t.cr.bpsw = 0#32 ∧ t.cr.bpc = 0#32 ∧
    t.cr.evb = 0#32 ∧ t.cr.cause = 0#32 ∧ t.cr.badaddr = 0#32 ∧ t.cr.supp = 0#32 ∧
    t.unit.effRB = false ∧ t.unit.effSM = true ∧ t.unit.queue = [] ∧ t.waiting = false ∧ t.stopRequest = false ∧
    t.time = 0 ∧ t.seq = 0 ∧ t.events = [] ∧
    t.dev.maps = List.replicate s.cfg.nmap 0#32 ∧ t.dev.icPending = 0#32 ∧ t.dev.icMask = levelMask s.cfg ∧
    (s.cfg.nlevels = 15 → t.dev.icMask = 0x0000FFFE#32) ∧
    t.dev.icLatched = 0#32 ∧ t.dev.icControl = 0x00000001#32 ∧ t.dev.tmrCtrl = 0#32 ∧ t.dev.tmrPeriod = 0#32 ∧
    t.dev.tmrStatus = 0#32 ∧ t.dev.uartStatus = 0#32 ∧ t.dev.uartCtrl = 0#32 ∧ t.dev.wdtCtrl = 0#32 ∧
    t.dev.wdtReload = 0#32 ∧ t.dev.wdtStatus = 0#32 ∧ t.dev.tgen = 0 ∧ t.dev.wgen = 0 ∧
    t.run = .stopped none ∧ (∀ b, (t.resume b).run = .running ∧ (t.resume b).pc = entry) ∧
    t.mem = s.mem ∧ t.fds = s.fds ∧ t.pipes = s.pipes ∧ t.nextPipe = s.nextPipe ∧ t.host = s.host ∧ t.cfg = s.cfg

/-- State.reset meets every invariant that the statements below keep over steps. The reference parameters it takes are R10's; the
byte order and the sysroot, which R10 leaves open, are the model's choice (assumption 1), and no clause rests on them. -/
def Obligations.ResetStateLegal : Prop :=
  State.reset.cfg.wf = true ∧ Memory.wf State.reset.cfg State.reset.mem = true ∧ State.reset.cr.legal ∧
  State.reset.dev.legal State.reset.cfg ∧ State.reset.eventsLegal ∧ State.reset.bridgeLegal ∧ State.reset.unitIdle

/-! ### Invariants that every step keeps -/

/-- The canonical form of memory is kept by every step. The form is the model's own way of holding R121's RAM and ROM. -/
def Obligations.MemoryStaysCanonical : Prop :=
  ∀ s t : State, Memory.wf s.cfg s.mem = true → step s = .next t → Memory.wf t.cfg t.mem = true

/-- The reserved bits of the control registers stay 0 (R58, R63, R64). -/
def Obligations.ControlRegistersStayMasked : Prop :=
  ∀ s t : State, s.cr.legal → step s = .next t → t.cr.legal

/-- Every bit that a device register's table does not name stays 0, and the mapping registers stay `NMAP` in number (R126, R541 to
R544, R556 to R559). That the level bits are `NLEVELS:1` for an `NLEVELS` (R10) other than 15 is the model's reading (assumption 21). -/
def Obligations.DevicesStayMasked : Prop :=
  ∀ s t : State, s.dev.legal s.cfg → step s = .next t → t.dev.legal t.cfg

/-- The event queue stays ordered by `(fire_time, seq)` with nothing in the past, and time never decreases (R550, R551,
R554). That a fire time past 64 bits is not before the time it was scheduled at is the model's choice (assumption 7). -/
def Obligations.EventsStayOrdered : Prop :=
  ∀ s t : State, s.eventsLegal → step s = .next t → t.eventsLegal ∧ s.time ≤ t.time

/-- The fd table keeps its size, and every pipe an open end, at most `PIPE_CAP` bytes and a name of its own (R452, R454, R465; the names are
the model's, assumption 17). -/
def Obligations.BridgeStaysBounded : Prop :=
  ∀ s t : State, s.bridgeLegal → step s = .next t → t.bridgeLegal

/-- Nothing changes a parameter: no instruction, no step, no call of the driver (R11). -/
def Obligations.ConfigurationNeverChanges : Prop :=
  (∀ (i : Instr) (s t : State), exec i s = .next t → t.cfg = s.cfg) ∧
  (∀ s t : State, step s = .next t → t.cfg = s.cfg) ∧
  (∀ (s : State) (entry : Word), (s.driverReset entry).cfg = s.cfg) ∧
  (∀ (s : State) (b : Bool), (s.resume b).cfg = s.cfg) ∧
  (∀ (s : State) (id : Nat) (bs : List Byte), (s.writeRegister id bs).1.cfg = s.cfg) ∧
  (∀ (s t : State) (segs : List (Nat × List Byte)), s.loadSegments segs = some t → t.cfg = s.cfg)

/-- A step changes no byte outside RAM, so programs never write ROM (R124, R130, R458). -/
def Obligations.OnlyRamIsWritten : Prop :=
  ∀ s t : State, step s = .next t → ∀ a, s.cfg.ramSize ≤ a → t.byteAt a = s.byteAt a

/-- Between steps no unit is in progress: the queue is empty, and the effective view is the committed PSW's (R70, R75). -/
def Obligations.UnitStaysIdle : Prop :=
  ∀ s t : State, s.unitIdle → step s = .next t → t.unitIdle

/-! ### Where a step stops -/

/-- No step is refused. A step ends in a state, but for a syscall whose host call never answers (93_implementation_defined.md S9), and
for an event drain that never ends: in the state drained the timer is periodic, and its period is 0 or leads past the 64 bits of a
tick count (the model's reading of R551, R552 and R556, assumptions 4 and 7). In a wait, and after a unit in user mode, those are the timer
settings the step began with. That the host's print
always returns (where S9 would let it block) is the model's choice (R481, assumption 3), and what the ticks of a unit that raised after an access
are, its reading (R261, assumption 8). -/
def Obligations.StepNeverRefuses : Prop :=
  ∀ s : State, (∃ t, step s = .next t) ∨
    (step s = .fault .hostNeverAnswers ∧ s.nextAnswer = .never ∧
      ∃ w, s.atUnit w ∧ decodeUnit w = .ok (.long (.trap s.cfg.syscallTrap))) ∨
    (step s = .fault .endlessEventDrain ∧ s.run = .running ∧
      ((s.waiting = true ∧ ∃ e rest, s.events = e :: rest ∧ s.endlessTimer e.fireTime) ∨
       (s.waiting = false ∧ ∃ w t, s.atUnit w ∧ s.unitAnswers w t ∧ t.atBoundary.endlessTimer t.atBoundary.time ∧
          (pswSM s.cr.psw = false → t.atBoundary.dev = s.dev))))

/-! ### The event queue -/

/-- Draining ends, and leaves nothing due, wherever the timer is not periodic with a period that is 0 or leads past the 64 bits of a tick
count (R551, R552, R556; assumptions 4 and 7). That the host's
print returns, so that a drain which prints ends, is the model's choice (R481, assumption 3). -/
def Obligations.EventDrainEnds : Prop :=
  ∀ (s : State) (upto : Ticks), ¬ s.endlessTimer upto →
    ∃ t, s.advance upto = some t ∧ eventDue upto t.events = false

/-- `schedule` puts an event in its place of the order (R551), and events scheduled at 30, 10 and 20 fire in the order 10, 20, 30 (R553,
scenario E): what they print shows it. A tick count is the exact sum where that fits 64 bits, and never below what it starts from (R550,
R554; what it is past 64 bits is free, assumption 7). What firing each event does: the timer expires, asserts its level and reloads or
stops, the UART prints its byte, the watchdog fires, and an event of an older generation does nothing (R555 to R558). That a level
above `NLEVELS` (R10) is not asserted is the model's reading for an `NLEVELS` other than 15 (assumption 21). That the
host's print returns, and the list `calls` that shows it, are the model's choice (R481, assumption 3). -/
def Obligations.ScheduledEventsFireInOrder : Prop :=
  (∀ (s : State) (now : Ticks) (delay : Nat) (cb : Callback),
    s.events.Pairwise Event.before → (∀ e ∈ s.events, e.seq < s.seq) →
    let due := addTicks now delay
    (s.schedule now delay cb).events =
        s.events.filter (fun e => decide (e.fireTime ≤ due)) ++ [⟨due, s.seq, cb⟩] ++
          s.events.filter (fun e => !decide (e.fireTime ≤ due)) ∧
      (s.schedule now delay cb).seq = s.seq + 1 ∧
      (s.schedule now delay cb).events.Pairwise Event.before) ∧
  (∀ (t : Ticks) (n : Nat), t ≤ addTicks t n ∧ (t.toNat + n < 2 ^ 64 → (addTicks t n).toNat = t.toNat + n)) ∧
  (∀ (s : State) (a b c : Byte), s.events = [] →
    ∃ t, (((s.schedule 0 30 (.txDone a)).schedule 0 10 (.txDone b)).schedule 0 20 (.txDone c)).advance 100 = some t ∧
      t.events = [] ∧ t.host.calls = s.host.calls ++ [.print [b], .print [c], .print [a]]) ∧
  (∀ (s : State) (at_ : Ticks) (q g : Nat) (b : Byte),
    let bit := fun l => if 1 ≤ l ∧ l ≤ s.cfg.nlevels then 1#32 <<< l else 0#32
    let expired := { s.dev with
      tmrStatus := s.dev.tmrStatus ||| 1#32
      icPending := s.dev.icPending ||| bit (s.dev.tmrCtrl.extractLsb' 4 4).toNat }
    (g ≠ s.dev.tgen ∨ s.dev.tmrCtrl.getLsbD 0 = false → s.fire ⟨at_, q, .timerExpire g⟩ = s) ∧
    (g = s.dev.tgen → s.dev.tmrCtrl.getLsbD 0 = true →
      (s.dev.tmrCtrl.getLsbD 1 = false →
        s.fire ⟨at_, q, .timerExpire g⟩ = { s with dev := { expired with tmrCtrl := s.dev.tmrCtrl &&& ~~~ 1#32 } }) ∧
      (s.dev.tmrCtrl.getLsbD 1 = true →
        s.fire ⟨at_, q, .timerExpire g⟩ = { s with
          dev := expired
          events := insertEvent ⟨addTicks at_ s.dev.tmrPeriod.toNat, s.seq, .timerExpire g⟩ s.events
          seq := s.seq + 1 })) ∧
    s.fire ⟨at_, q, .txDone b⟩ = { s with
      dev := { s.dev with
        uartStatus := s.dev.uartStatus &&& ~~~ 1#32
        icPending := s.dev.icPending |||
          (if s.dev.uartCtrl.getLsbD 0 then bit (s.dev.uartCtrl.extractLsb' 4 4).toNat else 0#32) }
      host := { s.host with calls := s.host.calls ++ [.print [b]] } } ∧
    (g ≠ s.dev.wgen ∨ s.dev.wdtCtrl.getLsbD 0 = false → s.fire ⟨at_, q, .wdtExpire g⟩ = s) ∧
    (g = s.dev.wgen → s.dev.wdtCtrl.getLsbD 0 = true →
      s.fire ⟨at_, q, .wdtExpire g⟩ = { s with
        dev := { s.dev with
          wdtStatus := s.dev.wdtStatus ||| 1#32
          icPending := s.dev.icPending ||| bit s.cfg.wdtLevel } }))

/-! ### Register and ALU instructions

`c`, `z` and `f0` of a RegisterEffect are the flags written; `none` is a flag left as it is. -/

/-- NEG, ADD, ADDC, SUB, SUBB, ADDI and ADDIL: their encodings, their sum or difference, C, Z, and the frame (R302 to R306, R317,
R326). -/
def Obligations.AddAndSubtractResults : Prop :=
  ∀ (s : State) (ra rb : RegNum) (imm6 : BitVec 6) (imm16 : BitVec 16),
    let a := s.readReg ra
    let b := s.readReg rb
    let c := BitVec.ofBool (pswC s.cr.psw)
    (decodeShort (mkShort 0x00#5 ra rb 3#2) = .ok (.neg ra rb) ∧
      ∃ t, exec (.neg ra rb) s = .next t ∧ QueueOnly s t ∧
        RegisterEffect s t (oneReg (s.physReg ra) (0#32 - b)) (some (b != 0#32)) (some (0#32 - b == 0#32)) none) ∧
    (decodeShort (mkShort 0x01#5 ra rb 0#2) = .ok (.add ra rb) ∧
      let w := a.zeroExtend 33 + b.zeroExtend 33
      ∃ t, exec (.add ra rb) s = .next t ∧ QueueOnly s t ∧
        RegisterEffect s t (oneReg (s.physReg ra) (w.extractLsb' 0 32)) (some (w.getLsbD 32))
          (some (w.extractLsb' 0 32 == 0#32)) none) ∧
    (decodeShort (mkShort 0x01#5 ra rb 1#2) = .ok (.addc ra rb) ∧
      let w := a.zeroExtend 33 + b.zeroExtend 33 + c.zeroExtend 33
      ∃ t, exec (.addc ra rb) s = .next t ∧ QueueOnly s t ∧
        RegisterEffect s t (oneReg (s.physReg ra) (w.extractLsb' 0 32)) (some (w.getLsbD 32))
          (some (w.extractLsb' 0 32 == 0#32)) none) ∧
    (decodeShort (mkShort 0x01#5 ra rb 2#2) = .ok (.sub ra rb) ∧
      ∃ t, exec (.sub ra rb) s = .next t ∧ QueueOnly s t ∧
        RegisterEffect s t (oneReg (s.physReg ra) (a - b)) (some (decide (a.toNat < b.toNat))) (some (a == b)) none) ∧
    (decodeShort (mkShort 0x01#5 ra rb 3#2) = .ok (.subb ra rb) ∧
      ∃ t, exec (.subb ra rb) s = .next t ∧ QueueOnly s t ∧
        RegisterEffect s t (oneReg (s.physReg ra) (a - b - c.zeroExtend 32))
          (some (decide ((a.toNat : Int) - (b.toNat : Int) - (c.toNat : Int) < 0)))
          (some (a - b - c.zeroExtend 32 == 0#32)) none) ∧
    (decodeShort (mkImm 0x05#5 ra imm6) = .ok (.addi ra imm6) ∧
      let w := a.zeroExtend 33 + (imm6.signExtend 32).zeroExtend 33
      ∃ t, exec (.addi ra imm6) s = .next t ∧ QueueOnly s t ∧
        RegisterEffect s t (oneReg (s.physReg ra) (w.extractLsb' 0 32)) (some (w.getLsbD 32))
          (some (w.extractLsb' 0 32 == 0#32)) none) ∧
    (decodeUnit (mkLong 0x03#6 ra rb imm16) = .ok (.long (.addil ra rb imm16)) ∧
      let w := b.zeroExtend 33 + (imm16.signExtend 32).zeroExtend 33
      ∃ t, exec (.addil ra rb imm16) s = .next t ∧ QueueOnly s t ∧
        RegisterEffect s t (oneReg (s.physReg ra) (w.extractLsb' 0 32)) (some (w.getLsbD 32))
          (some (w.extractLsb' 0 32 == 0#32)) none)

/-- NOT, AND, OR, XOR, ANDIL, ORIL and XORIL: their encodings, results, Z, and the frame (R301, R307 to R309, R327 to R329). -/
def Obligations.LogicResults : Prop :=
  ∀ (s : State) (ra rb : RegNum) (imm16 : BitVec 16),
    let a := s.readReg ra
    let b := s.readReg rb
    let u := imm16.zeroExtend 32
    (decodeShort (mkShort 0x00#5 ra rb 2#2) = .ok (.not ra rb) ∧
      ∃ t, exec (.not ra rb) s = .next t ∧ QueueOnly s t ∧
        RegisterEffect s t (oneReg (s.physReg ra) (~~~ b)) none (some (~~~ b == 0#32)) none) ∧
    (decodeShort (mkShort 0x02#5 ra rb 0#2) = .ok (.and ra rb) ∧
      ∃ t, exec (.and ra rb) s = .next t ∧ QueueOnly s t ∧
        RegisterEffect s t (oneReg (s.physReg ra) (a &&& b)) none (some (a &&& b == 0#32)) none) ∧
    (decodeShort (mkShort 0x02#5 ra rb 1#2) = .ok (.or ra rb) ∧
      ∃ t, exec (.or ra rb) s = .next t ∧ QueueOnly s t ∧
        RegisterEffect s t (oneReg (s.physReg ra) (a ||| b)) none (some (a ||| b == 0#32)) none) ∧
    (decodeShort (mkShort 0x02#5 ra rb 2#2) = .ok (.xor ra rb) ∧
      ∃ t, exec (.xor ra rb) s = .next t ∧ QueueOnly s t ∧
        RegisterEffect s t (oneReg (s.physReg ra) (a ^^^ b)) none (some (a ^^^ b == 0#32)) none) ∧
    (decodeUnit (mkLong 0x04#6 ra rb imm16) = .ok (.long (.andil ra rb imm16)) ∧
      ∃ t, exec (.andil ra rb imm16) s = .next t ∧ QueueOnly s t ∧
        RegisterEffect s t (oneReg (s.physReg ra) (b &&& u)) none (some (b &&& u == 0#32)) none) ∧
    (decodeUnit (mkLong 0x05#6 ra rb imm16) = .ok (.long (.oril ra rb imm16)) ∧
      ∃ t, exec (.oril ra rb imm16) s = .next t ∧ QueueOnly s t ∧
        RegisterEffect s t (oneReg (s.physReg ra) (b ||| u)) none (some (b ||| u == 0#32)) none) ∧
    (decodeUnit (mkLong 0x06#6 ra rb imm16) = .ok (.long (.xoril ra rb imm16)) ∧
      ∃ t, exec (.xoril ra rb imm16) s = .next t ∧ QueueOnly s t ∧
        RegisterEffect s t (oneReg (s.physReg ra) (b ^^^ u)) none (some (b ^^^ u == 0#32)) none)

/-- MUL, SLL, SRL, SRA, SLLI, SRLI and SRAI: their encodings, results, Z, and the frame (R310 to R313, R319 to R321). A register
amount is taken modulo 32, and an amount with `s[5] = 1` is illegal. -/
def Obligations.MultiplyAndShiftResults : Prop :=
  ∀ (s : State) (ra rb : RegNum) (sh : BitVec 5),
    let a := s.readReg ra
    let b := s.readReg rb
    let n := b.toNat % 32
    (decodeShort (mkShort 0x02#5 ra rb 3#2) = .ok (.mul ra rb) ∧
      ∃ t, exec (.mul ra rb) s = .next t ∧ QueueOnly s t ∧
        RegisterEffect s t (oneReg (s.physReg ra) (a * b)) none (some (a * b == 0#32)) none) ∧
    (decodeShort (mkShort 0x03#5 ra rb 0#2) = .ok (.sll ra rb) ∧
      ∃ t, exec (.sll ra rb) s = .next t ∧ QueueOnly s t ∧
        RegisterEffect s t (oneReg (s.physReg ra) (a <<< n)) none (some (a <<< n == 0#32)) none) ∧
    (decodeShort (mkShort 0x03#5 ra rb 1#2) = .ok (.srl ra rb) ∧
      ∃ t, exec (.srl ra rb) s = .next t ∧ QueueOnly s t ∧
        RegisterEffect s t (oneReg (s.physReg ra) (a >>> n)) none (some (a >>> n == 0#32)) none) ∧
    (decodeShort (mkShort 0x03#5 ra rb 2#2) = .ok (.sra ra rb) ∧
      ∃ t, exec (.sra ra rb) s = .next t ∧ QueueOnly s t ∧
        RegisterEffect s t (oneReg (s.physReg ra) (a.sshiftRight n)) none (some (a.sshiftRight n == 0#32)) none) ∧
    (decodeShort (mkImm 0x07#5 ra (0#1 ++ sh)) = .ok (.slli ra sh) ∧
      (∃ e, decodeShort (mkImm 0x07#5 ra (1#1 ++ sh)) = .error e) ∧
      ∃ t, exec (.slli ra sh) s = .next t ∧ QueueOnly s t ∧
        RegisterEffect s t (oneReg (s.physReg ra) (a <<< sh.toNat)) none (some (a <<< sh.toNat == 0#32)) none) ∧
    (decodeShort (mkImm 0x08#5 ra (0#1 ++ sh)) = .ok (.srli ra sh) ∧
      (∃ e, decodeShort (mkImm 0x08#5 ra (1#1 ++ sh)) = .error e) ∧
      ∃ t, exec (.srli ra sh) s = .next t ∧ QueueOnly s t ∧
        RegisterEffect s t (oneReg (s.physReg ra) (a >>> sh.toNat)) none (some (a >>> sh.toNat == 0#32)) none) ∧
    (decodeShort (mkImm 0x09#5 ra (0#1 ++ sh)) = .ok (.srai ra sh) ∧
      (∃ e, decodeShort (mkImm 0x09#5 ra (1#1 ++ sh)) = .error e) ∧
      ∃ t, exec (.srai ra sh) s = .next t ∧ QueueOnly s t ∧
        RegisterEffect s t (oneReg (s.physReg ra) (a.sshiftRight sh.toNat)) none
          (some (a.sshiftRight sh.toNat == 0#32)) none)

/-- CMPEQ, CMPLT, CMPLTU, CMPEQI and CMPLTI: their encodings, F0 and nothing else (R314 to R316, R322, R323). -/
def Obligations.CompareResults : Prop :=
  ∀ (s : State) (ra rb : RegNum) (imm6 : BitVec 6),
    let a := s.readReg ra
    let b := s.readReg rb
    (decodeShort (mkShort 0x04#5 ra rb 0#2) = .ok (.cmpeq ra rb) ∧
      ∃ t, exec (.cmpeq ra rb) s = .next t ∧ QueueOnly s t ∧ RegisterEffect s t noReg none none (some (decide (a = b)))) ∧
    (decodeShort (mkShort 0x04#5 ra rb 1#2) = .ok (.cmplt ra rb) ∧
      ∃ t, exec (.cmplt ra rb) s = .next t ∧ QueueOnly s t ∧
        RegisterEffect s t noReg none none (some (decide (a.toInt < b.toInt)))) ∧
    (decodeShort (mkShort 0x04#5 ra rb 2#2) = .ok (.cmpltu ra rb) ∧
      ∃ t, exec (.cmpltu ra rb) s = .next t ∧ QueueOnly s t ∧
        RegisterEffect s t noReg none none (some (decide (a.toNat < b.toNat)))) ∧
    (decodeShort (mkImm 0x0A#5 ra imm6) = .ok (.cmpeqi ra imm6) ∧
      ∃ t, exec (.cmpeqi ra imm6) s = .next t ∧ QueueOnly s t ∧
        RegisterEffect s t noReg none none (some (decide (a = imm6.signExtend 32)))) ∧
    (decodeShort (mkImm 0x0B#5 ra imm6) = .ok (.cmplti ra imm6) ∧
      ∃ t, exec (.cmplti ra imm6) s = .next t ∧ QueueOnly s t ∧
        RegisterEffect s t noReg none none (some (decide (a.toInt < (imm6.signExtend 32 : Word).toInt))))

/-- MV, LDI, LDIL, LDIH and MVFC: their encodings, the register written, and no flag (R300, R318, R324, R325, R412). -/
def Obligations.MoveResults : Prop :=
  ∀ (s : State) (ra rb : RegNum) (imm6 : BitVec 6) (imm16 : BitVec 16) (cr : CReg),
    let a := s.readReg ra
    (decodeShort (mkShort 0x00#5 ra rb 1#2) = .ok (.mv ra rb) ∧
      ∃ t, exec (.mv ra rb) s = .next t ∧ QueueOnly s t ∧
        RegisterEffect s t (oneReg (s.physReg ra) (s.readReg rb)) none none none) ∧
    (decodeShort (mkImm 0x06#5 ra imm6) = .ok (.ldi ra imm6) ∧
      ∃ t, exec (.ldi ra imm6) s = .next t ∧ QueueOnly s t ∧
        RegisterEffect s t (oneReg (s.physReg ra) (imm6.signExtend 32)) none none none) ∧
    (decodeUnit (mkLong 0x01#6 ra 0#4 imm16) = .ok (.long (.ldil ra imm16)) ∧
      ∃ t, exec (.ldil ra imm16) s = .next t ∧ QueueOnly s t ∧
        RegisterEffect s t (oneReg (s.physReg ra) (imm16.signExtend 32)) none none none) ∧
    (decodeUnit (mkLong 0x02#6 ra 0#4 imm16) = .ok (.long (.ldih ra imm16)) ∧
      ∃ t, exec (.ldih ra imm16) s = .next t ∧ QueueOnly s t ∧
        RegisterEffect s t (oneReg (s.physReg ra) ((imm16.zeroExtend 32 <<< 16) ||| (a &&& 0x0000FFFF#32))) none none none) ∧
    (decodeShort (mkShort 0x16#5 ra cr.number 0#2) = .ok (.mvfc ra cr) ∧
      ∃ t, exec (.mvfc ra cr) s = .next t ∧ QueueOnly s t ∧
        RegisterEffect s t (oneReg (s.physReg ra) (s.readCr cr)) none none none)

/-- NOP, HINT and the four predicates have no effect of their own, in any state (R391 to R394, R410, R411). -/
def Obligations.NoEffectInstructions : Prop :=
  ∀ (s : State) (ra rb : RegNum),
    exec .nop s = .next s ∧ exec (.hint ra rb) s = .next s ∧ exec .exet s = .next s ∧ exec .exef s = .next s ∧
    exec .exect s = .next s ∧ exec .execf s = .next s

/-! ### Loads and stores -/

/-- Every load: where MemRead answers a value, it is written to the destination, extended as the rule says, and one data access is
counted; the frame is everything else (R350 to R356). -/
def Obligations.LoadResults : Prop :=
  ∀ (s : State) (ra rb : RegNum) (imm : BitVec 16) (v : Nat),
    let p := s.physReg ra
    let q := s.physReg (ra + 1#4)
    let ea := s.readReg rb
    let ed := s.readReg rb + imm.signExtend 32
    (s.memRead ea 1 = .ok v →
      (∃ t, exec (.ldb ra rb) s = .next t ∧ QueueAndAccess s t ∧
        RegisterEffect s t (oneReg p ((BitVec.ofNat 8 v).signExtend 32)) none none none) ∧
      (∃ t, exec (.ldbu ra rb) s = .next t ∧ QueueAndAccess s t ∧
        RegisterEffect s t (oneReg p ((BitVec.ofNat 8 v).zeroExtend 32)) none none none)) ∧
    (s.memRead ea 2 = .ok v →
      (∃ t, exec (.ldh ra rb) s = .next t ∧ QueueAndAccess s t ∧
        RegisterEffect s t (oneReg p ((BitVec.ofNat 16 v).signExtend 32)) none none none) ∧
      (∃ t, exec (.ldhu ra rb) s = .next t ∧ QueueAndAccess s t ∧
        RegisterEffect s t (oneReg p ((BitVec.ofNat 16 v).zeroExtend 32)) none none none)) ∧
    (s.memRead ea 4 = .ok v →
      ∃ t, exec (.ldw ra rb) s = .next t ∧ QueueAndAccess s t ∧
        RegisterEffect s t (oneReg p (BitVec.ofNat 32 v)) none none none) ∧
    (s.memRead ea 8 = .ok v → evenReg ra = true →
      ∃ t, exec (.ld2w ra rb) s = .next t ∧ QueueAndAccess s t ∧
        RegisterEffect s t (twoRegs p (BitVec.ofNat 32 (v / 2 ^ 32)) q (BitVec.ofNat 32 v)) none none none) ∧
    (s.memRead ed 1 = .ok v →
      (∃ t, exec (.ldbD ra rb imm) s = .next t ∧ QueueAndAccess s t ∧
        RegisterEffect s t (oneReg p ((BitVec.ofNat 8 v).signExtend 32)) none none none) ∧
      (∃ t, exec (.ldbuD ra rb imm) s = .next t ∧ QueueAndAccess s t ∧
        RegisterEffect s t (oneReg p ((BitVec.ofNat 8 v).zeroExtend 32)) none none none)) ∧
    (s.memRead ed 2 = .ok v →
      (∃ t, exec (.ldhD ra rb imm) s = .next t ∧ QueueAndAccess s t ∧
        RegisterEffect s t (oneReg p ((BitVec.ofNat 16 v).signExtend 32)) none none none) ∧
      (∃ t, exec (.ldhuD ra rb imm) s = .next t ∧ QueueAndAccess s t ∧
        RegisterEffect s t (oneReg p ((BitVec.ofNat 16 v).zeroExtend 32)) none none none)) ∧
    (s.memRead ed 4 = .ok v →
      ∃ t, exec (.ldwD ra rb imm) s = .next t ∧ QueueAndAccess s t ∧
        RegisterEffect s t (oneReg p (BitVec.ofNat 32 v)) none none none) ∧
    (s.memRead ed 8 = .ok v → evenReg ra = true →
      ∃ t, exec (.ld2wD ra rb imm) s = .next t ∧ QueueAndAccess s t ∧
        RegisterEffect s t (twoRegs p (BitVec.ofNat 32 (v / 2 ^ 32)) q (BitVec.ofNat 32 v)) none none none)

/-- Every store to memory: where the access is aligned and its chunks are backed, the low bytes of the data go to those chunks at
commit, one data access is counted, and every other byte and register is kept (R350, R357 to R360). -/
def Obligations.StoreResults : Prop :=
  ∀ (s : State) (ra rb : RegNum) (imm : BitVec 16) (cs : List Chunk),
    let v := (s.readReg ra).toNat
    let d := (s.readReg ra).toNat * 2 ^ 32 + (s.readReg (ra + 1#4)).toNat
    let sm := s.unit.effSM
    let ea := s.readReg rb
    let ed := s.readReg rb + imm.signExtend 32
    (segOf ea ≠ 0xF#4 →
      (s.chunks ea 1 .write sm = .ok cs →
        ∃ t, exec (.stb ra rb) s = .next t ∧ QueueAndAccess s t ∧ StoreEffect s t cs 1 v) ∧
      (s.misaligned ea 2 = false → s.chunks ea 2 .write sm = .ok cs →
        ∃ t, exec (.sth ra rb) s = .next t ∧ QueueAndAccess s t ∧ StoreEffect s t cs 2 v) ∧
      (s.misaligned ea 4 = false → s.chunks ea 4 .write sm = .ok cs →
        ∃ t, exec (.stw ra rb) s = .next t ∧ QueueAndAccess s t ∧ StoreEffect s t cs 4 v) ∧
      (s.misaligned ea 8 = false → s.chunks ea 8 .write sm = .ok cs → evenReg ra = true →
        ∃ t, exec (.st2w ra rb) s = .next t ∧ QueueAndAccess s t ∧ StoreEffect s t cs 8 d)) ∧
    (segOf ed ≠ 0xF#4 →
      (s.chunks ed 1 .write sm = .ok cs →
        ∃ t, exec (.stbD ra rb imm) s = .next t ∧ QueueAndAccess s t ∧ StoreEffect s t cs 1 v) ∧
      (s.misaligned ed 2 = false → s.chunks ed 2 .write sm = .ok cs →
        ∃ t, exec (.sthD ra rb imm) s = .next t ∧ QueueAndAccess s t ∧ StoreEffect s t cs 2 v) ∧
      (s.misaligned ed 4 = false → s.chunks ed 4 .write sm = .ok cs →
        ∃ t, exec (.stwD ra rb imm) s = .next t ∧ QueueAndAccess s t ∧ StoreEffect s t cs 4 v) ∧
      (s.misaligned ed 8 = false → s.chunks ed 8 .write sm = .ok cs → evenReg ra = true →
        ∃ t, exec (.st2wD ra rb imm) s = .next t ∧ QueueAndAccess s t ∧ StoreEffect s t cs 8 d))

/-- Aligned accesses that are backed: the direct segment reaches RAM and ROM at `pa = va`, a valid window reaches the block its mapping
register names, in RAM or in ROM, and a read and a fetch give the bytes there in the target's order (R122, R124, R125, R127, R130, R134,
R139, R147). -/
def Obligations.DirectAndMappedAccess : Prop :=
  ∀ (s : State) (va pa : Word) (n : Nat) (sm : Bool), 3 ≤ s.cfg.blockBits → n ∈ [1, 2, 4, 8] →
    let bytes := fun k => assemble s.cfg.endian ((List.range k).map fun i => s.byteAt (pa.toNat + i))
    (∀ kind, va.toNat % n = 0 → s.reaches va pa kind → backed s.cfg pa n kind →
      s.chunks va n kind sm = .ok [⟨va, pa, n, .bytes⟩]) ∧
    (va.toNat % n = 0 → s.reaches va pa .read → backed s.cfg pa n .read → s.memRead va n = .ok (bytes n)) ∧
    (s.pc.toNat % 4 = 0 → s.reaches s.pc pa .fetch → backed s.cfg pa 4 .fetch →
      s.fetch = some (BitVec.ofNat 32 (bytes 4)))

/-- In supervisor mode LDW and LDW.D at a listed device address load the register's value, and STW and STW.D there run its write function
at commit (R138, R141, R143, R355, R359). -/
def Obligations.DeviceAccessResults : Prop :=
  ∀ (s : State) (ra rb : RegNum) (imm : BitVec 16) (r : DevReg),
    let ea := s.readReg rb
    let ed := s.readReg rb + imm.signExtend 32
    s.unit.effSM = true → 3 ≤ s.cfg.blockBits →
    (devRegAt s.cfg ea = some r →
      (∃ t, exec (.ldw ra rb) s = .next t ∧ QueueAndAccess s t ∧
        RegisterEffect s t (oneReg (s.physReg ra) (s.devRead r)) none none none) ∧
      (∃ t, exec (.stw ra rb) s = .next t ∧ QueueAndAccess s t ∧ DeviceStoreEffect s t r (s.readReg ra))) ∧
    (devRegAt s.cfg ed = some r →
      (∃ t, exec (.ldwD ra rb imm) s = .next t ∧ QueueAndAccess s t ∧
        RegisterEffect s t (oneReg (s.physReg ra) (s.devRead r)) none none none) ∧
      (∃ t, exec (.stwD ra rb imm) s = .next t ∧ QueueAndAccess s t ∧ DeviceStoreEffect s t r (s.readReg ra)))

/-- What MemWrite stores in RAM, once committed, is found there byte by byte in the target's order (scenario B), and MemRead reads it
back (R134, R139, R140). -/
def Obligations.StoreThenLoad : Prop :=
  ∀ (s : State) (va : Word) (n v : Nat),
    n ∈ [1, 2, 4, 8] → 3 ≤ s.cfg.blockBits → Memory.wf s.cfg s.mem = true → s.unitIdle →
    segOf va = 0x0#4 → va.toNat % n = 0 → va.toNat + n ≤ s.cfg.ramSize →
    ∃ es, s.memWrite va n v = .ok es ∧
      ((s.pushAll es).commit).memRead va n = .ok (v % 2 ^ (8 * n)) ∧
      ∀ i, i < n → ((s.pushAll es).commit).byteAt (va.toNat + i) =
        match s.cfg.endian with
        | .little => BitVec.ofNat 8 (v / 2 ^ (8 * i))
        | .big => BitVec.ofNat 8 (v / 2 ^ (8 * (n - 1 - i)))

/-- Which fault a data access answers: alignment first, then the segment's, then the bus's, through a window as well as directly, and for a
split access the first chunk's before the second's (R127, R129, R130, R132, R136, R138, R361). That a device
access is refused by the width of the whole access, also where a block's end cuts it, is the model's reading (assumption 12). -/
def Obligations.AccessChecks : Prop :=
  ∀ (s : State) (ea : Word) (n v : Nat), n ∈ [1, 2, 4, 8] →
    let k := ea.toNat % 2 ^ 28 / blockSize s.cfg
    let m := s.dev.maps.getD k 0#32
    let pa := ((m &&& 0x0000FFFF#32) <<< s.cfg.blockBits) ||| BitVec.ofNat 32 (ea.toNat % blockSize s.cfg)
    (s.cfg.strictAlign = true → ea.toNat % n ≠ 0 →
      s.memRead ea n = .error .alignment ∧ s.memWrite ea n v = .error .alignment) ∧
    (s.cfg.strictAlign = false ∨ ea.toNat % n = 0 →
      ((segOf ea ≠ 0x0#4 ∧ segOf ea ≠ 0x1#4 ∧ segOf ea ≠ 0xF#4) ∨
        (segOf ea = 0x1#4 ∧ (s.cfg.nmap ≤ k ∨ m.getLsbD 31 = false)) ∨
        (segOf ea = 0xF#4 ∧ s.unit.effSM = false) →
        s.memRead ea n = .error .segmentation ∧ s.memWrite ea n v = .error .segmentation) ∧
      (segOf ea = 0x1#4 → m.getLsbD 30 = true → s.memWrite ea n v = .error .segmentation) ∧
      ((segOf ea = 0xF#4 ∧ s.unit.effSM = true ∧ (n ≠ 4 ∨ devRegAt s.cfg ea = none)) ∨
        (segOf ea = 0x0#4 ∧ s.cfg.ramSize ≤ ea.toNat ∧
          (ea.toNat < s.cfg.romBase ∨ s.cfg.romBase + s.cfg.romSize ≤ ea.toNat)) →
        s.memRead ea n = .error .bus ∧ s.memWrite ea n v = .error .bus) ∧
      (segOf ea = 0x0#4 → s.cfg.ramSize ≤ ea.toNat → s.memWrite ea n v = .error .bus) ∧
      (segOf ea = 0x1#4 → k < s.cfg.nmap → m.getLsbD 31 = true → s.cfg.ramSize ≤ pa.toNat →
        (pa.toNat < s.cfg.romBase ∨ s.cfg.romBase + s.cfg.romSize ≤ pa.toNat → s.memRead ea n = .error .bus) ∧
        (m.getLsbD 30 = false → s.memWrite ea n v = .error .bus)) ∧
      (∀ f, (s.chunks ea n .read s.unit.effSM = .error f → s.memRead ea n = .error f) ∧
        (s.chunks ea n .write s.unit.effSM = .error f → s.memWrite ea n v = .error f))) ∧
    (3 ≤ s.cfg.blockBits → s.cfg.blockBits ≤ 28 → ∀ (kind : AccessKind) (sm : Bool),
      let look := fun a l => translate s.cfg s.dev.maps a l kind sm
      let check := fun a p l => physCheck s.cfg a p l n kind
      (∀ f, look ea n = .error f → s.chunks ea n kind sm = .error f) ∧
      (∀ p c, look ea n = .ok (p, c) →
        (∀ f, check ea p c = .error f → s.chunks ea n kind sm = .error f) ∧
        (∀ b, check ea p c = .ok b →
          (c = n → s.chunks ea n kind sm = .ok [⟨ea, p, n, b⟩]) ∧
          (c < n →
            let a := ea + BitVec.ofNat 32 c
            (∀ f, look a (n - c) = .error f → s.chunks ea n kind sm = .error f) ∧
            (∀ q d, look a (n - c) = .ok (q, d) →
              (∀ f, check a q d = .error f → s.chunks ea n kind sm = .error f) ∧
              (∀ b', check a q d = .ok b' →
                s.chunks ea n kind sm = .ok [⟨ea, p, c, b⟩, ⟨a, q, n - c, b'⟩]))))))

/-- A faulting load or store discards the unit and enters the handler: CAUSE holds the fault's code, BADADDR the effective address, and
BPC the unit's own address (R132, R262, R350, R520, R521, R528). -/
def Obligations.AccessFaultsTaken : Prop :=
  ∀ (s : State) (ra rb : RegNum) (imm : BitVec 16) (f : MemFault) (h : Word),
    s.cr.legal → s.cfg.hasFaultVector = true → s.readVector (faultCode f) = some h →
    (∀ x ∈ loadForms s ra rb imm, s.memRead x.2.2 x.2.1 = .error f →
      ∃ t, exec x.1 s = .next t ∧ ExceptionTaken s t (BitVec.ofNat 32 (faultCode f)) x.2.2 s.pc h) ∧
    (∀ x ∈ storeForms s ra rb imm, (∀ v, s.memWrite x.2.2 x.2.1 v = .error f) →
      ∃ t, exec x.1 s = .next t ∧ ExceptionTaken s t (BitVec.ofNat 32 (faultCode f)) x.2.2 s.pc h)

/-! ### Control transfers -/

/-- A taken branch records `pc` plus its word displacement as the next PC and changes nothing else; one not taken changes nothing (R379
to R382, R386 to R388). -/
def Obligations.BranchResults : Prop :=
  ∀ (s : State) (d : BitVec 10) (l : BitVec 16),
    let t := { s with unit := { s.unit with npc := some (s.pc + (d.signExtend 32) <<< 2) } }
    let tl := { s with unit := { s.unit with npc := some (s.pc + (l.signExtend 32) <<< 2) } }
    exec (.bra d) s = .next t ∧
    exec (.brt d) s = .next (if pswF0 s.cr.psw then t else s) ∧
    exec (.brf d) s = .next (if pswF0 s.cr.psw then s else t) ∧
    exec (.braL l) s = .next tl ∧
    exec (.brtL l) s = .next (if pswF0 s.cr.psw then tl else s) ∧
    exec (.brfL l) s = .next (if pswF0 s.cr.psw then s else tl)

/-- BL, BL.L and JL write `pc + 4` to `r14` and record their target, JL's from the old register; JMP only records it (R52, R379, R383
to R385, R389). -/
def Obligations.LinkAndJumpResults : Prop :=
  ∀ (s : State) (d : BitVec 10) (l : BitVec 16) (rb : RegNum),
    let link := oneReg (s.physReg 14#4) (s.pc + 4#32)
    (∃ t, exec (.bl d) s = .next t ∧ QueueAndTarget s t (s.pc + (d.signExtend 32) <<< 2) ∧
      RegisterEffect s t link none none none) ∧
    (∃ t, exec (.blL l) s = .next t ∧ QueueAndTarget s t (s.pc + (l.signExtend 32) <<< 2) ∧
      RegisterEffect s t link none none none) ∧
    (∃ t, exec (.jl rb) s = .next t ∧ QueueAndTarget s t (s.readReg rb) ∧ RegisterEffect s t link none none none) ∧
    (∃ t, exec (.jmp rb) s = .next t ∧ t = { s with unit := { s.unit with npc := some (s.readReg rb) } })

/-! ### System instructions -/

/-- MVTC in supervisor mode: at commit the register takes the value's bits inside `WMASK` and keeps the others, no other register or byte
changes, and a write to the PSW sets the effective bank and mode at once (R63, R64, R74, R413). -/
def Obligations.MvtcResults : Prop :=
  (crMask .psw = 0x00000707#32 ∧ crMask .bpsw = 0x00000707#32 ∧ crMask .bpc = 0xFFFFFFFC#32 ∧
    crMask .evb = 0xFFFFFF80#32 ∧ crMask .cause = 0x80000F1F#32 ∧ crMask .badaddr = 0xFFFFFFFF#32 ∧
    crMask .supp = 0x00000000#32) ∧
  ∀ (s : State) (cr : CReg) (rb : RegNum), s.unit.effSM = true →
    let v := s.readReg rb
    ∃ t, exec (.mvtc cr rb) s = .next t ∧ OnlyTheUnit s t ∧
      (cr ≠ .psw → QueueOnly s t) ∧
      (cr = .psw →
        t.unit = { s.unit with queue := t.unit.queue, effRB := v.getLsbD 9, effSM := v.getLsbD 10 }) ∧
      (∀ n, t.commit.readCr n =
        if n = cr then (s.commit.readCr n &&& ~~~ crMask n) ||| (v &&& crMask n) else s.commit.readCr n) ∧
      RegsAfter s t noReg ∧ BytesKept s t ∧ DevicesKept s t

/-- RTI in supervisor mode: the PSW takes BPSW's bits at commit, the next PC is BPC, and nothing else changes (R418, R530). -/
def Obligations.RtiResults : Prop :=
  ∀ s : State, s.unit.effSM = true →
    ∃ t, exec .rti s = .next t ∧ OnlyTheUnit s t ∧ QueueAndTarget s t s.cr.bpc ∧
      t.commit.cr.psw = (s.commit.cr.psw &&& ~~~ 0x00000707#32) ||| (s.cr.bpsw &&& 0x00000707#32) ∧
      OtherCrsKept s t ∧ RegsAfter s t noReg ∧ BytesKept s t ∧ DevicesKept s t

/-- WAIT and STOP in supervisor mode, and BRK in either mode: `waiting` is set, or the exit with `x[0]` or the break is requested, and
nothing else changes (R419 to R421, R561). -/
def Obligations.WaitStopBrkResults : Prop :=
  ∀ s : State,
    (s.unit.effSM = true → exec .wait s = .next { s with waiting := true }) ∧
    (s.unit.effSM = true →
      exec .stop s = .next { s with unit := { s.unit with req := some (.exit (s.readReg 0#4)) } }) ∧
    exec .brk s = .next { s with unit := { s.unit with req := some .brk } }

/-- STOP, BRK and the `exit` call end the run at the end of their unit, with the PC and the time as they were; TRAP without a fault vector
completes and stops the run with `trapped` (R265, R266, R415, R420, R421, R461). A time past
64 bits (assumption 7) and the quiet machine's having no stop request to come (assumption 13) are the model's choices. -/
def Obligations.StopsEndTheRun : Prop :=
  ∀ (s : State) (w : Word), s.atUnit w →
    let stopped := fun r => { s with run := .stopped (some r), unit := UnitState.idle s.cr.psw }
    (decodeUnit w = .ok (.long .stop) → pswSM s.cr.psw = true →
      step s = .next (stopped (.exited (s.committedReg 0#4)))) ∧
    (decodeUnit w = .ok (.long .brk) → step s = .next (stopped (.stopped .sigtrap))) ∧
    (decodeUnit w = .ok (.long (.trap s.cfg.syscallTrap)) →
      tableLookup s.cfg.syscallMap (s.committedReg 0#4) = some .exit →
      step s = .next (stopped (.exited (s.committedReg 1#4)))) ∧
    (∀ n, decodeUnit w = .ok (.long (.trap n)) → n ≠ s.cfg.syscallTrap → s.cfg.hasFaultVector = false →
      s.quiet →
      step s = .next { stopped .trapped with pc := s.pc + 4#32, time := addTicks s.time s.cfg.unitCost })

/-- In user mode MVTC, RTI, WAIT and STOP raise IllegalInstruction with the unit's word, returning to the unit (R269, R520, R561). -/
def Obligations.UserModePrivilege : Prop :=
  ∀ (s : State) (cr : CReg) (rb : RegNum) (h : Word),
    s.unit.effSM = false → s.cr.legal → s.cfg.hasFaultVector = true → s.readVector 1 = some h →
    ∀ i ∈ privilegedForms cr rb,
      ∃ t, exec i s = .next t ∧ ExceptionTaken s t 0x00000001#32 s.unit.word s.pc h

/-- `TRAP n`: the bridge for the syscall trap, else a software trap that returns to `pc + 4` and records `n`, or the request to stop with
`trapped` where faults are not vectored (R415, R520). -/
def Obligations.SoftwareTrapResults : Prop :=
  ∀ (s : State) (n : BitVec 4) (h : Word),
    (n = s.cfg.syscallTrap → exec (.trap n) s = bridge s) ∧
    (n ≠ s.cfg.syscallTrap → s.cfg.hasFaultVector = true → s.cr.legal → s.readVector 5 = some h →
      ∃ t, exec (.trap n) s = .next t ∧
        ExceptionTaken s t ((n.zeroExtend 32 <<< 8) ||| 0x00000005#32) s.unit.word (s.pc + 4#32) h) ∧
    (n ≠ s.cfg.syscallTrap → s.cfg.hasFaultVector = false →
      exec (.trap n) s = .next { s with unit := { s.unit with req := some .trapped } })

/-! ### Exceptions and interrupts -/

/-- Where faults are not vectored, or the vector itself cannot be read, every raise discards the unit and stops the run, the PC, the time, the
registers and memory as they were: a faulting access, a privileged instruction in user mode, a software trap whose vector cannot be read
(without vectors it requests `trapped`, SoftwareTrapResults), and a unit that does not decode (R262, R266, R526, R528). -/
def Obligations.NoVectorStops : Prop :=
  ∀ (s : State) (ra rb : RegNum) (imm : BitVec 16) (cr : CReg) (f : MemFault),
    let Stops := fun (i : Instr) (code : Nat) (sig : Signal) =>
      (s.cfg.hasFaultVector = false ∨ s.readVector code = none) →
        ∃ t, exec i s = .next t ∧ t.unit.queue = [] ∧
          t = { s with unit := t.unit,
                       run := .stopped (some (.signalled (if s.cfg.hasFaultVector then .sigbus else sig))) } ∧
          t.finishUnit = .next t.endUnit
    (∀ x ∈ loadForms s ra rb imm, s.memRead x.2.2 x.2.1 = .error f → Stops x.1 (faultCode f) (faultSignal f)) ∧
    (∀ x ∈ storeForms s ra rb imm, (∀ v, s.memWrite x.2.2 x.2.1 v = .error f) →
      Stops x.1 (faultCode f) (faultSignal f)) ∧
    (s.unit.effSM = false → ∀ i ∈ privilegedForms cr rb, Stops i 1 .sigill) ∧
    (s.cfg.hasFaultVector = true → ∀ n, n ≠ s.cfg.syscallTrap → Stops (.trap n) 5 .sigbus) ∧
    (∀ w e, s.atUnit w → decodeUnit w = .error e → (s.cfg.hasFaultVector = false ∨ s.readVector 1 = none) →
      step s = .next { s with
        run := .stopped (some (.signalled (if s.cfg.hasFaultVector then .sigbus else .sigill)))
        unit := UnitState.idle s.cr.psw })

/-- Trap entry: the vector of an exception is its code, that of an interrupt `16 + L`; the handler's address is the word at `EVB + 4*v`
read in supervisor mode; what is saved and set; and a vector that cannot be read stops the run with nothing written (R525, R528). -/
def Obligations.TrapEntryWrites : Prop :=
  (∀ (b : Word) (n : BitVec 4),
    (TrapKind.exception .illegalInstruction b).vector = 1 ∧ (TrapKind.exception .busFault b).vector = 2 ∧
    (TrapKind.exception .segmentationFault b).vector = 3 ∧ (TrapKind.exception .alignmentFault b).vector = 4 ∧
    (TrapKind.exception (.softwareTrap n) b).vector = 5) ∧
  (∀ l, (TrapKind.interrupt l).vector = 16 + l) ∧
  (∀ (s : State) (v : Nat),
    let va := s.cr.evb + BitVec.ofNat 32 (4 * v)
    (segOf va = 0xF#4 → s.readVector v = none) ∧
    (∀ f, s.chunks va 4 .read true = .error f → s.readVector v = none) ∧
    (∀ cs, segOf va ≠ 0xF#4 → s.chunks va 4 .read true = .ok cs →
      s.readVector v = some (BitVec.ofNat 32 (assemble s.cfg.endian (s.chunkBytes cs))))) ∧
  (∀ (s : State) (k : TrapKind) (ret h : Word), s.cr.legal → s.readVector k.vector = some h →
    HandlerEntered s (s.trapEntry k ret)
      (match k with
        | .exception (.softwareTrap n) _ => (n.zeroExtend 32 <<< 8) ||| 0x00000005#32
        | .exception e _ => BitVec.ofNat 32 e.code
        | .interrupt l => (0x80000000#32 ||| BitVec.ofNat 32 l) &&& 0x80000F1F#32)
      (match k with
        | .exception _ b => b
        | .interrupt _ => s.cr.badaddr) ret h ∧
    (s.trapEntry k ret).dev = s.dev) ∧
  (∀ (s : State) (k : TrapKind) (ret : Word), s.readVector k.vector = none →
    s.trapEntry k ret = { s with run := .stopped (some (.signalled .sigbus)) })

/-- RTI straight after a trap entry gives back the PSW and goes to the return address; the registers were never touched (R529 to
R531). -/
def Obligations.RtiUndoesTrapEntry : Prop :=
  ∀ (s : State) (k : TrapKind) (ret h : Word), s.cr.legal → s.readVector k.vector = some h →
    ∃ t, exec .rti (s.trapEntry k ret).endUnit = .next t ∧ t.commitUnit.cr.psw = s.cr.psw ∧
      t.commitUnit.advancePc.pc = ret &&& 0xFFFFFFFC#32 ∧ t.commitUnit.regs = s.regs ∧ t.commitUnit.mem = s.mem

/-- The interrupt check: with IE set and a level requested, the handler of that level is entered from the next unit's address and exactly
that level is acknowledged; with IE clear or nothing requested, nothing happens; with an unreadable vector the run stops and the level
stays requested (R540). The levels are 1 to `NLEVELS` (R10): the model's reading where that is not 15 (assumption 21). -/
def Obligations.InterruptTaken : Prop :=
  ∀ (s : State) (h : Word),
    let l := s.icLevel
    (pswIE s.cr.psw = true → l ≠ 0 → s.run = .running → s.cr.legal → s.readVector (16 + l) = some h →
      HandlerEntered s s.interruptCheck (0x80000000#32 ||| BitVec.ofNat 32 l) s.cr.badaddr s.pc h ∧
      s.interruptCheck.dev = { s.dev with icPending := s.dev.icPending &&& ~~~ (1#32 <<< l),
                                          icLatched := s.dev.icLatched &&& ~~~ (1#32 <<< l) }) ∧
    (pswIE s.cr.psw = true → l ≠ 0 → s.readVector (16 + l) = none →
      s.interruptCheck = { s with run := .stopped (some (.signalled .sigbus)) }) ∧
    (pswIE s.cr.psw = false ∨ l = 0 → s.interruptCheck = s)

/-- `IC_LEVEL`: 0 when the controller is off, else the largest level of 1 to `NLEVELS` requested and not masked, or 0 when there is none; it
is read at 0xF000_0110 and ignores writes (R545). R545 writes 1 to 15; the bound `NLEVELS` (R10) is the model's reading where that is not
15 (assumption 21). -/
def Obligations.IcLevelIsHighest : Prop :=
  ∀ (s : State) (v : Word) (now : Ticks),
    let open_ := (s.dev.icPending ||| s.dev.icLatched) &&& ~~~ s.dev.icMask
    devRegAt s.cfg 0xF0000110#32 = some .icLevel ∧
    s.devRead .icLevel = BitVec.ofNat 32 s.icLevel ∧ s.devWrite .icLevel v now = s ∧
    (s.dev.icControl.getLsbD 0 = false → s.icLevel = 0) ∧
    (s.dev.icControl.getLsbD 0 = true →
      (s.icLevel = 0 ∧ ∀ j, 1 ≤ j → j ≤ s.cfg.nlevels → open_.getLsbD j = false) ∨
      (1 ≤ s.icLevel ∧ s.icLevel ≤ s.cfg.nlevels ∧ open_.getLsbD s.icLevel = true ∧
        ∀ j, s.icLevel < j → j ≤ s.cfg.nlevels → open_.getLsbD j = false))

/-! ### Whole-machine rules -/

/-- A step from user mode changes no setting of a device, never EVB, and no saved register nor the mode, the bank or IE, unless it enters
a handler, which is in supervisor mode with IE clear and bank 1 (R8, R9, R560 to R562). -/
def Obligations.UserModeKeepsControl : Prop :=
  ∀ s t : State, s.unitIdle → pswSM s.cr.psw = false → step s = .next t →
    SettingsKept s t ∧ t.cr.evb = s.cr.evb ∧
    ((t.cr.bpsw = s.cr.bpsw ∧ t.cr.bpc = s.cr.bpc ∧ t.cr.cause = s.cr.cause ∧ t.cr.badaddr = s.cr.badaddr ∧
        ∀ i, 3 ≤ i → t.cr.psw.getLsbD i = s.cr.psw.getLsbD i) ∨
      (pswSM t.cr.psw = true ∧ pswIE t.cr.psw = false ∧ pswRB t.cr.psw = true))

/-- An instruction writes no general register that its bank does not name, and so a step from user mode leaves the other bank as it was
(R55, R56, P1). -/
def Obligations.BankIsolation : Prop :=
  (∀ (i : Instr) (s t : State), s.unit.queue = [] → exec i s = .next t →
    ∀ p, (∀ r, s.physReg r ≠ p) → t.commit.readPhys p = s.readPhys p) ∧
  (∀ s t : State, s.unitIdle → pswSM s.cr.psw = false → step s = .next t →
    ∀ p, (∀ r, phys (pswRB s.cr.psw) r ≠ p) → t.readPhys p = s.readPhys p)

/-- What an instruction does is computed from the committed state: whatever the partner half has queued, an instruction that does not raise
pushes the same entries after it and has the same other effects, and one that raises leaves the same state (R257, P2). -/
def Obligations.HalvesReadCommittedState : Prop :=
  ∀ (i : Instr) (s t : State) (q : List WbEntry), s.unit.queue = [] → s.unit.raised = false →
    exec i s = .next t →
    exec i { s with unit := { s.unit with queue := q } } =
      .next (if t.unit.raised then t else { t with unit := { t.unit with queue := q ++ t.unit.queue } })

/-- A first half that records a next PC suppresses the second, which is not executed, and SUPP counts it once at commit; any other first
half that does not raise is followed by the second, and SUPP does not count (R258, R395). -/
def Obligations.SecondHalfSuppressed : Prop :=
  ∀ (a b : Instr) (s t : State), gateOpen b s.cr.psw = true → exec a s = .next t → t.unit.raised = false →
    (t.unit.npc.isSome = true →
      ∃ u, execPair a b s = .next u ∧ u = { t with unit := { t.unit with suppressed := true } } ∧
        u.commitUnit.cr.supp = t.commit.cr.supp + 1#32 ∧ u.commitUnit.regs = t.commit.regs ∧
        u.commitUnit.mem = t.commit.mem) ∧
    (t.unit.npc = none → gateOpen a s.cr.psw = true → execPair a b s = exec b t) ∧
    (t.unit.npc = none → gateOpen a s.cr.psw = false → execPair a b s = .next t) ∧
    (t.unit.suppressed = false → t.commitUnit.cr.supp = t.commit.cr.supp)

/-- Each predicate lets its partner execute exactly when its condition on the committed PSW holds, whichever half it is (R255, R391
to R394). -/
def Obligations.PredicatesGate : Prop :=
  ∀ (s : State) (i : Instr), s.unit.raised = false → s.unit.npc = none →
    ∀ x ∈ [(Instr.exet, pswF0 s.cr.psw), (Instr.exef, !pswF0 s.cr.psw), (Instr.exect, pswC s.cr.psw),
        (Instr.execf, !pswC s.cr.psw)],
      (x.2 = false → execPair x.1 i s = .next s ∧ execPair i x.1 s = .next s) ∧
      (x.2 = true → execPair x.1 i s = exec i s ∧
        ∀ t, exec i s = .next t → t.unit.raised = false → t.unit.npc = none →
          execPair i x.1 s = .next t)

/-! ### The unit and the step -/

/-- A step runs the decoded unit: a long instruction is exec of it, a pair is both its halves in the order of its format, from a fresh unit
that holds the word, and then the unit ends (R250, R253, R254). -/
def Obligations.StepRunsTheUnit : Prop :=
  ∀ (s : State) (w : Word), s.atUnit w →
    let s0 := { s with unit := { UnitState.idle s.cr.psw with word := w } }
    (∀ i, decodeUnit w = .ok (.long i) → step s = andThen (exec i s0) State.finishUnit) ∧
    (∀ l r, decodeUnit w = .ok (.pair .leftFirst l r) → step s = andThen (execPair l r s0) State.finishUnit) ∧
    (∀ l r, decodeUnit w = .ok (.pair .rightFirst l r) → step s = andThen (execPair r l s0) State.finishUnit)

/-- The end of a unit that raised nothing and asked for no stop: commit, the PC to the recorded target or `pc + 4`, the ticks, and the
boundary, which in a quiet machine changes nothing (R250, R259 to R261, R263). Once the events are drained and an interrupt is taken or not,
a stop request is cleared and stops the run with SIGINT (R264); else a single step stops it with SIGTRAP (R267); else the run goes on.
Three things here are the model's: that a run which the interrupt's entry ended keeps that reason is its reading (assumption 5), that a
stop request comes within the step as `arrivals` says (and none comes in a quiet machine) is its choice (assumption 13), and so is a time
past 64 bits (assumption 7). So is that the
host's print returns, where a drained event prints (assumption 3). -/
def Obligations.QuietUnitAdvances : Prop :=
  ∀ (s t : State) (w : Word) (d : FetchUnit), s.atUnit w → decodeUnit w = .ok d →
    execUnit d { s with unit := { UnitState.idle s.cr.psw with word := w } } = .next t →
    t.unit.raised = false → t.unit.req = none →
    let u := { t.commitUnit with
      pc := t.unit.npc.getD (s.pc + 4#32)
      time := addTicks s.time (s.cfg.unitCost + s.cfg.memWait * t.unit.acc) }
    step s = u.boundary false ∧ (u.quiet → step s = .next { u with unit := UnitState.idle u.cr.psw }) ∧
    (∀ v, u.advance u.time = some v →
      let r := v.takeArrival.interruptCheck
      let idle := UnitState.idle r.cr.psw
      r.stopRequest = (t.stopRequest || t.host.arrivals.headD false) ∧ r.singleStep = s.singleStep ∧
      (r.run ≠ .running → step s = .next { r with unit := idle }) ∧
      (r.run = .running → r.stopRequest = true →
        step s = .next { r with stopRequest := false, run := .stopped (some (.stopped .sigint)), unit := idle }) ∧
      (r.run = .running → r.stopRequest = false → r.singleStep = true →
        step s = .next { r with run := .stopped (some (.stopped .sigtrap)), unit := idle }) ∧
      (r.run = .running → r.stopRequest = false → r.singleStep = false → step s = .next { r with unit := idle }))

/-- A unit that does not decode enters the IllegalInstruction handler before any half executes: BADADDR is its word, BPC its address, and
only the tick and the trap registers show (R214, R252, R261, R520). A time past 64 bits (assumption 7) and the quiet machine's having no
stop request to come (assumption 13) are the model's choices. -/
def Obligations.IllegalUnitRaises : Prop :=
  ∀ (s : State) (w h : Word) (e : DecodeError), s.atUnit w → decodeUnit w = .error e → s.cr.legal →
    s.cfg.hasFaultVector = true → s.readVector 1 = some h → s.quiet →
    step s = .next { s with
      pc := h
      time := addTicks s.time s.cfg.unitCost
      unit := UnitState.idle ((s.cr.psw &&& 0x00000007#32) ||| 0x00000600#32)
      cr := { s.cr with
        psw := (s.cr.psw &&& 0x00000007#32) ||| 0x00000600#32
        bpsw := s.cr.psw
        bpc := s.pc &&& 0xFFFFFFFC#32
        cause := 0x00000001#32
        badaddr := w } }

/-- A fetch fault (a misaligned PC, or a fault of translation or of the physical check) stops the run and changes nothing else, whether or
not faults are vectored (R251). -/
def Obligations.FetchFaultStops : Prop :=
  (∀ s : State, s.pc.toNat % 4 ≠ 0 → s.fetch = none) ∧
  (∀ (s : State) (f : MemFault), s.chunks s.pc 4 .fetch (pswSM s.cr.psw) = .error f → s.fetch = none) ∧
  (∀ s : State, s.run = .running → s.waiting = false → s.fetch = none →
    step s = .next { s with run := .stopped (some (.signalled .sigbus)), unit := UnitState.idle s.cr.psw })

/-- Translation clips: the length it answers never passes a block boundary, ends exactly there when the access would cross it (P3), and
stays in one segment (R128). -/
def Obligations.TranslateClips : Prop :=
  ∀ (c : Config) (maps : List Word) (va : Word) (len : Nat) (kind : AccessKind) (sm : Bool) (pa : Word) (l : Nat),
    translate c maps va len kind sm = .ok (pa, l) →
    l = min len (blockSize c - va.toNat % blockSize c) ∧
    (blockSize c < va.toNat % blockSize c + len →
      l < len ∧ va.toNat + l = (va.toNat / blockSize c + 1) * blockSize c) ∧
    (c.blockBits ≤ 28 → ∀ i, i < l → (va.toNat + i) / 2 ^ 28 = va.toNat / 2 ^ 28)

/-- The wait step (R546, R547). With nothing requested a stop request ends it, an empty queue leaves it idle, and otherwise time jumps to the next
event and the events due are drained. Then, or at once where a level was requested: with nothing requested the wait goes on; with a level
requested and IE 0 it ends without a trap; with IE 1 that level's handler is entered and the level acknowledged, or the run stops where the
vector cannot be read. A stop request that is there by then, or came in the meantime (R264), stops the run, or else a single step does.
That neither of the two replaces the reason of a run which an unreadable vector ended is the model's reading (assumption 5), and that a
stop request comes in the meantime as `arrivals` says, one poll a step, is its choice (assumption 13). That the drain
ends there rests on the model's choice that the host's print returns (assumption 3) and on its readings of an endless timer and of a time past 64
bits (assumptions 4 and 7); that the levels are 1 to `NLEVELS` (R10), and so which bit is acknowledged, is its reading where that is not 15
(assumption 21). -/
def Obligations.WaitStepResults : Prop :=
  ∀ s : State, s.run = .running → s.waiting = true → s.unitIdle →
    let stopped := fun (r : State) (g : Signal) => { r with run := .stopped (some (.stopped g)) }
    let polled := fun (r : State) =>
      if r.stopRequest then stopped { r with stopRequest := false } .sigint
      else if r.singleStep then stopped r .sigtrap
      else r
    (s.icLevel = 0 → s.stopRequest = true → step s = .next (stopped { s with stopRequest := false } .sigint)) ∧
    (s.icLevel = 0 → s.stopRequest = false → s.events = [] →
      step s = .next (if s.singleStep then stopped s .sigtrap else s)) ∧
    (∀ u, (s.icLevel ≠ 0 ∧ u = s) ∨
        (s.icLevel = 0 ∧ s.stopRequest = false ∧ ∃ e rest, s.events = e :: rest ∧ u.time = e.fireTime ∧
          ({ s with time := e.fireTime }.advance e.fireTime) = some u) →
      let r := u.takeArrival
      let woken := { r with waiting := false }
      (u.icLevel = 0 → step s = .next (polled r)) ∧
      (u.icLevel ≠ 0 → pswIE s.cr.psw = false → step s = .next (polled woken)) ∧
      (∀ h, u.icLevel ≠ 0 → pswIE s.cr.psw = true → s.cr.legal → u.readVector (16 + u.icLevel) = some h →
        ∃ t, step s = .next (polled t) ∧
          HandlerEntered r t (0x80000000#32 ||| BitVec.ofNat 32 u.icLevel) s.cr.badaddr s.pc h ∧ t.unitIdle ∧
          t.dev = { u.dev with icPending := u.dev.icPending &&& ~~~ (1#32 <<< u.icLevel),
                               icLatched := u.dev.icLatched &&& ~~~ (1#32 <<< u.icLevel) }) ∧
      (u.icLevel ≠ 0 → pswIE s.cr.psw = true → u.readVector (16 + u.icLevel) = none →
        step s = .next { woken with run := .stopped (some (.signalled .sigbus)) })) ∧
    (∀ e rest, s.icLevel = 0 → s.stopRequest = false → s.events = e :: rest → ¬ s.endlessTimer e.fireTime →
      ∃ u, ({ s with time := e.fireTime }.advance e.fireTime) = some u ∧ u.time = e.fireTime ∧
        eventDue e.fireTime u.events = false)

/-! ### The syscall bridge -/

/-- Calls that fail before they do anything: an unknown number is ENOSYS, a call on an fd that is not open is EINVAL (a second close
included), and a pipe end of the wrong direction is EBADF, or ESPIPE for `lseek`. The result is -1 and the errno, and nothing else changes
(R450, R451, R453, R457, R485, P6). -/
def Obligations.FailedCallsReportErrors : Prop :=
  ∀ s : State,
    let Fails := fun (e : Word) =>
      ∃ t, exec (.trap s.cfg.syscallTrap) s = .next t ∧ QueueOnly s t ∧
        RegisterEffect s t (twoRegs (s.physReg 0#4) 0xFFFFFFFF#32 (s.physReg 1#4) e) none none none
    let call := tableLookup s.cfg.syscallMap (s.readReg 0#4)
    let slot := s.slot (s.readReg 1#4)
    (call = none → Fails 88#32) ∧
    (∀ c ∈ [Syscall.close, .read, .write, .lseek, .fstat, .ftruncate], call = some c → slot = .free → Fails 22#32) ∧
    (∀ p, call = some .read → slot = .pipeWr p → Fails 9#32) ∧
    (∀ p, call = some .write → slot = .pipeRd p → Fails 9#32) ∧
    (∀ p, call = some .lseek → slot = .pipeRd p ∨ slot = .pipeWr p → Fails 29#32)

/-- `write` to a pipe appends all its bytes or, over the cap or with the reader closed, none, and notifies the reader when the pipe was empty;
`read` drains from the front to the target's memory and notifies when nothing is left; an empty pipe is EAGAIN while its writer is open and
end of file after. Every call writes r0 and r1, and nothing but
the pipe, the memory read into and the log changes, at once or at the commit (R451, R464, R465, R479,
R487 P4). -/
def Obligations.PipesCarryBytes : Prop :=
  ∀ (s : State) (p : Nat) (x : Pipe),
    let va := s.readReg 2#4
    let n := (s.readReg 3#4).toNat
    let call := tableLookup s.cfg.syscallMap (s.readReg 0#4)
    let slot := s.slot (s.readReg 1#4)
    let results := fun (r0 r1 : Word) => twoRegs (s.physReg 0#4) r0 (s.physReg 1#4) r1
    let OnlyResults := fun (r0 r1 : Word) =>
      ∃ t, exec (.trap s.cfg.syscallTrap) s = .next t ∧ QueueOnly s t ∧
        RegisterEffect s t (results r0 r1) none none none
    tableLookup s.pipes p = some x →
    (call = some .write → slot = .pipeWr p → s.checkRange va n .read = true →
      (x.rdOpen = false → OnlyResults 0xFFFFFFFF#32 32#32) ∧
      (x.rdOpen = true → s.cfg.pipeCap < x.buf.length + n → OnlyResults 0xFFFFFFFF#32 27#32) ∧
      (x.rdOpen = true → x.buf.length + n ≤ s.cfg.pipeCap →
        ∃ t notes, exec (.trap s.cfg.syscallTrap) s = .next t ∧ (s.copyIn va n).length = n ∧
          t = { s with unit := t.unit, pipes := t.pipes, host := { s.host with notes := s.host.notes ++ notes } } ∧
          t.pipe p = { x with buf := x.buf ++ s.copyIn va n } ∧ (∀ q, q ≠ p → t.pipe q = s.pipe q) ∧
          (x.buf ≠ [] ∨ n = 0 → notes = []) ∧
          (∀ fd, x.buf = [] → n ≠ 0 → s.fds[fd]? = some (.pipeRd p) →
            (∀ g, g < fd → s.fds[g]? ≠ some (.pipeRd p)) → notes = [.pipeNonEmpty fd]) ∧
          CallEffect s t (results (BitVec.ofNat 32 n) 0#32) s.mem)) ∧
    (call = some .read → slot = .pipeRd p → s.checkRange va n .write = true →
      (n = 0 → OnlyResults 0#32 0#32) ∧
      (x.rdOpen = true ∨ x.wrOpen = true → x.buf ≠ [] → n ≠ 0 →
        ∃ t cs, exec (.trap s.cfg.syscallTrap) s = .next t ∧
          s.chunks va (min n x.buf.length) .write s.unit.effSM = .ok cs ∧
          t = { s with
            unit := t.unit
            pipes := t.pipes
            mem := writeChunks s.cfg cs (x.buf.take n) s.mem
            host := { s.host with
              notes := s.host.notes ++
                (if x.buf.length ≤ n then [.pipeEmpty (s.readReg 1#4).toNat] else []) } } ∧
          t.pipe p = { x with buf := x.buf.drop n } ∧ (∀ q, q ≠ p → t.pipe q = s.pipe q) ∧
          CallEffect s t (results (BitVec.ofNat 32 (min n x.buf.length)) 0#32)
            (writeChunks s.cfg cs (x.buf.take n) s.mem)) ∧
      (x.buf = [] → n ≠ 0 → OnlyResults (if x.wrOpen then 0xFFFFFFFF#32 else 0#32) (if x.wrOpen then 11#32 else 0#32)))

/-- The calls that change the fd table. `open`: with a readable path, an access that exists and a free slot, the host is asked; its handle goes
into the lowest free slot, whose number is the result. `pipe`: a new, empty pipe takes the two lowest free slots, and their numbers go to
target memory. With too few free either is EMFILE. `close`: a host slot is freed when the host closes it; a pipe end is freed, and its pipe kept
while the other end is open, else released with its bytes and without a notification. An error of the host is -1 with its number in the errno
table, 0 where it has none, and no slot changes. Nothing else changes, at once or at the commit, but the stop
request that an answer may raise (R451, R453, R454, R460, R462, R463, R474). What the host answers is an input (R482);
how the answers and the calls made are recorded (assumptions 3 and 14) and how pipes are numbered (assumption 17) are the model's. -/
def Obligations.OpenUsesLowestSlot : Prop :=
  ∀ s : State,
    let call := tableLookup s.cfg.syscallMap (s.readReg 0#4)
    let lowest := fun (base f : Nat) =>
      base ≤ f ∧ s.fds[f]? = some .free ∧ ∀ g, base ≤ g → g < f → s.fds[g]? ≠ some .free
    let results := fun (r0 r1 : Word) => twoRegs (s.physReg 0#4) r0 (s.physReg 1#4) r1
    let fd := (s.readReg 1#4).toNat
    let asked := fun (c : HostCall) => { s.host with
      script := s.host.script.tail, served := s.host.served + 1, calls := s.host.calls ++ [c] }
    let HostError := fun (c : HostCall) (e : HostErrno) (t : State) =>
      t.fds = s.fds ∧
      t.host = { asked c with calls := s.host.calls ++ [c, .getLastErrno], lastErrno := some e } ∧
      CallEffect s t (results 0xFFFFFFFF#32 ((tableLookup s.cfg.errnoMap e).getD 0#32)) s.mem
    let TableFull := ∃ t, exec (.trap s.cfg.syscallTrap) s = .next t ∧ QueueOnly s t ∧
      RegisterEffect s t (results 0xFFFFFFFF#32 24#32) none none none
    (∀ (path : List Byte) (fl : HostOpenFlags) (f : Nat) (r : HostReply), call = some .open_ →
      s.copyInString (s.readReg 1#4) = .ok path → openFlags s.cfg (s.readReg 2#4) = some fl → lowest 0 f →
      s.nextAnswer = .reply r →
      ∃ t, exec (.trap s.cfg.syscallTrap) s = .next t ∧
        t = { s with fds := t.fds, unit := t.unit, host := t.host, stopRequest := s.stopRequest || r.stop } ∧
        (r.error = none →
          t.fds = s.fds.set f (.host r.value.toNat) ∧
          t.host = asked (.open_ (hostPath s.cfg path) fl (s.readReg 3#4)) ∧
          CallEffect s t (results (BitVec.ofNat 32 f) 0#32) s.mem) ∧
        (∀ e, r.error = some e → HostError (.open_ (hostPath s.cfg path) fl (s.readReg 3#4)) e t)) ∧
    (∀ rd, call = some .pipe → s.checkRange (s.readReg 1#4) 8 .write = true → lowest 0 rd →
      (∀ wr, lowest (rd + 1) wr →
        ∃ t cs, exec (.trap s.cfg.syscallTrap) s = .next t ∧
          s.chunks (s.readReg 1#4) 8 .write s.unit.effSM = .ok cs ∧
          t = { s with
            unit := t.unit
            fds := (s.fds.set rd (.pipeRd s.nextPipe)).set wr (.pipeWr s.nextPipe)
            pipes := s.pipes ++ [(s.nextPipe, ⟨[], true, true⟩)]
            nextPipe := s.nextPipe + 1
            mem := writeChunks s.cfg cs (disassemble s.cfg.endian 4 rd ++ disassemble s.cfg.endian 4 wr) s.mem } ∧
          CallEffect s t (results 0#32 0#32)
            (writeChunks s.cfg cs (disassemble s.cfg.endian 4 rd ++ disassemble s.cfg.endian 4 wr) s.mem)) ∧
      ((∀ g, rd < g → s.fds[g]? ≠ some .free) → TableFull)) ∧
    ((∀ g : Nat, s.fds[g]? ≠ some FdSlot.free) →
      (call = some .pipe → s.checkRange (s.readReg 1#4) 8 .write = true → TableFull) ∧
      (∀ path fl, call = some .open_ → s.copyInString (s.readReg 1#4) = .ok path →
        openFlags s.cfg (s.readReg 2#4) = some fl → TableFull)) ∧
    (∀ h r, call = some .close → s.slot (s.readReg 1#4) = .host h → s.nextAnswer = .reply r →
      ∃ t, exec (.trap s.cfg.syscallTrap) s = .next t ∧
        t = { s with fds := t.fds, unit := t.unit, host := t.host, stopRequest := s.stopRequest || r.stop } ∧
        (r.error = none →
          t.fds = s.fds.set fd .free ∧ t.host = asked (.close h) ∧ CallEffect s t (results 0#32 0#32) s.mem) ∧
        (∀ e, r.error = some e → HostError (.close h) e t)) ∧
    (∀ p x, call = some .close → s.bridgeLegal → tableLookup s.pipes p = some x →
      let left := fun (y : Pipe) =>
        ∃ t, exec (.trap s.cfg.syscallTrap) s = .next t ∧
          t = { s with unit := t.unit, fds := s.fds.set fd .free, pipes := t.pipes } ∧
          tableLookup t.pipes p = (if y.rdOpen = false ∧ y.wrOpen = false then none else some y) ∧
          (∀ q, q ≠ p → tableLookup t.pipes q = tableLookup s.pipes q) ∧
          CallEffect s t (results 0#32 0#32) s.mem
      (s.slot (s.readReg 1#4) = .pipeRd p → left { x with rdOpen := false }) ∧
      (s.slot (s.readReg 1#4) = .pipeWr p → left { x with wrOpen := false }))

/-! ### Devices -/

/-- What a device write leaves: writable masks, bits cleared by a 1, registers that ignore writes, the timer armed or disarmed with its
generation counted, a UART that drops a byte while it is busy, and the watchdog re-armed by its control register and by a kick, with its
generation counted; each event scheduled takes one sequence number (R126, R541 to R544, R551, R555 to R559). That the
masks of IC_MASK and IC_LATCHED are `levelMask` for an `NLEVELS` (R10) other than 15 is the model's reading (assumption 21), and what a fire
time past 64 bits is, its choice (assumption 7). -/
def Obligations.DeviceWriteRules : Prop :=
  ∀ (s : State) (v : Word) (now : Ticks) (k : Nat),
    let rearmed := fun (d : Devices) =>
      if d.wdtCtrl.getLsbD 0 = true ∧ 1 ≤ d.wdtReload.toNat then
        { s with
          dev := { d with wgen := s.dev.wgen + 1 }
          events := insertEvent ⟨addTicks now d.wdtReload.toNat, s.seq, .wdtExpire (s.dev.wgen + 1)⟩ s.events
          seq := s.seq + 1 }
      else { s with dev := { d with wgen := s.dev.wgen + 1 } }
    (k < s.dev.maps.length → (s.devWrite (.map k) v now).devRead (.map k) = v &&& 0xC000FFFF#32) ∧
    (s.devWrite .icPending v now).devRead .icPending = s.dev.icPending &&& ~~~ v ∧
    (s.devWrite .icMask v now).devRead .icMask = v &&& levelMask s.cfg ∧
    (s.devWrite .icLatched v now).devRead .icLatched = v &&& levelMask s.cfg ∧
    (s.cfg.nlevels = 15 → levelMask s.cfg = 0x0000FFFE#32) ∧
    (s.devWrite .icControl v now).devRead .icControl = v &&& 0x00000001#32 ∧
    (s.devWrite .tmrPeriod v now).devRead .tmrPeriod = v ∧
    (s.devWrite .tmrStatus v now).devRead .tmrStatus = s.dev.tmrStatus &&& ~~~ (v &&& 1#32) ∧
    s.devWrite .tmrNow v now = s ∧ s.devWrite .tmrNowh v now = s ∧ s.devWrite .icLevel v now = s ∧
    (s.devWrite .uartStatus v now).devRead .uartStatus = s.dev.uartStatus &&& ~~~ (v &&& 2#32) ∧
    (s.devWrite .uartCtrl v now).devRead .uartCtrl = v &&& 0x000000F1#32 ∧
    (s.devWrite .wdtReload v now).devRead .wdtReload = v ∧
    (s.devWrite .wdtStatus v now).devRead .wdtStatus = s.dev.wdtStatus &&& ~~~ (v &&& 1#32) ∧
    (v.getLsbD 0 = true → s.dev.tmrPeriod ≠ 0#32 →
      s.devWrite .tmrCtrl v now = { s with
        dev := { s.dev with tmrCtrl := v &&& 0x000000F3#32, tgen := s.dev.tgen + 1 }
        events := insertEvent ⟨addTicks now s.dev.tmrPeriod.toNat, s.seq, .timerExpire (s.dev.tgen + 1)⟩ s.events
        seq := s.seq + 1 }) ∧
    (v.getLsbD 0 = false ∨ s.dev.tmrPeriod = 0#32 →
      s.devWrite .tmrCtrl v now = { s with
        dev := { s.dev with tmrCtrl := v &&& 0x000000F2#32, tgen := s.dev.tgen + 1 } }) ∧
    (s.dev.uartStatus.getLsbD 0 = true →
      s.devWrite .uartTxdata v now = { s with dev := { s.dev with uartStatus := s.dev.uartStatus ||| 2#32 } }) ∧
    (s.dev.uartStatus.getLsbD 0 = false →
      s.devWrite .uartTxdata v now = { s with
        dev := { s.dev with uartStatus := s.dev.uartStatus ||| 1#32 }
        events := insertEvent ⟨addTicks now s.cfg.uartTxTicks, s.seq, .txDone (v.extractLsb' 0 8)⟩ s.events
        seq := s.seq + 1 }) ∧
    s.devWrite .wdtCtrl v now = rearmed { s.dev with wdtCtrl := v &&& 1#32 } ∧
    s.devWrite .wdtKick v now = rearmed s.dev

/-! ### The driver -/

/-- The driver's register ids, what reading one gives, what writing one leaves, and what an unknown id or too few bytes answer (R606).
That a write answers the bytes given, also where the register's mask drops bits of them, is the model's choice (assumption 20). That
the calls do the same on a running engine is its choice too (R8, assumption 22). -/
def Obligations.DriverRegisters : Prop :=
  ∀ (s : State) (bs : List Byte) (i : Nat),
    (i < 16 → s.readRegister i =
        disassemble s.cfg.endian 4 (s.readPhys (phys (pswRB s.cr.psw) (BitVec.ofNat 4 i))).toNat) ∧
    s.readRegister 16 = disassemble s.cfg.endian 4 s.pc.toNat ∧
    (∀ (n : CReg), s.readRegister (17 + n.number.toNat) = disassemble s.cfg.endian 4 (s.readCr n).toNat) ∧
    (∀ (p : PReg), p.val < 16 → s.readRegister (24 + p.val) = disassemble s.cfg.endian 4 (s.readPhys p).toNat) ∧
    (40 ≤ i → s.readRegister i = [] ∧ s.writeRegister i bs = (s, [])) ∧
    (bs.length < 4 → s.writeRegister i bs = (s, [])) ∧
    (4 ≤ bs.length →
      let v := BitVec.ofNat 32 (assemble s.cfg.endian (bs.take 4))
      (i < 40 → (s.writeRegister i bs).2 = bs.take 4) ∧
      (i < 16 → (s.writeRegister i bs).1 =
        { s with regs := s.regs.set (phys (pswRB s.cr.psw) (BitVec.ofNat 4 i)).val v }) ∧
      (s.writeRegister 16 bs).1 = { s with pc := v } ∧
      (∀ (n : CReg), (s.writeRegister (17 + n.number.toNat) bs).1.cr =
        s.cr.set n ((s.readCr n &&& ~~~ crMask n) ||| (v &&& crMask n))) ∧
      (s.writeRegister 17 bs).1.unit.effRB = pswRB (s.writeRegister 17 bs).1.cr.psw ∧
      (s.writeRegister 17 bs).1.unit.effSM = pswSM (s.writeRegister 17 bs).1.cr.psw ∧
      (∀ (p : PReg), p.val < 16 → (s.writeRegister (24 + p.val) bs).1 = { s with regs := s.regs.set p.val v }))

/-- The loader writes RAM and ROM, a later segment over an earlier one, or refuses the whole load; and a run that has ended for good is not
resumed, and takes no step (R266, R603, R607). A step of a stopped run
being the same state is the model's choice (assumption 6). That a load
after execution has started does the same is its choice too (R8, R603, assumption 22). -/
def Obligations.LoadAndResume : Prop :=
  (∀ (s : State) (segs : List (Nat × List Byte)),
    (∃ g ∈ segs, ∃ i, i < g.2.length ∧ loadable s.cfg (g.1 + i) = false) → s.loadSegments segs = none) ∧
  (∀ (s : State) (segs : List (Nat × List Byte)) (pa : Nat) (bs : List Byte), Memory.wf s.cfg s.mem = true →
    (∀ g ∈ segs ++ [(pa, bs)], ∀ i, i < g.2.length → loadable s.cfg (g.1 + i) = true) →
    ∃ t u, s.loadSegments segs = some t ∧ s.loadSegments (segs ++ [(pa, bs)]) = some u ∧
      (∀ i, (h : i < bs.length) → u.byteAt (pa + i) = bs[i]) ∧
      (∀ a, a < pa ∨ pa + bs.length ≤ a → u.byteAt a = t.byteAt a)) ∧
  (∀ (s : State) (r : StopReason) (b : Bool), s.run = .stopped (some r) →
    ((∃ code, r = .exited code) ∨ (∃ sig, r = .signalled sig) → s.resume b = s) ∧
    ((∃ sig, r = .stopped sig) ∨ r = .trapped → (s.resume b).run = .running ∧ (s.resume b).pc = s.pc) ∧
    step s = .next s)
end

