-- ==== Sys2Proof/Laws/Memory.lean ====
section
/-! SUPPORT. The laws of memory: a read after a write, and the canonical form that every write keeps. -/

namespace Sys2Proof.Machine

variable (c : Config)

/-! ### One byte -/

@[simp] theorem Memory.read_nil (a : Nat) : Memory.read c [] a = Memory.unlisted c a := rfl

theorem Memory.read_cons (k : Nat) (v : Byte) (m : Memory) (a : Nat) :
    Memory.read c ((k, v) :: m) a = if k = a then v else Memory.read c m a := rfl

@[simp] theorem Memory.wf_nil : Memory.wf c [] = true := rfl

theorem Memory.wf_cons (k : Nat) (v : Byte) (m : Memory) :
    Memory.wf c ((k, v) :: m) = true ↔
      v ≠ Memory.unlisted c k ∧ Memory.above k m = true ∧ Memory.wf c m = true := by
  simp [Memory.wf, and_assoc]

theorem Memory.above_trans {a k : Nat} {m : Memory} (h : a < k) (hm : Memory.above k m = true) :
    Memory.above a m = true := by
  cases m with
  | nil => rfl
  | cons e m => simp [Memory.above] at hm ⊢; omega

/-- An address below every listed one reads as unlisted. -/
theorem Memory.read_above {a : Nat} {m : Memory} (hm : Memory.wf c m = true)
    (h : Memory.above a m = true) : Memory.read c m a = Memory.unlisted c a := by
  induction m with
  | nil => rfl
  | cons e m ih =>
    obtain ⟨k, v⟩ := e
    have hk : a < k := by simpa [Memory.above] using h
    obtain ⟨_, h2, h3⟩ := (Memory.wf_cons c k v m).1 hm
    rw [Memory.read_cons, if_neg (by omega), ih h3 (Memory.above_trans hk h2)]

theorem Memory.above_write {k a : Nat} {b : Byte} {m : Memory} (ha : k < a)
    (h : Memory.above k m = true) (hm : Memory.wf c m = true) :
    Memory.above k (Memory.write c m a b) = true := by
  cases m with
  | nil => simp only [Memory.write]; split <;> simp [Memory.above, ha]
  | cons e m =>
    obtain ⟨j, v⟩ := e
    have hj : k < j := by simpa [Memory.above] using h
    obtain ⟨_, h2, _⟩ := (Memory.wf_cons c j v m).1 hm
    simp only [Memory.write]
    split
    · split <;> simp [Memory.above, ha, hj]
    · split
      · split
        · exact Memory.above_trans hj h2
        · simp [Memory.above, ha]
      · simp [Memory.above, hj]

/-- A write keeps the canonical form. -/
theorem Memory.wf_write {m : Memory} (hm : Memory.wf c m = true) (a : Nat) (b : Byte) :
    Memory.wf c (Memory.write c m a b) = true := by
  induction m with
  | nil => simp only [Memory.write]; split <;> simp_all [Memory.wf, Memory.above]
  | cons e m ih =>
    obtain ⟨k, v⟩ := e
    obtain ⟨h1, h2, h3⟩ := (Memory.wf_cons c k v m).1 hm
    simp only [Memory.write]
    split
    · split
      · exact hm
      · next hk hb => exact (Memory.wf_cons c a b _).2 ⟨hb, by simp [Memory.above, hk], hm⟩
    · split
      · next hk =>
        split
        · exact h3
        · next hb => exact (Memory.wf_cons c a b _).2 ⟨hb, hk ▸ h2, h3⟩
      · exact (Memory.wf_cons c k v _).2 ⟨h1, Memory.above_write c (by omega) h2 h3, ih h3⟩

/-- A read after a write: the byte written there, every other byte as before. -/
theorem Memory.read_write {m : Memory} (hm : Memory.wf c m = true) (a : Nat) (b : Byte) (x : Nat) :
    Memory.read c (Memory.write c m a b) x = if x = a then b else Memory.read c m x := by
  induction m with
  | nil =>
    simp only [Memory.write]
    split
    · next hb => by_cases hx : x = a <;> simp [hx, hb]
    · by_cases hx : x = a
      · simp [Memory.read_cons, hx]
      · simp [Memory.read_cons, hx, Ne.symm hx]
  | cons e m ih =>
    obtain ⟨k, v⟩ := e
    obtain ⟨h1, h2, h3⟩ := (Memory.wf_cons c k v m).1 hm
    simp only [Memory.write]
    split
    · next hk =>
      have hr : Memory.read c ((k, v) :: m) a = Memory.unlisted c a :=
        Memory.read_above c hm (by simp [Memory.above, hk])
      split
      · next hb => by_cases hx : x = a <;> simp [hx, hb, hr]
      · rw [Memory.read_cons]
        by_cases hx : x = a
        · simp [hx]
        · simp [hx, Ne.symm hx]
    · split
      · next hk hak =>
        subst hak
        split
        · next hb =>
          by_cases hx : x = a
          · subst hx; rw [Memory.read_above c h3 h2]; simp [hb]
          · rw [Memory.read_cons, if_neg (Ne.symm hx), if_neg hx]
        · by_cases hx : x = a
          · simp [Memory.read_cons, hx]
          · simp [Memory.read_cons, hx, Ne.symm hx]
      · rw [Memory.read_cons, Memory.read_cons, ih h3]
        by_cases hx : k = x
        · subst hx
          rw [if_pos rfl, if_pos rfl]
          split
          · next h => omega
          · rfl
        · rw [if_neg hx, if_neg hx]

/-! ### Several bytes -/

@[simp] theorem Memory.length_readBytes (m : Memory) (pa n : Nat) :
    (Memory.readBytes c m pa n).length = n := by
  induction n generalizing pa with
  | zero => rfl
  | succ n ih => simp [Memory.readBytes, ih]

theorem Memory.getElem_readBytes (m : Memory) (pa n i : Nat)
    (h : i < (Memory.readBytes c m pa n).length) :
    (Memory.readBytes c m pa n)[i] = Memory.read c m (pa + i) := by
  induction n generalizing pa i with
  | zero => simp [Memory.readBytes] at h
  | succ n ih =>
    cases i with
    | zero => rfl
    | succ i =>
      simp only [Memory.readBytes, List.getElem_cons_succ]
      rw [ih]; congr 1; omega

/-- Writing bytes keeps the canonical form. -/
theorem Memory.wf_writeBytes {m : Memory} (hm : Memory.wf c m = true) (pa : Nat) (bs : List Byte) :
    Memory.wf c (Memory.writeBytes c m pa bs) = true := by
  induction bs generalizing m pa with
  | nil => exact hm
  | cons b bs ih => exact ih (Memory.wf_write c hm pa b) (pa + 1)

/-- A read after a write of bytes. -/
theorem Memory.read_writeBytes {m : Memory} (hm : Memory.wf c m = true) (pa : Nat) (bs : List Byte)
    (x : Nat) :
    Memory.read c (Memory.writeBytes c m pa bs) x =
      if pa ≤ x ∧ x < pa + bs.length then bs.getD (x - pa) 0#8 else Memory.read c m x := by
  induction bs generalizing m pa with
  | nil => simp [Memory.writeBytes]
  | cons b bs ih =>
    rw [Memory.writeBytes, ih (Memory.wf_write c hm pa b), Memory.read_write c hm]
    by_cases hx : x = pa
    · subst hx
      rw [if_neg (by omega), if_pos rfl, if_pos (by simp)]
      simp
    · by_cases h : pa + 1 ≤ x ∧ x < pa + 1 + bs.length
      · rw [if_pos h, if_pos (by simp; omega)]
        obtain ⟨d, rfl⟩ : ∃ d, x = pa + 1 + d := ⟨x - (pa + 1), by omega⟩
        have : pa + 1 + d - pa = d + 1 := by omega
        rw [this]; simp
      · rw [if_neg h, if_neg hx, if_neg (by simp; omega)]

/-- Bytes outside the written ones read as before, whatever form memory has. -/
theorem Memory.read_write_other (m : Memory) (a : Nat) (b : Byte) (x : Nat) (hx : x ≠ a) :
    Memory.read c (Memory.write c m a b) x = Memory.read c m x := by
  induction m with
  | nil =>
    simp only [Memory.write]
    split
    · rfl
    · simp [Memory.read_cons, Ne.symm hx]
  | cons e m ih =>
    obtain ⟨k, v⟩ := e
    simp only [Memory.write]
    split
    · split
      · rfl
      · simp [Memory.read_cons, Ne.symm hx]
    · split
      · next hk hak =>
        split
        · rw [Memory.read_cons, if_neg (by omega)]
        · simp only [Memory.read_cons]
          rw [if_neg (Ne.symm hx), if_neg (by omega)]
      · simp only [Memory.read_cons, ih]

/-- Bytes outside the written ones read as before, whatever form memory has. -/
theorem Memory.read_writeBytes_other (m : Memory) (pa : Nat) (bs : List Byte) (x : Nat)
    (hx : ¬ (pa ≤ x ∧ x < pa + bs.length)) :
    Memory.read c (Memory.writeBytes c m pa bs) x = Memory.read c m x := by
  induction bs generalizing m pa with
  | nil => rfl
  | cons b bs ih =>
    simp only [List.length_cons] at hx
    rw [Memory.writeBytes, ih _ _ (by omega), Memory.read_write_other c _ _ _ _ (by omega)]

/-! ### Chunks -/

/-- Writing chunks keeps the canonical form. -/
theorem wf_writeChunks {m : Memory} (hm : Memory.wf c m = true) (cs : List Chunk) (bs : List Byte) :
    Memory.wf c (writeChunks c cs bs m) = true := by
  induction cs generalizing m bs with
  | nil => exact hm
  | cons k cs ih => exact ih (Memory.wf_writeBytes c hm _ _) _

/-- A byte outside every chunk reads as before. -/
theorem read_writeChunks_other (m : Memory) (cs : List Chunk) (bs : List Byte) (x : Nat)
    (hx : ∀ k ∈ cs, ¬ (k.pa.toNat ≤ x ∧ x < k.pa.toNat + k.len)) :
    Memory.read c (writeChunks c cs bs m) x = Memory.read c m x := by
  induction cs generalizing m bs with
  | nil => rfl
  | cons k cs ih =>
    rw [writeChunks, ih _ _ (fun j hj => hx j (List.mem_cons_of_mem _ hj)),
      Memory.read_writeBytes_other]
    have := hx k (by simp)
    simp only [List.length_take]
    omega

end Sys2Proof.Machine
end

