-- ==== Sys2Proof/Laws/Access.lean ====
section
/-! SUPPORT. What translation, the physical check and the checked accesses can answer (R127 to R141), said once. -/

namespace Sys2Proof.Machine

/-! ### Translation -/

/-- What `translate` answers where it succeeds: a clipped length that ends inside the block (R127, R128). -/
theorem translate_spec {c : Config} {maps : List Word} {va : Word} {len : Nat} {kind : AccessKind}
    {sm : Bool} {pa : Word} {n : Nat} (h : translate c maps va len kind sm = .ok (pa, n)) :
    n = min len (blockSize c - va.toNat % blockSize c) ∧
      ((segOf va = 0x0#4 ∧ pa = va) ∨
       (segOf va = 0x1#4 ∧ (va.extractLsb' 0 28).toNat / blockSize c < c.nmap) ∨
       (segOf va = 0xF#4 ∧ sm = true ∧ kind ≠ .fetch ∧ pa = va)) := by
  simp only [translate] at h
  split at h
  · next h0 => simp at h; exact ⟨h.2.symm, .inl ⟨h0, h.1.symm⟩⟩
  · split at h
    · next h1 =>
      split at h
      · cases h
      · next hk =>
        split at h
        · cases h
        · split at h
          · cases h
          · simp at h
            exact ⟨h.2.symm, .inr (.inl ⟨h1, by omega⟩)⟩
    · split at h
      · next hF =>
        split at h
        · cases h
        · next hsm =>
          split at h
          · cases h
          · next hk =>
            simp at h
            exact ⟨h.2.symm, .inr (.inr ⟨hF, by simpa using hsm, hk, h.1.symm⟩)⟩
      · cases h

theorem blockSize_pos (c : Config) : 0 < blockSize c := Nat.two_pow_pos _

/-- A translated chunk has at least one byte and at most those asked for. -/
theorem translate_len {c : Config} {maps : List Word} {va : Word} {len : Nat} {kind : AccessKind}
    {sm : Bool} {pa : Word} {n : Nat} (hl : 0 < len)
    (h : translate c maps va len kind sm = .ok (pa, n)) : 0 < n ∧ n ≤ len := by
  have hb := Nat.mod_lt va.toNat (blockSize_pos c)
  have := (translate_spec h).1
  omega

/-! ### The physical check -/

/-- What backs a chunk that passes the check (R130, R138). -/
theorem physCheck_spec {c : Config} {a pa : Word} {len width : Nat} {kind : AccessKind} {b : Backing}
    (h : physCheck c a pa len width kind = .ok b) :
    (∃ r, b = .device r ∧ segOf a = 0xF#4 ∧ width = 4 ∧ len = 4 ∧ devRegAt c pa = some r) ∨
    (b = .bytes ∧ segOf a ≠ 0xF#4 ∧
      (chunkInRam c pa.toNat len = true ∨ (chunkInRom c pa.toNat len = true ∧ kind ≠ .write))) := by
  simp only [physCheck] at h
  split at h
  · next hF =>
    split at h
    · next hw =>
      split at h
      · next r hr => cases h; exact .inl ⟨r, rfl, hF, hw.1, hw.2, hr⟩
      · cases h
    · cases h
  · next hF =>
    split at h
    · next hram => cases h; exact .inr ⟨rfl, hF, .inl hram⟩
    · split at h
      · next hrom =>
        split at h
        · cases h
        · next hk => cases h; exact .inr ⟨rfl, hF, .inr ⟨hrom, hk⟩⟩
      · cases h

/-! ### Chunks -/

/-- What one chunk of a successful access is. -/
structure ChunkOk (c : Config) (kind : AccessKind) (sm : Bool) (width : Nat) (k : Chunk) : Prop where
  pos : 0 < k.len
  backed : (∃ r, k.backing = .device r ∧ segOf k.va = 0xF#4 ∧ sm = true ∧ width = 4 ∧ k.len = 4 ∧
      devRegAt c k.pa = some r) ∨
    (k.backing = .bytes ∧ segOf k.va ≠ 0xF#4 ∧
      (chunkInRam c k.pa.toNat k.len = true ∨
        (chunkInRom c k.pa.toNat k.len = true ∧ kind ≠ .write)))

theorem chunksFrom_spec {c : Config} {maps : List Word} {kind : AccessKind} {sm : Bool} {width : Nat}
    {fuel : Nat} {a : Word} {rem : Nat} {cs : List Chunk} (hf : rem ≤ fuel)
    (h : chunksFrom c maps kind sm width fuel a rem = .ok cs) :
    (cs.map Chunk.len).sum = rem ∧ ∀ k ∈ cs, ChunkOk c kind sm width k := by
  induction fuel generalizing a rem cs with
  | zero => simp [chunksFrom] at h; subst h; simp; omega
  | succ fuel ih =>
    simp only [chunksFrom] at h
    split at h
    · next h0 => simp at h; subst h; simp [h0]
    · next h0 =>
      split at h
      · cases h
      · next pa n ht =>
        split at h
        · cases h
        · next b hb =>
          split at h
          · cases h
          · next rest hr =>
            simp at h
            subst h
            obtain ⟨hpos, hle⟩ := translate_len (by omega) ht
            obtain ⟨hs, hk⟩ := ih (by omega) hr
            refine ⟨by simp [hs]; omega, ?_⟩
            intro k hkm
            simp only [List.mem_cons] at hkm
            rcases hkm with rfl | hkm
            · refine ⟨hpos, ?_⟩
              rcases physCheck_spec hb with ⟨r, hb', hF, hw, hl, hd⟩ | ⟨hb', hF, hm⟩
              · refine .inl ⟨r, hb', hF, ?_, hw, hl, hd⟩
                rcases (translate_spec ht).2 with h1 | h1 | h1
                · exact absurd hF (by rw [h1.1]; decide)
                · exact absurd hF (by rw [h1.1]; decide)
                · exact h1.2.1
              · exact .inr ⟨hb', hF, hm⟩
            · exact hk k hkm

/-- A shorter access goes to the same place, and is clipped at the same block boundary (R127, R128). -/
theorem translate_prefix {c : Config} {maps : List Word} {va : Word} {len m : Nat}
    {kind : AccessKind} {sm : Bool} {pa : Word} {l : Nat} (hm : m ≤ len)
    (h : translate c maps va len kind sm = .ok (pa, l)) :
    translate c maps va m kind sm = .ok (pa, min m l) := by
  have hl := (translate_spec h).1
  have hml : min m l = min m (blockSize c - va.toNat % blockSize c) := by omega
  rw [hml]
  clear hl hml
  unfold translate at h ⊢
  dsimp only at h ⊢
  split at h
  · next h0 => cases h; rw [if_pos h0]
  · next h0 =>
    rw [if_neg h0]
    split at h
    · next h1 =>
      rw [if_pos h1]
      split at h
      · cases h
      · next hk =>
        rw [if_neg hk]
        split at h
        · cases h
        · next hv =>
          rw [if_neg hv]
          split at h
          · cases h
          · next hw => cases h; rw [if_neg hw]
    · next h1 =>
      rw [if_neg h1]
      split at h
      · next hF =>
        rw [if_pos hF]
        split at h
        · cases h
        · next hs =>
          rw [if_neg hs]
          split at h
          · cases h
          · next hk => cases h; rw [if_neg hk]
      · cases h

/-- The physical check does not ask for more of fewer bytes (R130). -/
theorem physCheck_prefix {c : Config} {a pa : Word} {len m width width' : Nat} {kind : AccessKind} {b : Backing}
    (hF : segOf a ≠ 0xF#4) (hm : m ≤ len) (h : physCheck c a pa len width kind = .ok b) :
    physCheck c a pa m width' kind = .ok .bytes := by
  rcases physCheck_spec h with ⟨r, _, hF', _⟩ | ⟨_, _, hr⟩
  · exact absurd hF' hF
  · rcases hr with hr | ⟨hr, hk⟩
    · simp only [physCheck, if_neg hF]
      rw [if_pos]
      simp only [chunkInRam, decide_eq_true_eq] at hr ⊢
      omega
    · simp only [physCheck, if_neg hF, if_neg hk]
      split
      · rfl
      · rw [if_pos]
        simp only [chunkInRom, decide_eq_true_eq] at hr ⊢
        omega

/-- An access of fewer bytes from the same address succeeds where one of more did, outside the device segment (R129). -/
theorem chunksFrom_prefix {c : Config} {maps : List Word} {kind : AccessKind} {sm : Bool} {width width' : Nat}
    {fuel fuel' : Nat} {a : Word} {rem m : Nat} {cs : List Chunk} (hf : rem ≤ fuel) (hf' : m ≤ fuel') (hm : m ≤ rem)
    (h : chunksFrom c maps kind sm width fuel a rem = .ok cs) (hF : ∀ k ∈ cs, segOf k.va ≠ 0xF#4) :
    ∃ ds, chunksFrom c maps kind sm width' fuel' a m = .ok ds ∧ ∀ k ∈ ds, segOf k.va ≠ 0xF#4 := by
  induction fuel generalizing a rem m cs fuel' with
  | zero =>
    obtain rfl : m = 0 := by omega
    exact ⟨[], by cases fuel' <;> simp [chunksFrom], by simp⟩
  | succ fuel ih =>
    by_cases h0 : m = 0
    · subst h0
      exact ⟨[], by cases fuel' <;> simp [chunksFrom], by simp⟩
    obtain ⟨g, rfl⟩ : ∃ g, fuel' = g + 1 := ⟨fuel' - 1, by omega⟩
    simp only [chunksFrom] at h
    rw [if_neg (by omega)] at h
    split at h
    · cases h
    · next pa n ht =>
      split at h
      · cases h
      · next b hb =>
        split at h
        · cases h
        · next rest hr =>
          simp only [Except.ok.injEq] at h
          subst h
          obtain ⟨hpos, hle⟩ := translate_len (by omega) ht
          have hFa : segOf a ≠ 0xF#4 := hF ⟨a, pa, n, b⟩ (List.mem_cons_self ..)
          simp only [chunksFrom, if_neg h0, translate_prefix hm ht,
            physCheck_prefix (width' := width') hFa (Nat.min_le_right m n) hb]
          by_cases hmn : m ≤ n
          · rw [Nat.min_eq_left hmn, Nat.sub_self]
            refine ⟨[⟨a, pa, m, .bytes⟩], ?_, by simpa using hFa⟩
            cases g <;> simp [chunksFrom]
          · rw [Nat.min_eq_right (by omega)]
            obtain ⟨ds, hd, hdF⟩ := ih (fuel' := g) (m := m - n) (by omega) (by omega) (by omega) hr
              (fun k hk => hF k (List.mem_cons_of_mem _ hk))
            rw [hd]
            exact ⟨_, rfl, by simpa using ⟨hFa, hdF⟩⟩

/-- The chunks of a successful access: their lengths add up to the bytes asked for, and each is backed. -/
theorem State.chunks_spec {s : State} {va : Word} {n : Nat} {kind : AccessKind} {sm : Bool}
    {cs : List Chunk} (h : s.chunks va n kind sm = .ok cs) :
    (cs.map Chunk.len).sum = n ∧ ∀ k ∈ cs, ChunkOk s.cfg kind sm n k :=
  chunksFrom_spec (Nat.le_refl n) h

/-- A chunk a write is given lies in RAM, unless it is a device register (R130). -/
theorem ChunkOk.write_ram {c : Config} {sm : Bool} {width : Nat} {k : Chunk}
    (h : ChunkOk c .write sm width k) (hb : k.backing = .bytes) : k.pa.toNat + k.len ≤ c.ramSize := by
  rcases h.backed with ⟨r, hr, _⟩ | ⟨_, _, hm⟩
  · rw [hb] at hr; cases hr
  · rcases hm with hm | ⟨_, hk⟩
    · simpa [chunkInRam] using hm
    · exact absurd rfl hk

@[simp] theorem State.length_chunkBytes (s : State) (cs : List Chunk) :
    (s.chunkBytes cs).length = (cs.map Chunk.len).sum := by
  induction cs with
  | nil => rfl
  | cons k cs ih => simp [State.chunkBytes, ih]

/-! ### The data accesses -/

/-- What a successful read is: aligned where that is asked for, checked whole, and its value (R139). -/
theorem State.memRead_spec {s : State} {va : Word} {n v : Nat} (h : s.memRead va n = .ok v) :
    s.misaligned va n = false ∧
      ∃ cs, s.chunks va n .read s.unit.effSM = .ok cs ∧ v = s.valueOf cs := by
  simp only [State.memRead] at h
  split at h
  · cases h
  · next hm =>
    split at h
    · cases h
    · next cs hc => simp at h; exact ⟨by simpa using hm, cs, hc, h.symm⟩

/-- What a successful write pushes (R140, R141). -/
theorem State.memWrite_spec {s : State} {va : Word} {n v : Nat} {es : List WbEntry}
    (h : s.memWrite va n v = .ok es) :
    s.misaligned va n = false ∧
      ∃ cs, s.chunks va n .write s.unit.effSM = .ok cs ∧ es = writeEntries s.cfg.endian n v cs := by
  simp only [State.memWrite] at h
  split at h
  · cases h
  · next hm =>
    split at h
    · cases h
    · next cs hc => simp at h; exact ⟨by simpa using hm, cs, hc, h.symm⟩

theorem State.memRead_of_chunks {s : State} {va : Word} {n : Nat} {cs : List Chunk}
    (hm : s.misaligned va n = false) (hc : s.chunks va n .read s.unit.effSM = .ok cs) :
    s.memRead va n = .ok (s.valueOf cs) := by
  simp [State.memRead, hm, hc]

theorem State.memWrite_of_chunks {s : State} {va : Word} {n v : Nat} {cs : List Chunk}
    (hm : s.misaligned va n = false) (hc : s.chunks va n .write s.unit.effSM = .ok cs) :
    s.memWrite va n v = .ok (writeEntries s.cfg.endian n v cs) := by
  simp [State.memWrite, hm, hc]

/-- An aligned access of a power of two up to 8 bytes lies in one block (R128). -/
theorem aligned_in_block {c : Config} (hb : 3 ≤ c.blockBits) {va n : Nat}
    (hn : n = 1 ∨ n = 2 ∨ n = 4 ∨ n = 8) (ha : va % n = 0) :
    min n (blockSize c - va % blockSize c) = n := by
  obtain ⟨d, hd⟩ : ∃ d, c.blockBits = d + 3 := ⟨c.blockBits - 3, by omega⟩
  have hbs : blockSize c = 8 * 2 ^ d := by simp [blockSize, hd, Nat.pow_add]; omega
  have hdvd : n ∣ blockSize c := by
    rw [hbs]
    rcases hn with rfl | rfl | rfl | rfl
    · exact Nat.one_dvd _
    · exact ⟨4 * 2 ^ d, by omega⟩
    · exact ⟨2 * 2 ^ d, by omega⟩
    · exact ⟨2 ^ d, by omega⟩
  have hlt := Nat.mod_lt va (blockSize_pos c)
  have hmod : (va % blockSize c) % n = 0 := by rw [Nat.mod_mod_of_dvd _ hdvd]; exact ha
  obtain ⟨q, hq⟩ := hdvd
  obtain ⟨m, hm⟩ := Nat.dvd_of_mod_eq_zero hmod
  have hmq : m < q := by
    rw [hm, hq] at hlt
    exact Nat.lt_of_mul_lt_mul_left hlt
  have : n * (m + 1) ≤ n * q := Nat.mul_le_mul_left n hmq
  rw [Nat.mul_add] at this
  omega

/-- An access that translation does not clip and the check accepts is one chunk (R129). -/
theorem State.chunks_single {s : State} {va pa : Word} {n : Nat} {kind : AccessKind} {sm : Bool}
    {b : Backing} (hn : 0 < n) (ht : translate s.cfg s.dev.maps va n kind sm = .ok (pa, n))
    (hp : physCheck s.cfg va pa n n kind = .ok b) :
    s.chunks va n kind sm = .ok [⟨va, pa, n, b⟩] := by
  obtain ⟨m, rfl⟩ : ∃ m, n = m + 1 := ⟨n - 1, by omega⟩
  have h0 : chunksFrom s.cfg s.dev.maps kind sm (m + 1) m (va + BitVec.ofNat 32 (m + 1)) 0 =
      .ok [] := by
    cases m <;> simp [chunksFrom]
  simp [State.chunks, chunksFrom, ht, hp, h0]

/-- A direct access that one block holds and RAM backs is one chunk, itself (R127, R129, R130). -/
theorem State.chunks_direct_ram {s : State} {va : Word} {n : Nat} {kind : AccessKind} {sm : Bool}
    (hn : 0 < n) (hseg : segOf va = 0x0#4)
    (hclip : min n (blockSize s.cfg - va.toNat % blockSize s.cfg) = n)
    (hram : va.toNat + n ≤ s.cfg.ramSize) :
    s.chunks va n kind sm = .ok [⟨va, va, n, .bytes⟩] :=
  State.chunks_single hn (by simp [translate, hseg, hclip])
    (by simp [physCheck, hseg, chunkInRam, hram])

end Sys2Proof.Machine
end

