-- ==== Sys2Proof/Machine/Assembler.lean ====
section
/-! DEFINITION. What the assembler makes of a branch operand, of an arrow between two halves, and of a
pseudo-instruction (30_encoding.md R217 to R219). Text itself is outside the model (R6). -/

namespace Sys2Proof.Machine

/-! ### Branch operands (R217) -/

/-- The displacement field of a short branch at `pc` to `target`; `none` where the target is out of range or not
4-aligned (R217). -/
def shortBranchField (pc target : Word) : Option (BitVec 10) :=
  let d := (target - pc).extractLsb' 2 10
  if target.extractLsb' 0 2 = 0#2 ∧ disp10 d = target - pc then some d else none

/-- The displacement field of a long branch at `pc` to `target`; `none` where the target is out of range or not
4-aligned (R217). -/
def longBranchField (pc target : Word) : Option (BitVec 16) :=
  let d := (target - pc).extractLsb' 2 16
  if target.extractLsb' 0 2 = 0#2 ∧ disp16 d = target - pc then some d else none

/-! ### Pairs (R218) -/

/-- `A -> B` and `A <- B`: the arrow points from the half that executes first to the second. -/
inductive Arrow
  | right
  | left
  deriving DecidableEq, Repr, Inhabited

/-- The pair an arrow writes: `a` in the left slot, `b` in the right slot (R218). -/
def arrowUnit (a : Instr) (w : Arrow) (b : Instr) : FetchUnit :=
  match w with
  | .right => .pair .leftFirst a b
  | .left => .pair .rightFirst a b

/-! ### Pseudo-instructions (R219) -/

/-- The pseudo-instructions; `call` and `b` name their target's address. -/
inductive Pseudo
  | nop
  | li (ra : RegNum) (imm : Word)
  | clr (ra : RegNum)
  | ret
  | call (target : Word)
  | b (target : Word)
  | sys
  deriving DecidableEq, Repr, Inhabited

/-- An immediate that `LDIL` alone loads (R219). -/
def fitsLdil (imm : Word) : Bool := decide (-32768 ≤ imm.toInt ∧ imm.toInt ≤ 32767)

/-- The units a pseudo-instruction at `pc` stands for; `none` where its branch target is rejected (R217,
R219). -/
def Pseudo.expand (pc : Word) : Pseudo → Option (List FetchUnit)
  | .nop => some [unitOf .nop]
  | .li ra imm =>
    if fitsLdil imm then some [unitOf (.ldil ra (imm.extractLsb' 0 16))]
    else some [unitOf (.ldil ra (imm.extractLsb' 0 16)), unitOf (.ldih ra (imm.extractLsb' 16 16))]
  | .clr ra => some [unitOf (.ldi ra 0#6)]
  | .ret => some [unitOf (.jmp 14#4)]
  | .call target => (longBranchField pc target).map fun d => [unitOf (.blL d)]
  | .b target => (longBranchField pc target).map fun d => [unitOf (.braL d)]
  | .sys => some [unitOf (.trap 15#4)]

end Sys2Proof.Machine
end

