-- ==== Sys2Proof/Laws/Assembler.lean ====
section
/-! SUPPORT. What the assembler's operations promise: a branch field it answers reaches its target (R217, R379), every
expansion is encodable (R219), and `li` loads its immediate (R219, R324, R325). -/

namespace Sys2Proof.Machine

/-- A short branch's field reaches the target it was made for. -/
theorem shortBranchField_target {pc target : Word} {d : BitVec 10}
    (h : shortBranchField pc target = some d) : pc + disp10 d = target := by
  simp only [shortBranchField] at h
  split at h
  · rename_i hd
    cases h
    rw [hd.2, BitVec.add_comm, BitVec.sub_add_cancel]
  · cases h

/-- A long branch's field reaches the target it was made for. -/
theorem longBranchField_target {pc target : Word} {d : BitVec 16}
    (h : longBranchField pc target = some d) : pc + disp16 d = target := by
  simp only [longBranchField] at h
  split at h
  · rename_i hd
    cases h
    rw [hd.2, BitVec.add_comm, BitVec.sub_add_cancel]
  · cases h

/-- Every unit of an expansion is well formed. -/
theorem Pseudo.expand_wf {pc : Word} {p : Pseudo} {us : List FetchUnit} (h : p.expand pc = some us) :
    ∀ u ∈ us, u.wf = true := by
  intro u hu
  cases p <;> simp only [Pseudo.expand] at h
  case li => split at h <;> cases h <;> simp at hu <;> rcases hu with rfl | rfl <;> rfl
  case call => cases hb : longBranchField pc _ <;> rw [hb] at h <;> cases h; simp at hu; subst hu; rfl
  case b => cases hb : longBranchField pc _ <;> rw [hb] at h <;> cases h; simp at hu; subst hu; rfl
  all_goals cases h; simp at hu; subst hu; rfl

/-- The two units of a long `li` load its immediate: `LDIH` puts the high half over `LDIL`'s low half. -/
theorem li_loads (imm : Word) :
    highHalf (imm.extractLsb' 16 16) (simm16 (imm.extractLsb' 0 16)) = imm := by
  apply BitVec.eq_of_getLsbD_eq
  intro i hi
  by_cases h : i < 16
  · simp [highHalf, simm16, uimm16, hi, h, BitVec.getElem_signExtend]
  · have e : 16 + (i - 16) = i := by omega
    have l : i - 16 < 16 := by omega
    simp [highHalf, simm16, uimm16, hi, h, e, l]

end Sys2Proof.Machine
end

