-- ==== Sys2Proof/Laws/State.lean ====
section
/-! SUPPORT. The small laws of State's named updates: one lemma per field per update. -/

namespace Sys2Proof.Machine

/-- The state with another unit in progress: the form in which the laws speak of an update of the unit alone. -/
def State.withUnit (s : State) (u : UnitState) : State := { s with unit := u }

section Updates
variable (s : State)

/-! `State.withUnit` -/
@[simp] theorem State.withUnit_cfg (u : UnitState) : (s.withUnit u).cfg = s.cfg := rfl
@[simp] theorem State.withUnit_regs (u : UnitState) : (s.withUnit u).regs = s.regs := rfl
@[simp] theorem State.withUnit_pc (u : UnitState) : (s.withUnit u).pc = s.pc := rfl
@[simp] theorem State.withUnit_cr (u : UnitState) : (s.withUnit u).cr = s.cr := rfl
@[simp] theorem State.withUnit_unit (u : UnitState) : (s.withUnit u).unit = u := rfl
@[simp] theorem State.withUnit_run (u : UnitState) : (s.withUnit u).run = s.run := rfl
@[simp] theorem State.withUnit_singleStep (u : UnitState) : (s.withUnit u).singleStep = s.singleStep := rfl
@[simp] theorem State.withUnit_waiting (u : UnitState) : (s.withUnit u).waiting = s.waiting := rfl
@[simp] theorem State.withUnit_stopRequest (u : UnitState) : (s.withUnit u).stopRequest = s.stopRequest := rfl
@[simp] theorem State.withUnit_time (u : UnitState) : (s.withUnit u).time = s.time := rfl
@[simp] theorem State.withUnit_events (u : UnitState) : (s.withUnit u).events = s.events := rfl
@[simp] theorem State.withUnit_seq (u : UnitState) : (s.withUnit u).seq = s.seq := rfl
@[simp] theorem State.withUnit_dev (u : UnitState) : (s.withUnit u).dev = s.dev := rfl
@[simp] theorem State.withUnit_mem (u : UnitState) : (s.withUnit u).mem = s.mem := rfl
@[simp] theorem State.withUnit_fds (u : UnitState) : (s.withUnit u).fds = s.fds := rfl
@[simp] theorem State.withUnit_pipes (u : UnitState) : (s.withUnit u).pipes = s.pipes := rfl
@[simp] theorem State.withUnit_nextPipe (u : UnitState) : (s.withUnit u).nextPipe = s.nextPipe := rfl
@[simp] theorem State.withUnit_host (u : UnitState) : (s.withUnit u).host = s.host := rfl

@[simp] theorem State.withUnit_withUnit (u v : UnitState) :
    (s.withUnit u).withUnit v = s.withUnit v := rfl

@[simp] theorem State.withUnit_self : s.withUnit s.unit = s := rfl

/-! `State.push` -/
@[simp] theorem State.push_cfg (e : WbEntry) : (s.push e).cfg = s.cfg := rfl
@[simp] theorem State.push_regs (e : WbEntry) : (s.push e).regs = s.regs := rfl
@[simp] theorem State.push_pc (e : WbEntry) : (s.push e).pc = s.pc := rfl
@[simp] theorem State.push_cr (e : WbEntry) : (s.push e).cr = s.cr := rfl
@[simp] theorem State.push_unit (e : WbEntry) : (s.push e).unit = { s.unit with queue := s.unit.queue ++ [e] } := rfl
@[simp] theorem State.push_run (e : WbEntry) : (s.push e).run = s.run := rfl
@[simp] theorem State.push_singleStep (e : WbEntry) : (s.push e).singleStep = s.singleStep := rfl
@[simp] theorem State.push_waiting (e : WbEntry) : (s.push e).waiting = s.waiting := rfl
@[simp] theorem State.push_stopRequest (e : WbEntry) : (s.push e).stopRequest = s.stopRequest := rfl
@[simp] theorem State.push_time (e : WbEntry) : (s.push e).time = s.time := rfl
@[simp] theorem State.push_events (e : WbEntry) : (s.push e).events = s.events := rfl
@[simp] theorem State.push_seq (e : WbEntry) : (s.push e).seq = s.seq := rfl
@[simp] theorem State.push_dev (e : WbEntry) : (s.push e).dev = s.dev := rfl
@[simp] theorem State.push_mem (e : WbEntry) : (s.push e).mem = s.mem := rfl
@[simp] theorem State.push_fds (e : WbEntry) : (s.push e).fds = s.fds := rfl
@[simp] theorem State.push_pipes (e : WbEntry) : (s.push e).pipes = s.pipes := rfl
@[simp] theorem State.push_nextPipe (e : WbEntry) : (s.push e).nextPipe = s.nextPipe := rfl
@[simp] theorem State.push_host (e : WbEntry) : (s.push e).host = s.host := rfl

/-! `State.pushAll` -/
@[simp] theorem State.pushAll_cfg (es : List WbEntry) : (s.pushAll es).cfg = s.cfg := rfl
@[simp] theorem State.pushAll_regs (es : List WbEntry) : (s.pushAll es).regs = s.regs := rfl
@[simp] theorem State.pushAll_pc (es : List WbEntry) : (s.pushAll es).pc = s.pc := rfl
@[simp] theorem State.pushAll_cr (es : List WbEntry) : (s.pushAll es).cr = s.cr := rfl
@[simp] theorem State.pushAll_unit (es : List WbEntry) : (s.pushAll es).unit = { s.unit with queue := s.unit.queue ++ es } := rfl
@[simp] theorem State.pushAll_run (es : List WbEntry) : (s.pushAll es).run = s.run := rfl
@[simp] theorem State.pushAll_singleStep (es : List WbEntry) : (s.pushAll es).singleStep = s.singleStep := rfl
@[simp] theorem State.pushAll_waiting (es : List WbEntry) : (s.pushAll es).waiting = s.waiting := rfl
@[simp] theorem State.pushAll_stopRequest (es : List WbEntry) : (s.pushAll es).stopRequest = s.stopRequest := rfl
@[simp] theorem State.pushAll_time (es : List WbEntry) : (s.pushAll es).time = s.time := rfl
@[simp] theorem State.pushAll_events (es : List WbEntry) : (s.pushAll es).events = s.events := rfl
@[simp] theorem State.pushAll_seq (es : List WbEntry) : (s.pushAll es).seq = s.seq := rfl
@[simp] theorem State.pushAll_dev (es : List WbEntry) : (s.pushAll es).dev = s.dev := rfl
@[simp] theorem State.pushAll_mem (es : List WbEntry) : (s.pushAll es).mem = s.mem := rfl
@[simp] theorem State.pushAll_fds (es : List WbEntry) : (s.pushAll es).fds = s.fds := rfl
@[simp] theorem State.pushAll_pipes (es : List WbEntry) : (s.pushAll es).pipes = s.pipes := rfl
@[simp] theorem State.pushAll_nextPipe (es : List WbEntry) : (s.pushAll es).nextPipe = s.nextPipe := rfl
@[simp] theorem State.pushAll_host (es : List WbEntry) : (s.pushAll es).host = s.host := rfl

/-! `State.setNpc` -/
@[simp] theorem State.setNpc_cfg (t : Word) : (s.setNpc t).cfg = s.cfg := rfl
@[simp] theorem State.setNpc_regs (t : Word) : (s.setNpc t).regs = s.regs := rfl
@[simp] theorem State.setNpc_pc (t : Word) : (s.setNpc t).pc = s.pc := rfl
@[simp] theorem State.setNpc_cr (t : Word) : (s.setNpc t).cr = s.cr := rfl
@[simp] theorem State.setNpc_unit (t : Word) : (s.setNpc t).unit = { s.unit with npc := some t } := rfl
@[simp] theorem State.setNpc_run (t : Word) : (s.setNpc t).run = s.run := rfl
@[simp] theorem State.setNpc_singleStep (t : Word) : (s.setNpc t).singleStep = s.singleStep := rfl
@[simp] theorem State.setNpc_waiting (t : Word) : (s.setNpc t).waiting = s.waiting := rfl
@[simp] theorem State.setNpc_stopRequest (t : Word) : (s.setNpc t).stopRequest = s.stopRequest := rfl
@[simp] theorem State.setNpc_time (t : Word) : (s.setNpc t).time = s.time := rfl
@[simp] theorem State.setNpc_events (t : Word) : (s.setNpc t).events = s.events := rfl
@[simp] theorem State.setNpc_seq (t : Word) : (s.setNpc t).seq = s.seq := rfl
@[simp] theorem State.setNpc_dev (t : Word) : (s.setNpc t).dev = s.dev := rfl
@[simp] theorem State.setNpc_mem (t : Word) : (s.setNpc t).mem = s.mem := rfl
@[simp] theorem State.setNpc_fds (t : Word) : (s.setNpc t).fds = s.fds := rfl
@[simp] theorem State.setNpc_pipes (t : Word) : (s.setNpc t).pipes = s.pipes := rfl
@[simp] theorem State.setNpc_nextPipe (t : Word) : (s.setNpc t).nextPipe = s.nextPipe := rfl
@[simp] theorem State.setNpc_host (t : Word) : (s.setNpc t).host = s.host := rfl

/-! `State.setReq` -/
@[simp] theorem State.setReq_cfg (r : Request) : (s.setReq r).cfg = s.cfg := rfl
@[simp] theorem State.setReq_regs (r : Request) : (s.setReq r).regs = s.regs := rfl
@[simp] theorem State.setReq_pc (r : Request) : (s.setReq r).pc = s.pc := rfl
@[simp] theorem State.setReq_cr (r : Request) : (s.setReq r).cr = s.cr := rfl
@[simp] theorem State.setReq_unit (r : Request) : (s.setReq r).unit = { s.unit with req := some r } := rfl
@[simp] theorem State.setReq_run (r : Request) : (s.setReq r).run = s.run := rfl
@[simp] theorem State.setReq_singleStep (r : Request) : (s.setReq r).singleStep = s.singleStep := rfl
@[simp] theorem State.setReq_waiting (r : Request) : (s.setReq r).waiting = s.waiting := rfl
@[simp] theorem State.setReq_stopRequest (r : Request) : (s.setReq r).stopRequest = s.stopRequest := rfl
@[simp] theorem State.setReq_time (r : Request) : (s.setReq r).time = s.time := rfl
@[simp] theorem State.setReq_events (r : Request) : (s.setReq r).events = s.events := rfl
@[simp] theorem State.setReq_seq (r : Request) : (s.setReq r).seq = s.seq := rfl
@[simp] theorem State.setReq_dev (r : Request) : (s.setReq r).dev = s.dev := rfl
@[simp] theorem State.setReq_mem (r : Request) : (s.setReq r).mem = s.mem := rfl
@[simp] theorem State.setReq_fds (r : Request) : (s.setReq r).fds = s.fds := rfl
@[simp] theorem State.setReq_pipes (r : Request) : (s.setReq r).pipes = s.pipes := rfl
@[simp] theorem State.setReq_nextPipe (r : Request) : (s.setReq r).nextPipe = s.nextPipe := rfl
@[simp] theorem State.setReq_host (r : Request) : (s.setReq r).host = s.host := rfl

/-! `State.setEff` -/
@[simp] theorem State.setEff_cfg (rb sm : Bool) : (s.setEff rb sm).cfg = s.cfg := rfl
@[simp] theorem State.setEff_regs (rb sm : Bool) : (s.setEff rb sm).regs = s.regs := rfl
@[simp] theorem State.setEff_pc (rb sm : Bool) : (s.setEff rb sm).pc = s.pc := rfl
@[simp] theorem State.setEff_cr (rb sm : Bool) : (s.setEff rb sm).cr = s.cr := rfl
@[simp] theorem State.setEff_unit (rb sm : Bool) : (s.setEff rb sm).unit = { s.unit with effRB := rb, effSM := sm } := rfl
@[simp] theorem State.setEff_run (rb sm : Bool) : (s.setEff rb sm).run = s.run := rfl
@[simp] theorem State.setEff_singleStep (rb sm : Bool) : (s.setEff rb sm).singleStep = s.singleStep := rfl
@[simp] theorem State.setEff_waiting (rb sm : Bool) : (s.setEff rb sm).waiting = s.waiting := rfl
@[simp] theorem State.setEff_stopRequest (rb sm : Bool) : (s.setEff rb sm).stopRequest = s.stopRequest := rfl
@[simp] theorem State.setEff_time (rb sm : Bool) : (s.setEff rb sm).time = s.time := rfl
@[simp] theorem State.setEff_events (rb sm : Bool) : (s.setEff rb sm).events = s.events := rfl
@[simp] theorem State.setEff_seq (rb sm : Bool) : (s.setEff rb sm).seq = s.seq := rfl
@[simp] theorem State.setEff_dev (rb sm : Bool) : (s.setEff rb sm).dev = s.dev := rfl
@[simp] theorem State.setEff_mem (rb sm : Bool) : (s.setEff rb sm).mem = s.mem := rfl
@[simp] theorem State.setEff_fds (rb sm : Bool) : (s.setEff rb sm).fds = s.fds := rfl
@[simp] theorem State.setEff_pipes (rb sm : Bool) : (s.setEff rb sm).pipes = s.pipes := rfl
@[simp] theorem State.setEff_nextPipe (rb sm : Bool) : (s.setEff rb sm).nextPipe = s.nextPipe := rfl
@[simp] theorem State.setEff_host (rb sm : Bool) : (s.setEff rb sm).host = s.host := rfl

/-! `State.countAccess` -/
@[simp] theorem State.countAccess_cfg : (s.countAccess).cfg = s.cfg := rfl
@[simp] theorem State.countAccess_regs : (s.countAccess).regs = s.regs := rfl
@[simp] theorem State.countAccess_pc : (s.countAccess).pc = s.pc := rfl
@[simp] theorem State.countAccess_cr : (s.countAccess).cr = s.cr := rfl
@[simp] theorem State.countAccess_unit : (s.countAccess).unit = { s.unit with acc := s.unit.acc + 1 } := rfl
@[simp] theorem State.countAccess_run : (s.countAccess).run = s.run := rfl
@[simp] theorem State.countAccess_singleStep : (s.countAccess).singleStep = s.singleStep := rfl
@[simp] theorem State.countAccess_waiting : (s.countAccess).waiting = s.waiting := rfl
@[simp] theorem State.countAccess_stopRequest : (s.countAccess).stopRequest = s.stopRequest := rfl
@[simp] theorem State.countAccess_time : (s.countAccess).time = s.time := rfl
@[simp] theorem State.countAccess_events : (s.countAccess).events = s.events := rfl
@[simp] theorem State.countAccess_seq : (s.countAccess).seq = s.seq := rfl
@[simp] theorem State.countAccess_dev : (s.countAccess).dev = s.dev := rfl
@[simp] theorem State.countAccess_mem : (s.countAccess).mem = s.mem := rfl
@[simp] theorem State.countAccess_fds : (s.countAccess).fds = s.fds := rfl
@[simp] theorem State.countAccess_pipes : (s.countAccess).pipes = s.pipes := rfl
@[simp] theorem State.countAccess_nextPipe : (s.countAccess).nextPipe = s.nextPipe := rfl
@[simp] theorem State.countAccess_host : (s.countAccess).host = s.host := rfl

/-! `State.clearQueue` -/
@[simp] theorem State.clearQueue_cfg : (s.clearQueue).cfg = s.cfg := rfl
@[simp] theorem State.clearQueue_regs : (s.clearQueue).regs = s.regs := rfl
@[simp] theorem State.clearQueue_pc : (s.clearQueue).pc = s.pc := rfl
@[simp] theorem State.clearQueue_cr : (s.clearQueue).cr = s.cr := rfl
@[simp] theorem State.clearQueue_unit : (s.clearQueue).unit = { s.unit with queue := [] } := rfl
@[simp] theorem State.clearQueue_run : (s.clearQueue).run = s.run := rfl
@[simp] theorem State.clearQueue_singleStep : (s.clearQueue).singleStep = s.singleStep := rfl
@[simp] theorem State.clearQueue_waiting : (s.clearQueue).waiting = s.waiting := rfl
@[simp] theorem State.clearQueue_stopRequest : (s.clearQueue).stopRequest = s.stopRequest := rfl
@[simp] theorem State.clearQueue_time : (s.clearQueue).time = s.time := rfl
@[simp] theorem State.clearQueue_events : (s.clearQueue).events = s.events := rfl
@[simp] theorem State.clearQueue_seq : (s.clearQueue).seq = s.seq := rfl
@[simp] theorem State.clearQueue_dev : (s.clearQueue).dev = s.dev := rfl
@[simp] theorem State.clearQueue_mem : (s.clearQueue).mem = s.mem := rfl
@[simp] theorem State.clearQueue_fds : (s.clearQueue).fds = s.fds := rfl
@[simp] theorem State.clearQueue_pipes : (s.clearQueue).pipes = s.pipes := rfl
@[simp] theorem State.clearQueue_nextPipe : (s.clearQueue).nextPipe = s.nextPipe := rfl
@[simp] theorem State.clearQueue_host : (s.clearQueue).host = s.host := rfl

/-! `State.refreshEff` -/
@[simp] theorem State.refreshEff_cfg : (s.refreshEff).cfg = s.cfg := rfl
@[simp] theorem State.refreshEff_regs : (s.refreshEff).regs = s.regs := rfl
@[simp] theorem State.refreshEff_pc : (s.refreshEff).pc = s.pc := rfl
@[simp] theorem State.refreshEff_cr : (s.refreshEff).cr = s.cr := rfl
@[simp] theorem State.refreshEff_unit : (s.refreshEff).unit = { s.unit with effRB := pswRB s.cr.psw, effSM := pswSM s.cr.psw } := rfl
@[simp] theorem State.refreshEff_run : (s.refreshEff).run = s.run := rfl
@[simp] theorem State.refreshEff_singleStep : (s.refreshEff).singleStep = s.singleStep := rfl
@[simp] theorem State.refreshEff_waiting : (s.refreshEff).waiting = s.waiting := rfl
@[simp] theorem State.refreshEff_stopRequest : (s.refreshEff).stopRequest = s.stopRequest := rfl
@[simp] theorem State.refreshEff_time : (s.refreshEff).time = s.time := rfl
@[simp] theorem State.refreshEff_events : (s.refreshEff).events = s.events := rfl
@[simp] theorem State.refreshEff_seq : (s.refreshEff).seq = s.seq := rfl
@[simp] theorem State.refreshEff_dev : (s.refreshEff).dev = s.dev := rfl
@[simp] theorem State.refreshEff_mem : (s.refreshEff).mem = s.mem := rfl
@[simp] theorem State.refreshEff_fds : (s.refreshEff).fds = s.fds := rfl
@[simp] theorem State.refreshEff_pipes : (s.refreshEff).pipes = s.pipes := rfl
@[simp] theorem State.refreshEff_nextPipe : (s.refreshEff).nextPipe = s.nextPipe := rfl
@[simp] theorem State.refreshEff_host : (s.refreshEff).host = s.host := rfl

/-! `State.discard` -/
@[simp] theorem State.discard_cfg : (s.discard).cfg = s.cfg := rfl
@[simp] theorem State.discard_regs : (s.discard).regs = s.regs := rfl
@[simp] theorem State.discard_pc : (s.discard).pc = s.pc := rfl
@[simp] theorem State.discard_cr : (s.discard).cr = s.cr := rfl
@[simp] theorem State.discard_unit : (s.discard).unit = { s.unit with queue := [], effRB := pswRB s.cr.psw, effSM := pswSM s.cr.psw } := rfl
@[simp] theorem State.discard_run : (s.discard).run = s.run := rfl
@[simp] theorem State.discard_singleStep : (s.discard).singleStep = s.singleStep := rfl
@[simp] theorem State.discard_waiting : (s.discard).waiting = s.waiting := rfl
@[simp] theorem State.discard_stopRequest : (s.discard).stopRequest = s.stopRequest := rfl
@[simp] theorem State.discard_time : (s.discard).time = s.time := rfl
@[simp] theorem State.discard_events : (s.discard).events = s.events := rfl
@[simp] theorem State.discard_seq : (s.discard).seq = s.seq := rfl
@[simp] theorem State.discard_dev : (s.discard).dev = s.dev := rfl
@[simp] theorem State.discard_mem : (s.discard).mem = s.mem := rfl
@[simp] theorem State.discard_fds : (s.discard).fds = s.fds := rfl
@[simp] theorem State.discard_pipes : (s.discard).pipes = s.pipes := rfl
@[simp] theorem State.discard_nextPipe : (s.discard).nextPipe = s.nextPipe := rfl
@[simp] theorem State.discard_host : (s.discard).host = s.host := rfl

/-! `State.markRaised` -/
@[simp] theorem State.markRaised_cfg : (s.markRaised).cfg = s.cfg := rfl
@[simp] theorem State.markRaised_regs : (s.markRaised).regs = s.regs := rfl
@[simp] theorem State.markRaised_pc : (s.markRaised).pc = s.pc := rfl
@[simp] theorem State.markRaised_cr : (s.markRaised).cr = s.cr := rfl
@[simp] theorem State.markRaised_unit : (s.markRaised).unit = { s.unit with raised := true } := rfl
@[simp] theorem State.markRaised_run : (s.markRaised).run = s.run := rfl
@[simp] theorem State.markRaised_singleStep : (s.markRaised).singleStep = s.singleStep := rfl
@[simp] theorem State.markRaised_waiting : (s.markRaised).waiting = s.waiting := rfl
@[simp] theorem State.markRaised_stopRequest : (s.markRaised).stopRequest = s.stopRequest := rfl
@[simp] theorem State.markRaised_time : (s.markRaised).time = s.time := rfl
@[simp] theorem State.markRaised_events : (s.markRaised).events = s.events := rfl
@[simp] theorem State.markRaised_seq : (s.markRaised).seq = s.seq := rfl
@[simp] theorem State.markRaised_dev : (s.markRaised).dev = s.dev := rfl
@[simp] theorem State.markRaised_mem : (s.markRaised).mem = s.mem := rfl
@[simp] theorem State.markRaised_fds : (s.markRaised).fds = s.fds := rfl
@[simp] theorem State.markRaised_pipes : (s.markRaised).pipes = s.pipes := rfl
@[simp] theorem State.markRaised_nextPipe : (s.markRaised).nextPipe = s.nextPipe := rfl
@[simp] theorem State.markRaised_host : (s.markRaised).host = s.host := rfl

/-! `State.startUnit` -/
@[simp] theorem State.startUnit_cfg (w : Word) : (s.startUnit w).cfg = s.cfg := rfl
@[simp] theorem State.startUnit_regs (w : Word) : (s.startUnit w).regs = s.regs := rfl
@[simp] theorem State.startUnit_pc (w : Word) : (s.startUnit w).pc = s.pc := rfl
@[simp] theorem State.startUnit_cr (w : Word) : (s.startUnit w).cr = s.cr := rfl
@[simp] theorem State.startUnit_unit (w : Word) : (s.startUnit w).unit = { UnitState.idle s.cr.psw with word := w } := rfl
@[simp] theorem State.startUnit_run (w : Word) : (s.startUnit w).run = s.run := rfl
@[simp] theorem State.startUnit_singleStep (w : Word) : (s.startUnit w).singleStep = s.singleStep := rfl
@[simp] theorem State.startUnit_waiting (w : Word) : (s.startUnit w).waiting = s.waiting := rfl
@[simp] theorem State.startUnit_stopRequest (w : Word) : (s.startUnit w).stopRequest = s.stopRequest := rfl
@[simp] theorem State.startUnit_time (w : Word) : (s.startUnit w).time = s.time := rfl
@[simp] theorem State.startUnit_events (w : Word) : (s.startUnit w).events = s.events := rfl
@[simp] theorem State.startUnit_seq (w : Word) : (s.startUnit w).seq = s.seq := rfl
@[simp] theorem State.startUnit_dev (w : Word) : (s.startUnit w).dev = s.dev := rfl
@[simp] theorem State.startUnit_mem (w : Word) : (s.startUnit w).mem = s.mem := rfl
@[simp] theorem State.startUnit_fds (w : Word) : (s.startUnit w).fds = s.fds := rfl
@[simp] theorem State.startUnit_pipes (w : Word) : (s.startUnit w).pipes = s.pipes := rfl
@[simp] theorem State.startUnit_nextPipe (w : Word) : (s.startUnit w).nextPipe = s.nextPipe := rfl
@[simp] theorem State.startUnit_host (w : Word) : (s.startUnit w).host = s.host := rfl

/-! `State.endUnit` -/
@[simp] theorem State.endUnit_cfg : (s.endUnit).cfg = s.cfg := rfl
@[simp] theorem State.endUnit_regs : (s.endUnit).regs = s.regs := rfl
@[simp] theorem State.endUnit_pc : (s.endUnit).pc = s.pc := rfl
@[simp] theorem State.endUnit_cr : (s.endUnit).cr = s.cr := rfl
@[simp] theorem State.endUnit_unit : (s.endUnit).unit = UnitState.idle s.cr.psw := rfl
@[simp] theorem State.endUnit_run : (s.endUnit).run = s.run := rfl
@[simp] theorem State.endUnit_singleStep : (s.endUnit).singleStep = s.singleStep := rfl
@[simp] theorem State.endUnit_waiting : (s.endUnit).waiting = s.waiting := rfl
@[simp] theorem State.endUnit_stopRequest : (s.endUnit).stopRequest = s.stopRequest := rfl
@[simp] theorem State.endUnit_time : (s.endUnit).time = s.time := rfl
@[simp] theorem State.endUnit_events : (s.endUnit).events = s.events := rfl
@[simp] theorem State.endUnit_seq : (s.endUnit).seq = s.seq := rfl
@[simp] theorem State.endUnit_dev : (s.endUnit).dev = s.dev := rfl
@[simp] theorem State.endUnit_mem : (s.endUnit).mem = s.mem := rfl
@[simp] theorem State.endUnit_fds : (s.endUnit).fds = s.fds := rfl
@[simp] theorem State.endUnit_pipes : (s.endUnit).pipes = s.pipes := rfl
@[simp] theorem State.endUnit_nextPipe : (s.endUnit).nextPipe = s.nextPipe := rfl
@[simp] theorem State.endUnit_host : (s.endUnit).host = s.host := rfl

/-! `State.suppress` -/
@[simp] theorem State.suppress_cfg : (s.suppress).cfg = s.cfg := rfl
@[simp] theorem State.suppress_regs : (s.suppress).regs = s.regs := rfl
@[simp] theorem State.suppress_pc : (s.suppress).pc = s.pc := rfl
@[simp] theorem State.suppress_cr : (s.suppress).cr = s.cr := rfl
@[simp] theorem State.suppress_unit : (s.suppress).unit = { s.unit with suppressed := true } := rfl
@[simp] theorem State.suppress_run : (s.suppress).run = s.run := rfl
@[simp] theorem State.suppress_singleStep : (s.suppress).singleStep = s.singleStep := rfl
@[simp] theorem State.suppress_waiting : (s.suppress).waiting = s.waiting := rfl
@[simp] theorem State.suppress_stopRequest : (s.suppress).stopRequest = s.stopRequest := rfl
@[simp] theorem State.suppress_time : (s.suppress).time = s.time := rfl
@[simp] theorem State.suppress_events : (s.suppress).events = s.events := rfl
@[simp] theorem State.suppress_seq : (s.suppress).seq = s.seq := rfl
@[simp] theorem State.suppress_dev : (s.suppress).dev = s.dev := rfl
@[simp] theorem State.suppress_mem : (s.suppress).mem = s.mem := rfl
@[simp] theorem State.suppress_fds : (s.suppress).fds = s.fds := rfl
@[simp] theorem State.suppress_pipes : (s.suppress).pipes = s.pipes := rfl
@[simp] theorem State.suppress_nextPipe : (s.suppress).nextPipe = s.nextPipe := rfl
@[simp] theorem State.suppress_host : (s.suppress).host = s.host := rfl

/-! `State.stopRun` -/
@[simp] theorem State.stopRun_cfg (r : StopReason) : (s.stopRun r).cfg = s.cfg := rfl
@[simp] theorem State.stopRun_regs (r : StopReason) : (s.stopRun r).regs = s.regs := rfl
@[simp] theorem State.stopRun_pc (r : StopReason) : (s.stopRun r).pc = s.pc := rfl
@[simp] theorem State.stopRun_cr (r : StopReason) : (s.stopRun r).cr = s.cr := rfl
@[simp] theorem State.stopRun_unit (r : StopReason) : (s.stopRun r).unit = s.unit := rfl
@[simp] theorem State.stopRun_run (r : StopReason) : (s.stopRun r).run = .stopped (some r) := rfl
@[simp] theorem State.stopRun_singleStep (r : StopReason) : (s.stopRun r).singleStep = s.singleStep := rfl
@[simp] theorem State.stopRun_waiting (r : StopReason) : (s.stopRun r).waiting = s.waiting := rfl
@[simp] theorem State.stopRun_stopRequest (r : StopReason) : (s.stopRun r).stopRequest = s.stopRequest := rfl
@[simp] theorem State.stopRun_time (r : StopReason) : (s.stopRun r).time = s.time := rfl
@[simp] theorem State.stopRun_events (r : StopReason) : (s.stopRun r).events = s.events := rfl
@[simp] theorem State.stopRun_seq (r : StopReason) : (s.stopRun r).seq = s.seq := rfl
@[simp] theorem State.stopRun_dev (r : StopReason) : (s.stopRun r).dev = s.dev := rfl
@[simp] theorem State.stopRun_mem (r : StopReason) : (s.stopRun r).mem = s.mem := rfl
@[simp] theorem State.stopRun_fds (r : StopReason) : (s.stopRun r).fds = s.fds := rfl
@[simp] theorem State.stopRun_pipes (r : StopReason) : (s.stopRun r).pipes = s.pipes := rfl
@[simp] theorem State.stopRun_nextPipe (r : StopReason) : (s.stopRun r).nextPipe = s.nextPipe := rfl
@[simp] theorem State.stopRun_host (r : StopReason) : (s.stopRun r).host = s.host := rfl

/-! `State.tick` -/
@[simp] theorem State.tick_cfg : (s.tick).cfg = s.cfg := rfl
@[simp] theorem State.tick_regs : (s.tick).regs = s.regs := rfl
@[simp] theorem State.tick_pc : (s.tick).pc = s.pc := rfl
@[simp] theorem State.tick_cr : (s.tick).cr = s.cr := rfl
@[simp] theorem State.tick_unit : (s.tick).unit = s.unit := rfl
@[simp] theorem State.tick_run : (s.tick).run = s.run := rfl
@[simp] theorem State.tick_singleStep : (s.tick).singleStep = s.singleStep := rfl
@[simp] theorem State.tick_waiting : (s.tick).waiting = s.waiting := rfl
@[simp] theorem State.tick_stopRequest : (s.tick).stopRequest = s.stopRequest := rfl
@[simp] theorem State.tick_time : (s.tick).time = addTicks s.time (s.cfg.unitCost + s.cfg.memWait * s.unit.acc) := rfl
@[simp] theorem State.tick_events : (s.tick).events = s.events := rfl
@[simp] theorem State.tick_seq : (s.tick).seq = s.seq := rfl
@[simp] theorem State.tick_dev : (s.tick).dev = s.dev := rfl
@[simp] theorem State.tick_mem : (s.tick).mem = s.mem := rfl
@[simp] theorem State.tick_fds : (s.tick).fds = s.fds := rfl
@[simp] theorem State.tick_pipes : (s.tick).pipes = s.pipes := rfl
@[simp] theorem State.tick_nextPipe : (s.tick).nextPipe = s.nextPipe := rfl
@[simp] theorem State.tick_host : (s.tick).host = s.host := rfl

/-! `State.advancePc` -/
@[simp] theorem State.advancePc_cfg : (s.advancePc).cfg = s.cfg := rfl
@[simp] theorem State.advancePc_regs : (s.advancePc).regs = s.regs := rfl
@[simp] theorem State.advancePc_pc : (s.advancePc).pc = s.unit.npc.getD (s.pc + 4#32) := rfl
@[simp] theorem State.advancePc_cr : (s.advancePc).cr = s.cr := rfl
@[simp] theorem State.advancePc_unit : (s.advancePc).unit = s.unit := rfl
@[simp] theorem State.advancePc_run : (s.advancePc).run = s.run := rfl
@[simp] theorem State.advancePc_singleStep : (s.advancePc).singleStep = s.singleStep := rfl
@[simp] theorem State.advancePc_waiting : (s.advancePc).waiting = s.waiting := rfl
@[simp] theorem State.advancePc_stopRequest : (s.advancePc).stopRequest = s.stopRequest := rfl
@[simp] theorem State.advancePc_time : (s.advancePc).time = s.time := rfl
@[simp] theorem State.advancePc_events : (s.advancePc).events = s.events := rfl
@[simp] theorem State.advancePc_seq : (s.advancePc).seq = s.seq := rfl
@[simp] theorem State.advancePc_dev : (s.advancePc).dev = s.dev := rfl
@[simp] theorem State.advancePc_mem : (s.advancePc).mem = s.mem := rfl
@[simp] theorem State.advancePc_fds : (s.advancePc).fds = s.fds := rfl
@[simp] theorem State.advancePc_pipes : (s.advancePc).pipes = s.pipes := rfl
@[simp] theorem State.advancePc_nextPipe : (s.advancePc).nextPipe = s.nextPipe := rfl
@[simp] theorem State.advancePc_host : (s.advancePc).host = s.host := rfl

/-! `State.writeCr` -/
@[simp] theorem State.writeCr_cfg (n : CReg) (v : Word) : (s.writeCr n v).cfg = s.cfg := rfl
@[simp] theorem State.writeCr_regs (n : CReg) (v : Word) : (s.writeCr n v).regs = s.regs := rfl
@[simp] theorem State.writeCr_pc (n : CReg) (v : Word) : (s.writeCr n v).pc = s.pc := rfl
@[simp] theorem State.writeCr_cr (n : CReg) (v : Word) : (s.writeCr n v).cr = s.cr.set n (maskedWrite (s.readCr n) v (crMask n)) := rfl
@[simp] theorem State.writeCr_unit (n : CReg) (v : Word) : (s.writeCr n v).unit = s.unit := rfl
@[simp] theorem State.writeCr_run (n : CReg) (v : Word) : (s.writeCr n v).run = s.run := rfl
@[simp] theorem State.writeCr_singleStep (n : CReg) (v : Word) : (s.writeCr n v).singleStep = s.singleStep := rfl
@[simp] theorem State.writeCr_waiting (n : CReg) (v : Word) : (s.writeCr n v).waiting = s.waiting := rfl
@[simp] theorem State.writeCr_stopRequest (n : CReg) (v : Word) : (s.writeCr n v).stopRequest = s.stopRequest := rfl
@[simp] theorem State.writeCr_time (n : CReg) (v : Word) : (s.writeCr n v).time = s.time := rfl
@[simp] theorem State.writeCr_events (n : CReg) (v : Word) : (s.writeCr n v).events = s.events := rfl
@[simp] theorem State.writeCr_seq (n : CReg) (v : Word) : (s.writeCr n v).seq = s.seq := rfl
@[simp] theorem State.writeCr_dev (n : CReg) (v : Word) : (s.writeCr n v).dev = s.dev := rfl
@[simp] theorem State.writeCr_mem (n : CReg) (v : Word) : (s.writeCr n v).mem = s.mem := rfl
@[simp] theorem State.writeCr_fds (n : CReg) (v : Word) : (s.writeCr n v).fds = s.fds := rfl
@[simp] theorem State.writeCr_pipes (n : CReg) (v : Word) : (s.writeCr n v).pipes = s.pipes := rfl
@[simp] theorem State.writeCr_nextPipe (n : CReg) (v : Word) : (s.writeCr n v).nextPipe = s.nextPipe := rfl
@[simp] theorem State.writeCr_host (n : CReg) (v : Word) : (s.writeCr n v).host = s.host := rfl

/-! `State.schedule` -/
@[simp] theorem State.schedule_cfg (now : Ticks) (delay : Nat) (cb : Callback) : (s.schedule now delay cb).cfg = s.cfg := rfl
@[simp] theorem State.schedule_regs (now : Ticks) (delay : Nat) (cb : Callback) : (s.schedule now delay cb).regs = s.regs := rfl
@[simp] theorem State.schedule_pc (now : Ticks) (delay : Nat) (cb : Callback) : (s.schedule now delay cb).pc = s.pc := rfl
@[simp] theorem State.schedule_cr (now : Ticks) (delay : Nat) (cb : Callback) : (s.schedule now delay cb).cr = s.cr := rfl
@[simp] theorem State.schedule_unit (now : Ticks) (delay : Nat) (cb : Callback) : (s.schedule now delay cb).unit = s.unit := rfl
@[simp] theorem State.schedule_run (now : Ticks) (delay : Nat) (cb : Callback) : (s.schedule now delay cb).run = s.run := rfl
@[simp] theorem State.schedule_singleStep (now : Ticks) (delay : Nat) (cb : Callback) : (s.schedule now delay cb).singleStep = s.singleStep := rfl
@[simp] theorem State.schedule_waiting (now : Ticks) (delay : Nat) (cb : Callback) : (s.schedule now delay cb).waiting = s.waiting := rfl
@[simp] theorem State.schedule_stopRequest (now : Ticks) (delay : Nat) (cb : Callback) : (s.schedule now delay cb).stopRequest = s.stopRequest := rfl
@[simp] theorem State.schedule_time (now : Ticks) (delay : Nat) (cb : Callback) : (s.schedule now delay cb).time = s.time := rfl
@[simp] theorem State.schedule_events (now : Ticks) (delay : Nat) (cb : Callback) : (s.schedule now delay cb).events = insertEvent ⟨addTicks now delay, s.seq, cb⟩ s.events := rfl
@[simp] theorem State.schedule_seq (now : Ticks) (delay : Nat) (cb : Callback) : (s.schedule now delay cb).seq = s.seq + 1 := rfl
@[simp] theorem State.schedule_dev (now : Ticks) (delay : Nat) (cb : Callback) : (s.schedule now delay cb).dev = s.dev := rfl
@[simp] theorem State.schedule_mem (now : Ticks) (delay : Nat) (cb : Callback) : (s.schedule now delay cb).mem = s.mem := rfl
@[simp] theorem State.schedule_fds (now : Ticks) (delay : Nat) (cb : Callback) : (s.schedule now delay cb).fds = s.fds := rfl
@[simp] theorem State.schedule_pipes (now : Ticks) (delay : Nat) (cb : Callback) : (s.schedule now delay cb).pipes = s.pipes := rfl
@[simp] theorem State.schedule_nextPipe (now : Ticks) (delay : Nat) (cb : Callback) : (s.schedule now delay cb).nextPipe = s.nextPipe := rfl
@[simp] theorem State.schedule_host (now : Ticks) (delay : Nat) (cb : Callback) : (s.schedule now delay cb).host = s.host := rfl

/-! `State.recordCall` -/
@[simp] theorem State.recordCall_cfg (c : HostCall) : (s.recordCall c).cfg = s.cfg := rfl
@[simp] theorem State.recordCall_regs (c : HostCall) : (s.recordCall c).regs = s.regs := rfl
@[simp] theorem State.recordCall_pc (c : HostCall) : (s.recordCall c).pc = s.pc := rfl
@[simp] theorem State.recordCall_cr (c : HostCall) : (s.recordCall c).cr = s.cr := rfl
@[simp] theorem State.recordCall_unit (c : HostCall) : (s.recordCall c).unit = s.unit := rfl
@[simp] theorem State.recordCall_run (c : HostCall) : (s.recordCall c).run = s.run := rfl
@[simp] theorem State.recordCall_singleStep (c : HostCall) : (s.recordCall c).singleStep = s.singleStep := rfl
@[simp] theorem State.recordCall_waiting (c : HostCall) : (s.recordCall c).waiting = s.waiting := rfl
@[simp] theorem State.recordCall_stopRequest (c : HostCall) : (s.recordCall c).stopRequest = s.stopRequest := rfl
@[simp] theorem State.recordCall_time (c : HostCall) : (s.recordCall c).time = s.time := rfl
@[simp] theorem State.recordCall_events (c : HostCall) : (s.recordCall c).events = s.events := rfl
@[simp] theorem State.recordCall_seq (c : HostCall) : (s.recordCall c).seq = s.seq := rfl
@[simp] theorem State.recordCall_dev (c : HostCall) : (s.recordCall c).dev = s.dev := rfl
@[simp] theorem State.recordCall_mem (c : HostCall) : (s.recordCall c).mem = s.mem := rfl
@[simp] theorem State.recordCall_fds (c : HostCall) : (s.recordCall c).fds = s.fds := rfl
@[simp] theorem State.recordCall_pipes (c : HostCall) : (s.recordCall c).pipes = s.pipes := rfl
@[simp] theorem State.recordCall_nextPipe (c : HostCall) : (s.recordCall c).nextPipe = s.nextPipe := rfl
@[simp] theorem State.recordCall_host (c : HostCall) : (s.recordCall c).host = { s.host with calls := s.host.calls ++ [c] } := rfl

/-! `State.notify` -/
@[simp] theorem State.notify_cfg (n : Notification) : (s.notify n).cfg = s.cfg := rfl
@[simp] theorem State.notify_regs (n : Notification) : (s.notify n).regs = s.regs := rfl
@[simp] theorem State.notify_pc (n : Notification) : (s.notify n).pc = s.pc := rfl
@[simp] theorem State.notify_cr (n : Notification) : (s.notify n).cr = s.cr := rfl
@[simp] theorem State.notify_unit (n : Notification) : (s.notify n).unit = s.unit := rfl
@[simp] theorem State.notify_run (n : Notification) : (s.notify n).run = s.run := rfl
@[simp] theorem State.notify_singleStep (n : Notification) : (s.notify n).singleStep = s.singleStep := rfl
@[simp] theorem State.notify_waiting (n : Notification) : (s.notify n).waiting = s.waiting := rfl
@[simp] theorem State.notify_stopRequest (n : Notification) : (s.notify n).stopRequest = s.stopRequest := rfl
@[simp] theorem State.notify_time (n : Notification) : (s.notify n).time = s.time := rfl
@[simp] theorem State.notify_events (n : Notification) : (s.notify n).events = s.events := rfl
@[simp] theorem State.notify_seq (n : Notification) : (s.notify n).seq = s.seq := rfl
@[simp] theorem State.notify_dev (n : Notification) : (s.notify n).dev = s.dev := rfl
@[simp] theorem State.notify_mem (n : Notification) : (s.notify n).mem = s.mem := rfl
@[simp] theorem State.notify_fds (n : Notification) : (s.notify n).fds = s.fds := rfl
@[simp] theorem State.notify_pipes (n : Notification) : (s.notify n).pipes = s.pipes := rfl
@[simp] theorem State.notify_nextPipe (n : Notification) : (s.notify n).nextPipe = s.nextPipe := rfl
@[simp] theorem State.notify_host (n : Notification) : (s.notify n).host = { s.host with notes := s.host.notes ++ [n] } := rfl

/-! `State.setSlot` -/
@[simp] theorem State.setSlot_cfg (fd : Nat) (x : FdSlot) : (s.setSlot fd x).cfg = s.cfg := rfl
@[simp] theorem State.setSlot_regs (fd : Nat) (x : FdSlot) : (s.setSlot fd x).regs = s.regs := rfl
@[simp] theorem State.setSlot_pc (fd : Nat) (x : FdSlot) : (s.setSlot fd x).pc = s.pc := rfl
@[simp] theorem State.setSlot_cr (fd : Nat) (x : FdSlot) : (s.setSlot fd x).cr = s.cr := rfl
@[simp] theorem State.setSlot_unit (fd : Nat) (x : FdSlot) : (s.setSlot fd x).unit = s.unit := rfl
@[simp] theorem State.setSlot_run (fd : Nat) (x : FdSlot) : (s.setSlot fd x).run = s.run := rfl
@[simp] theorem State.setSlot_singleStep (fd : Nat) (x : FdSlot) : (s.setSlot fd x).singleStep = s.singleStep := rfl
@[simp] theorem State.setSlot_waiting (fd : Nat) (x : FdSlot) : (s.setSlot fd x).waiting = s.waiting := rfl
@[simp] theorem State.setSlot_stopRequest (fd : Nat) (x : FdSlot) : (s.setSlot fd x).stopRequest = s.stopRequest := rfl
@[simp] theorem State.setSlot_time (fd : Nat) (x : FdSlot) : (s.setSlot fd x).time = s.time := rfl
@[simp] theorem State.setSlot_events (fd : Nat) (x : FdSlot) : (s.setSlot fd x).events = s.events := rfl
@[simp] theorem State.setSlot_seq (fd : Nat) (x : FdSlot) : (s.setSlot fd x).seq = s.seq := rfl
@[simp] theorem State.setSlot_dev (fd : Nat) (x : FdSlot) : (s.setSlot fd x).dev = s.dev := rfl
@[simp] theorem State.setSlot_mem (fd : Nat) (x : FdSlot) : (s.setSlot fd x).mem = s.mem := rfl
@[simp] theorem State.setSlot_fds (fd : Nat) (x : FdSlot) : (s.setSlot fd x).fds = s.fds.set fd x := rfl
@[simp] theorem State.setSlot_pipes (fd : Nat) (x : FdSlot) : (s.setSlot fd x).pipes = s.pipes := rfl
@[simp] theorem State.setSlot_nextPipe (fd : Nat) (x : FdSlot) : (s.setSlot fd x).nextPipe = s.nextPipe := rfl
@[simp] theorem State.setSlot_host (fd : Nat) (x : FdSlot) : (s.setSlot fd x).host = s.host := rfl

/-! `State.putPipe` -/
@[simp] theorem State.putPipe_cfg (p : Nat) (x : Pipe) : (s.putPipe p x).cfg = s.cfg := rfl
@[simp] theorem State.putPipe_regs (p : Nat) (x : Pipe) : (s.putPipe p x).regs = s.regs := rfl
@[simp] theorem State.putPipe_pc (p : Nat) (x : Pipe) : (s.putPipe p x).pc = s.pc := rfl
@[simp] theorem State.putPipe_cr (p : Nat) (x : Pipe) : (s.putPipe p x).cr = s.cr := rfl
@[simp] theorem State.putPipe_unit (p : Nat) (x : Pipe) : (s.putPipe p x).unit = s.unit := rfl
@[simp] theorem State.putPipe_run (p : Nat) (x : Pipe) : (s.putPipe p x).run = s.run := rfl
@[simp] theorem State.putPipe_singleStep (p : Nat) (x : Pipe) : (s.putPipe p x).singleStep = s.singleStep := rfl
@[simp] theorem State.putPipe_waiting (p : Nat) (x : Pipe) : (s.putPipe p x).waiting = s.waiting := rfl
@[simp] theorem State.putPipe_stopRequest (p : Nat) (x : Pipe) : (s.putPipe p x).stopRequest = s.stopRequest := rfl
@[simp] theorem State.putPipe_time (p : Nat) (x : Pipe) : (s.putPipe p x).time = s.time := rfl
@[simp] theorem State.putPipe_events (p : Nat) (x : Pipe) : (s.putPipe p x).events = s.events := rfl
@[simp] theorem State.putPipe_seq (p : Nat) (x : Pipe) : (s.putPipe p x).seq = s.seq := rfl
@[simp] theorem State.putPipe_dev (p : Nat) (x : Pipe) : (s.putPipe p x).dev = s.dev := rfl
@[simp] theorem State.putPipe_mem (p : Nat) (x : Pipe) : (s.putPipe p x).mem = s.mem := rfl
@[simp] theorem State.putPipe_fds (p : Nat) (x : Pipe) : (s.putPipe p x).fds = s.fds := rfl
@[simp] theorem State.putPipe_pipes (p : Nat) (x : Pipe) : (s.putPipe p x).pipes = if x.rdOpen || x.wrOpen then setPipe p x s.pipes else dropPipe p s.pipes := rfl
@[simp] theorem State.putPipe_nextPipe (p : Nat) (x : Pipe) : (s.putPipe p x).nextPipe = s.nextPipe := rfl
@[simp] theorem State.putPipe_host (p : Nat) (x : Pipe) : (s.putPipe p x).host = s.host := rfl

/-! `State.setRunning` -/
@[simp] theorem State.setRunning_cfg : (s.setRunning).cfg = s.cfg := rfl
@[simp] theorem State.setRunning_regs : (s.setRunning).regs = s.regs := rfl
@[simp] theorem State.setRunning_pc : (s.setRunning).pc = s.pc := rfl
@[simp] theorem State.setRunning_cr : (s.setRunning).cr = s.cr := rfl
@[simp] theorem State.setRunning_unit : (s.setRunning).unit = s.unit := rfl
@[simp] theorem State.setRunning_run : (s.setRunning).run = .running := rfl
@[simp] theorem State.setRunning_singleStep : (s.setRunning).singleStep = s.singleStep := rfl
@[simp] theorem State.setRunning_waiting : (s.setRunning).waiting = false := rfl
@[simp] theorem State.setRunning_stopRequest : (s.setRunning).stopRequest = s.stopRequest := rfl
@[simp] theorem State.setRunning_time : (s.setRunning).time = s.time := rfl
@[simp] theorem State.setRunning_events : (s.setRunning).events = s.events := rfl
@[simp] theorem State.setRunning_seq : (s.setRunning).seq = s.seq := rfl
@[simp] theorem State.setRunning_dev : (s.setRunning).dev = s.dev := rfl
@[simp] theorem State.setRunning_mem : (s.setRunning).mem = s.mem := rfl
@[simp] theorem State.setRunning_fds : (s.setRunning).fds = s.fds := rfl
@[simp] theorem State.setRunning_pipes : (s.setRunning).pipes = s.pipes := rfl
@[simp] theorem State.setRunning_nextPipe : (s.setRunning).nextPipe = s.nextPipe := rfl
@[simp] theorem State.setRunning_host : (s.setRunning).host = s.host := rfl

/-! `State.requestStop` -/
@[simp] theorem State.requestStop_cfg : (s.requestStop).cfg = s.cfg := rfl
@[simp] theorem State.requestStop_regs : (s.requestStop).regs = s.regs := rfl
@[simp] theorem State.requestStop_pc : (s.requestStop).pc = s.pc := rfl
@[simp] theorem State.requestStop_cr : (s.requestStop).cr = s.cr := rfl
@[simp] theorem State.requestStop_unit : (s.requestStop).unit = s.unit := rfl
@[simp] theorem State.requestStop_run : (s.requestStop).run = s.run := rfl
@[simp] theorem State.requestStop_singleStep : (s.requestStop).singleStep = s.singleStep := rfl
@[simp] theorem State.requestStop_waiting : (s.requestStop).waiting = s.waiting := rfl
@[simp] theorem State.requestStop_stopRequest : (s.requestStop).stopRequest = true := rfl
@[simp] theorem State.requestStop_time : (s.requestStop).time = s.time := rfl
@[simp] theorem State.requestStop_events : (s.requestStop).events = s.events := rfl
@[simp] theorem State.requestStop_seq : (s.requestStop).seq = s.seq := rfl
@[simp] theorem State.requestStop_dev : (s.requestStop).dev = s.dev := rfl
@[simp] theorem State.requestStop_mem : (s.requestStop).mem = s.mem := rfl
@[simp] theorem State.requestStop_fds : (s.requestStop).fds = s.fds := rfl
@[simp] theorem State.requestStop_pipes : (s.requestStop).pipes = s.pipes := rfl
@[simp] theorem State.requestStop_nextPipe : (s.requestStop).nextPipe = s.nextPipe := rfl
@[simp] theorem State.requestStop_host : (s.requestStop).host = s.host := rfl

/-! `State.takeArrival` -/
@[simp] theorem State.takeArrival_cfg : (s.takeArrival).cfg = s.cfg := rfl
@[simp] theorem State.takeArrival_regs : (s.takeArrival).regs = s.regs := rfl
@[simp] theorem State.takeArrival_pc : (s.takeArrival).pc = s.pc := rfl
@[simp] theorem State.takeArrival_cr : (s.takeArrival).cr = s.cr := rfl
@[simp] theorem State.takeArrival_unit : (s.takeArrival).unit = s.unit := rfl
@[simp] theorem State.takeArrival_run : (s.takeArrival).run = s.run := rfl
@[simp] theorem State.takeArrival_singleStep : (s.takeArrival).singleStep = s.singleStep := rfl
@[simp] theorem State.takeArrival_waiting : (s.takeArrival).waiting = s.waiting := rfl
@[simp] theorem State.takeArrival_stopRequest : (s.takeArrival).stopRequest = (s.stopRequest || s.host.arrivals.headD false) := rfl
@[simp] theorem State.takeArrival_time : (s.takeArrival).time = s.time := rfl
@[simp] theorem State.takeArrival_events : (s.takeArrival).events = s.events := rfl
@[simp] theorem State.takeArrival_seq : (s.takeArrival).seq = s.seq := rfl
@[simp] theorem State.takeArrival_dev : (s.takeArrival).dev = s.dev := rfl
@[simp] theorem State.takeArrival_mem : (s.takeArrival).mem = s.mem := rfl
@[simp] theorem State.takeArrival_fds : (s.takeArrival).fds = s.fds := rfl
@[simp] theorem State.takeArrival_pipes : (s.takeArrival).pipes = s.pipes := rfl
@[simp] theorem State.takeArrival_nextPipe : (s.takeArrival).nextPipe = s.nextPipe := rfl
@[simp] theorem State.takeArrival_host : (s.takeArrival).host = { s.host with arrivals := s.host.arrivals.tail } := rfl
@[simp] theorem State.takeArrival_icLevel : (s.takeArrival).icLevel = s.icLevel := rfl

/-- With nothing to come, nothing arrives. -/
@[simp] theorem State.takeArrival_of_nil (h : s.host.arrivals = []) : s.takeArrival = s := by
  obtain ⟨c, r, p, cr, u, rn, ss, w, sr, t, e, q, d, m, f, ps, np, ho⟩ := s
  obtain ⟨sc, sv, ar, ca, no, le⟩ := ho
  cases h
  simp [State.takeArrival]

end Updates

/-! ### Updates of the unit, as `withUnit` -/

theorem State.pushAll_unit_eq (s : State) (es : List WbEntry) :
    s.pushAll es = s.withUnit { s.unit with queue := s.unit.queue ++ es } := rfl

theorem State.setNpc_eq (s : State) (t : Word) :
    s.setNpc t = s.withUnit { s.unit with npc := some t } := rfl

theorem State.setReq_eq (s : State) (r : Request) :
    s.setReq r = s.withUnit { s.unit with req := some r } := rfl

theorem State.countAccess_eq (s : State) :
    s.countAccess = s.withUnit { s.unit with acc := s.unit.acc + 1 } := rfl

theorem State.discard_eq (s : State) :
    s.discard = s.withUnit { s.unit with
      queue := [], effRB := pswRB s.cr.psw, effSM := pswSM s.cr.psw } := rfl

/-! ### Derived pushes, in terms of `pushAll` -/

theorem State.pushReg_eq (s : State) (i : RegNum) (v : Word) :
    s.pushReg i v = s.pushAll [.reg (.gpr (s.physReg i)) v 0xFFFFFFFF#32] := rfl

theorem State.pushCr_eq (s : State) (n : CReg) (v : Word) :
    s.pushCr n v = s.pushAll [.reg (.cr n) v (crMask n)] := rfl

theorem State.pushFlags_eq (s : State) (f : FlagWrites) :
    s.pushFlags f = s.pushAll [flagsEntry f] := rfl

theorem State.push_eq (s : State) (e : WbEntry) : s.push e = s.pushAll [e] := rfl

theorem State.pushAll_nil (s : State) : s.pushAll [] = s := by
  simp [State.pushAll]

theorem State.pushAll_append (s : State) (xs ys : List WbEntry) :
    (s.pushAll xs).pushAll ys = s.pushAll (xs ++ ys) := by
  simp [State.pushAll]

/-! Reads that an update of the unit does not touch -/

@[simp] theorem State.readPhys_pushAll (s : State) (es : List WbEntry) (p : PReg) :
    (s.pushAll es).readPhys p = s.readPhys p := rfl

@[simp] theorem State.physReg_pushAll (s : State) (es : List WbEntry) (i : RegNum) :
    (s.pushAll es).physReg i = s.physReg i := rfl

@[simp] theorem State.readReg_pushAll (s : State) (es : List WbEntry) (i : RegNum) :
    (s.pushAll es).readReg i = s.readReg i := rfl

@[simp] theorem State.readCr_pushAll (s : State) (es : List WbEntry) (n : CReg) :
    (s.pushAll es).readCr n = s.readCr n := by cases n <;> rfl

@[simp] theorem State.physReg_countAccess (s : State) (i : RegNum) :
    s.countAccess.physReg i = s.physReg i := rfl

@[simp] theorem CRegs.set_psw (r : CRegs) (n : CReg) (v : Word) :
    (r.set n v).psw = if n = .psw then v else r.psw := by cases n <;> rfl

@[simp] theorem CRegs.set_bpsw (r : CRegs) (n : CReg) (v : Word) :
    (r.set n v).bpsw = if n = .bpsw then v else r.bpsw := by cases n <;> rfl

@[simp] theorem CRegs.set_bpc (r : CRegs) (n : CReg) (v : Word) :
    (r.set n v).bpc = if n = .bpc then v else r.bpc := by cases n <;> rfl

@[simp] theorem CRegs.set_evb (r : CRegs) (n : CReg) (v : Word) :
    (r.set n v).evb = if n = .evb then v else r.evb := by cases n <;> rfl

@[simp] theorem CRegs.set_cause (r : CRegs) (n : CReg) (v : Word) :
    (r.set n v).cause = if n = .cause then v else r.cause := by cases n <;> rfl

@[simp] theorem CRegs.set_badaddr (r : CRegs) (n : CReg) (v : Word) :
    (r.set n v).badaddr = if n = .badaddr then v else r.badaddr := by cases n <;> rfl

@[simp] theorem CRegs.set_supp (r : CRegs) (n : CReg) (v : Word) :
    (r.set n v).supp = if n = .supp then v else r.supp := by cases n <;> rfl

end Sys2Proof.Machine
end

