-- ==== Sys2Proof/Laws/Queue.lean ====
section
/-! SUPPORT. What applying the write-back queue can do: which fields an entry touches, FIFO order, and the commit of
a unit after more entries were pushed (R72, R75, R259). -/

namespace Sys2Proof.Machine

/-! ### A device write touches devices, events and the insertion counter alone -/

theorem State.schedule_frame (s : State) (now : Ticks) (delay : Nat) (cb : Callback) :
    s.schedule now delay cb =
      { s with events := insertEvent ⟨addTicks now delay, s.seq, cb⟩ s.events, seq := s.seq + 1 } := rfl

/-- All a device write does: new device registers, and at most one new event. -/
theorem State.devWrite_spec (s : State) (r : DevReg) (v : Word) (now : Ticks) :
    ∃ d : Devices, s.devWrite r v now = { s with dev := d } ∨
      ∃ delay cb, s.devWrite r v now = { s with dev := d }.schedule now delay cb := by
  cases r with
  | tmrCtrl =>
    simp only [State.devWrite, State.writeTmrCtrl]
    split
    · split
      · exact ⟨_, .inl rfl⟩
      · exact ⟨_, .inr ⟨_, _, rfl⟩⟩
    · exact ⟨_, .inl rfl⟩
  | uartTxdata =>
    simp only [State.devWrite, State.writeUartTxdata]
    split
    · exact ⟨_, .inl rfl⟩
    · exact ⟨_, .inr ⟨_, _, rfl⟩⟩
  | wdtCtrl =>
    simp only [State.devWrite, State.rearmWdt]
    split
    · exact ⟨_, .inr ⟨_, _, rfl⟩⟩
    · exact ⟨_, .inl rfl⟩
  | wdtKick =>
    simp only [State.devWrite, State.rearmWdt]
    split
    · exact ⟨_, .inr ⟨_, _, rfl⟩⟩
    · exact ⟨_, .inl rfl⟩
  | map k => exact ⟨_, .inl rfl⟩
  | icPending => exact ⟨_, .inl rfl⟩
  | icMask => exact ⟨_, .inl rfl⟩
  | icLatched => exact ⟨_, .inl rfl⟩
  | icControl => exact ⟨_, .inl rfl⟩
  | icLevel => exact ⟨_, .inl rfl⟩
  | tmrPeriod => exact ⟨_, .inl rfl⟩
  | tmrStatus => exact ⟨_, .inl rfl⟩
  | tmrNow => exact ⟨_, .inl rfl⟩
  | tmrNowh => exact ⟨_, .inl rfl⟩
  | uartStatus => exact ⟨_, .inl rfl⟩
  | uartCtrl => exact ⟨_, .inl rfl⟩
  | wdtReload => exact ⟨_, .inl rfl⟩
  | wdtStatus => exact ⟨_, .inl rfl⟩

@[simp] theorem State.devWrite_cfg (s : State) (r : DevReg) (v : Word) (now : Ticks) :
    (s.devWrite r v now).cfg = s.cfg := by
  obtain ⟨d, h | ⟨_, _, h⟩⟩ := s.devWrite_spec r v now <;> simp [h]

@[simp] theorem State.devWrite_regs (s : State) (r : DevReg) (v : Word) (now : Ticks) :
    (s.devWrite r v now).regs = s.regs := by
  obtain ⟨d, h | ⟨_, _, h⟩⟩ := s.devWrite_spec r v now <;> simp [h]

@[simp] theorem State.devWrite_pc (s : State) (r : DevReg) (v : Word) (now : Ticks) :
    (s.devWrite r v now).pc = s.pc := by
  obtain ⟨d, h | ⟨_, _, h⟩⟩ := s.devWrite_spec r v now <;> simp [h]

@[simp] theorem State.devWrite_cr (s : State) (r : DevReg) (v : Word) (now : Ticks) :
    (s.devWrite r v now).cr = s.cr := by
  obtain ⟨d, h | ⟨_, _, h⟩⟩ := s.devWrite_spec r v now <;> simp [h]

@[simp] theorem State.devWrite_unit (s : State) (r : DevReg) (v : Word) (now : Ticks) :
    (s.devWrite r v now).unit = s.unit := by
  obtain ⟨d, h | ⟨_, _, h⟩⟩ := s.devWrite_spec r v now <;> simp [h]

@[simp] theorem State.devWrite_run (s : State) (r : DevReg) (v : Word) (now : Ticks) :
    (s.devWrite r v now).run = s.run := by
  obtain ⟨d, h | ⟨_, _, h⟩⟩ := s.devWrite_spec r v now <;> simp [h]

@[simp] theorem State.devWrite_singleStep (s : State) (r : DevReg) (v : Word) (now : Ticks) :
    (s.devWrite r v now).singleStep = s.singleStep := by
  obtain ⟨d, h | ⟨_, _, h⟩⟩ := s.devWrite_spec r v now <;> simp [h]

@[simp] theorem State.devWrite_waiting (s : State) (r : DevReg) (v : Word) (now : Ticks) :
    (s.devWrite r v now).waiting = s.waiting := by
  obtain ⟨d, h | ⟨_, _, h⟩⟩ := s.devWrite_spec r v now <;> simp [h]

@[simp] theorem State.devWrite_stopRequest (s : State) (r : DevReg) (v : Word) (now : Ticks) :
    (s.devWrite r v now).stopRequest = s.stopRequest := by
  obtain ⟨d, h | ⟨_, _, h⟩⟩ := s.devWrite_spec r v now <;> simp [h]

@[simp] theorem State.devWrite_time (s : State) (r : DevReg) (v : Word) (now : Ticks) :
    (s.devWrite r v now).time = s.time := by
  obtain ⟨d, h | ⟨_, _, h⟩⟩ := s.devWrite_spec r v now <;> simp [h]

@[simp] theorem State.devWrite_mem (s : State) (r : DevReg) (v : Word) (now : Ticks) :
    (s.devWrite r v now).mem = s.mem := by
  obtain ⟨d, h | ⟨_, _, h⟩⟩ := s.devWrite_spec r v now <;> simp [h]

@[simp] theorem State.devWrite_fds (s : State) (r : DevReg) (v : Word) (now : Ticks) :
    (s.devWrite r v now).fds = s.fds := by
  obtain ⟨d, h | ⟨_, _, h⟩⟩ := s.devWrite_spec r v now <;> simp [h]

@[simp] theorem State.devWrite_pipes (s : State) (r : DevReg) (v : Word) (now : Ticks) :
    (s.devWrite r v now).pipes = s.pipes := by
  obtain ⟨d, h | ⟨_, _, h⟩⟩ := s.devWrite_spec r v now <;> simp [h]

@[simp] theorem State.devWrite_nextPipe (s : State) (r : DevReg) (v : Word) (now : Ticks) :
    (s.devWrite r v now).nextPipe = s.nextPipe := by
  obtain ⟨d, h | ⟨_, _, h⟩⟩ := s.devWrite_spec r v now <;> simp [h]

@[simp] theorem State.devWrite_host (s : State) (r : DevReg) (v : Word) (now : Ticks) :
    (s.devWrite r v now).host = s.host := by
  obtain ⟨d, h | ⟨_, _, h⟩⟩ := s.devWrite_spec r v now <;> simp [h]

/-! ### One entry -/

@[simp] theorem State.applyEntry_cfg (s : State) (e : WbEntry) : (s.applyEntry e).cfg = s.cfg := by
  rcases e with ⟨d, v, m⟩ | ⟨pa, bs⟩ | ⟨r, v⟩
  · cases d <;> rfl
  · rfl
  · simp [State.applyEntry]

@[simp] theorem State.applyEntry_pc (s : State) (e : WbEntry) : (s.applyEntry e).pc = s.pc := by
  rcases e with ⟨d, v, m⟩ | ⟨pa, bs⟩ | ⟨r, v⟩
  · cases d <;> rfl
  · rfl
  · simp [State.applyEntry]

@[simp] theorem State.applyEntry_unit (s : State) (e : WbEntry) : (s.applyEntry e).unit = s.unit := by
  rcases e with ⟨d, v, m⟩ | ⟨pa, bs⟩ | ⟨r, v⟩
  · cases d <;> rfl
  · rfl
  · simp [State.applyEntry]

@[simp] theorem State.applyEntry_run (s : State) (e : WbEntry) : (s.applyEntry e).run = s.run := by
  rcases e with ⟨d, v, m⟩ | ⟨pa, bs⟩ | ⟨r, v⟩
  · cases d <;> rfl
  · rfl
  · simp [State.applyEntry]

@[simp] theorem State.applyEntry_singleStep (s : State) (e : WbEntry) : (s.applyEntry e).singleStep = s.singleStep := by
  rcases e with ⟨d, v, m⟩ | ⟨pa, bs⟩ | ⟨r, v⟩
  · cases d <;> rfl
  · rfl
  · simp [State.applyEntry]

@[simp] theorem State.applyEntry_waiting (s : State) (e : WbEntry) : (s.applyEntry e).waiting = s.waiting := by
  rcases e with ⟨d, v, m⟩ | ⟨pa, bs⟩ | ⟨r, v⟩
  · cases d <;> rfl
  · rfl
  · simp [State.applyEntry]

@[simp] theorem State.applyEntry_stopRequest (s : State) (e : WbEntry) : (s.applyEntry e).stopRequest = s.stopRequest := by
  rcases e with ⟨d, v, m⟩ | ⟨pa, bs⟩ | ⟨r, v⟩
  · cases d <;> rfl
  · rfl
  · simp [State.applyEntry]

@[simp] theorem State.applyEntry_time (s : State) (e : WbEntry) : (s.applyEntry e).time = s.time := by
  rcases e with ⟨d, v, m⟩ | ⟨pa, bs⟩ | ⟨r, v⟩
  · cases d <;> rfl
  · rfl
  · simp [State.applyEntry]

@[simp] theorem State.applyEntry_fds (s : State) (e : WbEntry) : (s.applyEntry e).fds = s.fds := by
  rcases e with ⟨d, v, m⟩ | ⟨pa, bs⟩ | ⟨r, v⟩
  · cases d <;> rfl
  · rfl
  · simp [State.applyEntry]

@[simp] theorem State.applyEntry_pipes (s : State) (e : WbEntry) : (s.applyEntry e).pipes = s.pipes := by
  rcases e with ⟨d, v, m⟩ | ⟨pa, bs⟩ | ⟨r, v⟩
  · cases d <;> rfl
  · rfl
  · simp [State.applyEntry]

@[simp] theorem State.applyEntry_nextPipe (s : State) (e : WbEntry) : (s.applyEntry e).nextPipe = s.nextPipe := by
  rcases e with ⟨d, v, m⟩ | ⟨pa, bs⟩ | ⟨r, v⟩
  · cases d <;> rfl
  · rfl
  · simp [State.applyEntry]

@[simp] theorem State.applyEntry_host (s : State) (e : WbEntry) : (s.applyEntry e).host = s.host := by
  rcases e with ⟨d, v, m⟩ | ⟨pa, bs⟩ | ⟨r, v⟩
  · cases d <;> rfl
  · rfl
  · simp [State.applyEntry]

theorem State.devWrite_withUnit (s : State) (u : UnitState) (r : DevReg) (v : Word) (now : Ticks) :
    (s.withUnit u).devWrite r v now = (s.devWrite r v now).withUnit u := by
  cases r with
  | tmrCtrl =>
    simp only [State.devWrite, State.writeTmrCtrl, State.withUnit_dev]
    by_cases h1 : (v &&& 0x000000F3#32).getLsbD 0 = true
    · by_cases h2 : s.dev.tmrPeriod = 0#32
      · simp only [if_pos h1]
        refine (if_pos h2).trans ?_
        rw [if_pos h2]
        rfl
      · simp only [if_pos h1]
        refine (if_neg h2).trans ?_
        rw [if_neg h2]
        rfl
    · simp only [if_neg h1]; rfl
  | uartTxdata =>
    simp only [State.devWrite, State.writeUartTxdata]
    by_cases h : s.dev.uartStatus.getLsbD 0 = true
    · refine (if_pos h).trans ?_
      rw [if_pos h]
      rfl
    · refine (if_neg h).trans ?_
      rw [if_neg h]
      rfl
  | wdtCtrl =>
    simp only [State.devWrite, State.rearmWdt]
    by_cases h : (v &&& 1#32).getLsbD 0 = true ∧ 1 ≤ s.dev.wdtReload.toNat
    · refine (if_pos h).trans ?_
      rw [if_pos h]
      rfl
    · refine (if_neg h).trans ?_
      rw [if_neg h]
      rfl
  | wdtKick =>
    simp only [State.devWrite, State.rearmWdt]
    by_cases h : s.dev.wdtCtrl.getLsbD 0 = true ∧ 1 ≤ s.dev.wdtReload.toNat
    · refine (if_pos h).trans ?_
      rw [if_pos h]
      rfl
    · refine (if_neg h).trans ?_
      rw [if_neg h]
      rfl
  | map | icPending | icMask | icLatched | icControl | icLevel | tmrPeriod | tmrStatus | tmrNow
  | tmrNowh | uartStatus | uartCtrl | wdtReload | wdtStatus => rfl

/-- An entry acts the same whatever the unit in progress. -/
theorem State.applyEntry_unit_update (s : State) (u : UnitState) (e : WbEntry) :
    (s.withUnit u).applyEntry e = (s.applyEntry e).withUnit u := by
  rcases e with ⟨d, v, m⟩ | ⟨pa, bs⟩ | ⟨r, v⟩
  · cases d with
    | gpr p => rfl
    | cr n => cases n <;> rfl
  · rfl
  · exact s.devWrite_withUnit u r v s.time

/-! ### The queue -/

@[simp] theorem applyEntries_nil (s : State) : applyEntries [] s = s := rfl

@[simp] theorem applyEntries_cons (e : WbEntry) (es : List WbEntry) (s : State) :
    applyEntries (e :: es) s = applyEntries es (s.applyEntry e) := rfl

/-- FIFO order: the entries of the second half apply after those of the first (R72, R259). -/
theorem applyEntries_append (xs ys : List WbEntry) (s : State) :
    applyEntries (xs ++ ys) s = applyEntries ys (applyEntries xs s) := by
  induction xs generalizing s with
  | nil => rfl
  | cons x xs ih => simp [ih]

theorem applyEntries_unit_update (es : List WbEntry) (s : State) (u : UnitState) :
    applyEntries es (s.withUnit u) = (applyEntries es s).withUnit u := by
  induction es generalizing s with
  | nil => rfl
  | cons e es ih => rw [applyEntries_cons, applyEntries_cons, State.applyEntry_unit_update, ih]

@[simp] theorem applyEntries_cfg (es : List WbEntry) (s : State) :
    (applyEntries es s).cfg = s.cfg := by
  induction es generalizing s with
  | nil => rfl
  | cons e es ih => simp [ih]

@[simp] theorem applyEntries_pc (es : List WbEntry) (s : State) :
    (applyEntries es s).pc = s.pc := by
  induction es generalizing s with
  | nil => rfl
  | cons e es ih => simp [ih]

@[simp] theorem applyEntries_unit (es : List WbEntry) (s : State) :
    (applyEntries es s).unit = s.unit := by
  induction es generalizing s with
  | nil => rfl
  | cons e es ih => simp [ih]

@[simp] theorem applyEntries_run (es : List WbEntry) (s : State) :
    (applyEntries es s).run = s.run := by
  induction es generalizing s with
  | nil => rfl
  | cons e es ih => simp [ih]

@[simp] theorem applyEntries_singleStep (es : List WbEntry) (s : State) :
    (applyEntries es s).singleStep = s.singleStep := by
  induction es generalizing s with
  | nil => rfl
  | cons e es ih => simp [ih]

@[simp] theorem applyEntries_waiting (es : List WbEntry) (s : State) :
    (applyEntries es s).waiting = s.waiting := by
  induction es generalizing s with
  | nil => rfl
  | cons e es ih => simp [ih]

@[simp] theorem applyEntries_stopRequest (es : List WbEntry) (s : State) :
    (applyEntries es s).stopRequest = s.stopRequest := by
  induction es generalizing s with
  | nil => rfl
  | cons e es ih => simp [ih]

@[simp] theorem applyEntries_time (es : List WbEntry) (s : State) :
    (applyEntries es s).time = s.time := by
  induction es generalizing s with
  | nil => rfl
  | cons e es ih => simp [ih]

@[simp] theorem applyEntries_fds (es : List WbEntry) (s : State) :
    (applyEntries es s).fds = s.fds := by
  induction es generalizing s with
  | nil => rfl
  | cons e es ih => simp [ih]

@[simp] theorem applyEntries_pipes (es : List WbEntry) (s : State) :
    (applyEntries es s).pipes = s.pipes := by
  induction es generalizing s with
  | nil => rfl
  | cons e es ih => simp [ih]

@[simp] theorem applyEntries_nextPipe (es : List WbEntry) (s : State) :
    (applyEntries es s).nextPipe = s.nextPipe := by
  induction es generalizing s with
  | nil => rfl
  | cons e es ih => simp [ih]

@[simp] theorem applyEntries_host (es : List WbEntry) (s : State) :
    (applyEntries es s).host = s.host := by
  induction es generalizing s with
  | nil => rfl
  | cons e es ih => simp [ih]

/-! ### The commit -/

/-- The commit: the queue applied in order, the queue emptied, and the effective view taken from the committed PSW
(R72, R75). -/
theorem State.commit_spec (s : State) :
    s.commit = (applyEntries s.unit.queue s).withUnit { s.unit with
      queue := []
      effRB := pswRB (applyEntries s.unit.queue s).cr.psw
      effSM := pswSM (applyEntries s.unit.queue s).cr.psw } := by
  simp [State.commit, State.refreshEff, State.setEff, State.clearQueue, State.withUnit]

/-- The commit of a unit that pushed `es` after `s`: the commit of `s`, and then `es`. -/
theorem State.commit_after (s : State) (u : UnitState) (es : List WbEntry)
    (h : u.queue = s.unit.queue ++ es) :
    (s.withUnit u).commit = (applyEntries es s.commit).withUnit { u with
      queue := []
      effRB := pswRB (applyEntries es s.commit).cr.psw
      effSM := pswSM (applyEntries es s.commit).cr.psw } := by
  simp only [State.commit_spec, applyEntries_unit_update, State.withUnit_unit, h,
    applyEntries_append, State.withUnit_withUnit, State.withUnit_cr]

theorem State.commit_pushAll (s : State) (es : List WbEntry) :
    (s.pushAll es).commit = (applyEntries es s.commit).withUnit { s.unit with
      queue := []
      effRB := pswRB (applyEntries es s.commit).cr.psw
      effSM := pswSM (applyEntries es s.commit).cr.psw } :=
  s.commit_after { s.unit with queue := s.unit.queue ++ es } es rfl

/-- With nothing queued, a commit changes at most the effective view. -/
theorem State.commit_empty (s : State) (h : s.unit.queue = []) : s.commit = s.discard := by
  simp [State.commit, State.discard, h]

@[simp] theorem State.commit_cfg (s : State) : s.commit.cfg = s.cfg := by
  simp [State.commit]

@[simp] theorem State.commit_pc (s : State) : s.commit.pc = s.pc := by
  simp [State.commit]

@[simp] theorem State.commit_run (s : State) : s.commit.run = s.run := by
  simp [State.commit]

@[simp] theorem State.commit_singleStep (s : State) : s.commit.singleStep = s.singleStep := by
  simp [State.commit]

@[simp] theorem State.commit_waiting (s : State) : s.commit.waiting = s.waiting := by
  simp [State.commit]

@[simp] theorem State.commit_stopRequest (s : State) : s.commit.stopRequest = s.stopRequest := by
  simp [State.commit]

@[simp] theorem State.commit_time (s : State) : s.commit.time = s.time := by
  simp [State.commit]

@[simp] theorem State.commit_fds (s : State) : s.commit.fds = s.fds := by
  simp [State.commit]

@[simp] theorem State.commit_pipes (s : State) : s.commit.pipes = s.pipes := by
  simp [State.commit]

@[simp] theorem State.commit_nextPipe (s : State) : s.commit.nextPipe = s.nextPipe := by
  simp [State.commit]

@[simp] theorem State.commit_host (s : State) : s.commit.host = s.host := by
  simp [State.commit]

@[simp] theorem State.commit_queue (s : State) : s.commit.unit.queue = [] := by
  simp [State.commit]

/-- The memory entries of chunks write the chunks (R140). -/
theorem applyEntries_chunkEntries (cs : List Chunk) (bs : List Byte) (s : State) :
    applyEntries (chunkEntries cs bs) s = { s with mem := writeChunks s.cfg cs bs s.mem } := by
  induction cs generalizing s bs with
  | nil => rfl
  | cons k cs ih => simp [chunkEntries, writeChunks, ih, State.applyEntry]

end Sys2Proof.Machine
end

