-- ==== Sys2Proof/Laws/Effect.lean ====
section
/-! SUPPORT. What an instruction can do to the state, said once for all of them: it takes an exception, or it queues
entries of known kinds and leaves everything else but what the syscall bridge may change. -/

namespace Sys2Proof.Machine

/-! ### Writes that stay in RAM -/

/-- Memory reached by writing bytes of RAM. -/
inductive RamWrites (c : Config) (m : Memory) : Memory → Prop
  | refl : RamWrites c m m
  | write {m' : Memory} (pa : Nat) (bs : List Byte) :
      RamWrites c m m' → pa + bs.length ≤ c.ramSize →
      RamWrites c m (Memory.writeBytes c m' pa bs)

theorem RamWrites.trans {c : Config} {m m' m'' : Memory} (h : RamWrites c m m')
    (h' : RamWrites c m' m'') : RamWrites c m m'' := by
  induction h' with
  | refl => exact h
  | write pa bs _ hb ih => exact .write pa bs ih hb

/-- Writes of RAM keep the canonical form. -/
theorem RamWrites.wf {c : Config} {m m' : Memory} (h : RamWrites c m m')
    (hm : Memory.wf c m = true) : Memory.wf c m' = true := by
  induction h with
  | refl => exact hm
  | write pa bs _ _ ih => exact Memory.wf_writeBytes c ih pa bs

/-- Writes of RAM leave every byte outside it (R124). -/
theorem RamWrites.read_outside {c : Config} {m m' : Memory} (h : RamWrites c m m') {a : Nat}
    (ha : c.ramSize ≤ a) : Memory.read c m' a = Memory.read c m a := by
  induction h with
  | refl => rfl
  | write pa bs _ hb ih => rw [Memory.read_writeBytes_other c _ _ _ _ (by omega), ih]

theorem RamWrites.chunks {c : Config} {m : Memory} (cs : List Chunk) (bs : List Byte)
    (h : ∀ k ∈ cs, k.pa.toNat + k.len ≤ c.ramSize) : RamWrites c m (writeChunks c cs bs m) := by
  induction cs generalizing m bs with
  | nil => exact .refl
  | cons k cs ih =>
    refine RamWrites.trans (.write k.pa.toNat (bs.take k.len) .refl ?_)
      (ih _ fun j hj => h j (List.mem_cons_of_mem _ hj))
    have := h k (by simp)
    simp only [List.length_take]
    omega

/-! ### The entries an instruction may queue -/

/-- The kinds of entry an instruction queues, and what each needs. -/
inductive EntryOk (s : State) : WbEntry → Prop
  | gpr (j : RegNum) (v : Word) : EntryOk s (.reg (.gpr (s.physReg j)) v 0xFFFFFFFF#32)
  | flags (f : FlagWrites) : EntryOk s (flagsEntry f)
  | cr (n : CReg) (v : Word) : s.unit.effSM = true → EntryOk s (.reg (.cr n) v (crMask n))
  | mem (pa : Nat) (bs : List Byte) : pa + bs.length ≤ s.cfg.ramSize → EntryOk s (.mem pa bs)
  | dev (r : DevReg) (v : Word) : s.unit.effSM = true → EntryOk s (.dev r v)

/-- The entries a checked store pushes are of those kinds. -/
theorem State.memWrite_ok {s : State} {va : Word} {n v : Nat} {es : List WbEntry}
    (h : s.memWrite va n v = .ok es) : ∀ e ∈ es, EntryOk s e := by
  obtain ⟨-, cs, hc, rfl⟩ := State.memWrite_spec h
  have hk := (State.chunks_spec hc).2
  have hbytes : ∀ (ds : List Chunk) (bs : List Byte),
      (∀ k ∈ ds, k.pa.toNat + k.len ≤ s.cfg.ramSize) → ∀ e ∈ chunkEntries ds bs, EntryOk s e := by
    intro ds
    induction ds with
    | nil => intro bs _ e he; simp [chunkEntries] at he
    | cons k ds ih =>
      intro bs hd e he
      simp only [chunkEntries, List.mem_cons] at he
      rcases he with rfl | he
      · refine .mem _ _ ?_
        have := hd k (by simp)
        simp only [List.length_take]
        omega
      · exact ih _ (fun j hj => hd j (List.mem_cons_of_mem _ hj)) e he
  have hram : (∀ k ∈ cs, k.backing = .bytes) →
      ∀ e ∈ chunkEntries cs (disassemble s.cfg.endian n v), EntryOk s e := fun hb =>
    hbytes cs _ fun k hkm => (hk k hkm).write_ram (hb k hkm)
  cases cs with
  | nil => intro e he; simp [writeEntries, chunkEntries] at he
  | cons k cs =>
    obtain ⟨kva, kpa, klen, kb⟩ := k
    cases kb with
    | device r =>
      intro e he
      simp only [writeEntries, List.mem_singleton] at he
      subst he
      rcases (hk _ (List.mem_cons_self ..)).backed with ⟨_, _, _, hsm, _⟩ | ⟨hb, _⟩
      · exact .dev _ _ hsm
      · cases hb
    | bytes =>
      by_cases hb : ∀ j ∈ cs, j.backing = .bytes
      · simp only [writeEntries]
        refine hram fun j hj => ?_
        rcases List.mem_cons.1 hj with rfl | hj
        · rfl
        · exact hb j hj
      · exfalso
        obtain ⟨j, hj, hjb⟩ : ∃ j ∈ cs, j.backing ≠ .bytes := by
          simpa using hb
        have hj' := hk j (List.mem_cons_of_mem _ hj)
        have hsum := (State.chunks_spec hc).1
        have h1 := (hk _ (List.mem_cons_self ..)).pos
        rcases hj'.backed with ⟨r, _, _, _, hw, hl, _⟩ | ⟨hb', _⟩
        · have : j.len ≤ (cs.map Chunk.len).sum := List.le_sum_of_mem (List.mem_map_of_mem hj)
          simp only [List.map_cons, List.sum_cons] at hsum
          simp only at h1
          omega
        · exact hjb hb'

/-! ### What the bridge may change at once -/

/-- A pipe that is kept has an open end and at most `PIPE_CAP` bytes (R454, R465), and a name of its own, below the
next one to give. -/
structure PipesOk (c : Config) (next : Nat) (ps : List (Nat × Pipe)) : Prop where
  bounded : ∀ e ∈ ps, (e.2.rdOpen = true ∨ e.2.wrOpen = true) ∧ e.2.buf.length ≤ c.pipeCap
  named : ∀ e ∈ ps, e.1 < next
  nodup : (ps.map Prod.fst).Nodup

/-- Nothing but memory, the fd table, the pipes, the host and the stop request has changed; memory in RAM alone, the fd table
keeping its size, the pipes their bounds. -/
structure EnvChange (s t : State) : Prop where
  cfg : t.cfg = s.cfg
  regs : t.regs = s.regs
  pc : t.pc = s.pc
  cr : t.cr = s.cr
  unit : t.unit = s.unit
  run : t.run = s.run
  singleStep : t.singleStep = s.singleStep
  waiting : t.waiting = s.waiting
  time : t.time = s.time
  events : t.events = s.events
  seq : t.seq = s.seq
  dev : t.dev = s.dev
  arrivals : t.host.arrivals = s.host.arrivals
  mem : RamWrites s.cfg s.mem t.mem
  fds : t.fds.length = s.fds.length
  pipes : PipesOk s.cfg s.nextPipe s.pipes → PipesOk s.cfg t.nextPipe t.pipes

theorem EnvChange.refl (s : State) : EnvChange s s :=
  ⟨rfl, rfl, rfl, rfl, rfl, rfl, rfl, rfl, rfl, rfl, rfl, rfl, rfl, .refl, rfl, id⟩

theorem EnvChange.trans {s t u : State} (h : EnvChange s t) (g : EnvChange t u) : EnvChange s u where
  cfg := g.cfg.trans h.cfg
  regs := g.regs.trans h.regs
  pc := g.pc.trans h.pc
  cr := g.cr.trans h.cr
  unit := g.unit.trans h.unit
  run := g.run.trans h.run
  singleStep := g.singleStep.trans h.singleStep
  waiting := g.waiting.trans h.waiting
  time := g.time.trans h.time
  events := g.events.trans h.events
  seq := g.seq.trans h.seq
  dev := g.dev.trans h.dev
  arrivals := g.arrivals.trans h.arrivals
  mem := h.mem.trans (h.cfg ▸ g.mem)
  fds := g.fds.trans h.fds
  pipes := fun hp => h.cfg ▸ g.pipes (h.cfg ▸ h.pipes hp)

/-- What an instruction that raises nothing does. -/
structure NormalEffect (s t : State) : Prop where
  cfg : t.cfg = s.cfg
  regs : t.regs = s.regs
  pc : t.pc = s.pc
  cr : t.cr = s.cr
  run : t.run = s.run
  singleStep : t.singleStep = s.singleStep
  time : t.time = s.time
  events : t.events = s.events
  seq : t.seq = s.seq
  dev : t.dev = s.dev
  arrivals : t.host.arrivals = s.host.arrivals
  mem : RamWrites s.cfg s.mem t.mem
  fds : t.fds.length = s.fds.length
  pipes : PipesOk s.cfg s.nextPipe s.pipes → PipesOk s.cfg t.nextPipe t.pipes
  word : t.unit.word = s.unit.word
  suppressed : t.unit.suppressed = s.unit.suppressed
  raised : t.unit.raised = s.unit.raised
  eff : s.unit.effSM = false → t.unit.effRB = s.unit.effRB ∧ t.unit.effSM = s.unit.effSM
  queue : ∃ es, t.unit.queue = s.unit.queue ++ es ∧ ∀ e ∈ es, EntryOk s e

/-- An environment change, and then a change of the unit that queues entries. -/
theorem NormalEffect.of_unit {s t : State} (h : EnvChange s t) (u : UnitState) (es : List WbEntry)
    (hq : u.queue = s.unit.queue ++ es) (hes : ∀ e ∈ es, EntryOk s e)
    (hw : u.word = s.unit.word) (hsup : u.suppressed = s.unit.suppressed)
    (hr : u.raised = s.unit.raised)
    (heff : s.unit.effSM = false → u.effRB = s.unit.effRB ∧ u.effSM = s.unit.effSM) :
    NormalEffect s (t.withUnit u) where
  cfg := h.cfg
  regs := h.regs
  pc := h.pc
  cr := h.cr
  run := h.run
  singleStep := h.singleStep
  time := h.time
  events := h.events
  seq := h.seq
  dev := h.dev
  arrivals := h.arrivals
  mem := h.mem
  fds := h.fds
  pipes := h.pipes
  word := hw
  suppressed := hsup
  raised := hr
  eff := heff
  queue := ⟨es, hq, hes⟩

theorem NormalEffect.of_push {s t : State} (h : EnvChange s t) (es : List WbEntry)
    (hes : ∀ e ∈ es, EntryOk s e) : NormalEffect s (t.pushAll es) :=
  NormalEffect.of_unit h { t.unit with queue := t.unit.queue ++ es } es (by simp [h.unit]) hes
    (by simp [h.unit]) (by simp [h.unit]) (by simp [h.unit]) (by simp [h.unit])

theorem NormalEffect.of_env {s t : State} (h : EnvChange s t) : NormalEffect s t := by
  simpa [State.pushAll_nil] using NormalEffect.of_push h [] (by simp)

theorem EnvChange.physReg {s t : State} (h : EnvChange s t) (j : RegNum) :
    t.physReg j = s.physReg j := by simp [State.physReg, h.unit]

theorem EnvChange.gprOk {s t : State} (h : EnvChange s t) (j : RegNum) (v : Word) :
    EntryOk s (.reg (.gpr (t.physReg j)) v 0xFFFFFFFF#32) := by
  rw [h.physReg]; exact .gpr j v

theorem NormalEffect.complete {s t : State} (h : EnvChange s t) (v : Word) :
    NormalEffect s (t.complete v) := by
  have : t.complete v = t.pushAll [.reg (.gpr (t.physReg 0#4)) v 0xFFFFFFFF#32,
      .reg (.gpr (t.physReg 1#4)) 0#32 0xFFFFFFFF#32] := by
    simp [State.complete, State.pushReg_eq, State.pushAll_append]
  rw [this]
  refine .of_push h _ fun e he => ?_
  simp only [List.mem_cons, List.not_mem_nil, or_false] at he
  rcases he with rfl | rfl <;> exact h.gprOk _ _

theorem NormalEffect.failWith {s t : State} (h : EnvChange s t) (e : Word) :
    NormalEffect s (t.failWith e) := by
  have : t.failWith e = t.pushAll [.reg (.gpr (t.physReg 0#4)) 0xFFFFFFFF#32 0xFFFFFFFF#32,
      .reg (.gpr (t.physReg 1#4)) e 0xFFFFFFFF#32] := by
    simp [State.failWith, State.pushReg_eq, State.pushAll_append]
  rw [this]
  refine .of_push h _ fun e he => ?_
  simp only [List.mem_cons, List.not_mem_nil, or_false] at he
  rcases he with rfl | rfl <;> exact h.gprOk _ _

theorem NormalEffect.setReq (s : State) (r : Request) : NormalEffect s (s.setReq r) :=
  NormalEffect.of_unit (.refl s) { s.unit with req := some r } [] (by simp) (by simp) rfl rfl rfl
    (by simp)

/-! ### The bridge's primitives -/

theorem EnvChange.recordCall (s : State) (c : HostCall) : EnvChange s (s.recordCall c) :=
  ⟨rfl, rfl, rfl, rfl, rfl, rfl, rfl, rfl, rfl, rfl, rfl, rfl, rfl, .refl, rfl, id⟩

theorem EnvChange.notify (s : State) (n : Notification) : EnvChange s (s.notify n) :=
  ⟨rfl, rfl, rfl, rfl, rfl, rfl, rfl, rfl, rfl, rfl, rfl, rfl, rfl, .refl, rfl, id⟩

theorem EnvChange.setSlot (s : State) (fd : Nat) (x : FdSlot) : EnvChange s (s.setSlot fd x) :=
  ⟨rfl, rfl, rfl, rfl, rfl, rfl, rfl, rfl, rfl, rfl, rfl, rfl, rfl, .refl, by simp, id⟩

/-- What asking the host does: it answers, and nothing but the host's own state and the stop request changes. -/
theorem State.askHost_spec {s t : State} {c : HostCall} {r : HostReply}
    (h : s.askHost c = some (r, t)) : s.nextAnswer = .reply r ∧ EnvChange s t := by
  simp only [State.askHost] at h
  split at h
  · cases h
  · next r' hr =>
    simp only [Option.some.injEq, Prod.mk.injEq] at h
    obtain ⟨rfl, rfl⟩ := h
    exact ⟨hr, rfl, rfl, rfl, rfl, rfl, rfl, rfl, rfl, rfl, rfl, rfl, rfl, rfl, .refl, rfl, id⟩

theorem State.askHost_none {s : State} {c : HostCall} (h : s.askHost c = none) :
    s.nextAnswer = .never := by
  simp only [State.askHost] at h
  split at h
  · assumption
  · cases h

theorem EnvChange.copyOut (s : State) (va : Word) (bs : List Byte) :
    EnvChange s (s.copyOut va bs) := by
  simp only [State.copyOut]
  split
  · exact .refl s
  · next cs hcs =>
    refine ⟨rfl, rfl, rfl, rfl, rfl, rfl, rfl, rfl, rfl, rfl, rfl, rfl, rfl, ?_, rfl, id⟩
    simp only [State.bridgeChunks] at hcs
    split at hcs
    · cases hcs
    · next ds hd =>
      split at hcs
      · next hall =>
        cases hcs
        refine RamWrites.chunks _ _ fun k hk => ?_
        have hk' := (State.chunks_spec hd).2 k hk
        refine hk'.write_ram ?_
        rcases hk'.backed with ⟨_, _, hF, _⟩ | ⟨hb, _⟩
        · have := (List.all_eq_true.1 hall) k hk
          simp [hF] at this
        · exact hb
      · cases hcs

theorem mem_setPipe {p : Nat} {x : Pipe} {ps : List (Nat × Pipe)} {e : Nat × Pipe}
    (h : e ∈ setPipe p x ps) : e ∈ ps ∨ e.2 = x := by
  induction ps with
  | nil => simp [setPipe] at h
  | cons q ps ih =>
    obtain ⟨k, v⟩ := q
    simp only [setPipe] at h
    split at h
    · rcases List.mem_cons.1 h with rfl | h
      · exact .inr rfl
      · exact .inl (List.mem_cons_of_mem _ h)
    · rcases List.mem_cons.1 h with rfl | h
      · exact .inl (List.mem_cons_self ..)
      · rcases ih h with h | h
        · exact .inl (List.mem_cons_of_mem _ h)
        · exact .inr h

theorem mem_dropPipe {p : Nat} {ps : List (Nat × Pipe)} {e : Nat × Pipe}
    (h : e ∈ dropPipe p ps) : e ∈ ps := by
  induction ps with
  | nil => simp [dropPipe] at h
  | cons q ps ih =>
    obtain ⟨k, v⟩ := q
    simp only [dropPipe] at h
    split at h
    · exact List.mem_cons_of_mem _ h
    · rcases List.mem_cons.1 h with rfl | h
      · exact List.mem_cons_self ..
      · exact List.mem_cons_of_mem _ (ih h)

theorem map_fst_setPipe (p : Nat) (x : Pipe) (ps : List (Nat × Pipe)) :
    (setPipe p x ps).map Prod.fst = ps.map Prod.fst := by
  induction ps with
  | nil => rfl
  | cons q ps ih =>
    obtain ⟨k, v⟩ := q
    simp only [setPipe]
    split <;> simp [ih]

theorem map_fst_dropPipe (p : Nat) (ps : List (Nat × Pipe)) :
    ((dropPipe p ps).map Prod.fst).Sublist (ps.map Prod.fst) := by
  induction ps with
  | nil => simp [dropPipe]
  | cons q ps ih =>
    obtain ⟨k, v⟩ := q
    simp only [dropPipe]
    split
    · exact List.sublist_cons_self ..
    · exact ih.cons_cons _

theorem mem_setPipe_name {p : Nat} {x : Pipe} {ps : List (Nat × Pipe)} {e : Nat × Pipe}
    (h : e ∈ setPipe p x ps) : ∃ e' ∈ ps, e'.1 = e.1 := by
  have : e.1 ∈ (setPipe p x ps).map Prod.fst := List.mem_map_of_mem h
  rw [map_fst_setPipe] at this
  simpa using this

theorem EnvChange.putPipe (s : State) (p : Nat) (x : Pipe)
    (hx : PipesOk s.cfg s.nextPipe s.pipes → x.buf.length ≤ s.cfg.pipeCap) : EnvChange s (s.putPipe p x) := by
  refine ⟨rfl, rfl, rfl, rfl, rfl, rfl, rfl, rfl, rfl, rfl, rfl, rfl, rfl, .refl, rfl, fun hp => ?_⟩
  simp only [State.putPipe_pipes, State.putPipe_nextPipe]
  split
  · next ho =>
    refine ⟨fun e he => ?_, fun e he => ?_, by rw [map_fst_setPipe]; exact hp.nodup⟩
    · rcases mem_setPipe he with he | he
      · exact hp.bounded e he
      · exact ⟨by rw [he]; simpa using ho, by rw [he]; exact hx hp⟩
    · obtain ⟨e', he', hn⟩ := mem_setPipe_name he
      exact hn ▸ hp.named e' he'
  · exact ⟨fun e he => hp.bounded e (mem_dropPipe he), fun e he => hp.named e (mem_dropPipe he),
      (map_fst_dropPipe p s.pipes).nodup hp.nodup⟩

theorem tableLookup_mem {α β : Type} [DecidableEq α] {l : List (α × β)} {a : α} {b : β}
    (h : tableLookup l a = some b) : (a, b) ∈ l := by
  induction l with
  | nil => simp [tableLookup] at h
  | cons q l ih =>
    obtain ⟨k, v⟩ := q
    simp only [tableLookup] at h
    split at h
    · next hk => cases h; subst hk; exact List.mem_cons_self ..
    · exact List.mem_cons_of_mem _ (ih h)

/-- A pipe's buffer is within its cap. -/
theorem State.pipe_bound {s : State} (hp : PipesOk s.cfg s.nextPipe s.pipes) (p : Nat) :
    (s.pipe p).buf.length ≤ s.cfg.pipeCap := by
  simp only [State.pipe]
  cases h : tableLookup s.pipes p with
  | none => simp
  | some x => exact (hp.bounded _ (tableLookup_mem h)).2

/-- What a host call does when it answers (R481). -/
theorem State.withHost_effect {s t : State} {c : HostCall} {ok : HostReply → State → State}
    (hok : ∀ r u, EnvChange s u → NormalEffect s (ok r u)) (h : s.withHost c ok = .next t) :
    NormalEffect s t := by
  simp only [State.withHost] at h
  split at h
  · cases h
  · next r u hu =>
    have he := (State.askHost_spec hu).2
    split at h
    · cases h; exact hok _ _ he
    · cases h
      exact NormalEffect.failWith (he.trans (.recordCall _ _)) _

theorem State.withHost_fault {s : State} {c : HostCall} {ok : HostReply → State → State} {f : Fault}
    (h : s.withHost c ok = .fault f) : f = .hostNeverAnswers ∧ s.nextAnswer = .never := by
  simp only [State.withHost] at h
  split at h
  · next hn => cases h; exact ⟨rfl, State.askHost_none hn⟩
  · split at h <;> cases h

theorem State.withHost_refused {s : State} {c : HostCall} {ok : HostReply → State → State}
    {r : Refusal} : s.withHost c ok ≠ .refused r := by
  simp only [State.withHost]
  split
  · simp
  · split <;> simp

end Sys2Proof.Machine
end

