-- ==== Sys2Proof/Laws/Bridge.lean ====
section
/-! SUPPORT. What the calls of the syscall bridge can do (R450, R485, R486): each one queues its result registers and
changes nothing but memory in RAM, the fd table, the pipes, the host and the stop request; and it is stuck only where the host never
answers. -/

namespace Sys2Proof.Machine

theorem NormalEffect.fail {s t : State} (h : EnvChange s t) (e : BridgeError) :
    NormalEffect s (t.fail e) := NormalEffect.failWith h _

/-! ### The pieces of the calls -/

/-- Where a range may be touched, so may any beginning of it, and what is touched are the chunks of that beginning (R458). -/
theorem State.checkRange_prefix {s : State} {va : Word} {n m : Nat} {kind : AccessKind} (hm : m ≤ n)
    (h : s.checkRange va n kind = true) :
    ∃ cs, s.chunks va m kind s.unit.effSM = .ok cs ∧ s.bridgeChunks va m kind = some cs := by
  simp only [State.checkRange, Option.isSome_iff_exists] at h
  obtain ⟨ds, hd⟩ := h
  simp only [State.bridgeChunks] at hd
  split at hd
  · cases hd
  · next es he =>
    split at hd
    · next hall =>
      obtain ⟨cs, hc, hF⟩ := chunksFrom_prefix (width' := m) (Nat.le_refl n) (Nat.le_refl m) hm he
        (fun k hk => by simpa using List.all_eq_true.1 hall k hk)
      have hc : s.chunks va m kind s.unit.effSM = .ok cs := hc
      refine ⟨cs, hc, ?_⟩
      simp only [State.bridgeChunks, hc]
      rw [if_pos]
      simpa using hF
    · cases hd

theorem State.statDone_effect {s u : State} (h : EnvChange s u) (va : Word) (r : HostReply) :
    NormalEffect s (u.statDone va r) :=
  NormalEffect.complete (h.trans (.copyOut _ _ _)) _

theorem EnvChange.drainPipe (s : State) (p n fd : Nat) (va : Word) :
    EnvChange s (s.drainPipe p n fd va) := by
  have h : EnvChange s ((s.copyOut va ((s.pipe p).buf.take n)).putPipe p
      { s.pipe p with buf := (s.pipe p).buf.drop n }) := by
    have h1 := EnvChange.copyOut s va ((s.pipe p).buf.take n)
    refine ⟨h1.cfg, h1.regs, h1.pc, h1.cr, h1.unit, h1.run, h1.singleStep, h1.waiting, h1.time,
      h1.events, h1.seq, h1.dev, h1.arrivals, h1.mem, h1.fds, fun hp => ?_⟩
    have h2 := EnvChange.putPipe (s.copyOut va ((s.pipe p).buf.take n)) p
      { s.pipe p with buf := (s.pipe p).buf.drop n } (fun _ => by
        have := State.pipe_bound hp p
        simp only [List.length_drop, h1.cfg]
        omega)
    have := h2.pipes (by rw [h1.cfg]; exact h1.pipes hp)
    rwa [h1.cfg] at this
  simp only [State.drainPipe]
  split
  · exact h.trans (.notify _ _)
  · exact h

theorem State.readPipe_effect (s : State) (p fd : Nat) (va : Word) (len : Nat) :
    NormalEffect s (s.readPipe p fd va len) := by
  simp only [State.readPipe]
  split
  · exact .complete (.refl s) _
  · split
    · split
      · exact .fail (.refl s) _
      · exact .complete (.refl s) _
    · exact .complete (.drainPipe _ _ _ _ _) _

theorem State.writePipe_effect (s : State) (p : Nat) (b : List Byte) :
    NormalEffect s (s.writePipe p b) := by
  simp only [State.writePipe]
  split
  · exact .fail (.refl s) _
  · split
    · exact .fail (.refl s) _
    · next hcap =>
      have h : EnvChange s (s.putPipe p { s.pipe p with buf := (s.pipe p).buf ++ b }) :=
        .putPipe s p _ fun _ => by simp only [List.length_append]; omega
      refine .complete ?_ _
      split
      · split
        · exact h.trans (.notify _ _)
        · exact h
      · exact h

theorem State.newPipe_effect (s : State) (rd wr : Nat) (va : Word) :
    NormalEffect s (s.newPipe rd wr va) := by
  have h1 : EnvChange s ((s.setSlot rd (.pipeRd s.nextPipe)).setSlot wr (.pipeWr s.nextPipe)) :=
    (EnvChange.setSlot _ _ _).trans (.setSlot _ _ _)
  have h2 : EnvChange s
      { (s.setSlot rd (.pipeRd s.nextPipe)).setSlot wr (.pipeWr s.nextPipe) with
        pipes := s.pipes ++ [(s.nextPipe, Pipe.mk [] true true)], nextPipe := s.nextPipe + 1 } := by
    refine ⟨rfl, rfl, rfl, rfl, rfl, rfl, rfl, rfl, rfl, rfl, rfl, rfl, rfl, .refl, h1.fds, fun hp => ⟨?_, ?_, ?_⟩⟩
    · intro e he
      rcases List.mem_append.1 he with he | he
      · exact hp.bounded e he
      · simp only [List.mem_singleton] at he
        subst he
        simp
    · intro e he
      show e.1 < s.nextPipe + 1
      rcases List.mem_append.1 he with he | he
      · have := hp.named e he
        omega
      · simp only [List.mem_singleton] at he
        subst he
        simp
    · show ((s.pipes ++ [(s.nextPipe, Pipe.mk [] true true)]).map Prod.fst).Nodup
      rw [List.map_append]
      refine List.Nodup.append hp.nodup (by simp) ?_
      rw [List.disjoint_left]
      intro k hk hk'
      obtain ⟨e, he, rfl⟩ := List.mem_map.1 hk
      have := hp.named e he
      simp only [List.map_cons, List.map_nil, List.mem_singleton] at hk'
      omega
  exact .complete (h2.trans (.copyOut _ _ _)) _

/-! ### The calls -/

theorem EnvChange.closeEnd (s : State) (fd p : Nat) (x : Pipe) (hx : x.buf = (s.pipe p).buf) :
    EnvChange s ((s.setSlot fd .free).putPipe p x) :=
  (EnvChange.setSlot s fd .free).trans (.putPipe _ _ _ fun hp => by
    rw [hx]; exact State.pipe_bound (s := s) hp p)

theorem sysExit_effect {a1 : Word} {s t : State} (h : sysExit a1 s = .next t) :
    NormalEffect s t := by
  simp only [sysExit] at h
  cases h
  exact .setReq s _

theorem sysOpen_effect {a1 a2 a3 : Word} {s t : State} (h : sysOpen a1 a2 a3 s = .next t) :
    NormalEffect s t := by
  simp only [sysOpen] at h
  split at h
  · cases h; exact .fail (.refl s) _
  · split at h
    · cases h; exact .fail (.refl s) _
    · split at h
      · cases h; exact .fail (.refl s) _
      · exact State.withHost_effect (fun r u hu => .complete (hu.trans (.setSlot _ _ _)) _) h

theorem sysClose_effect {a1 : Word} {s t : State} (h : sysClose a1 s = .next t) :
    NormalEffect s t := by
  simp only [sysClose] at h
  split at h
  · cases h; exact .fail (.refl s) _
  · exact State.withHost_effect (fun r u hu => .complete (hu.trans (.setSlot _ _ _)) _) h
  · next p _ =>
    cases h
    exact .complete (EnvChange.closeEnd s a1.toNat p { s.pipe p with rdOpen := false } rfl) _
  · next p _ =>
    cases h
    exact .complete (EnvChange.closeEnd s a1.toNat p { s.pipe p with wrOpen := false } rfl) _

theorem sysRead_effect {a1 a2 a3 : Word} {s t : State} (h : sysRead a1 a2 a3 s = .next t) :
    NormalEffect s t := by
  simp only [sysRead] at h
  split at h
  · cases h; exact .fail (.refl s) _
  · cases h; exact .fail (.refl s) _
  · split at h
    · exact State.withHost_effect (fun r u hu => .complete (hu.trans (.copyOut _ _ _)) _) h
    · cases h; exact .fail (.refl s) _
  · split at h
    · cases h; exact State.readPipe_effect s _ _ _ _
    · cases h; exact .fail (.refl s) _

theorem sysWrite_effect {a1 a2 a3 : Word} {s t : State} (h : sysWrite a1 a2 a3 s = .next t) :
    NormalEffect s t := by
  simp only [sysWrite] at h
  split at h
  · cases h; exact .fail (.refl s) _
  · cases h; exact .fail (.refl s) _
  · split at h
    · exact State.withHost_effect (fun r u hu => .complete hu _) h
    · cases h; exact .fail (.refl s) _
  · split at h
    · cases h; exact State.writePipe_effect s _ _
    · cases h; exact .fail (.refl s) _

theorem sysLseek_effect {a1 a2 a3 : Word} {s t : State} (h : sysLseek a1 a2 a3 s = .next t) :
    NormalEffect s t := by
  simp only [sysLseek] at h
  split at h
  · cases h; exact .fail (.refl s) _
  · cases h; exact .fail (.refl s) _
  · cases h; exact .fail (.refl s) _
  · split at h
    · exact State.withHost_effect (fun r u hu => .complete hu _) h
    · cases h; exact .fail (.refl s) _

theorem sysUnlink_effect {a1 : Word} {s t : State} (h : sysUnlink a1 s = .next t) :
    NormalEffect s t := by
  simp only [sysUnlink] at h
  split at h
  · cases h; exact .fail (.refl s) _
  · exact State.withHost_effect (fun r u hu => .complete hu _) h

theorem sysRename_effect {a1 a2 : Word} {s t : State} (h : sysRename a1 a2 s = .next t) :
    NormalEffect s t := by
  simp only [sysRename] at h
  split at h
  · cases h; exact .fail (.refl s) _
  · split at h
    · cases h; exact .fail (.refl s) _
    · exact State.withHost_effect (fun r u hu => .complete hu _) h

theorem sysStat_effect {a1 a2 : Word} {s t : State} (h : sysStat a1 a2 s = .next t) :
    NormalEffect s t := by
  simp only [sysStat] at h
  split at h
  · cases h; exact .fail (.refl s) _
  · split at h
    · exact State.withHost_effect (fun r u hu => State.statDone_effect hu _ _) h
    · cases h; exact .fail (.refl s) _

theorem sysFstat_effect {a1 a2 : Word} {s t : State} (h : sysFstat a1 a2 s = .next t) :
    NormalEffect s t := by
  simp only [sysFstat] at h
  split at h
  · cases h; exact .fail (.refl s) _
  · cases h; exact .fail (.refl s) _
  · cases h; exact .fail (.refl s) _
  · split at h
    · exact State.withHost_effect (fun r u hu => State.statDone_effect hu _ _) h
    · cases h; exact .fail (.refl s) _

theorem sysLstat_effect {a1 a2 : Word} {s t : State} (h : sysLstat a1 a2 s = .next t) :
    NormalEffect s t := by
  simp only [sysLstat] at h
  split at h
  · cases h; exact .fail (.refl s) _
  · split at h
    · exact State.withHost_effect (fun r u hu => State.statDone_effect hu _ _) h
    · cases h; exact .fail (.refl s) _

theorem sysTruncate_effect {a1 a2 : Word} {s t : State} (h : sysTruncate a1 a2 s = .next t) :
    NormalEffect s t := by
  simp only [sysTruncate] at h
  split at h
  · cases h; exact .fail (.refl s) _
  · exact State.withHost_effect (fun r u hu => .complete hu _) h

theorem sysFtruncate_effect {a1 a2 : Word} {s t : State} (h : sysFtruncate a1 a2 s = .next t) :
    NormalEffect s t := by
  simp only [sysFtruncate] at h
  split at h
  · cases h; exact .fail (.refl s) _
  · cases h; exact .fail (.refl s) _
  · cases h; exact .fail (.refl s) _
  · exact State.withHost_effect (fun r u hu => .complete hu _) h

theorem sysPipe_effect {a1 : Word} {s t : State} (h : sysPipe a1 s = .next t) :
    NormalEffect s t := by
  simp only [sysPipe] at h
  split at h
  · split at h
    · cases h; exact .fail (.refl s) _
    · split at h
      · cases h; exact .fail (.refl s) _
      · cases h; exact State.newPipe_effect s _ _ _
  · cases h; exact .fail (.refl s) _

theorem sysTime_effect {a1 : Word} {s t : State} (h : sysTime a1 s = .next t) :
    NormalEffect s t := by
  simp only [sysTime] at h
  split at h
  · cases h; exact .fail (.refl s) _
  · refine State.withHost_effect (fun r u hu => .complete ?_ _) h
    split
    · exact hu
    · exact hu.trans (.copyOut _ _ _)

/-- Every call that answers a next state has only the effects an instruction may have. -/
theorem runSyscall_effect {c : Syscall} {a1 a2 a3 : Word} {s t : State}
    (h : runSyscall c a1 a2 a3 s = .next t) : NormalEffect s t := by
  cases c with
  | exit => exact sysExit_effect h
  | open_ => exact sysOpen_effect h
  | close => exact sysClose_effect h
  | read => exact sysRead_effect h
  | write => exact sysWrite_effect h
  | lseek => exact sysLseek_effect h
  | unlink => exact sysUnlink_effect h
  | rename => exact sysRename_effect h
  | stat => exact sysStat_effect h
  | fstat => exact sysFstat_effect h
  | lstat => exact sysLstat_effect h
  | truncate => exact sysTruncate_effect h
  | ftruncate => exact sysFtruncate_effect h
  | pipe => exact sysPipe_effect h
  | time => exact sysTime_effect h

/-- The bridge's effects are those an instruction may have (R486). -/
theorem bridge_effect {s t : State} (h : bridge s = .next t) : NormalEffect s t := by
  simp only [bridge] at h
  split at h
  · cases h; exact .fail (.refl s) _
  · exact runSyscall_effect h

/-- How a call that does not answer a next state ends: stuck in a host call that never answers. -/
def StuckInHost (s : State) (o : Result) : Prop :=
  (∃ t, o = .next t) ∨ (o = .fault .hostNeverAnswers ∧ s.nextAnswer = .never)

theorem State.withHost_ends (s : State) (c : HostCall) (ok : HostReply → State → State) :
    StuckInHost s (s.withHost c ok) := by
  simp only [State.withHost]
  split
  · next hn => exact .inr ⟨rfl, State.askHost_none hn⟩
  · split
    · exact .inl ⟨_, rfl⟩
    · exact .inl ⟨_, rfl⟩

theorem runSyscall_ends (c : Syscall) (a1 a2 a3 : Word) (s : State) :
    StuckInHost s (runSyscall c a1 a2 a3 s) := by
  cases c <;>
    simp only [runSyscall, sysExit, sysOpen, sysClose, sysRead, sysWrite, sysLseek, sysUnlink,
      sysRename, sysStat, sysFstat, sysLstat, sysTruncate, sysFtruncate, sysPipe, sysTime] <;>
    (repeat' split) <;>
    first
    | exact .inl ⟨_, rfl⟩
    | exact State.withHost_ends _ _ _

/-- The bridge never refuses, and is stuck only where the host never answers (R464, R486). -/
theorem bridge_ends (s : State) : StuckInHost s (bridge s) := by
  simp only [bridge]
  split
  · exact .inl ⟨_, rfl⟩
  · exact runSyscall_ends _ _ _ _ _

end Sys2Proof.Machine
end

