-- ==== Sys2Proof/Laws/Traps.lean ====
section
/-! SUPPORT. What taking an exception or an interrupt can do, said once (R262, R526, R528, R540). -/

namespace Sys2Proof.Machine

/-! ### Masked writes -/

@[simp] theorem maskedWrite_getLsbD (old v mask : Word) (i : Nat) :
    (maskedWrite old v mask).getLsbD i = if mask.getLsbD i then v.getLsbD i else old.getLsbD i := by
  by_cases hi : i < 32
  · simp only [maskedWrite, BitVec.getLsbD_or, BitVec.getLsbD_and, BitVec.getLsbD_not, hi,
      decide_true, Bool.true_and]
    cases mask.getLsbD i <;> simp
  · simp [BitVec.getLsbD_of_ge _ i (by omega : 32 ≤ i)]

/-- A masked write over a register with no bit outside the mask gives the masked value. -/
theorem maskedWrite_of_legal {old mask : Word} (h : old &&& ~~~ mask = 0#32) (v : Word) :
    maskedWrite old v mask = v &&& mask := by
  simp [maskedWrite, h]

/-- A masked write leaves nothing outside the mask. -/
theorem maskedWrite_legal {old mask : Word} (h : old &&& ~~~ mask = 0#32) (v : Word) :
    maskedWrite old v mask &&& ~~~ mask = 0#32 := by
  rw [maskedWrite_of_legal h]
  apply BitVec.eq_of_getLsbD_eq
  intro i hi
  simp only [BitVec.getLsbD_and, BitVec.getLsbD_not, hi, decide_true, Bool.true_and,
    BitVec.getLsbD_zero]
  cases mask.getLsbD i <;> simp

@[simp] theorem maskedWrite_full (old v : Word) : maskedWrite old v 0xFFFFFFFF#32 = v := by
  have h : ∀ i < 32, (0xFFFFFFFF#32 : Word).getLsbD i = true := by decide
  apply BitVec.eq_of_getLsbD_eq
  intro i hi
  rw [maskedWrite_getLsbD, h i hi, if_pos rfl]

/-! ### Trap entry -/

/-- What a vector read depends on: EVB, the windows and memory (R525, R528). -/
theorem State.readVector_congr {s t : State} (hc : t.cfg = s.cfg) (hr : t.cr = s.cr)
    (hd : t.dev.maps = s.dev.maps) (hm : t.mem = s.mem) (v : Nat) :
    t.readVector v = s.readVector v := by
  have hb : ∀ cs, t.chunkBytes cs = s.chunkBytes cs := by
    intro cs
    induction cs with
    | nil => rfl
    | cons k cs ih => simp only [State.chunkBytes, hc, hm, ih]
  simp only [State.readVector, State.chunks, hc, hr, hd, hb]

/-- Trap entry does one of two things: the run stops and nothing else changes, or the handler is entered (R528). -/
theorem State.trapEntry_cases (s : State) (k : TrapKind) (ret : Word) :
    (s.readVector k.vector = none ∧ s.trapEntry k ret = s.stopRun (.signalled .sigbus)) ∨
    (∃ h, s.readVector k.vector = some h ∧
      s.trapEntry k ret =
        { s with cr := trapCr s k ret
                 unit := { s.unit with effRB := true, effSM := true }
                 pc := h
                 waiting := false }) := by
  simp only [State.trapEntry]
  cases hv : s.readVector k.vector with
  | none => exact .inl ⟨rfl, rfl⟩
  | some h => exact .inr ⟨h, rfl, rfl⟩

/-! What trap entry never touches: it concerns the control registers, the PC, the unit, the wait and the run. -/

@[simp] theorem State.trapEntry_cfg (s : State) (k : TrapKind) (ret : Word) :
    (s.trapEntry k ret).cfg = s.cfg := by
  rcases s.trapEntry_cases k ret with ⟨_, h⟩ | ⟨_, _, h⟩ <;> simp [h]

@[simp] theorem State.trapEntry_regs (s : State) (k : TrapKind) (ret : Word) :
    (s.trapEntry k ret).regs = s.regs := by
  rcases s.trapEntry_cases k ret with ⟨_, h⟩ | ⟨_, _, h⟩ <;> simp [h]

@[simp] theorem State.trapEntry_singleStep (s : State) (k : TrapKind) (ret : Word) :
    (s.trapEntry k ret).singleStep = s.singleStep := by
  rcases s.trapEntry_cases k ret with ⟨_, h⟩ | ⟨_, _, h⟩ <;> simp [h]

@[simp] theorem State.trapEntry_stopRequest (s : State) (k : TrapKind) (ret : Word) :
    (s.trapEntry k ret).stopRequest = s.stopRequest := by
  rcases s.trapEntry_cases k ret with ⟨_, h⟩ | ⟨_, _, h⟩ <;> simp [h]

@[simp] theorem State.trapEntry_time (s : State) (k : TrapKind) (ret : Word) :
    (s.trapEntry k ret).time = s.time := by
  rcases s.trapEntry_cases k ret with ⟨_, h⟩ | ⟨_, _, h⟩ <;> simp [h]

@[simp] theorem State.trapEntry_events (s : State) (k : TrapKind) (ret : Word) :
    (s.trapEntry k ret).events = s.events := by
  rcases s.trapEntry_cases k ret with ⟨_, h⟩ | ⟨_, _, h⟩ <;> simp [h]

@[simp] theorem State.trapEntry_seq (s : State) (k : TrapKind) (ret : Word) :
    (s.trapEntry k ret).seq = s.seq := by
  rcases s.trapEntry_cases k ret with ⟨_, h⟩ | ⟨_, _, h⟩ <;> simp [h]

@[simp] theorem State.trapEntry_dev (s : State) (k : TrapKind) (ret : Word) :
    (s.trapEntry k ret).dev = s.dev := by
  rcases s.trapEntry_cases k ret with ⟨_, h⟩ | ⟨_, _, h⟩ <;> simp [h]

@[simp] theorem State.trapEntry_mem (s : State) (k : TrapKind) (ret : Word) :
    (s.trapEntry k ret).mem = s.mem := by
  rcases s.trapEntry_cases k ret with ⟨_, h⟩ | ⟨_, _, h⟩ <;> simp [h]

@[simp] theorem State.trapEntry_fds (s : State) (k : TrapKind) (ret : Word) :
    (s.trapEntry k ret).fds = s.fds := by
  rcases s.trapEntry_cases k ret with ⟨_, h⟩ | ⟨_, _, h⟩ <;> simp [h]

@[simp] theorem State.trapEntry_pipes (s : State) (k : TrapKind) (ret : Word) :
    (s.trapEntry k ret).pipes = s.pipes := by
  rcases s.trapEntry_cases k ret with ⟨_, h⟩ | ⟨_, _, h⟩ <;> simp [h]

@[simp] theorem State.trapEntry_nextPipe (s : State) (k : TrapKind) (ret : Word) :
    (s.trapEntry k ret).nextPipe = s.nextPipe := by
  rcases s.trapEntry_cases k ret with ⟨_, h⟩ | ⟨_, _, h⟩ <;> simp [h]

@[simp] theorem State.trapEntry_host (s : State) (k : TrapKind) (ret : Word) :
    (s.trapEntry k ret).host = s.host := by
  rcases s.trapEntry_cases k ret with ⟨_, h⟩ | ⟨_, _, h⟩ <;> simp [h]

/-- Trap entry keeps the reserved bits of the control registers 0 (R64). -/
theorem State.trapEntry_legal {s : State} (h : s.cr.legal) (k : TrapKind) (ret : Word) :
    (s.trapEntry k ret).cr.legal := by
  obtain ⟨h1, h2, h3, h4, h5⟩ := h
  rcases s.trapEntry_cases k ret with ⟨_, he⟩ | ⟨_, _, he⟩
  · rw [he]; exact ⟨h1, h2, h3, h4, h5⟩
  · rw [he]
    exact ⟨maskedWrite_legal h1 _, maskedWrite_legal h2 _, maskedWrite_legal h3 _, h4,
      maskedWrite_legal h5 _⟩

/-- The control registers of a handler, where no reserved bit was set (R528). -/
theorem trapCr_of_legal {s : State} (h : s.cr.legal) (k : TrapKind) (ret : Word) :
    trapCr s k ret =
      { s.cr with
        psw := handlerPsw s.cr.psw &&& 0x00000707#32
        bpsw := s.cr.psw
        bpc := ret &&& 0xFFFFFFFC#32
        cause := k.cause &&& 0x80000F1F#32
        badaddr := k.badaddr s.cr.badaddr } := by
  obtain ⟨h1, h2, h3, _, h5⟩ := h
  have hp : s.cr.psw &&& 0x00000707#32 = s.cr.psw := by
    have := maskedWrite_of_legal h1 s.cr.psw
    rw [← this]
    apply BitVec.eq_of_getLsbD_eq
    intro i hi
    simp
  simp only [trapCr, crMask, maskedWrite_of_legal h1, maskedWrite_of_legal h2,
    maskedWrite_of_legal h3, maskedWrite_of_legal h5, maskedWrite_full, hp]

/-! ### A raised exception -/

/-- Raising discards the queue first; then the run stops, or the handler is entered (R262, R526). -/
theorem State.takeException_cases (s : State) (e : Exc) (b ret : Word) :
    (s.cfg.hasFaultVector = true ∧
      s.takeException e b ret = (s.discard.markRaised).trapEntry (.exception e b) ret) ∨
    (s.cfg.hasFaultVector = false ∧
      s.takeException e b ret = (s.discard.markRaised).stopRun (.signalled e.signal)) := by
  simp only [State.takeException]
  cases h : s.cfg.hasFaultVector <;> simp [h]

/-! What raising never touches. -/

@[simp] theorem State.takeException_cfg (s : State) (e : Exc) (b ret : Word) :
    (s.takeException e b ret).cfg = s.cfg := by
  rcases s.takeException_cases e b ret with ⟨_, h⟩ | ⟨_, h⟩ <;> simp [h]

@[simp] theorem State.takeException_regs (s : State) (e : Exc) (b ret : Word) :
    (s.takeException e b ret).regs = s.regs := by
  rcases s.takeException_cases e b ret with ⟨_, h⟩ | ⟨_, h⟩ <;> simp [h]

@[simp] theorem State.takeException_singleStep (s : State) (e : Exc) (b ret : Word) :
    (s.takeException e b ret).singleStep = s.singleStep := by
  rcases s.takeException_cases e b ret with ⟨_, h⟩ | ⟨_, h⟩ <;> simp [h]

@[simp] theorem State.takeException_stopRequest (s : State) (e : Exc) (b ret : Word) :
    (s.takeException e b ret).stopRequest = s.stopRequest := by
  rcases s.takeException_cases e b ret with ⟨_, h⟩ | ⟨_, h⟩ <;> simp [h]

@[simp] theorem State.takeException_time (s : State) (e : Exc) (b ret : Word) :
    (s.takeException e b ret).time = s.time := by
  rcases s.takeException_cases e b ret with ⟨_, h⟩ | ⟨_, h⟩ <;> simp [h]

@[simp] theorem State.takeException_events (s : State) (e : Exc) (b ret : Word) :
    (s.takeException e b ret).events = s.events := by
  rcases s.takeException_cases e b ret with ⟨_, h⟩ | ⟨_, h⟩ <;> simp [h]

@[simp] theorem State.takeException_seq (s : State) (e : Exc) (b ret : Word) :
    (s.takeException e b ret).seq = s.seq := by
  rcases s.takeException_cases e b ret with ⟨_, h⟩ | ⟨_, h⟩ <;> simp [h]

@[simp] theorem State.takeException_dev (s : State) (e : Exc) (b ret : Word) :
    (s.takeException e b ret).dev = s.dev := by
  rcases s.takeException_cases e b ret with ⟨_, h⟩ | ⟨_, h⟩ <;> simp [h]

@[simp] theorem State.takeException_mem (s : State) (e : Exc) (b ret : Word) :
    (s.takeException e b ret).mem = s.mem := by
  rcases s.takeException_cases e b ret with ⟨_, h⟩ | ⟨_, h⟩ <;> simp [h]

@[simp] theorem State.takeException_fds (s : State) (e : Exc) (b ret : Word) :
    (s.takeException e b ret).fds = s.fds := by
  rcases s.takeException_cases e b ret with ⟨_, h⟩ | ⟨_, h⟩ <;> simp [h]

@[simp] theorem State.takeException_pipes (s : State) (e : Exc) (b ret : Word) :
    (s.takeException e b ret).pipes = s.pipes := by
  rcases s.takeException_cases e b ret with ⟨_, h⟩ | ⟨_, h⟩ <;> simp [h]

@[simp] theorem State.takeException_nextPipe (s : State) (e : Exc) (b ret : Word) :
    (s.takeException e b ret).nextPipe = s.nextPipe := by
  rcases s.takeException_cases e b ret with ⟨_, h⟩ | ⟨_, h⟩ <;> simp [h]

@[simp] theorem State.takeException_host (s : State) (e : Exc) (b ret : Word) :
    (s.takeException e b ret).host = s.host := by
  rcases s.takeException_cases e b ret with ⟨_, h⟩ | ⟨_, h⟩ <;> simp [h]

theorem State.takeException_queue (s : State) (e : Exc) (b ret : Word) :
    (s.takeException e b ret).unit.queue = [] := by
  rcases s.takeException_cases e b ret with ⟨_, h⟩ | ⟨_, h⟩
  · rw [h]
    rcases State.trapEntry_cases (s.discard.markRaised) (.exception e b) ret with ⟨_, h'⟩ | ⟨_, _, h'⟩ <;>
      rw [h'] <;> rfl
  · rw [h]; rfl

theorem State.takeException_raised (s : State) (e : Exc) (b ret : Word) :
    (s.takeException e b ret).unit.raised = true := by
  rcases s.takeException_cases e b ret with ⟨_, h⟩ | ⟨_, h⟩
  · rw [h]
    rcases State.trapEntry_cases (s.discard.markRaised) (.exception e b) ret with ⟨_, h'⟩ | ⟨_, _, h'⟩ <;>
      rw [h'] <;> rfl
  · rw [h]; rfl

theorem State.takeException_legal {s : State} (h : s.cr.legal) (e : Exc) (b ret : Word) :
    (s.takeException e b ret).cr.legal := by
  have hd : (s.discard.markRaised).cr.legal := by simpa using h
  rcases s.takeException_cases e b ret with ⟨_, h'⟩ | ⟨_, h'⟩
  · rw [h']; exact State.trapEntry_legal hd _ _
  · rw [h']; exact hd

/-- Where nothing can be vectored, raising stops the run and changes nothing else outside the unit (R262, R266, R528). -/
theorem State.takeException_stops {s : State} {e : Exc} (b ret : Word)
    (h : s.cfg.hasFaultVector = false ∨ s.readVector e.code = none) :
    s.takeException e b ret =
      { s with
        unit := (s.takeException e b ret).unit
        run := .stopped (some (.signalled (if s.cfg.hasFaultVector then .sigbus else e.signal))) } := by
  rcases s.takeException_cases e b ret with ⟨hv, h1⟩ | ⟨hv, h1⟩
  · have h := h.resolve_left (by simp [hv])
    rcases State.trapEntry_cases (s.discard.markRaised) (.exception e b) ret with
      ⟨_, h2⟩ | ⟨x, hx, _⟩
    · rw [h1, h2, hv]; rfl
    · have hx' : s.readVector e.code = some x :=
        (State.readVector_congr (s := s) (t := s.discard.markRaised) rfl rfl rfl rfl _).symm.trans hx
      rw [h] at hx'
      cases hx'
  · rw [h1, hv]; rfl

/-- Discarding the queue makes what was queued irrelevant to the exception (R262). -/
theorem State.takeException_withQueue (s : State) (q : List WbEntry) (e : Exc) (b ret : Word) :
    (s.withUnit { s.unit with queue := q }).takeException e b ret = s.takeException e b ret := rfl

/-! ### The interrupt check -/

/-- The interrupt check does one of three things (R540): nothing; the run stops at the vector; the handler is entered and the
level acknowledged. -/
theorem State.interruptCheck_cases (s : State) :
    ((pswIE s.cr.psw = false ∨ s.icLevel = 0) ∧ s.interruptCheck = s) ∨
    (pswIE s.cr.psw = true ∧ s.icLevel ≠ 0 ∧
      ((s.trapEntry (.interrupt s.icLevel) s.pc).isRunning = false ∧
        s.interruptCheck = s.trapEntry (.interrupt s.icLevel) s.pc ∨
       (s.trapEntry (.interrupt s.icLevel) s.pc).isRunning = true ∧
        s.interruptCheck =
          { s.trapEntry (.interrupt s.icLevel) s.pc with
            dev := s.dev.acknowledge s.cfg s.icLevel })) := by
  by_cases h : pswIE s.cr.psw = true ∧ s.icLevel ≠ 0
  · right
    refine ⟨h.1, h.2, ?_⟩
    have hi : s.interruptCheck =
        if (s.trapEntry (.interrupt s.icLevel) s.pc).isRunning then
          { s.trapEntry (.interrupt s.icLevel) s.pc with
            dev := (s.trapEntry (.interrupt s.icLevel) s.pc).dev.acknowledge s.cfg s.icLevel }
        else s.trapEntry (.interrupt s.icLevel) s.pc := if_pos h
    rw [hi, State.trapEntry_dev]
    by_cases hr : (s.trapEntry (.interrupt s.icLevel) s.pc).isRunning = true
    · exact Or.inr ⟨hr, if_pos hr⟩
    · exact Or.inl ⟨Bool.eq_false_of_not_eq_true hr, if_neg hr⟩
  · left
    refine ⟨?_, if_neg h⟩
    cases hp : pswIE s.cr.psw with
    | false => exact .inl rfl
    | true => exact .inr (by simpa [hp] using h)

end Sys2Proof.Machine
end

