-- ==== Sys2Proof/Laws/Calls.lean ====
section
/-! SUPPORT. What a bridge call commits, said once (R451, R458): its result registers, over whatever it wrote at once. -/

namespace Sys2Proof.Machine
/-! ### The commit after a call -/

/-- Two states agree in everything a commit reads or writes but memory: they may differ in the fd table, the pipes, the host and the
stop request, and in how the run stands. -/
structure CoreEq (s u : State) : Prop where
  cfg : u.cfg = s.cfg
  regs : u.regs = s.regs
  cr : u.cr = s.cr
  unit : u.unit = s.unit
  time : u.time = s.time
  events : u.events = s.events
  seq : u.seq = s.seq
  dev : u.dev = s.dev

theorem EnvChange.coreEq {s u : State} (h : EnvChange s u) : CoreEq s u :=
  ⟨h.cfg, h.regs, h.cr, h.unit, h.time, h.events, h.seq, h.dev⟩

/-- A device write reads and writes nothing outside the core. -/
theorem CoreEq.devWrite {s u : State} (h : CoreEq s u) (r : DevReg) (v : Word) (now : Ticks) :
    CoreEq (s.devWrite r v now) (u.devWrite r v now) := by
  obtain ⟨hc, hr, hcr, hu, ht, he, hs, hd⟩ := h
  cases r <;>
    simp only [State.devWrite, State.writeTmrCtrl, State.writeUartTxdata, State.rearmWdt, hc, hd] <;>
    (repeat' split) <;>
    exact ⟨by simp [hc], by simp [hr], by simp [hcr], by simp [hu], by simp [ht], by simp [he, hs], by simp [hs],
      by simp [hd]⟩

theorem CoreEq.applyEntry {s u : State} (h : CoreEq s u) (e : WbEntry) :
    CoreEq (s.applyEntry e) (u.applyEntry e) ∧
      (u.mem = s.mem → (u.applyEntry e).mem = (s.applyEntry e).mem) := by
  have hp : ∀ p, u.readPhys p = s.readPhys p := by simp [State.readPhys, h.regs]
  have hn : ∀ n, u.readCr n = s.readCr n := by simp [State.readCr, h.cr]
  rcases e with ⟨d, v, m⟩ | ⟨pa, bs⟩ | ⟨r, v⟩
  · cases d with
    | gpr p =>
      exact ⟨⟨h.cfg, by simp [State.applyEntry, h.regs, hp], h.cr, h.unit, h.time, h.events, h.seq, h.dev⟩, id⟩
    | cr n =>
      exact ⟨⟨h.cfg, h.regs, by simp [State.applyEntry, h.cr, hn], h.unit, h.time, h.events, h.seq, h.dev⟩, id⟩
  · exact ⟨⟨h.cfg, h.regs, h.cr, h.unit, h.time, h.events, h.seq, h.dev⟩,
      fun hm => by simp [State.applyEntry, hm, h.cfg]⟩
  · refine ⟨?_, fun hm => by simp [State.applyEntry, hm]⟩
    simp only [State.applyEntry, h.time]
    exact h.devWrite r v s.time

theorem CoreEq.applyEntries {s u : State} (h : CoreEq s u) (es : List WbEntry) :
    CoreEq (applyEntries es s) (applyEntries es u) ∧
      (u.mem = s.mem → (Machine.applyEntries es u).mem = (Machine.applyEntries es s).mem) := by
  induction es generalizing s u with
  | nil => exact ⟨h, id⟩
  | cons e es ih =>
    obtain ⟨h1, h2⟩ := h.applyEntry e
    obtain ⟨h3, h4⟩ := ih h1
    exact ⟨h3, fun hm => h4 (h2 hm)⟩

/-- Commits from states that agree in the core agree in it, and in memory where the states do. -/
theorem CoreEq.commit {s u : State} (h : CoreEq s u) :
    CoreEq s.commit u.commit ∧ (u.mem = s.mem → u.commit.mem = s.commit.mem) := by
  have hq : u.unit.queue = s.unit.queue := by rw [h.unit]
  obtain ⟨⟨hc, hr, hcr, hu, ht, he, hs, hd⟩, hm⟩ := h.applyEntries s.unit.queue
  rw [State.commit_spec, State.commit_spec, hq]
  exact ⟨⟨hc, hr, hcr, by simp [State.withUnit, hcr, h.unit], ht, he, hs, hd⟩, hm⟩

/-- A call that has changed the environment from `s` to `u` and then queues `r0` and `r1` has the effect of a call (R451). -/
theorem EnvChange.results {s u : State} (h : EnvChange s u) (v e : Word) :
    CallEffect s ((u.pushReg 0#4 v).pushReg 1#4 e) (twoRegs (s.physReg 0#4) v (s.physReg 1#4) e) u.mem := by
  obtain ⟨⟨hc, hr, hcr, hu, ht, he, hs, hd⟩, -⟩ := h.coreEq.commit
  have hm : u.commit.mem = ({ s with mem := u.mem } : State).commit.mem :=
    (CoreEq.commit (s := { s with mem := u.mem }) (u := u)
      ⟨h.cfg, h.regs, h.cr, h.unit, h.time, h.events, h.seq, h.dev⟩).2 rfl
  have hcommit := u.commit_after { u.unit with
    queue := u.unit.queue ++ [.reg (.gpr (u.physReg 0#4)) v 0xFFFFFFFF#32] ++ [.reg (.gpr (u.physReg 1#4)) e 0xFFFFFFFF#32] }
    _ (List.append_assoc ..)
  have hw : (u.pushReg 0#4 v).pushReg 1#4 e = u.withUnit { u.unit with
    queue := u.unit.queue ++ [.reg (.gpr (u.physReg 0#4)) v 0xFFFFFFFF#32] ++ [.reg (.gpr (u.physReg 1#4)) e 0xFFFFFFFF#32] } := rfl
  rw [← hw] at hcommit
  have hmem : ((u.pushReg 0#4 v).pushReg 1#4 e).commit.mem = ({ s with mem := u.mem } : State).commit.mem := by
    rw [hcommit]; exact hm
  refine ⟨?_, ?_, ⟨?_, ?_, ?_, ?_⟩, ?_, ⟨?_, ?_, ?_⟩, hmem, ?_⟩
  · simp [QueueOnly, hw, State.withUnit, h.unit]
  · intro r
    rw [hcommit]
    simp [State.applyEntry, State.withUnit, State.readPhys, twoRegs, h.physReg, hr]
    by_cases hq : r = s.physReg 1#4
    · subst hq; simp
    · rw [Vector.getElem_set_ne _ _ (by intro h; exact hq (Fin.ext h.symm))]
      by_cases hp : r = s.physReg 0#4
      · subst hp; simp [hq]
      · simp [hq, hp]
        rw [Vector.getElem_set_ne]
        intro h; exact hp (Fin.ext h.symm)
  · rw [hcommit]; exact congrArg pswC (congrArg CRegs.psw hcr)
  · rw [hcommit]; exact congrArg pswZ (congrArg CRegs.psw hcr)
  · rw [hcommit]; exact congrArg pswF0 (congrArg CRegs.psw hcr)
  · intro i _; rw [hcommit]; exact congrArg (·.psw.getLsbD i) hcr
  · intro n _; rw [hcommit]; show u.commit.readCr n = _; simp [State.readCr, hcr]
  · rw [hcommit]; exact hd
  · rw [hcommit]; exact he
  · rw [hcommit]; exact hs
  · intro hq
    rw [hmem, State.commit_empty ({ s with mem := u.mem } : State) hq]; rfl

/-- `Complete(v)` (R451). -/
theorem EnvChange.complete {s u : State} (h : EnvChange s u) (v : Word) :
    CallEffect s (u.complete v) (twoRegs (s.physReg 0#4) v (s.physReg 1#4) 0#32) u.mem :=
  h.results v 0#32

/-- `Fail(e)` and `HostFail()` (R451). -/
theorem EnvChange.failWith {s u : State} (h : EnvChange s u) (e : Word) :
    CallEffect s (u.failWith e) (twoRegs (s.physReg 0#4) 0xFFFFFFFF#32 (s.physReg 1#4) e) u.mem :=
  h.results 0xFFFFFFFF#32 e

end Sys2Proof.Machine
end

