-- ==== Sys2Proof/Laws/Events.lean ====
section
/-! SUPPORT. The event queue: what inserting, firing and draining can do, said once (R550 to R556). -/

namespace Sys2Proof.Machine

/-! ### Tick counts (R550, R554) -/

/-- A sum of ticks is never below what it starts from. -/
theorem le_addTicks (t : Ticks) (n : Nat) : t ≤ addTicks t n := by
  have ht := t.isLt
  simp only [addTicks]
  split
  · next h => rw [BitVec.le_def, BitVec.toNat_ofNat, Nat.mod_eq_of_lt h]; omega
  · split
    · assumption
    · exact BitVec.le_refl t

/-- A sum that fits is the sum. -/
theorem addTicks_toNat {t : Ticks} {n : Nat} (h : t.toNat + n < 2 ^ 64) :
    (addTicks t n).toNat = t.toNat + n := by
  simp only [addTicks, if_pos h, BitVec.toNat_ofNat, Nat.mod_eq_of_lt h]

/-! ### Inserting (R551) -/

theorem mem_insertEvent {e x : Event} {l : List Event} : x ∈ insertEvent e l ↔ x = e ∨ x ∈ l := by
  induction l with
  | nil => simp [insertEvent]
  | cons f l ih =>
    simp only [insertEvent]
    split
    · simp only [List.mem_cons, ih]
      tauto
    · simp

/-- Inserting an event with a new sequence number keeps the queue's order (R551). -/
theorem insertEvent_ordered {e : Event} {l : List Event} (h : l.Pairwise Event.before)
    (hs : ∀ x ∈ l, x.seq < e.seq) : (insertEvent e l).Pairwise Event.before := by
  induction l with
  | nil => simp [insertEvent]
  | cons f l ih =>
    obtain ⟨hf, hl⟩ := List.pairwise_cons.1 h
    simp only [insertEvent]
    split
    · next hle =>
      refine List.pairwise_cons.2 ⟨fun x hx => ?_, ih hl fun x hx => hs x (List.mem_cons_of_mem _ hx)⟩
      rcases mem_insertEvent.1 hx with rfl | hx
      · by_cases heq : f.fireTime = x.fireTime
        · exact .inr ⟨heq, hs f (List.mem_cons_self ..)⟩
        · exact .inl (by bv_omega)
      · exact hf x hx
    · next hgt =>
      refine List.pairwise_cons.2 ⟨fun x hx => ?_, h⟩
      rcases List.mem_cons.1 hx with rfl | hx
      · exact .inl (by bv_omega)
      · rcases hf x hx with hlt | ⟨heq, _⟩
        · exact .inl (by bv_omega)
        · exact .inl (by bv_omega)

/-- Scheduling keeps the queue legal when the event does not lie in the past. -/
theorem State.schedule_legal {s : State} (h : s.eventsLegal) {now : Ticks} {delay : Nat} (cb : Callback)
    (ht : s.time ≤ addTicks now delay) : (s.schedule now delay cb).eventsLegal := by
  obtain ⟨ho, hb⟩ := h
  refine ⟨insertEvent_ordered ho fun x hx => (hb x hx).1, ?_⟩
  intro x hx
  rcases mem_insertEvent.1 hx with rfl | hx
  · exact ⟨Nat.lt_succ_self _, ht⟩
  · exact ⟨Nat.lt_succ_of_lt (hb x hx).1, (hb x hx).2⟩

/-! ### Firing (R552, R556 to R558) -/

/-- All a callback does: new device registers, a byte printed or not, and at most one new event, at or after the time it fires. -/
theorem State.fire_spec (s : State) (e : Event) :
    ∃ d calls, s.fire e = { s with dev := d, host := { s.host with calls := calls } } ∨
      ∃ delay cb, s.fire e = { s with dev := d }.schedule e.fireTime delay cb := by
  obtain ⟨ft, sq, cb⟩ := e
  cases cb with
  | timerExpire g =>
    simp only [State.fire, State.timerExpire]
    split
    · split
      · split
        · exact ⟨_, [], .inr ⟨_, _, rfl⟩⟩
        · exact ⟨_, _, .inl rfl⟩
      · split
        · exact ⟨_, [], .inr ⟨_, _, rfl⟩⟩
        · exact ⟨_, _, .inl rfl⟩
    · exact ⟨_, _, .inl rfl⟩
  | txDone b => exact ⟨_, _, .inl rfl⟩
  | wdtExpire g =>
    simp only [State.fire, State.wdtExpire]
    split
    · exact ⟨_, _, .inl rfl⟩
    · exact ⟨_, _, .inl rfl⟩

@[simp] theorem State.fire_cfg (s : State) (e : Event) : (s.fire e).cfg = s.cfg := by
  obtain ⟨d, c, h | ⟨_, _, h⟩⟩ := s.fire_spec e <;> simp [h]

@[simp] theorem State.fire_regs (s : State) (e : Event) : (s.fire e).regs = s.regs := by
  obtain ⟨d, c, h | ⟨_, _, h⟩⟩ := s.fire_spec e <;> simp [h]

@[simp] theorem State.fire_pc (s : State) (e : Event) : (s.fire e).pc = s.pc := by
  obtain ⟨d, c, h | ⟨_, _, h⟩⟩ := s.fire_spec e <;> simp [h]

@[simp] theorem State.fire_cr (s : State) (e : Event) : (s.fire e).cr = s.cr := by
  obtain ⟨d, c, h | ⟨_, _, h⟩⟩ := s.fire_spec e <;> simp [h]

@[simp] theorem State.fire_unit (s : State) (e : Event) : (s.fire e).unit = s.unit := by
  obtain ⟨d, c, h | ⟨_, _, h⟩⟩ := s.fire_spec e <;> simp [h]

@[simp] theorem State.fire_run (s : State) (e : Event) : (s.fire e).run = s.run := by
  obtain ⟨d, c, h | ⟨_, _, h⟩⟩ := s.fire_spec e <;> simp [h]

@[simp] theorem State.fire_singleStep (s : State) (e : Event) : (s.fire e).singleStep = s.singleStep := by
  obtain ⟨d, c, h | ⟨_, _, h⟩⟩ := s.fire_spec e <;> simp [h]

@[simp] theorem State.fire_waiting (s : State) (e : Event) : (s.fire e).waiting = s.waiting := by
  obtain ⟨d, c, h | ⟨_, _, h⟩⟩ := s.fire_spec e <;> simp [h]

@[simp] theorem State.fire_stopRequest (s : State) (e : Event) : (s.fire e).stopRequest = s.stopRequest := by
  obtain ⟨d, c, h | ⟨_, _, h⟩⟩ := s.fire_spec e <;> simp [h]

@[simp] theorem State.fire_time (s : State) (e : Event) : (s.fire e).time = s.time := by
  obtain ⟨d, c, h | ⟨_, _, h⟩⟩ := s.fire_spec e <;> simp [h]

@[simp] theorem State.fire_mem (s : State) (e : Event) : (s.fire e).mem = s.mem := by
  obtain ⟨d, c, h | ⟨_, _, h⟩⟩ := s.fire_spec e <;> simp [h]

@[simp] theorem State.fire_fds (s : State) (e : Event) : (s.fire e).fds = s.fds := by
  obtain ⟨d, c, h | ⟨_, _, h⟩⟩ := s.fire_spec e <;> simp [h]

@[simp] theorem State.fire_pipes (s : State) (e : Event) : (s.fire e).pipes = s.pipes := by
  obtain ⟨d, c, h | ⟨_, _, h⟩⟩ := s.fire_spec e <;> simp [h]

@[simp] theorem State.fire_nextPipe (s : State) (e : Event) : (s.fire e).nextPipe = s.nextPipe := by
  obtain ⟨d, c, h | ⟨_, _, h⟩⟩ := s.fire_spec e <;> simp [h]

@[simp] theorem State.fire_arrivals (s : State) (e : Event) :
    (s.fire e).host.arrivals = s.host.arrivals := by
  obtain ⟨d, c, h | ⟨_, _, h⟩⟩ := s.fire_spec e <;> simp [h]

/-! ### Draining (R552) -/

/-- What every firing keeps, a drain keeps; and nothing is due after it. -/
theorem State.drain_induction {P : State → Prop} {upto : Ticks}
    (hfire : ∀ s e rest, P s → s.events = e :: rest → e.fireTime ≤ upto →
      P ({ s with events := rest }.fire e))
    {fuel : Nat} {s t : State} (hs : P s) (h : State.drain upto fuel s = some t) :
    P t ∧ eventDue upto t.events = false := by
  induction fuel generalizing s with
  | zero =>
    simp only [State.drain] at h
    split at h
    · cases h
    · next hd => cases h; exact ⟨hs, by simpa using hd⟩
  | succ fuel ih =>
    simp only [State.drain] at h
    split at h
    · next he => cases h; exact ⟨hs, by simp [he, eventDue]⟩
    · next e rest he =>
      split at h
      · next hle => exact ih (hfire s e rest hs he hle) h
      · next hgt =>
        cases h
        exact ⟨hs, by simp only [he, eventDue, decide_eq_false_iff_not]; exact hgt⟩

/-- What every firing keeps, `Advance` keeps; and nothing is due after it. -/
theorem State.advance_induction {P : State → Prop} {upto : Ticks}
    (hfire : ∀ s e rest, P s → s.events = e :: rest → e.fireTime ≤ upto →
      P ({ s with events := rest }.fire e))
    {s t : State} (hs : P s) (h : s.advance upto = some t) :
    P t ∧ eventDue upto t.events = false :=
  State.drain_induction hfire hs h

theorem State.advance_cfg {s t : State} {upto : Ticks} (h : s.advance upto = some t) :
    t.cfg = s.cfg :=
  (State.advance_induction (P := fun u => u.cfg = s.cfg) (by
    intro u e rest hu _ _
    simp [hu]) rfl h).1

theorem State.advance_regs {s t : State} {upto : Ticks} (h : s.advance upto = some t) :
    t.regs = s.regs :=
  (State.advance_induction (P := fun u => u.regs = s.regs) (by
    intro u e rest hu _ _
    simp [hu]) rfl h).1

theorem State.advance_pc {s t : State} {upto : Ticks} (h : s.advance upto = some t) :
    t.pc = s.pc :=
  (State.advance_induction (P := fun u => u.pc = s.pc) (by
    intro u e rest hu _ _
    simp [hu]) rfl h).1

theorem State.advance_cr {s t : State} {upto : Ticks} (h : s.advance upto = some t) :
    t.cr = s.cr :=
  (State.advance_induction (P := fun u => u.cr = s.cr) (by
    intro u e rest hu _ _
    simp [hu]) rfl h).1

theorem State.advance_unit {s t : State} {upto : Ticks} (h : s.advance upto = some t) :
    t.unit = s.unit :=
  (State.advance_induction (P := fun u => u.unit = s.unit) (by
    intro u e rest hu _ _
    simp [hu]) rfl h).1

theorem State.advance_run {s t : State} {upto : Ticks} (h : s.advance upto = some t) :
    t.run = s.run :=
  (State.advance_induction (P := fun u => u.run = s.run) (by
    intro u e rest hu _ _
    simp [hu]) rfl h).1

theorem State.advance_singleStep {s t : State} {upto : Ticks} (h : s.advance upto = some t) :
    t.singleStep = s.singleStep :=
  (State.advance_induction (P := fun u => u.singleStep = s.singleStep) (by
    intro u e rest hu _ _
    simp [hu]) rfl h).1

theorem State.advance_waiting {s t : State} {upto : Ticks} (h : s.advance upto = some t) :
    t.waiting = s.waiting :=
  (State.advance_induction (P := fun u => u.waiting = s.waiting) (by
    intro u e rest hu _ _
    simp [hu]) rfl h).1

theorem State.advance_stopRequest {s t : State} {upto : Ticks} (h : s.advance upto = some t) :
    t.stopRequest = s.stopRequest :=
  (State.advance_induction (P := fun u => u.stopRequest = s.stopRequest) (by
    intro u e rest hu _ _
    simp [hu]) rfl h).1

theorem State.advance_arrivals {s t : State} {upto : Ticks} (h : s.advance upto = some t) :
    t.host.arrivals = s.host.arrivals :=
  (State.advance_induction (P := fun u => u.host.arrivals = s.host.arrivals) (by
    intro u e rest hu _ _
    simp [hu]) rfl h).1

theorem State.advance_time {s t : State} {upto : Ticks} (h : s.advance upto = some t) :
    t.time = s.time :=
  (State.advance_induction (P := fun u => u.time = s.time) (by
    intro u e rest hu _ _
    simp [hu]) rfl h).1

theorem State.advance_mem {s t : State} {upto : Ticks} (h : s.advance upto = some t) :
    t.mem = s.mem :=
  (State.advance_induction (P := fun u => u.mem = s.mem) (by
    intro u e rest hu _ _
    simp [hu]) rfl h).1

theorem State.advance_fds {s t : State} {upto : Ticks} (h : s.advance upto = some t) :
    t.fds = s.fds :=
  (State.advance_induction (P := fun u => u.fds = s.fds) (by
    intro u e rest hu _ _
    simp [hu]) rfl h).1

theorem State.advance_pipes {s t : State} {upto : Ticks} (h : s.advance upto = some t) :
    t.pipes = s.pipes :=
  (State.advance_induction (P := fun u => u.pipes = s.pipes) (by
    intro u e rest hu _ _
    simp [hu]) rfl h).1

theorem State.advance_nextPipe {s t : State} {upto : Ticks} (h : s.advance upto = some t) :
    t.nextPipe = s.nextPipe :=
  (State.advance_induction (P := fun u => u.nextPipe = s.nextPipe) (by
    intro u e rest hu _ _
    simp [hu]) rfl h).1

/-- With nothing due, `Advance` changes nothing. -/
theorem State.advance_of_not_due {s : State} {upto : Ticks} (h : eventDue upto s.events = false) :
    s.advance upto = some s := by
  simp only [State.advance]
  cases hd : drainBound upto s.events with
  | zero => simp [State.drain, h]
  | succ n =>
    simp only [State.drain]
    split
    · rfl
    · next e rest he =>
      rw [he] at h
      simp only [eventDue, decide_eq_false_iff_not] at h
      rw [if_neg h]

/-- A firing keeps the queue legal, up to the past: what is left and what it schedules is at or after the event it
fires. -/
theorem State.fire_ordered {s : State} {e : Event} {rest : List Event} (hs : s.events = e :: rest)
    (h : s.events.Pairwise Event.before ∧ ∀ x ∈ s.events, x.seq < s.seq) :
    ({ s with events := rest }.fire e).events.Pairwise Event.before ∧
      ∀ x ∈ ({ s with events := rest }.fire e).events,
        x.seq < ({ s with events := rest }.fire e).seq := by
  rw [hs] at h
  obtain ⟨ho, hq⟩ := h
  have ho' := (List.pairwise_cons.1 ho).2
  have hq' : ∀ x ∈ rest, x.seq < s.seq := fun x hx => hq x (List.mem_cons_of_mem _ hx)
  obtain ⟨d, c, hf | ⟨_, _, hf⟩⟩ := State.fire_spec { s with events := rest } e
  · rw [hf]; exact ⟨ho', hq'⟩
  · rw [hf]
    refine ⟨insertEvent_ordered ho' hq', ?_⟩
    intro x hx
    rcases mem_insertEvent.1 hx with rfl | hx
    · exact Nat.lt_succ_self _
    · exact Nat.lt_succ_of_lt (hq' x hx)

/-- After `Advance`, the queue is in order and every event lies after the time advanced to (R552, R553). -/
theorem State.advance_ordered {s t : State} {upto : Ticks}
    (h : s.events.Pairwise Event.before ∧ ∀ x ∈ s.events, x.seq < s.seq)
    (ha : s.advance upto = some t) :
    (t.events.Pairwise Event.before ∧ ∀ x ∈ t.events, x.seq < t.seq) ∧
      ∀ x ∈ t.events, upto < x.fireTime := by
  obtain ⟨hp, hd⟩ := State.advance_induction
    (P := fun u => u.events.Pairwise Event.before ∧ ∀ x ∈ u.events, x.seq < u.seq)
    (fun u e rest hu he _ => State.fire_ordered he hu) h ha
  refine ⟨hp, ?_⟩
  cases he : t.events with
  | nil => simp
  | cons e rest =>
    rw [he] at hd hp
    simp only [eventDue, decide_eq_false_iff_not] at hd
    intro x hx
    rcases List.mem_cons.1 hx with rfl | hx
    · bv_omega
    · rcases (List.pairwise_cons.1 hp.1).1 x hx with hlt | ⟨heq, _⟩ <;> bv_omega

end Sys2Proof.Machine
end

