-- ==== Sys2Proof/Laws/Devices.lean ====
section
/-! SUPPORT. The device registers keep their reserved bits 0 (R559), and what the interrupt level is (R545). -/

namespace Sys2Proof.Machine

/-! ### Masks -/

/-- No bit outside the mask. -/
theorem masked_and (v m : Word) : (v &&& m) &&& ~~~ m = 0#32 := by
  apply BitVec.eq_of_getLsbD_eq
  intro i hi
  simp only [BitVec.getLsbD_and, BitVec.getLsbD_not, hi, decide_true, Bool.true_and,
    BitVec.getLsbD_zero]
  cases m.getLsbD i <;> simp

theorem masked_left {a m : Word} (h : a &&& ~~~ m = 0#32) (b : Word) :
    (a &&& b) &&& ~~~ m = 0#32 := by
  rw [BitVec.and_assoc, BitVec.and_comm b, ← BitVec.and_assoc, h]
  exact BitVec.zero_and

theorem masked_or {a b m : Word} (ha : a &&& ~~~ m = 0#32) (hb : b &&& ~~~ m = 0#32) :
    (a ||| b) &&& ~~~ m = 0#32 := by
  rw [BitVec.and_comm, BitVec.and_or_distrib_left, BitVec.and_comm _ a, BitVec.and_comm _ b, ha, hb]
  rfl

/-- The mask of the levels has the bits 1 to `NLEVELS`. -/
theorem levelMask_bit (c : Config) {i : Nat} (hi : i < 32) :
    (levelMask c).getLsbD i = decide (1 ≤ i ∧ i ≤ c.nlevels) := by
  have h2 : 2 ^ (c.nlevels + 1) - 2 = 2 * (2 ^ c.nlevels - 1) := by omega
  rw [levelMask, BitVec.getLsbD_ofNat, h2]
  cases i with
  | zero => simp
  | succ i =>
    have h3 : 2 * (2 ^ c.nlevels - 1) / 2 = 2 ^ c.nlevels - 1 := by omega
    rw [Nat.testBit_succ, h3, Nat.testBit_two_pow_sub_one, decide_eq_true hi, Bool.true_and]
    exact decide_eq_decide.2 (by omega)

theorem levelBit_masked (c : Config) (l : Nat) : levelBit c l &&& ~~~ levelMask c = 0#32 := by
  simp only [levelBit]
  split
  · next h =>
    apply BitVec.eq_of_getLsbD_eq
    intro i hi
    by_cases he : i = l
    · subst he; simp [hi, levelMask_bit c hi, h]
    · rw [BitVec.getLsbD_and, BitVec.getLsbD_shiftLeft]
      by_cases hl : i < l
      · simp [hl]
      · have : (1#32).getLsbD (i - l) = false := by simp; omega
        simp [this]
  · simp

/-! ### Every update keeps the registers legal -/

theorem Devices.assertInterrupt_legal {c : Config} {d : Devices} (h : d.legal c) (l : Nat) :
    (d.assertInterrupt c l).legal c := by
  obtain ⟨h1, h2, h3, h4⟩ := h
  exact ⟨h1, h2, masked_or h3 (levelBit_masked c l), h4⟩

theorem Devices.acknowledge_legal {c : Config} {d : Devices} (h : d.legal c) (l : Nat) :
    (d.acknowledge c l).legal c := by
  obtain ⟨h1, h2, h3, h4, h5, h6⟩ := h
  exact ⟨h1, h2, masked_left h3 _, h4, masked_left h5 _, h6⟩

/-- A device write keeps the reserved bits 0 (R126, R141, R559). -/
theorem State.devWrite_legal {s : State} (h : s.dev.legal s.cfg) (r : DevReg) (v : Word) (now : Ticks) :
    (s.devWrite r v now).dev.legal s.cfg := by
  obtain ⟨h1, h2, h3, h4, h5, h6, h7, h8, h9, h10, h11, h12⟩ := h
  cases r with
  | map k =>
    refine ⟨by simpa [State.devWrite] using h1, ?_, h3, h4, h5, h6, h7, h8, h9, h10, h11, h12⟩
    intro m hm
    rcases List.mem_or_eq_of_mem_set hm with hm | rfl
    · exact h2 m hm
    · exact masked_and _ _
  | icPending => exact ⟨h1, h2, masked_left h3 _, h4, h5, h6, h7, h8, h9, h10, h11, h12⟩
  | icMask => exact ⟨h1, h2, h3, masked_and _ _, h5, h6, h7, h8, h9, h10, h11, h12⟩
  | icLatched => exact ⟨h1, h2, h3, h4, masked_and _ _, h6, h7, h8, h9, h10, h11, h12⟩
  | icControl => exact ⟨h1, h2, h3, h4, h5, masked_and _ _, h7, h8, h9, h10, h11, h12⟩
  | tmrCtrl =>
    simp only [State.devWrite, State.writeTmrCtrl]
    split
    · split
      · exact ⟨h1, h2, h3, h4, h5, h6, masked_left (masked_and _ _) _, h8, h9, h10, h11, h12⟩
      · exact ⟨h1, h2, h3, h4, h5, h6, masked_and _ _, h8, h9, h10, h11, h12⟩
    · exact ⟨h1, h2, h3, h4, h5, h6, masked_and _ _, h8, h9, h10, h11, h12⟩
  | tmrStatus => exact ⟨h1, h2, h3, h4, h5, h6, h7, masked_left h8 _, h9, h10, h11, h12⟩
  | uartTxdata =>
    simp only [State.devWrite, State.writeUartTxdata]
    split
    · exact ⟨h1, h2, h3, h4, h5, h6, h7, h8, masked_or h9 (by decide), h10, h11, h12⟩
    · exact ⟨h1, h2, h3, h4, h5, h6, h7, h8, masked_or h9 (by decide), h10, h11, h12⟩
  | uartStatus => exact ⟨h1, h2, h3, h4, h5, h6, h7, h8, masked_left h9 _, h10, h11, h12⟩
  | uartCtrl => exact ⟨h1, h2, h3, h4, h5, h6, h7, h8, h9, masked_and _ _, h11, h12⟩
  | wdtCtrl =>
    simp only [State.devWrite, State.rearmWdt]
    split
    · exact ⟨h1, h2, h3, h4, h5, h6, h7, h8, h9, h10, masked_and _ _, h12⟩
    · exact ⟨h1, h2, h3, h4, h5, h6, h7, h8, h9, h10, masked_and _ _, h12⟩
  | wdtKick =>
    simp only [State.devWrite, State.rearmWdt]
    split
    · exact ⟨h1, h2, h3, h4, h5, h6, h7, h8, h9, h10, h11, h12⟩
    · exact ⟨h1, h2, h3, h4, h5, h6, h7, h8, h9, h10, h11, h12⟩
  | wdtStatus => exact ⟨h1, h2, h3, h4, h5, h6, h7, h8, h9, h10, h11, masked_left h12 _⟩
  | icLevel | tmrPeriod | tmrNow | tmrNowh | wdtReload =>
    exact ⟨h1, h2, h3, h4, h5, h6, h7, h8, h9, h10, h11, h12⟩

/-- A callback keeps the reserved bits 0. -/
theorem State.fire_legal {s : State} (h : s.dev.legal s.cfg) (e : Event) :
    (s.fire e).dev.legal s.cfg := by
  obtain ⟨ft, sq, cb⟩ := e
  cases cb with
  | timerExpire g =>
    simp only [State.fire, State.timerExpire]
    split
    · have hd : Devices.legal s.cfg { s.dev with tmrStatus := s.dev.tmrStatus ||| 1#32 } := by
        obtain ⟨h1, h2, h3, h4, h5, h6, h7, h8, h9⟩ := h
        exact ⟨h1, h2, h3, h4, h5, h6, h7, masked_or h8 (by decide), h9⟩
      have hk : ∀ d : Devices, d.legal s.cfg →
          Devices.legal s.cfg { d with tmrCtrl := d.tmrCtrl &&& ~~~ 1#32 } := by
        intro d hd
        obtain ⟨h1, h2, h3, h4, h5, h6, h7, h8⟩ := hd
        exact ⟨h1, h2, h3, h4, h5, h6, masked_left h7 _, h8⟩
      split
      · split
        · exact Devices.assertInterrupt_legal hd _
        · exact hk _ (Devices.assertInterrupt_legal hd _)
      · split
        · exact hd
        · exact hk _ hd
    · exact h
  | txDone b =>
    simp only [State.fire, State.txDone]
    have hd : Devices.legal s.cfg { s.dev with uartStatus := s.dev.uartStatus &&& ~~~ 1#32 } := by
      obtain ⟨h1, h2, h3, h4, h5, h6, h7, h8, h9, h10⟩ := h
      exact ⟨h1, h2, h3, h4, h5, h6, h7, h8, masked_left h9 _, h10⟩
    split
    · exact Devices.assertInterrupt_legal hd _
    · exact hd
  | wdtExpire g =>
    simp only [State.fire, State.wdtExpire]
    split
    · refine Devices.assertInterrupt_legal ?_ _
      obtain ⟨h1, h2, h3, h4, h5, h6, h7, h8, h9, h10, h11, h12⟩ := h
      exact ⟨h1, h2, h3, h4, h5, h6, h7, h8, h9, h10, h11, masked_or h12 (by decide)⟩
    · exact h

/-! ### The interrupt level (R545) -/

/-- The highest set bit of 1..n, or 0 where none is set. -/
theorem highestLevel_spec (w : Word) (n : Nat) :
    (highestLevel w n = 0 ∧ ∀ l, 1 ≤ l → l ≤ n → w.getLsbD l = false) ∨
    (1 ≤ highestLevel w n ∧ highestLevel w n ≤ n ∧ w.getLsbD (highestLevel w n) = true ∧
      ∀ l, highestLevel w n < l → l ≤ n → w.getLsbD l = false) := by
  induction n with
  | zero => exact .inl ⟨rfl, fun l h1 h2 => by omega⟩
  | succ n ih =>
    by_cases hb : w.getLsbD (n + 1) = true
    · have hl : highestLevel w (n + 1) = n + 1 := if_pos hb
      rw [hl]
      exact .inr ⟨by omega, Nat.le_refl _, hb, fun l h1 h2 => by omega⟩
    · have hl : highestLevel w (n + 1) = highestLevel w n := if_neg hb
      rw [hl]
      have hb' : w.getLsbD (n + 1) = false := Bool.eq_false_of_not_eq_true hb
      have hext : ∀ l, l ≤ n + 1 → (l ≤ n → w.getLsbD l = false) → w.getLsbD l = false := by
        intro l h1 h2
        rcases Nat.lt_or_eq_of_le h1 with h | h
        · exact h2 (by omega)
        · rw [h]; exact hb'
      rcases ih with ⟨h0, h1⟩ | ⟨h1, h2, h3, h4⟩
      · exact .inl ⟨h0, fun l hl1 hl2 => hext l hl2 (h1 l hl1)⟩
      · exact .inr ⟨h1, by omega, h3, fun l hl1 hl2 => hext l hl2 (h4 l hl1)⟩

theorem State.icLevel_le (s : State) : s.icLevel ≤ s.cfg.nlevels := by
  simp only [State.icLevel]
  split
  · rcases highestLevel_spec ((s.dev.icPending ||| s.dev.icLatched) &&& ~~~ s.dev.icMask) s.cfg.nlevels with h | h
    · omega
    · omega
  · omega

end Sys2Proof.Machine
end

