-- ==== Sys2Proof/Laws/Encoding.lean ====
section
/-! SUPPORT. The fields of an encoding come back as they were put in (R201 to R205). -/

namespace Sys2Proof

/-! ### Bits of the containers -/

theorem mkShort_getLsbD (op : BitVec 5) (ra rb : BitVec 4) (fn : BitVec 2) (i : Nat) :
    (mkShort op ra rb fn).getLsbD i =
      if i < 2 then fn.getLsbD i
      else if i < 6 then rb.getLsbD (i - 2)
      else if i < 10 then ra.getLsbD (i - 6)
      else op.getLsbD (i - 10) := by
  change BitVec.getLsbD (op ++ ra ++ rb ++ fn) i = _
  simp only [BitVec.getLsbD_append]
  split_ifs <;> first | rfl | omega

theorem mkLong_getLsbD (op6 : BitVec 6) (ra rb : BitVec 4) (imm : BitVec 16) (i : Nat) :
    (mkLong op6 ra rb imm).getLsbD i =
      if i < 16 then imm.getLsbD i
      else if i < 20 then rb.getLsbD (i - 16)
      else if i < 24 then ra.getLsbD (i - 20)
      else if i < 30 then op6.getLsbD (i - 24)
      else (2#2).getLsbD (i - 30) := by
  change BitVec.getLsbD (2#2 ++ op6 ++ ra ++ rb ++ imm) i = _
  simp only [BitVec.getLsbD_append]
  split_ifs <;> first | rfl | omega

theorem mkPair_getLsbD (o : Order) (l r : BitVec 15) (i : Nat) :
    (mkPair o l r).getLsbD i =
      if i < 15 then r.getLsbD i
      else if i < 30 then l.getLsbD (i - 15)
      else match o with
        | .leftFirst => (0#2).getLsbD (i - 30)
        | .rightFirst => (1#2).getLsbD (i - 30) := by
  cases o with
  | leftFirst =>
    change BitVec.getLsbD (0#2 ++ l ++ r) i = _
    simp only [BitVec.getLsbD_append]
    split_ifs <;> first | rfl | omega
  | rightFirst =>
    change BitVec.getLsbD (1#2 ++ l ++ r) i = _
    simp only [BitVec.getLsbD_append]
    split_ifs <;> first | rfl | omega

/-! ### Fields -/

theorem decodeShort_mkShort (op : BitVec 5) (ra rb : BitVec 4) (fn : BitVec 2) :
    decodeShort (mkShort op ra rb fn) = shortOf op ra rb fn := by
  have h1 : (mkShort op ra rb fn).extractLsb' 10 5 = op := by
    apply BitVec.eq_of_getLsbD_eq
    intro i hi
    rw [BitVec.getLsbD_extractLsb', mkShort_getLsbD]
    interval_cases i <;> simp
  have h2 : (mkShort op ra rb fn).extractLsb' 6 4 = ra := by
    apply BitVec.eq_of_getLsbD_eq
    intro i hi
    rw [BitVec.getLsbD_extractLsb', mkShort_getLsbD]
    interval_cases i <;> simp
  have h3 : (mkShort op ra rb fn).extractLsb' 2 4 = rb := by
    apply BitVec.eq_of_getLsbD_eq
    intro i hi
    rw [BitVec.getLsbD_extractLsb', mkShort_getLsbD]
    interval_cases i <;> simp
  have h4 : (mkShort op ra rb fn).extractLsb' 0 2 = fn := by
    apply BitVec.eq_of_getLsbD_eq
    intro i hi
    rw [BitVec.getLsbD_extractLsb', mkShort_getLsbD]
    interval_cases i <;> simp
  rw [decodeShort, h1, h2, h3, h4]

theorem decodeLong_mkLong (op6 : BitVec 6) (ra rb : BitVec 4) (imm : BitVec 16) :
    decodeLong (mkLong op6 ra rb imm) = longOf op6 ra rb imm := by
  have h1 : (mkLong op6 ra rb imm).extractLsb' 24 6 = op6 := by
    apply BitVec.eq_of_getLsbD_eq
    intro i hi
    rw [BitVec.getLsbD_extractLsb', mkLong_getLsbD]
    interval_cases i <;> simp
  have h2 : (mkLong op6 ra rb imm).extractLsb' 20 4 = ra := by
    apply BitVec.eq_of_getLsbD_eq
    intro i hi
    rw [BitVec.getLsbD_extractLsb', mkLong_getLsbD]
    interval_cases i <;> simp
  have h3 : (mkLong op6 ra rb imm).extractLsb' 16 4 = rb := by
    apply BitVec.eq_of_getLsbD_eq
    intro i hi
    rw [BitVec.getLsbD_extractLsb', mkLong_getLsbD]
    interval_cases i <;> simp
  have h4 : (mkLong op6 ra rb imm).extractLsb' 0 16 = imm := by
    apply BitVec.eq_of_getLsbD_eq
    intro i hi
    rw [BitVec.getLsbD_extractLsb', mkLong_getLsbD]
    interval_cases i <;> simp
  rw [decodeLong, h1, h2, h3, h4]

/-- `FM` of a long instruction is `10` (R201). -/
theorem mkLong_format (op6 : BitVec 6) (ra rb : BitVec 4) (imm : BitVec 16) :
    (mkLong op6 ra rb imm).extractLsb' 30 2 = 2#2 := by
  apply BitVec.eq_of_getLsbD_eq
  intro i hi
  rw [BitVec.getLsbD_extractLsb', mkLong_getLsbD]
  interval_cases i <;> simp

/-- `FM` of a pair is its order (R201). -/
theorem mkPair_format (o : Order) (l r : BitVec 15) :
    (mkPair o l r).extractLsb' 30 2 = match o with
      | .leftFirst => 0#2
      | .rightFirst => 1#2 := by
  apply BitVec.eq_of_getLsbD_eq
  intro i hi
  rw [BitVec.getLsbD_extractLsb', mkPair_getLsbD]
  cases o <;> interval_cases i <;> simp

theorem mkPair_left (o : Order) (l r : BitVec 15) : (mkPair o l r).extractLsb' 15 15 = l := by
  apply BitVec.eq_of_getLsbD_eq
  intro i hi
  rw [BitVec.getLsbD_extractLsb', mkPair_getLsbD]
  interval_cases i <;> simp

theorem mkPair_right (o : Order) (l r : BitVec 15) : (mkPair o l r).extractLsb' 0 15 = r := by
  apply BitVec.eq_of_getLsbD_eq
  intro i hi
  rw [BitVec.getLsbD_extractLsb', mkPair_getLsbD]
  interval_cases i <;> simp

/-- The parts of a 6-bit immediate join to it (R202, R205). -/
theorem imm6_join (imm : BitVec 6) : imm.extractLsb' 2 4 ++ imm.extractLsb' 0 2 = imm := by
  apply BitVec.eq_of_getLsbD_eq
  intro i hi
  rw [BitVec.getLsbD_append]
  interval_cases i <;> simp

/-- The parts of a 10-bit displacement join to it (R202, R205). -/
theorem disp10_join (d : BitVec 10) :
    d.extractLsb' 6 4 ++ d.extractLsb' 2 4 ++ d.extractLsb' 0 2 = d := by
  apply BitVec.eq_of_getLsbD_eq
  intro i hi
  rw [BitVec.getLsbD_append, BitVec.getLsbD_append]
  interval_cases i <;> simp

/-- A 5-bit amount leaves the top bit of its field 0 (R205, R213). -/
theorem shift_top (sh : BitVec 5) : ((0#1 ++ sh : BitVec 6).extractLsb' 2 4).getLsbD 3 = false := by
  rw [BitVec.getLsbD_extractLsb']
  change (decide (3 < 4) && BitVec.getLsbD (0#1 ++ sh) 5) = false
  rw [BitVec.getLsbD_append]
  simp

/-- A 5-bit amount comes back from its field (R205). -/
theorem shift_join (sh : BitVec 5) :
    ((0#1 ++ sh : BitVec 6).extractLsb' 2 4 ++ (0#1 ++ sh : BitVec 6).extractLsb' 0 2).extractLsb'
      0 5 = sh := by
  rw [imm6_join]
  apply BitVec.eq_of_getLsbD_eq
  intro i hi
  rw [BitVec.getLsbD_extractLsb']
  change (decide (i < 5) && BitVec.getLsbD (0#1 ++ sh) (0 + i)) = _
  rw [BitVec.getLsbD_append]
  interval_cases i <;> simp

/-- The trap number comes back from its field (R209, R213). -/
theorem trap_join (n : BitVec 4) :
    (0#12 ++ n : BitVec 16).extractLsb' 4 12 = 0#12 ∧
      (0#12 ++ n : BitVec 16).extractLsb' 0 4 = n := by
  constructor
  · apply BitVec.eq_of_getLsbD_eq
    intro i hi
    rw [BitVec.getLsbD_extractLsb']
    rw [BitVec.getLsbD_append]
    interval_cases i <;> simp
  · apply BitVec.eq_of_getLsbD_eq
    intro i hi
    rw [BitVec.getLsbD_extractLsb']
    rw [BitVec.getLsbD_append]
    interval_cases i <;> simp

/-- A control register's number names it (R63). -/
theorem cregOf_number (c : CReg) : cregOf c.number = some c := by cases c <;> rfl

theorem decodeShort_mkImm (op : BitVec 5) (ra : BitVec 4) (imm : BitVec 6) :
    decodeShort (mkImm op ra imm) =
      shortOf op ra (imm.extractLsb' 2 4) (imm.extractLsb' 0 2) :=
  decodeShort_mkShort ..

theorem decodeShort_mkShift (op : BitVec 5) (ra : BitVec 4) (sh : BitVec 5) :
    decodeShort (mkShift op ra sh) =
      shortOf op ra ((0#1 ++ sh : BitVec 6).extractLsb' 2 4)
        ((0#1 ++ sh : BitVec 6).extractLsb' 0 2) :=
  decodeShort_mkShort ..

theorem decodeShort_mkBranch (op : BitVec 5) (d : BitVec 10) :
    decodeShort (mkBranch op d) =
      shortOf op (d.extractLsb' 6 4) (d.extractLsb' 2 4) (d.extractLsb' 0 2) :=
  decodeShort_mkShort ..

/-! ### Byte order (R134) -/

theorem length_disassembleLittle (n v : Nat) : (disassembleLittle n v).length = n := by
  induction n generalizing v with
  | zero => rfl
  | succ n ih => simp [disassembleLittle, ih]

@[simp] theorem length_disassemble (e : Endian) (n v : Nat) : (disassemble e n v).length = n := by
  cases e <;> simp [disassemble, length_disassembleLittle]

theorem assembleLittle_disassembleLittle (n v : Nat) :
    assembleLittle (disassembleLittle n v) = v % 2 ^ (8 * n) := by
  induction n generalizing v with
  | zero => simp [disassembleLittle, assembleLittle, Nat.mod_one]
  | succ n ih =>
    have h : 2 ^ (8 * (n + 1)) = 256 * 2 ^ (8 * n) := by
      rw [show 8 * (n + 1) = 8 * n + 8 by omega, Nat.pow_add]; omega
    simp only [disassembleLittle, assembleLittle, ih, BitVec.toNat_ofNat, h]
    rw [Nat.mod_mul]

/-- The bytes a value is stored as read back as that value (R134). -/
theorem assemble_disassemble (e : Endian) (n v : Nat) :
    assemble e (disassemble e n v) = v % 2 ^ (8 * n) := by
  cases e <;> simp [assemble, disassemble, assembleLittle_disassembleLittle]

theorem disassembleLittle_assembleLittle (bs : List Byte) :
    disassembleLittle bs.length (assembleLittle bs) = bs := by
  induction bs with
  | nil => rfl
  | cons b bs ih =>
    have hb := b.isLt
    simp only [List.length_cons, disassembleLittle, assembleLittle]
    have h1 : (b.toNat + 256 * assembleLittle bs) / 256 = assembleLittle bs := by omega
    rw [h1, ih]
    congr 1
    apply BitVec.eq_of_toNat_eq
    simp only [BitVec.toNat_ofNat, Nat.add_mul_mod_self_left]
    exact Nat.mod_eq_of_lt hb

end Sys2Proof
end

