-- ==== Sys2Proof/Laws/Exec.lean ====
section
/-! SUPPORT. What an instruction can do (the inversion of `exec`): it raises, or it queues writes of the kinds of
EntryOk and leaves everything else alone. Every arm of `exec` is answered for here by one lemma. -/

namespace Sys2Proof.Machine

/-- What an instruction that answers a next state has done. -/
def ExecEffect (s t : State) : Prop :=
  (∃ e b r, t = s.takeException e b r) ∨ NormalEffect s t ∨
    (s.unit.effSM = true ∧ t = { s with waiting := true })

theorem ExecEffect.of_push (s : State) (es : List WbEntry) (hes : ∀ e ∈ es, EntryOk s e) :
    ExecEffect s (s.pushAll es) := .inr (.inl (.of_push (.refl s) es hes))

theorem State.pushResult_eq (s : State) (ra : RegNum) (r : Word) (f : FlagWrites) :
    s.pushResult ra r f = s.pushAll [.reg (.gpr (s.physReg ra)) r 0xFFFFFFFF#32, flagsEntry f] := by
  simp [State.pushResult, State.pushReg_eq, State.pushFlags_eq, State.pushAll_append]

theorem ExecEffect.pushReg (s : State) (ra : RegNum) (v : Word) : ExecEffect s (s.pushReg ra v) :=
  .of_push s _ fun e he => by
    rw [List.mem_singleton] at he; subst he; exact .gpr ra v

theorem ExecEffect.pushFlags (s : State) (f : FlagWrites) : ExecEffect s (s.pushFlags f) :=
  .of_push s _ fun e he => by
    rw [List.mem_singleton] at he; subst he; exact .flags f

theorem ExecEffect.pushResult (s : State) (ra : RegNum) (r : Word) (f : FlagWrites) :
    ExecEffect s (s.pushResult ra r f) := by
  rw [State.pushResult_eq]
  refine .of_push s _ fun e he => ?_
  simp only [List.mem_cons, List.not_mem_nil, or_false] at he
  rcases he with rfl | rfl
  · exact .gpr ra r
  · exact .flags f

theorem ExecEffect.same (s : State) : ExecEffect s s := .inr (.inl (.of_env (.refl s)))

/-- A change of the unit that keeps what identifies the unit, queues entries and leaves the effective view. -/
theorem ExecEffect.of_unit (s : State) (u : UnitState) (es : List WbEntry)
    (hq : u.queue = s.unit.queue ++ es) (hes : ∀ e ∈ es, EntryOk s e)
    (hw : u.word = s.unit.word) (hsup : u.suppressed = s.unit.suppressed)
    (hr : u.raised = s.unit.raised)
    (heff : s.unit.effSM = false → u.effRB = s.unit.effRB ∧ u.effSM = s.unit.effSM) :
    ExecEffect s (s.withUnit u) :=
  .inr (.inl (.of_unit (.refl s) u es hq hes hw hsup hr heff))

/-! ### Loads and stores -/

theorem ExecEffect.loadInto (s : State) (n : Nat) (ext : Nat → Word) (ra : RegNum) (ea : Word) :
    ExecEffect s (s.loadInto n ext ra ea) := by
  simp only [State.loadInto]
  split
  · exact .inl ⟨_, _, _, rfl⟩
  · refine .of_unit s { s.countAccess.unit with queue := s.unit.queue ++ [_] } _ rfl ?_ rfl rfl rfl
      (fun _ => ⟨rfl, rfl⟩)
    intro e he
    rw [List.mem_singleton] at he
    subst he
    exact .gpr ra _

theorem ExecEffect.loadPair (s : State) (ra : RegNum) (ea : Word) :
    ExecEffect s (s.loadPair ra ea) := by
  simp only [State.loadPair]
  split
  · exact .inl ⟨_, _, _, rfl⟩
  · next v _ =>
    have : (s.countAccess.pushReg ra (upperWord v)).pushReg (ra + 1#4) (lowerWord v) =
        s.withUnit { s.countAccess.unit with queue := s.unit.queue ++
          [.reg (.gpr (s.physReg ra)) (upperWord v) 0xFFFFFFFF#32,
           .reg (.gpr (s.physReg (ra + 1#4))) (lowerWord v) 0xFFFFFFFF#32] } := by
      simp [State.pushReg_eq, State.pushAll_unit_eq, State.countAccess_eq,
        State.physReg]
    rw [this]
    refine .of_unit s _ _ rfl ?_ rfl rfl rfl (fun _ => ⟨rfl, rfl⟩)
    intro e he
    simp only [List.mem_cons, List.not_mem_nil, or_false] at he
    rcases he with rfl | rfl
    · exact .gpr ra _
    · exact .gpr (ra + 1#4) _

theorem ExecEffect.storeFrom (s : State) (n v : Nat) (ea : Word) :
    ExecEffect s (s.storeFrom n v ea) := by
  simp only [State.storeFrom]
  split
  · exact .inl ⟨_, _, _, rfl⟩
  · next es hes =>
    exact .of_unit s { s.countAccess.unit with queue := s.unit.queue ++ es } es rfl
      (State.memWrite_ok hes) rfl rfl rfl (fun _ => ⟨rfl, rfl⟩)

/-! ### Transfers -/

theorem ExecEffect.setNpc (s : State) (a : Word) : ExecEffect s (s.setNpc a) :=
  .of_unit s { s.unit with npc := some a } [] (by simp) (by simp) rfl rfl rfl (fun _ => ⟨rfl, rfl⟩)

theorem ExecEffect.branchIf (s : State) (c : Bool) (d : Word) : ExecEffect s (s.branchIf c d) := by
  simp only [State.branchIf]
  split
  · exact .setNpc s _
  · exact .same s

theorem ExecEffect.linkTo (s : State) (a : Word) : ExecEffect s (s.link.setNpc a) := by
  refine .of_unit s { s.link.unit with npc := some a } [_] rfl ?_ rfl rfl rfl (fun _ => ⟨rfl, rfl⟩)
  intro e he
  rw [List.mem_singleton] at he
  subst he
  exact .gpr 14#4 _

/-! ### System -/

theorem ExecEffect.privileged (s : State) (f : State → State)
    (h : s.unit.effSM = true → ExecEffect s (f s)) : ExecEffect s (s.privileged f) := by
  simp only [State.privileged]
  split
  · next hsm => exact h hsm
  · exact .inl ⟨_, _, _, rfl⟩

theorem ExecEffect.pushCr (s : State) (n : CReg) (v : Word) (h : s.unit.effSM = true) :
    ExecEffect s (s.pushCr n v) :=
  .of_push s _ fun e he => by
    rw [List.mem_singleton] at he; subst he; exact .cr n v h

theorem ExecEffect.moveToCr (s : State) (n : CReg) (v : Word) (h : s.unit.effSM = true) :
    ExecEffect s (s.moveToCr n v) := by
  cases n with
  | psw =>
    refine .of_unit s { s.unit with
      queue := s.unit.queue ++ [.reg (.cr .psw) v (crMask .psw)]
      effRB := pswRB v
      effSM := pswSM v } [_] rfl ?_ rfl rfl rfl (fun hf => absurd h (by simp [hf]))
    intro e he
    rw [List.mem_singleton] at he
    subst he
    exact .cr .psw v h
  | bpsw => exact .pushCr s .bpsw v h
  | bpc => exact .pushCr s .bpc v h
  | evb => exact .pushCr s .evb v h
  | cause => exact .pushCr s .cause v h
  | badaddr => exact .pushCr s .badaddr v h
  | supp => exact .pushCr s .supp v h

theorem ExecEffect.returnFromTrap (s : State) (h : s.unit.effSM = true) :
    ExecEffect s s.returnFromTrap := by
  refine .of_unit s { s.unit with
    queue := s.unit.queue ++ [.reg (.cr .psw) s.cr.bpsw (crMask .psw)]
    npc := some s.cr.bpc } [_] rfl ?_ rfl rfl rfl (fun _ => ⟨rfl, rfl⟩)
  intro e he
  rw [List.mem_singleton] at he
  subst he
  exact .cr .psw _ h

theorem execTrap_effect {n : BitVec 4} {s t : State} (h : execTrap n s = .next t) :
    ExecEffect s t := by
  simp only [execTrap] at h
  split at h
  · exact .inr (.inl (bridge_effect h))
  · split at h
    · cases h; exact .inl ⟨_, _, _, rfl⟩
    · cases h; exact .inr (.inl (.setReq s _))

/-! ### All instructions -/

/-- The inversion of `exec`: what an instruction that answers a next state has done. -/
theorem exec_effect {i : Instr} {s t : State} (h : exec i s = .next t) : ExecEffect s t := by
  cases i with
  | nop => cases h; exact .same s
  | hint ra rb => cases h; exact .same s
  | mv ra rb => cases h; exact .pushReg s _ _
  | not ra rb => cases h; exact .pushResult s _ _ _
  | neg ra rb => cases h; exact .pushResult s _ _ _
  | add ra rb => cases h; exact .pushResult s _ _ _
  | addc ra rb => cases h; exact .pushResult s _ _ _
  | sub ra rb => cases h; exact .pushResult s _ _ _
  | subb ra rb => cases h; exact .pushResult s _ _ _
  | and ra rb => cases h; exact .pushResult s _ _ _
  | or ra rb => cases h; exact .pushResult s _ _ _
  | xor ra rb => cases h; exact .pushResult s _ _ _
  | mul ra rb => cases h; exact .pushResult s _ _ _
  | sll ra rb => cases h; exact .pushResult s _ _ _
  | srl ra rb => cases h; exact .pushResult s _ _ _
  | sra ra rb => cases h; exact .pushResult s _ _ _
  | cmpeq ra rb => cases h; exact .pushFlags s _
  | cmplt ra rb => cases h; exact .pushFlags s _
  | cmpltu ra rb => cases h; exact .pushFlags s _
  | addi ra imm => cases h; exact .pushResult s _ _ _
  | ldi ra imm => cases h; exact .pushReg s _ _
  | slli ra sh => cases h; exact .pushResult s _ _ _
  | srli ra sh => cases h; exact .pushResult s _ _ _
  | srai ra sh => cases h; exact .pushResult s _ _ _
  | cmpeqi ra imm => cases h; exact .pushFlags s _
  | cmplti ra imm => cases h; exact .pushFlags s _
  | ldb ra rb => cases h; exact .loadInto s _ _ _ _
  | ldbu ra rb => cases h; exact .loadInto s _ _ _ _
  | ldh ra rb => cases h; exact .loadInto s _ _ _ _
  | ldhu ra rb => cases h; exact .loadInto s _ _ _ _
  | ldw ra rb => cases h; exact .loadInto s _ _ _ _
  | ld2w ra rb => cases h; exact .loadPair s _ _
  | stb ra rb => cases h; exact .storeFrom s _ _ _
  | sth ra rb => cases h; exact .storeFrom s _ _ _
  | stw ra rb => cases h; exact .storeFrom s _ _ _
  | st2w ra rb => cases h; exact .storeFrom s _ _ _
  | bra disp => cases h; exact .setNpc s _
  | brt disp => cases h; exact .branchIf s _ _
  | brf disp => cases h; exact .branchIf s _ _
  | bl disp => cases h; exact .linkTo s _
  | jmp rb => cases h; exact .setNpc s _
  | jl rb => cases h; exact .linkTo s _
  | exet => cases h; exact .same s
  | exef => cases h; exact .same s
  | exect => cases h; exact .same s
  | execf => cases h; exact .same s
  | mvfc ra cr => cases h; exact .pushReg s _ _
  | mvtc cr rb => cases h; exact .privileged s _ fun hsm => .moveToCr s _ _ hsm
  | ldil ra imm => cases h; exact .pushReg s _ _
  | ldih ra imm => cases h; exact .pushReg s _ _
  | addil ra rb imm => cases h; exact .pushResult s _ _ _
  | andil ra rb imm => cases h; exact .pushResult s _ _ _
  | oril ra rb imm => cases h; exact .pushResult s _ _ _
  | xoril ra rb imm => cases h; exact .pushResult s _ _ _
  | ldbD ra rb imm => cases h; exact .loadInto s _ _ _ _
  | ldbuD ra rb imm => cases h; exact .loadInto s _ _ _ _
  | ldhD ra rb imm => cases h; exact .loadInto s _ _ _ _
  | ldhuD ra rb imm => cases h; exact .loadInto s _ _ _ _
  | ldwD ra rb imm => cases h; exact .loadInto s _ _ _ _
  | ld2wD ra rb imm => cases h; exact .loadPair s _ _
  | stbD ra rb imm => cases h; exact .storeFrom s _ _ _
  | sthD ra rb imm => cases h; exact .storeFrom s _ _ _
  | stwD ra rb imm => cases h; exact .storeFrom s _ _ _
  | st2wD ra rb imm => cases h; exact .storeFrom s _ _ _
  | braL disp => cases h; exact .setNpc s _
  | brtL disp => cases h; exact .branchIf s _ _
  | brfL disp => cases h; exact .branchIf s _ _
  | blL disp => cases h; exact .linkTo s _
  | trap n => exact execTrap_effect h
  | rti => cases h; exact .privileged s _ fun hsm => .returnFromTrap s hsm
  | wait => cases h; exact .privileged s _ fun hsm => .inr (.inr ⟨hsm, rfl⟩)
  | stop => cases h; exact .privileged s _ fun _ => .inr (.inl (.setReq s _))
  | brk => cases h; exact .inr (.inl (.setReq s _))

/-- How an instruction that answers no next state ends: stuck in a host call that never answers (R464). No instruction
refuses. -/
theorem exec_ends (i : Instr) (s : State) : StuckInHost s (exec i s) := by
  cases i with
  | trap n =>
    change StuckInHost s (execTrap n s)
    simp only [execTrap]
    split
    · exact bridge_ends s
    · split
      · exact .inl ⟨_, rfl⟩
      · exact .inl ⟨_, rfl⟩
  | nop => exact .inl ⟨_, rfl⟩
  | hint => exact .inl ⟨_, rfl⟩
  | mv => exact .inl ⟨_, rfl⟩
  | not => exact .inl ⟨_, rfl⟩
  | neg => exact .inl ⟨_, rfl⟩
  | add => exact .inl ⟨_, rfl⟩
  | addc => exact .inl ⟨_, rfl⟩
  | sub => exact .inl ⟨_, rfl⟩
  | subb => exact .inl ⟨_, rfl⟩
  | and => exact .inl ⟨_, rfl⟩
  | or => exact .inl ⟨_, rfl⟩
  | xor => exact .inl ⟨_, rfl⟩
  | mul => exact .inl ⟨_, rfl⟩
  | sll => exact .inl ⟨_, rfl⟩
  | srl => exact .inl ⟨_, rfl⟩
  | sra => exact .inl ⟨_, rfl⟩
  | cmpeq => exact .inl ⟨_, rfl⟩
  | cmplt => exact .inl ⟨_, rfl⟩
  | cmpltu => exact .inl ⟨_, rfl⟩
  | addi => exact .inl ⟨_, rfl⟩
  | ldi => exact .inl ⟨_, rfl⟩
  | slli => exact .inl ⟨_, rfl⟩
  | srli => exact .inl ⟨_, rfl⟩
  | srai => exact .inl ⟨_, rfl⟩
  | cmpeqi => exact .inl ⟨_, rfl⟩
  | cmplti => exact .inl ⟨_, rfl⟩
  | ldb => exact .inl ⟨_, rfl⟩
  | ldbu => exact .inl ⟨_, rfl⟩
  | ldh => exact .inl ⟨_, rfl⟩
  | ldhu => exact .inl ⟨_, rfl⟩
  | ldw => exact .inl ⟨_, rfl⟩
  | ld2w => exact .inl ⟨_, rfl⟩
  | stb => exact .inl ⟨_, rfl⟩
  | sth => exact .inl ⟨_, rfl⟩
  | stw => exact .inl ⟨_, rfl⟩
  | st2w => exact .inl ⟨_, rfl⟩
  | bra => exact .inl ⟨_, rfl⟩
  | brt => exact .inl ⟨_, rfl⟩
  | brf => exact .inl ⟨_, rfl⟩
  | bl => exact .inl ⟨_, rfl⟩
  | jmp => exact .inl ⟨_, rfl⟩
  | jl => exact .inl ⟨_, rfl⟩
  | exet => exact .inl ⟨_, rfl⟩
  | exef => exact .inl ⟨_, rfl⟩
  | exect => exact .inl ⟨_, rfl⟩
  | execf => exact .inl ⟨_, rfl⟩
  | mvfc => exact .inl ⟨_, rfl⟩
  | mvtc => exact .inl ⟨_, rfl⟩
  | ldil => exact .inl ⟨_, rfl⟩
  | ldih => exact .inl ⟨_, rfl⟩
  | addil => exact .inl ⟨_, rfl⟩
  | andil => exact .inl ⟨_, rfl⟩
  | oril => exact .inl ⟨_, rfl⟩
  | xoril => exact .inl ⟨_, rfl⟩
  | ldbD => exact .inl ⟨_, rfl⟩
  | ldbuD => exact .inl ⟨_, rfl⟩
  | ldhD => exact .inl ⟨_, rfl⟩
  | ldhuD => exact .inl ⟨_, rfl⟩
  | ldwD => exact .inl ⟨_, rfl⟩
  | ld2wD => exact .inl ⟨_, rfl⟩
  | stbD => exact .inl ⟨_, rfl⟩
  | sthD => exact .inl ⟨_, rfl⟩
  | stwD => exact .inl ⟨_, rfl⟩
  | st2wD => exact .inl ⟨_, rfl⟩
  | braL => exact .inl ⟨_, rfl⟩
  | brtL => exact .inl ⟨_, rfl⟩
  | brfL => exact .inl ⟨_, rfl⟩
  | blL => exact .inl ⟨_, rfl⟩
  | rti => exact .inl ⟨_, rfl⟩
  | wait => exact .inl ⟨_, rfl⟩
  | stop => exact .inl ⟨_, rfl⟩
  | brk => exact .inl ⟨_, rfl⟩

end Sys2Proof.Machine
end

