-- ==== Sys2Proof/Laws/PerInstr.lean ====
section
/-! SUPPORT. Statements made once per instruction: the encoding of each well-formed instruction decodes to it (R208, R209,
R220). -/

namespace Sys2Proof.Laws.EncodeRoundTrip

/-- A well-formed instruction's own bits decode to it: the word of a long one, the 15 bits of a short one. -/
def Statement (i : Instr) : Prop :=
  i.wf = true →
    if i.isLong then decodeLong (encodeInstr i) = .ok i else decodeShort (encodeShort i) = .ok i

theorem nop : Statement .nop := by
  intro _
  change decodeShort (mkShort _ _ _ _) = _
  rw [decodeShort_mkShort]
  rfl

theorem hint (ra : RegNum) (rb : RegNum) : Statement (.hint ra rb) := by
  intro h
  change decodeShort (mkShort 0x00 ra rb 0) = _
  rw [decodeShort_mkShort]
  simp only [Instr.wf] at h
  simp [shortOf, h]

theorem mv (ra : RegNum) (rb : RegNum) : Statement (.mv ra rb) := by
  intro _
  change decodeShort (mkShort _ _ _ _) = _
  rw [decodeShort_mkShort]
  rfl

theorem not (ra : RegNum) (rb : RegNum) : Statement (.not ra rb) := by
  intro _
  change decodeShort (mkShort _ _ _ _) = _
  rw [decodeShort_mkShort]
  rfl

theorem neg (ra : RegNum) (rb : RegNum) : Statement (.neg ra rb) := by
  intro _
  change decodeShort (mkShort _ _ _ _) = _
  rw [decodeShort_mkShort]
  rfl

theorem add (ra : RegNum) (rb : RegNum) : Statement (.add ra rb) := by
  intro _
  change decodeShort (mkShort _ _ _ _) = _
  rw [decodeShort_mkShort]
  rfl

theorem addc (ra : RegNum) (rb : RegNum) : Statement (.addc ra rb) := by
  intro _
  change decodeShort (mkShort _ _ _ _) = _
  rw [decodeShort_mkShort]
  rfl

theorem sub (ra : RegNum) (rb : RegNum) : Statement (.sub ra rb) := by
  intro _
  change decodeShort (mkShort _ _ _ _) = _
  rw [decodeShort_mkShort]
  rfl

theorem subb (ra : RegNum) (rb : RegNum) : Statement (.subb ra rb) := by
  intro _
  change decodeShort (mkShort _ _ _ _) = _
  rw [decodeShort_mkShort]
  rfl

theorem and (ra : RegNum) (rb : RegNum) : Statement (.and ra rb) := by
  intro _
  change decodeShort (mkShort _ _ _ _) = _
  rw [decodeShort_mkShort]
  rfl

theorem or (ra : RegNum) (rb : RegNum) : Statement (.or ra rb) := by
  intro _
  change decodeShort (mkShort _ _ _ _) = _
  rw [decodeShort_mkShort]
  rfl

theorem xor (ra : RegNum) (rb : RegNum) : Statement (.xor ra rb) := by
  intro _
  change decodeShort (mkShort _ _ _ _) = _
  rw [decodeShort_mkShort]
  rfl

theorem mul (ra : RegNum) (rb : RegNum) : Statement (.mul ra rb) := by
  intro _
  change decodeShort (mkShort _ _ _ _) = _
  rw [decodeShort_mkShort]
  rfl

theorem sll (ra : RegNum) (rb : RegNum) : Statement (.sll ra rb) := by
  intro _
  change decodeShort (mkShort _ _ _ _) = _
  rw [decodeShort_mkShort]
  rfl

theorem srl (ra : RegNum) (rb : RegNum) : Statement (.srl ra rb) := by
  intro _
  change decodeShort (mkShort _ _ _ _) = _
  rw [decodeShort_mkShort]
  rfl

theorem sra (ra : RegNum) (rb : RegNum) : Statement (.sra ra rb) := by
  intro _
  change decodeShort (mkShort _ _ _ _) = _
  rw [decodeShort_mkShort]
  rfl

theorem cmpeq (ra : RegNum) (rb : RegNum) : Statement (.cmpeq ra rb) := by
  intro _
  change decodeShort (mkShort _ _ _ _) = _
  rw [decodeShort_mkShort]
  rfl

theorem cmplt (ra : RegNum) (rb : RegNum) : Statement (.cmplt ra rb) := by
  intro _
  change decodeShort (mkShort _ _ _ _) = _
  rw [decodeShort_mkShort]
  rfl

theorem cmpltu (ra : RegNum) (rb : RegNum) : Statement (.cmpltu ra rb) := by
  intro _
  change decodeShort (mkShort _ _ _ _) = _
  rw [decodeShort_mkShort]
  rfl

theorem addi (ra : RegNum) (imm : BitVec 6) : Statement (.addi ra imm) := by
  intro _
  change decodeShort (mkImm _ ra imm) = _
  rw [decodeShort_mkImm]
  simp [shortOf, imm6_join]

theorem ldi (ra : RegNum) (imm : BitVec 6) : Statement (.ldi ra imm) := by
  intro _
  change decodeShort (mkImm _ ra imm) = _
  rw [decodeShort_mkImm]
  simp [shortOf, imm6_join]

theorem slli (ra : RegNum) (sh : BitVec 5) : Statement (.slli ra sh) := by
  intro _
  change decodeShort (mkShift _ ra sh) = _
  rw [decodeShort_mkShift]
  simp only [shortOf, requireZero, shift_top, shift_join]
  rfl

theorem srli (ra : RegNum) (sh : BitVec 5) : Statement (.srli ra sh) := by
  intro _
  change decodeShort (mkShift _ ra sh) = _
  rw [decodeShort_mkShift]
  simp only [shortOf, requireZero, shift_top, shift_join]
  rfl

theorem srai (ra : RegNum) (sh : BitVec 5) : Statement (.srai ra sh) := by
  intro _
  change decodeShort (mkShift _ ra sh) = _
  rw [decodeShort_mkShift]
  simp only [shortOf, requireZero, shift_top, shift_join]
  rfl

theorem cmpeqi (ra : RegNum) (imm : BitVec 6) : Statement (.cmpeqi ra imm) := by
  intro _
  change decodeShort (mkImm _ ra imm) = _
  rw [decodeShort_mkImm]
  simp [shortOf, imm6_join]

theorem cmplti (ra : RegNum) (imm : BitVec 6) : Statement (.cmplti ra imm) := by
  intro _
  change decodeShort (mkImm _ ra imm) = _
  rw [decodeShort_mkImm]
  simp [shortOf, imm6_join]

theorem ldb (ra : RegNum) (rb : RegNum) : Statement (.ldb ra rb) := by
  intro _
  change decodeShort (mkShort _ _ _ _) = _
  rw [decodeShort_mkShort]
  rfl

theorem ldbu (ra : RegNum) (rb : RegNum) : Statement (.ldbu ra rb) := by
  intro _
  change decodeShort (mkShort _ _ _ _) = _
  rw [decodeShort_mkShort]
  rfl

theorem ldh (ra : RegNum) (rb : RegNum) : Statement (.ldh ra rb) := by
  intro _
  change decodeShort (mkShort _ _ _ _) = _
  rw [decodeShort_mkShort]
  rfl

theorem ldhu (ra : RegNum) (rb : RegNum) : Statement (.ldhu ra rb) := by
  intro _
  change decodeShort (mkShort _ _ _ _) = _
  rw [decodeShort_mkShort]
  rfl

theorem ldw (ra : RegNum) (rb : RegNum) : Statement (.ldw ra rb) := by
  intro _
  change decodeShort (mkShort _ _ _ _) = _
  rw [decodeShort_mkShort]
  rfl

theorem ld2w (ra : RegNum) (rb : RegNum) : Statement (.ld2w ra rb) := by
  intro h
  change decodeShort (mkShort _ ra rb _) = _
  rw [decodeShort_mkShort]
  simp only [Instr.wf] at h
  simp [shortOf, requireEven, h]

theorem stb (ra : RegNum) (rb : RegNum) : Statement (.stb ra rb) := by
  intro _
  change decodeShort (mkShort _ _ _ _) = _
  rw [decodeShort_mkShort]
  rfl

theorem sth (ra : RegNum) (rb : RegNum) : Statement (.sth ra rb) := by
  intro _
  change decodeShort (mkShort _ _ _ _) = _
  rw [decodeShort_mkShort]
  rfl

theorem stw (ra : RegNum) (rb : RegNum) : Statement (.stw ra rb) := by
  intro _
  change decodeShort (mkShort _ _ _ _) = _
  rw [decodeShort_mkShort]
  rfl

theorem st2w (ra : RegNum) (rb : RegNum) : Statement (.st2w ra rb) := by
  intro h
  change decodeShort (mkShort _ ra rb _) = _
  rw [decodeShort_mkShort]
  simp only [Instr.wf] at h
  simp [shortOf, requireEven, h]

theorem bra (disp : BitVec 10) : Statement (.bra disp) := by
  intro _
  change decodeShort (mkBranch _ disp) = _
  rw [decodeShort_mkBranch]
  exact congrArg (fun d => Except.ok (Instr.bra d)) (disp10_join disp)

theorem brt (disp : BitVec 10) : Statement (.brt disp) := by
  intro _
  change decodeShort (mkBranch _ disp) = _
  rw [decodeShort_mkBranch]
  exact congrArg (fun d => Except.ok (Instr.brt d)) (disp10_join disp)

theorem brf (disp : BitVec 10) : Statement (.brf disp) := by
  intro _
  change decodeShort (mkBranch _ disp) = _
  rw [decodeShort_mkBranch]
  exact congrArg (fun d => Except.ok (Instr.brf d)) (disp10_join disp)

theorem bl (disp : BitVec 10) : Statement (.bl disp) := by
  intro _
  change decodeShort (mkBranch _ disp) = _
  rw [decodeShort_mkBranch]
  exact congrArg (fun d => Except.ok (Instr.bl d)) (disp10_join disp)

theorem jmp (rb : RegNum) : Statement (.jmp rb) := by
  intro _
  change decodeShort (mkShort _ _ _ _) = _
  rw [decodeShort_mkShort]
  rfl

theorem jl (rb : RegNum) : Statement (.jl rb) := by
  intro _
  change decodeShort (mkShort _ _ _ _) = _
  rw [decodeShort_mkShort]
  rfl

theorem exet : Statement .exet := by
  intro _
  change decodeShort (mkShort _ _ _ _) = _
  rw [decodeShort_mkShort]
  rfl

theorem exef : Statement .exef := by
  intro _
  change decodeShort (mkShort _ _ _ _) = _
  rw [decodeShort_mkShort]
  rfl

theorem exect : Statement .exect := by
  intro _
  change decodeShort (mkShort _ _ _ _) = _
  rw [decodeShort_mkShort]
  rfl

theorem execf : Statement .execf := by
  intro _
  change decodeShort (mkShort _ _ _ _) = _
  rw [decodeShort_mkShort]
  rfl

theorem mvfc (ra : RegNum) (cr : CReg) : Statement (.mvfc ra cr) := by
  intro _
  change decodeShort (mkShort _ _ _ _) = _
  rw [decodeShort_mkShort]
  simp [shortOf, cregOf_number]

theorem mvtc (cr : CReg) (rb : RegNum) : Statement (.mvtc cr rb) := by
  intro _
  change decodeShort (mkShort _ _ _ _) = _
  rw [decodeShort_mkShort]
  simp [shortOf, cregOf_number]

theorem ldil (ra : RegNum) (imm : BitVec 16) : Statement (.ldil ra imm) := by
  intro _
  change decodeLong (mkLong _ _ _ _) = _
  rw [decodeLong_mkLong]
  rfl

theorem ldih (ra : RegNum) (imm : BitVec 16) : Statement (.ldih ra imm) := by
  intro _
  change decodeLong (mkLong _ _ _ _) = _
  rw [decodeLong_mkLong]
  rfl

theorem addil (ra : RegNum) (rb : RegNum) (imm : BitVec 16) : Statement (.addil ra rb imm) := by
  intro _
  change decodeLong (mkLong _ _ _ _) = _
  rw [decodeLong_mkLong]
  rfl

theorem andil (ra : RegNum) (rb : RegNum) (imm : BitVec 16) : Statement (.andil ra rb imm) := by
  intro _
  change decodeLong (mkLong _ _ _ _) = _
  rw [decodeLong_mkLong]
  rfl

theorem oril (ra : RegNum) (rb : RegNum) (imm : BitVec 16) : Statement (.oril ra rb imm) := by
  intro _
  change decodeLong (mkLong _ _ _ _) = _
  rw [decodeLong_mkLong]
  rfl

theorem xoril (ra : RegNum) (rb : RegNum) (imm : BitVec 16) : Statement (.xoril ra rb imm) := by
  intro _
  change decodeLong (mkLong _ _ _ _) = _
  rw [decodeLong_mkLong]
  rfl

theorem ldbD (ra : RegNum) (rb : RegNum) (imm : BitVec 16) : Statement (.ldbD ra rb imm) := by
  intro _
  change decodeLong (mkLong _ _ _ _) = _
  rw [decodeLong_mkLong]
  rfl

theorem ldbuD (ra : RegNum) (rb : RegNum) (imm : BitVec 16) : Statement (.ldbuD ra rb imm) := by
  intro _
  change decodeLong (mkLong _ _ _ _) = _
  rw [decodeLong_mkLong]
  rfl

theorem ldhD (ra : RegNum) (rb : RegNum) (imm : BitVec 16) : Statement (.ldhD ra rb imm) := by
  intro _
  change decodeLong (mkLong _ _ _ _) = _
  rw [decodeLong_mkLong]
  rfl

theorem ldhuD (ra : RegNum) (rb : RegNum) (imm : BitVec 16) : Statement (.ldhuD ra rb imm) := by
  intro _
  change decodeLong (mkLong _ _ _ _) = _
  rw [decodeLong_mkLong]
  rfl

theorem ldwD (ra : RegNum) (rb : RegNum) (imm : BitVec 16) : Statement (.ldwD ra rb imm) := by
  intro _
  change decodeLong (mkLong _ _ _ _) = _
  rw [decodeLong_mkLong]
  rfl

theorem ld2wD (ra : RegNum) (rb : RegNum) (imm : BitVec 16) : Statement (.ld2wD ra rb imm) := by
  intro h
  change decodeLong (mkLong _ ra rb imm) = _
  rw [decodeLong_mkLong]
  simp only [Instr.wf] at h
  simp [longOf, requireEven, h]

theorem stbD (ra : RegNum) (rb : RegNum) (imm : BitVec 16) : Statement (.stbD ra rb imm) := by
  intro _
  change decodeLong (mkLong _ _ _ _) = _
  rw [decodeLong_mkLong]
  rfl

theorem sthD (ra : RegNum) (rb : RegNum) (imm : BitVec 16) : Statement (.sthD ra rb imm) := by
  intro _
  change decodeLong (mkLong _ _ _ _) = _
  rw [decodeLong_mkLong]
  rfl

theorem stwD (ra : RegNum) (rb : RegNum) (imm : BitVec 16) : Statement (.stwD ra rb imm) := by
  intro _
  change decodeLong (mkLong _ _ _ _) = _
  rw [decodeLong_mkLong]
  rfl

theorem st2wD (ra : RegNum) (rb : RegNum) (imm : BitVec 16) : Statement (.st2wD ra rb imm) := by
  intro h
  change decodeLong (mkLong _ ra rb imm) = _
  rw [decodeLong_mkLong]
  simp only [Instr.wf] at h
  simp [longOf, requireEven, h]

theorem braL (disp : BitVec 16) : Statement (.braL disp) := by
  intro _
  change decodeLong (mkLong _ _ _ _) = _
  rw [decodeLong_mkLong]
  rfl

theorem brtL (disp : BitVec 16) : Statement (.brtL disp) := by
  intro _
  change decodeLong (mkLong _ _ _ _) = _
  rw [decodeLong_mkLong]
  rfl

theorem brfL (disp : BitVec 16) : Statement (.brfL disp) := by
  intro _
  change decodeLong (mkLong _ _ _ _) = _
  rw [decodeLong_mkLong]
  rfl

theorem blL (disp : BitVec 16) : Statement (.blL disp) := by
  intro _
  change decodeLong (mkLong _ _ _ _) = _
  rw [decodeLong_mkLong]
  rfl

theorem trap (n : BitVec 4) : Statement (.trap n) := by
  intro _
  change decodeLong (mkLong 0x30 0 0 (0#12 ++ n)) = _
  rw [decodeLong_mkLong]
  simp only [longOf, requireZero, (trap_join n).1, (trap_join n).2]
  rfl

theorem rti : Statement .rti := by
  intro _
  change decodeLong (mkLong _ _ _ _) = _
  rw [decodeLong_mkLong]
  rfl

theorem wait : Statement .wait := by
  intro _
  change decodeLong (mkLong _ _ _ _) = _
  rw [decodeLong_mkLong]
  rfl

theorem stop : Statement .stop := by
  intro _
  change decodeLong (mkLong _ _ _ _) = _
  rw [decodeLong_mkLong]
  rfl

theorem brk : Statement .brk := by
  intro _
  change decodeLong (mkLong _ _ _ _) = _
  rw [decodeLong_mkLong]
  rfl

end Sys2Proof.Laws.EncodeRoundTrip
end

