-- ==== Sys2Proof/Tests/Slice0.lean ====
section
/-! SUPPORT. Tests: the ill-formed terms WellFormed refuses, every constructor's word as the spec's examples and formulas write it, one
step of each instruction with the values the spec's examples state, and for every statement with hypotheses a state
and operands that meet them. -/

namespace Sys2Proof.Tests.Slice0

open Sys2Proof Sys2Proof.Machine

/-! ### Small states -/

/-- State.reset with some physical registers set. -/
def regs (l : List (Nat × Word)) : State :=
  { State.reset with regs := l.foldl (fun r e => r.setIfInBounds e.1 e.2) State.reset.regs }

/-- The state after one step of the unit `w` at the PC, and the state itself where the step does not end in one. -/
def run1 (w : Word) (s : State) : State :=
  match step (s.withFetchWord 32 w.toNat) with
  | .next t => t
  | .fault _ => s
  | .refused _ => s

/-- The general register a field names under bank 0. -/
def x (s : State) (i : Nat) : Word := s.regs.getD (if i < 8 then i else 8 + i) 0

/-- The outcome is a next state. -/
def isNext (o : Result) : Bool :=
  match o with
  | .next _ => true
  | .fault _ => false
  | .refused _ => false

theorem exists_of_isNext {o : Result} (h : isNext o = true) : ∃ t, o = .next t := by
  cases o with
  | next t => exact ⟨t, rfl⟩
  | fault f => cases h
  | refused r => cases h

/-- The fault an outcome is, if it is one. -/
def faultOf (o : Result) : Option Fault :=
  match o with
  | .next _ => none
  | .fault f => some f
  | .refused _ => none

theorem eq_of_faultOf {o : Result} {f : Fault} (h : faultOf o = some f) : o = .fault f := by
  cases o with
  | next t => cases h
  | fault g => cases h; rfl
  | refused r => cases h

/-! ### WellFormed refuses what has no encoding of its own -/

theorem test_hint_without_field_refused : (Instr.hint 0#4 0#4).wf = false := by decide
theorem test_ld2w_odd_refused : (Instr.ld2w 1#4 2#4).wf = false := by decide
theorem test_st2w_odd_refused : (Instr.st2w 15#4 2#4).wf = false := by decide
theorem test_ld2wD_odd_refused : (Instr.ld2wD 3#4 2#4 8#16).wf = false := by decide
theorem test_st2wD_odd_refused : (Instr.st2wD 7#4 2#4 8#16).wf = false := by decide
theorem test_long_in_pair_refused : (FetchUnit.pair .leftFirst .rti .nop).wf = false := by decide
theorem test_long_in_right_half_refused : (FetchUnit.pair .rightFirst .nop .brk).wf = false := by decide
theorem test_short_as_long_refused : (FetchUnit.long .nop).wf = false := by decide
theorem test_ill_formed_half_refused : (FetchUnit.pair .leftFirst (.ld2w 1#4 2#4) .nop).wf = false := by decide

/-! ### Decoding: the words of the examples in 41_alu.md to 44_system.md -/

theorem test_decode_moves :
    decodeUnit 0x00248000#32 = .ok (.pair .leftFirst (.mv 1#4 2#4) .nop) ∧
    decodeUnit 0x00250000#32 = .ok (.pair .leftFirst (.not 1#4 2#4) .nop) ∧
    decodeUnit 0x00258000#32 = .ok (.pair .leftFirst (.neg 1#4 2#4) .nop) := by decide

theorem test_decode_arithmetic :
    decodeUnit 0x02240000#32 = .ok (.pair .leftFirst (.add 1#4 2#4) .nop) ∧
    decodeUnit 0x02248000#32 = .ok (.pair .leftFirst (.addc 1#4 2#4) .nop) ∧
    decodeUnit 0x02250000#32 = .ok (.pair .leftFirst (.sub 1#4 2#4) .nop) ∧
    decodeUnit 0x02258000#32 = .ok (.pair .leftFirst (.subb 1#4 2#4) .nop) ∧
    decodeUnit 0x04240000#32 = .ok (.pair .leftFirst (.and 1#4 2#4) .nop) ∧
    decodeUnit 0x04248000#32 = .ok (.pair .leftFirst (.or 1#4 2#4) .nop) ∧
    decodeUnit 0x04250000#32 = .ok (.pair .leftFirst (.xor 1#4 2#4) .nop) ∧
    decodeUnit 0x04258000#32 = .ok (.pair .leftFirst (.mul 1#4 2#4) .nop) := by decide

theorem test_decode_shifts_and_compares :
    decodeUnit 0x06240000#32 = .ok (.pair .leftFirst (.sll 1#4 2#4) .nop) ∧
    decodeUnit 0x06248000#32 = .ok (.pair .leftFirst (.srl 1#4 2#4) .nop) ∧
    decodeUnit 0x06250000#32 = .ok (.pair .leftFirst (.sra 1#4 2#4) .nop) ∧
    decodeUnit 0x08240000#32 = .ok (.pair .leftFirst (.cmpeq 1#4 2#4) .nop) ∧
    decodeUnit 0x08248000#32 = .ok (.pair .leftFirst (.cmplt 1#4 2#4) .nop) ∧
    decodeUnit 0x08250000#32 = .ok (.pair .leftFirst (.cmpltu 1#4 2#4) .nop) := by decide

theorem test_decode_short_immediates :
    decodeUnit 0x0A3F8000#32 = .ok (.pair .leftFirst (.addi 1#4 63#6) .nop) ∧
    decodeUnit 0x0C300000#32 = .ok (.pair .leftFirst (.ldi 1#4 32#6) .nop) ∧
    decodeUnit 0x0E220000#32 = .ok (.pair .leftFirst (.slli 1#4 4#5) .nop) ∧
    decodeUnit 0x10220000#32 = .ok (.pair .leftFirst (.srli 1#4 4#5) .nop) ∧
    decodeUnit 0x12220000#32 = .ok (.pair .leftFirst (.srai 1#4 4#5) .nop) ∧
    decodeUnit 0x14228000#32 = .ok (.pair .leftFirst (.cmpeqi 1#4 5#6) .nop) ∧
    decodeUnit 0x163F8000#32 = .ok (.pair .leftFirst (.cmplti 1#4 63#6) .nop) := by decide

theorem test_decode_short_loads_and_stores :
    decodeUnit 0x18240000#32 = .ok (.pair .leftFirst (.ldb 1#4 2#4) .nop) ∧
    decodeUnit 0x18248000#32 = .ok (.pair .leftFirst (.ldbu 1#4 2#4) .nop) ∧
    decodeUnit 0x18250000#32 = .ok (.pair .leftFirst (.ldh 1#4 2#4) .nop) ∧
    decodeUnit 0x18258000#32 = .ok (.pair .leftFirst (.ldhu 1#4 2#4) .nop) ∧
    decodeUnit 0x1A240000#32 = .ok (.pair .leftFirst (.ldw 1#4 2#4) .nop) ∧
    decodeUnit 0x1A468000#32 = .ok (.pair .leftFirst (.ld2w 2#4 3#4) .nop) ∧
    decodeUnit 0x1C240000#32 = .ok (.pair .leftFirst (.stb 1#4 2#4) .nop) ∧
    decodeUnit 0x1C248000#32 = .ok (.pair .leftFirst (.sth 1#4 2#4) .nop) ∧
    decodeUnit 0x1C250000#32 = .ok (.pair .leftFirst (.stw 1#4 2#4) .nop) ∧
    decodeUnit 0x1C478000#32 = .ok (.pair .leftFirst (.st2w 2#4 3#4) .nop) := by decide

theorem test_decode_short_control :
    decodeUnit 0x20010000#32 = .ok (.pair .leftFirst (.bra 2#10) .nop) ∧
    decodeUnit 0x23FF8000#32 = .ok (.pair .leftFirst (.brt 1023#10) .nop) ∧
    decodeUnit 0x24008000#32 = .ok (.pair .leftFirst (.brf 1#10) .nop) ∧
    decodeUnit 0x26020000#32 = .ok (.pair .leftFirst (.bl 4#10) .nop) ∧
    decodeUnit 0x28040000#32 = .ok (.pair .leftFirst (.jmp 2#4) .nop) ∧
    decodeUnit 0x28068000#32 = .ok (.pair .leftFirst (.jl 3#4) .nop) ∧
    decodeUnit 0x2A000000#32 = .ok (.pair .leftFirst .exet .nop) ∧
    decodeUnit 0x2A008000#32 = .ok (.pair .leftFirst .exef .nop) ∧
    decodeUnit 0x2A010000#32 = .ok (.pair .leftFirst .exect .nop) ∧
    decodeUnit 0x2A018000#32 = .ok (.pair .leftFirst .execf .nop) := by decide

theorem test_decode_nops_and_control_registers :
    decodeUnit 0x00000000#32 = .ok (.pair .leftFirst .nop .nop) ∧
    decodeUnit 0x00200000#32 = .ok (.pair .leftFirst (.hint 1#4 0#4) .nop) ∧
    decodeUnit 0x00020000#32 = .ok (.pair .leftFirst (.hint 0#4 1#4) .nop) ∧
    decodeUnit 0x2C200000#32 = .ok (.pair .leftFirst (.mvfc 1#4 .psw) .nop) ∧
    decodeUnit 0x2C2C0000#32 = .ok (.pair .leftFirst (.mvfc 1#4 .supp) .nop) ∧
    decodeUnit 0x2C048000#32 = .ok (.pair .leftFirst (.mvtc .psw 2#4) .nop) ∧
    decodeUnit 0x2C648000#32 = .ok (.pair .leftFirst (.mvtc .evb 2#4) .nop) := by decide

theorem test_decode_long_immediates :
    decodeUnit 0x8110FFFE#32 = .ok (.long (.ldil 1#4 0xFFFE#16)) ∧
    decodeUnit 0x82101234#32 = .ok (.long (.ldih 1#4 0x1234#16)) ∧
    decodeUnit 0x83127FFF#32 = .ok (.long (.addil 1#4 2#4 0x7FFF#16)) ∧
    decodeUnit 0x8412FF00#32 = .ok (.long (.andil 1#4 2#4 0xFF00#16)) ∧
    decodeUnit 0x851200FF#32 = .ok (.long (.oril 1#4 2#4 0x00FF#16)) ∧
    decodeUnit 0x8612FFFF#32 = .ok (.long (.xoril 1#4 2#4 0xFFFF#16)) := by decide

theorem test_decode_long_loads_and_stores :
    decodeUnit 0x88120004#32 = .ok (.long (.ldbD 1#4 2#4 4#16)) ∧
    decodeUnit 0x89120004#32 = .ok (.long (.ldbuD 1#4 2#4 4#16)) ∧
    decodeUnit 0x8A120004#32 = .ok (.long (.ldhD 1#4 2#4 4#16)) ∧
    decodeUnit 0x8B120004#32 = .ok (.long (.ldhuD 1#4 2#4 4#16)) ∧
    decodeUnit 0x8C120004#32 = .ok (.long (.ldwD 1#4 2#4 4#16)) ∧
    decodeUnit 0x8D23FFF8#32 = .ok (.long (.ld2wD 2#4 3#4 0xFFF8#16)) ∧
    decodeUnit 0x90120004#32 = .ok (.long (.stbD 1#4 2#4 4#16)) ∧
    decodeUnit 0x91120004#32 = .ok (.long (.sthD 1#4 2#4 4#16)) ∧
    decodeUnit 0x92120004#32 = .ok (.long (.stwD 1#4 2#4 4#16)) ∧
    decodeUnit 0x9323FFF8#32 = .ok (.long (.st2wD 2#4 3#4 0xFFF8#16)) := by decide

theorem test_decode_long_branches_and_system :
    decodeUnit 0x98000100#32 = .ok (.long (.braL 0x0100#16)) ∧
    decodeUnit 0x9900FFFE#32 = .ok (.long (.brtL 0xFFFE#16)) ∧
    decodeUnit 0x9A000003#32 = .ok (.long (.brfL 3#16)) ∧
    decodeUnit 0x9B000040#32 = .ok (.long (.blL 0x0040#16)) ∧
    decodeUnit 0xB0000003#32 = .ok (.long (.trap 3#4)) ∧
    decodeUnit 0xB1000000#32 = .ok (.long .rti) ∧
    decodeUnit 0xB2000000#32 = .ok (.long .wait) ∧
    decodeUnit 0xB3000000#32 = .ok (.long .stop) ∧
    decodeUnit 0xB4000000#32 = .ok (.long .brk) := by decide

/-- The order bit: R218's `A <- B` has `FM = 01` and keeps `A` in the left slot. -/
theorem test_decode_right_first :
    decodeUnit 0x4C209842#32 = .ok (.pair .rightFirst (.ldi 1#4 1#6) (.ldi 1#4 2#6)) := by decide

/-- Illegal words of R211 to R213, R216: a short reserved opcode, a shift amount with bit 5, `jmp` with `ra`, a control register 7, an odd
pair, `ldil` with `rb`, `trap` with `l[15:4]`, `op6 = 0`, and `FM = 11`. -/
theorem test_illegal_words :
    decodeUnit 0x1E000000#32 = .error (.reservedShort 0x0F#5 0#2) ∧ decodeUnit 0x0E320000#32 = .error .nonZeroField ∧
    decodeUnit 0x28240000#32 = .error .nonZeroField ∧ decodeUnit 0x2C0E0000#32 = .error (.noControlRegister 7#4) ∧
    decodeUnit 0x1A248000#32 = .error .oddPair ∧ decodeUnit 0x8111FFFE#32 = .error .nonZeroField ∧
    decodeUnit 0xB0000010#32 = .error .nonZeroField ∧ decodeUnit 0x80000000#32 = .error (.reservedLong 0#6) ∧
    decodeUnit 0xFFFFFFFF#32 = .error .reservedFormat := by decide

/-- The opcode table's numbering: a short row's 15 bits, and a long row's 32. -/
theorem test_table_words :
    decodeTableWord 15 0x0448 = some (.add 1#4 2#4) ∧ decodeTableWord 15 0 = some .nop ∧
    decodeTableWord 32 0xB1000000 = some .rti ∧ decodeTableWord 32 0x80000000 = none := by decide

/-! ### One step of each instruction, with the values of the rules' examples

PSW is 0x400 after reset; C is 1, Z is 2, F0 is 4. -/

/-- R300. -/
theorem test_mv :
    let t := run1 0x00248000#32 (regs [(2, 7#32)])
    x t 1 = 7#32 ∧ t.cr.psw = 0x400#32 ∧ t.pc = 4#32 ∧ t.time = 1 := by decide

/-- R301. -/
theorem test_not :
    let t := run1 0x00250000#32 (regs [(2, 0xFF#32)])
    x t 1 = 0xFFFFFF00#32 ∧ t.cr.psw = 0x400#32 := by decide

/-- R302. -/
theorem test_neg :
    let t := run1 0x00258000#32 (regs [(2, 1#32)])
    x t 1 = 0xFFFFFFFF#32 ∧ t.cr.psw = 0x401#32 := by decide

/-- R303. -/
theorem test_add_carries :
    let t := run1 0x02240000#32 (regs [(1, 0xFFFFFFFF#32), (2, 1#32)])
    x t 1 = 0#32 ∧ t.cr.psw = 0x403#32 := by decide

/-- R304: the committed carry is added. -/
theorem test_addc :
    let s := regs [(1, 1#32), (2, 2#32)]
    let t := run1 0x02248000#32 { s with cr := { s.cr with psw := 0x401#32 } }
    x t 1 = 4#32 ∧ t.cr.psw = 0x400#32 := by decide

/-- R305. -/
theorem test_sub_borrows :
    let t := run1 0x02250000#32 (regs [(1, 3#32), (2, 5#32)])
    x t 1 = 0xFFFFFFFE#32 ∧ t.cr.psw = 0x401#32 := by decide

/-- R306: the committed carry is the borrow in. -/
theorem test_subb :
    let s := regs [(1, 10#32), (2, 3#32)]
    let t := run1 0x02258000#32 { s with cr := { s.cr with psw := 0x401#32 } }
    x t 1 = 6#32 ∧ t.cr.psw = 0x400#32 := by decide

/-- R307. -/
theorem test_and :
    let t := run1 0x04240000#32 (regs [(1, 0xF0F0#32), (2, 0x0FF0#32)])
    x t 1 = 0x00F0#32 := by decide

/-- R308. -/
theorem test_or :
    let t := run1 0x04248000#32 (regs [(1, 0xF000#32), (2, 0x000F#32)])
    x t 1 = 0xF00F#32 := by decide

/-- R309. -/
theorem test_xor :
    let t := run1 0x04250000#32 (regs [(1, 0xFF00#32), (2, 0x0FF0#32)])
    x t 1 = 0xF0F0#32 := by decide

/-- R310. -/
theorem test_mul :
    let t := run1 0x04258000#32 (regs [(1, 0xFFFFFFFE#32), (2, 3#32)])
    x t 1 = 0xFFFFFFFA#32 := by decide

/-- R311: the amount is taken modulo 32. -/
theorem test_sll_by_33 :
    let t := run1 0x06240000#32 (regs [(1, 1#32), (2, 33#32)])
    x t 1 = 2#32 := by decide

/-- R312. -/
theorem test_srl :
    let t := run1 0x06248000#32 (regs [(1, 0x80000000#32), (2, 31#32)])
    x t 1 = 1#32 := by decide

/-- R313. -/
theorem test_sra :
    let t := run1 0x06250000#32 (regs [(1, 0xFFFFFF00#32), (2, 4#32)])
    x t 1 = 0xFFFFFFF0#32 := by decide

/-- R314. -/
theorem test_cmpeq :
    let t := run1 0x08240000#32 (regs [(1, 5#32), (2, 5#32)])
    t.cr.psw = 0x404#32 := by decide

/-- R315. -/
theorem test_cmplt_signed :
    let t := run1 0x08248000#32 (regs [(1, 0xFFFFFFFF#32)])
    t.cr.psw = 0x404#32 := by decide

/-- R316. -/
theorem test_cmpltu_unsigned :
    let t := run1 0x08250000#32 (regs [(1, 0xFFFFFFFF#32)])
    t.cr.psw = 0x400#32 := by decide

/-- R317. -/
theorem test_addi :
    let t := run1 0x0A3F8000#32 (regs [(1, 1#32)])
    x t 1 = 0#32 ∧ t.cr.psw = 0x403#32 := by decide

/-- R318. -/
theorem test_ldi :
    let t := run1 0x0C300000#32 (regs [])
    x t 1 = 0xFFFFFFE0#32 := by decide

/-- R319. -/
theorem test_slli :
    let t := run1 0x0E220000#32 (regs [(1, 0x12345678#32)])
    x t 1 = 0x23456780#32 := by decide

/-- R320. -/
theorem test_srli :
    let t := run1 0x10220000#32 (regs [(1, 0x80000000#32)])
    x t 1 = 0x08000000#32 := by decide

/-- R321. -/
theorem test_srai :
    let t := run1 0x12220000#32 (regs [(1, 0x80000000#32)])
    x t 1 = 0xF8000000#32 := by decide

/-- R322. -/
theorem test_cmpeqi :
    let t := run1 0x14228000#32 (regs [(1, 5#32)])
    t.cr.psw = 0x404#32 := by decide

/-- R323. -/
theorem test_cmplti :
    let t := run1 0x163F8000#32 (regs [(1, 0xFFFFFFFE#32)])
    t.cr.psw = 0x404#32 := by decide

/-- R324. -/
theorem test_ldil :
    let t := run1 0x8110FFFE#32 (regs [])
    x t 1 = 0xFFFFFFFE#32 := by decide

/-- R325. -/
theorem test_ldih :
    let t := run1 0x82101234#32 (regs [(1, 0xFFFF5678#32)])
    x t 1 = 0x12345678#32 := by decide

/-- R326. -/
theorem test_addil :
    let t := run1 0x83127FFF#32 (regs [(2, 0xFFFF8001#32)])
    x t 1 = 0#32 ∧ t.cr.psw = 0x403#32 := by decide

/-- R327. -/
theorem test_andil :
    let t := run1 0x8412FF00#32 (regs [(2, 0x12345678#32)])
    x t 1 = 0x00005600#32 := by decide

/-- R328. -/
theorem test_oril :
    let t := run1 0x851200FF#32 (regs [(2, 0x12345600#32)])
    x t 1 = 0x123456FF#32 := by decide

/-- R329. -/
theorem test_xoril :
    let t := run1 0x8612FFFF#32 (regs [(2, 0x12345678#32)])
    x t 1 = 0x1234A987#32 := by decide

/-- State.reset with r1 to r3 and some bytes of RAM set. -/
def mem (r1 r2 r3 : Word) (m : Memory) : State := { regs [(1, r1), (2, r2), (3, r3)] with mem := m }

/-- R351. -/
theorem test_ldb_sign :
    let t := run1 0x18240000#32 (mem 0 0x100 0 [(0x100, 0x80#8)])
    x t 1 = 0xFFFFFF80#32 := by decide

/-- R352. -/
theorem test_ldbu_zero :
    let t := run1 0x18248000#32 (mem 0 0x100 0 [(0x100, 0xFF#8)])
    x t 1 = 0xFF#32 := by decide

/-- R353, little. -/
theorem test_ldh_sign :
    let t := run1 0x18250000#32 (mem 0 0x100 0 [(0x100, 0x34#8), (0x101, 0x82#8)])
    x t 1 = 0xFFFF8234#32 := by decide

/-- R353: AlignmentFault with BADADDR 0x101. -/
theorem test_ldh_misaligned :
    let t := run1 0x18250000#32 (mem 0 0x101 0 [])
    t.cr.cause = 4#32 ∧ t.cr.badaddr = 0x101#32 := by decide

/-- R354. -/
theorem test_ldhu_zero :
    let t := run1 0x18258000#32 (mem 0 0x100 0 [(0x100, 0x34#8), (0x101, 0x82#8)])
    x t 1 = 0x8234#32 := by decide

/-- R355. -/
theorem test_ldw :
    let t := run1 0x1A240000#32 (mem 0 0x100 0 [(0x100, 0x78#8), (0x101, 0x56#8), (0x102, 0x34#8), (0x103, 0x12#8)])
    x t 1 = 0x12345678#32 := by decide

/-- R356. -/
theorem test_ld2w_little :
    let t := run1 0x1A468000#32 (mem 0 0 0x100 [(0x100, 0x01#8), (0x101, 0x02#8), (0x102, 0x03#8), (0x103, 0x04#8), (0x104, 0x05#8), (0x105, 0x06#8), (0x106, 0x07#8), (0x107, 0x08#8)])
    x t 2 = 0x08070605#32 ∧ x t 3 = 0x04030201#32 := by decide

/-- R356, big: the unit's own word is stored big-endian too (R135). -/
theorem test_ld2w_big :
    let s := { mem 0 0 0x100 [(0x100, 0x01#8), (0x101, 0x02#8), (0x102, 0x03#8), (0x103, 0x04#8), (0x104, 0x05#8), (0x105, 0x06#8), (0x106, 0x07#8), (0x107, 0x08#8)] with cfg := { Config.reference with endian := .big } }
    let t := run1 0x1A468000#32 s
    x t 2 = 0x01020304#32 ∧ x t 3 = 0x05060708#32 := by decide

/-- R357. -/
theorem test_stb :
    let t := run1 0x1C240000#32 (mem 0x123456AB 0x100 0 [])
    t.byteAt 0x100 = 0xAB#8 ∧ t.byteAt 0x101 = 0#8 := by decide

/-- R358. -/
theorem test_sth :
    let t := run1 0x1C248000#32 (mem 0xBEEF 0x100 0 [])
    t.byteAt 0x100 = 0xEF#8 ∧ t.byteAt 0x101 = 0xBE#8 := by decide

/-- R359, scenario B. -/
theorem test_stw :
    let t := run1 0x1C250000#32 (mem 0x12345678 0x100 0 [])
    t.byteAt 0x100 = 0x78#8 ∧ t.byteAt 0x101 = 0x56#8 ∧ t.byteAt 0x102 = 0x34#8 ∧ t.byteAt 0x103 = 0x12#8 := by decide

/-- R360: r3 is the base and the second data register. -/
theorem test_st2w :
    let t := run1 0x1C478000#32 (mem 0 0x01020304 0x1000 [])
    t.byteAt 0x1001 = 0x10#8 ∧ t.byteAt 0x1004 = 4#8 ∧ t.byteAt 0x1007 = 1#8 := by decide

/-- R351, long form. -/
theorem test_ldbD :
    let t := run1 0x88120004#32 (mem 0 0x100 0 [(0x104, 0x80#8)])
    x t 1 = 0xFFFFFF80#32 := by decide

/-- R352, long form. -/
theorem test_ldbuD :
    let t := run1 0x89120004#32 (mem 0 0x100 0 [(0x104, 0x80#8)])
    x t 1 = 0x80#32 := by decide

/-- R353, long form. -/
theorem test_ldhD :
    let t := run1 0x8A120004#32 (mem 0 0x100 0 [(0x104, 0x34#8), (0x105, 0x82#8)])
    x t 1 = 0xFFFF8234#32 := by decide

/-- R354, long form. -/
theorem test_ldhuD :
    let t := run1 0x8B120004#32 (mem 0 0x100 0 [(0x104, 0x34#8), (0x105, 0x82#8)])
    x t 1 = 0x8234#32 := by decide

/-- R355, long form: in supervisor mode the device register `IC_PENDING` is read. -/
theorem test_ldwD_device :
    let s := mem 0 0xF00000FC 0 []
    let t := run1 0x8C120004#32 { s with dev := { s.dev with icPending := 0x24#32 } }
    x t 1 = 0x24#32 := by decide

/-- R356, long form. -/
theorem test_ld2wD :
    let t := run1 0x8D23FFF8#32 (mem 0 0 0x108 [(0x100, 0x01#8), (0x101, 0x02#8), (0x102, 0x03#8), (0x103, 0x04#8), (0x104, 0x05#8), (0x105, 0x06#8), (0x106, 0x07#8), (0x107, 0x08#8)])
    x t 2 = 0x08070605#32 ∧ x t 3 = 0x04030201#32 := by decide

/-- R357, long form. -/
theorem test_stbD :
    let t := run1 0x90120004#32 (mem 0xAB 0x100 0 [])
    t.byteAt 0x104 = 0xAB#8 := by decide

/-- R358, long form. -/
theorem test_sthD :
    let t := run1 0x91120004#32 (mem 0xBEEF 0x100 0 [])
    t.byteAt 0x104 = 0xEF#8 ∧ t.byteAt 0x105 = 0xBE#8 := by decide

/-- R359: a store to ROM raises BusFault and writes nothing. -/
theorem test_stwD_rom :
    let t := run1 0x92120004#32 (mem 0xAB 0x08000000 0 [])
    t.cr.cause = 2#32 ∧ t.byteAt 0x08000004 = 0#8 := by decide

/-- R360, long form. -/
theorem test_st2wD :
    let t := run1 0x9323FFF8#32 (mem 0 0x01020304 0x108 [])
    t.byteAt 0x101 = 1#8 ∧ t.byteAt 0x104 = 4#8 := by decide

/-- State.reset at the PC 0x100, with a PSW. -/
def at100 (psw : Word) (l : List (Nat × Word)) : State :=
  { regs l with pc := 0x100, cr := { CRegs.reset with psw := psw } }

/-- R380, R395. -/
theorem test_bra_suppresses :
    let t := run1 0x20010448#32 (at100 0x400 [(1, 5#32), (2, 6#32)])
    t.pc = 0x108#32 ∧ x t 1 = 5#32 ∧ t.cr.supp = 1#32 := by decide

/-- R381: taken and not taken, at 0x200. -/
theorem test_brt :
    (run1 0x23FF8000#32 { at100 0x404 [] with pc := 0x200 }).pc = 0x1FC#32 ∧
    (run1 0x23FF8000#32 { at100 0x400 [] with pc := 0x200 }).pc = 0x204#32 := by decide

/-- R382: taken to `pc + 4` suppresses, not taken does not. -/
theorem test_brf :
    (run1 0x24008000#32 (at100 0x400 [])).pc = 0x104#32 ∧ (run1 0x24008000#32 (at100 0x400 [])).cr.supp = 1#32 ∧
    (run1 0x24008000#32 (at100 0x404 [])).pc = 0x104#32 ∧ (run1 0x24008000#32 (at100 0x404 [])).cr.supp = 0#32 := by decide

/-- R383. -/
theorem test_bl :
    let t := run1 0x26020000#32 (at100 0x400 [])
    x t 14 = 0x104#32 ∧ t.pc = 0x110#32 := by decide

/-- R384. -/
theorem test_jmp :
    let t := run1 0x28040000#32 (at100 0x400 [(2, 0x2000#32)])
    t.pc = 0x2000#32 ∧ t.cr.supp = 1#32 := by decide

/-- R385. -/
theorem test_jl :
    let t := run1 0x28068000#32 (at100 0x400 [(3, 0x400#32)])
    x t 14 = 0x104#32 ∧ t.pc = 0x400#32 := by decide

/-- R386. -/
theorem test_braL :
    let t := run1 0x98000100#32 (at100 0x400 [])
    t.pc = 0x500#32 := by decide

/-- R387. -/
theorem test_brtL :
    let t := run1 0x9900FFFE#32 (at100 0x404 [])
    t.pc = 0xF8#32 := by decide

/-- R388. -/
theorem test_brfL :
    let t := run1 0x9A000003#32 (at100 0x400 [])
    t.pc = 0x10C#32 := by decide

/-- R389. -/
theorem test_blL :
    let t := run1 0x9B000040#32 (at100 0x400 [])
    x t 14 = 0x104#32 ∧ t.pc = 0x200#32 := by decide

/-- The partner adds, and is gated off (R391 to R394). -/
theorem test_exet :
    x (run1 0x2A000448#32 (at100 0x404 [(1, 3#32), (2, 4#32)])) 1 = 7#32 ∧
    x (run1 0x2A000448#32 (at100 0x400 [(1, 3#32), (2, 4#32)])) 1 = 3#32 := by decide

/-- The partner adds, and is gated off (R391 to R394). -/
theorem test_exef :
    x (run1 0x2A008448#32 (at100 0x400 [(1, 3#32), (2, 4#32)])) 1 = 7#32 ∧
    x (run1 0x2A008448#32 (at100 0x404 [(1, 3#32), (2, 4#32)])) 1 = 3#32 := by decide

/-- The partner adds, and is gated off (R391 to R394). -/
theorem test_exect :
    x (run1 0x2A010448#32 (at100 0x401 [(1, 3#32), (2, 4#32)])) 1 = 7#32 ∧
    x (run1 0x2A010448#32 (at100 0x400 [(1, 3#32), (2, 4#32)])) 1 = 3#32 := by decide

/-- The partner adds, and is gated off (R391 to R394). -/
theorem test_execf :
    x (run1 0x2A018448#32 (at100 0x400 [(1, 3#32), (2, 4#32)])) 1 = 7#32 ∧
    x (run1 0x2A018448#32 (at100 0x401 [(1, 3#32), (2, 4#32)])) 1 = 3#32 := by decide

/-- R410. -/
theorem test_nop :
    let t := run1 0x00000000#32 (at100 0x400 [])
    t.pc = 0x104#32 ∧ t.cr = CRegs.reset ∧ t.regs = State.reset.regs := by decide

/-- R411. -/
theorem test_hint :
    let t := run1 0x00200000#32 (at100 0x400 [(1, 9#32)])
    t.pc = 0x104#32 ∧ x t 1 = 9#32 := by decide

/-- R412. -/
theorem test_mvfc :
    let t := run1 0x2C200000#32 (regs [])
    x t 1 = 0x400#32 := by decide

/-- R413: the reserved bits of EVB stay 0. -/
theorem test_mvtc_masked :
    let t := run1 0x2C648000#32 (regs [(2, 0x1234#32)])
    t.cr.evb = 0x1200#32 := by decide

/-- R413 (b): in `mvtc psw, r2 -> mv r1, r3` the second half already names bank 1. -/
theorem test_mvtc_switches_bank_at_once :
    let t := run1 0x2C04804D#32 (regs [(2, 0x600#32), (3, 5#32), (11, 9#32)])
    t.regs.getD 9 0 = 9#32 ∧ t.regs.getD 1 0 = 0#32 ∧ t.cr.psw = 0x600#32 := by decide

/-- R415: `trap 3` at 0x100 with EVB = 0x1000 and the word 0x2000 at 0x1014. -/
theorem test_trap :
    let s := at100 0x400 []
    let t := run1 0xB0000003#32 { s with cr := { s.cr with evb := 0x1000 }, mem := [(0x1015, 0x20#8)] }
    t.pc = 0x2000#32 ∧ t.cr.bpc = 0x104#32 ∧ t.cr.cause = 0x305#32 ∧ t.cr.badaddr = 0xB0000003#32 ∧
    t.cr.psw = 0x600#32 ∧ t.cr.bpsw = 0x400#32 := by decide

/-- R456: an unknown call number gives -1 and ENOSYS, and the unit completes. -/
theorem test_trap_unknown_call :
    let t := run1 0xB000000F#32 (regs [(0, 99#32)])
    x t 0 = 0xFFFFFFFF#32 ∧ x t 1 = 88#32 ∧ t.pc = 4#32 ∧ t.run = .running := by decide

/-- R418. -/
theorem test_rti :
    let s := at100 0x600 []
    let t := run1 0xB1000000#32 { s with cr := { s.cr with bpc := 0x104, bpsw := 0x105 } }
    t.pc = 0x104#32 ∧ t.cr.psw = 0x105#32 := by decide

/-- R561: `rti` in user mode raises IllegalInstruction. -/
theorem test_rti_user :
    (run1 0xB1000000#32 (at100 0x000 [])).cr.cause = 1#32 ∧
    (run1 0xB1000000#32 (at100 0x000 [])).cr.bpc = 0x100#32 := by decide

/-- R419. -/
theorem test_wait :
    let t := run1 0xB2000000#32 (at100 0x400 [])
    t.waiting = true ∧ t.pc = 0x104#32 ∧ t.time = 1 := by decide

/-- R420. -/
theorem test_stop :
    let t := run1 0xB3000000#32 (at100 0x400 [(0, 7#32)])
    t.run = .stopped (some (.exited 7#32)) ∧ t.pc = 0x100#32 ∧ t.time = 0 := by decide

/-- R421. -/
theorem test_brk :
    let t := run1 0xB4000000#32 (at100 0x0 [])
    t.run = .stopped (some (.stopped .sigtrap)) ∧ t.pc = 0x100#32 := by decide

/-! ### Witnesses: for each statement with hypotheses, a state and operands that meet them

Where a statement has several clauses, each has its own, at a boundary of its range where it has one. -/

/-- The unit `w` placed at the PC of State.reset, with the run going on. -/
def ready (w : Word) : State := State.reset.withFetchWord 32 w.toNat

/-- The same with a PSW, and no unit in progress. -/
def readyAs (psw w : Word) : State :=
  { ready w with cr := { CRegs.reset with psw := psw }, unit := UnitState.idle psw }

theorem wit_UnitRoundTrip :
    (FetchUnit.pair .rightFirst (.ld2w 14#4 3#4) (.hint 0#4 15#4)).wf = true ∧
    (FetchUnit.long (.st2wD 14#4 15#4 0x8000#16)).wf = true := by decide

theorem wit_DecodedUnitsReencode : decodeUnit 0x8110FFFE#32 = .ok (.long (.ldil 1#4 0xFFFE#16)) := by decide

/-- The reserved encodings' boundaries are illegal, and their legal neighbours are not. -/
theorem wit_IllegalEncodingsRefused :
    (decodeShort (mkShort 0x17#5 0#4 0#4 0#2)).toOption = none ∧ (decodeShort (mkShort 0x1F#5 15#4 15#4 3#2)).toOption = none ∧
    (decodeShort (mkShort 0x0F#5 0#4 0#4 3#2)).toOption = none ∧ (decodeShort (mkShort 0x04#5 1#4 1#4 3#2)).toOption = none ∧
    (decodeShort (mkShort 0x16#5 0#4 0#4 2#2)).toOption = none ∧ (decodeShort (mkShort 0x16#5 0#4 0#4 1#2)).toOption.isSome ∧
    (decodeUnit (mkLong 0x14#6 0#4 0#4 0#16)).toOption = none ∧ (decodeUnit (mkLong 0x17#6 0#4 0#4 0#16)).toOption = none ∧
    (decodeUnit (mkLong 0x2F#6 0#4 0#4 0#16)).toOption = none ∧ (decodeUnit (mkLong 0x35#6 0#4 0#4 0#16)).toOption = none ∧
    (decodeUnit (mkLong 0x34#6 0#4 0#4 0#16)).toOption.isSome ∧ (0xC0000000#32 : Word).extractLsb' 30 2 = 3#2 := by decide

theorem wit_MemoryStaysCanonical :
    Memory.wf (ready 0x1C250000#32).cfg (ready 0x1C250000#32).mem = true ∧ ∃ t, step (ready 0x1C250000#32) = .next t :=
  ⟨by decide, exists_of_isNext (by decide)⟩

theorem wit_ControlRegistersStayMasked :
    (ready 0x2C048000#32).cr.legal ∧ ∃ t, step (ready 0x2C048000#32) = .next t :=
  ⟨by unfold CRegs.legal; decide, exists_of_isNext (by decide)⟩

theorem wit_DevicesStayMasked :
    (ready 0#32).dev.legal (ready 0#32).cfg ∧ ∃ t, step (ready 0#32) = .next t :=
  ⟨⟨by decide, by intro m hm; rw [List.eq_of_mem_replicate hm]; decide, by decide, by decide, by decide, by decide, by decide,
    by decide, by decide, by decide, by decide, by decide⟩, exists_of_isNext (by decide)⟩

/-- Two events at one time, the first due at this step's boundary. -/
theorem wit_EventsStayOrdered :
    let s := { ready 0#32 with events := [⟨1, 0, .txDone 65#8⟩, ⟨1, 1, .wdtExpire 0⟩], seq := 2 }
    s.eventsLegal ∧ ∃ t, step s = .next t :=
  ⟨⟨by simp [Event.before], by simp; decide⟩, exists_of_isNext (by decide)⟩

theorem wit_BridgeStaysBounded :
    let s := { ready 0xB000000F#32 with pipes := [(0, ⟨[1#8], true, false⟩), (2, ⟨[], true, true⟩)], nextPipe := 3 }
    s.bridgeLegal ∧ ∃ t, step s = .next t :=
  ⟨⟨by decide, by decide, by decide, by decide⟩, exists_of_isNext (by decide)⟩

theorem wit_ConfigurationNeverChanges :
    (∃ t, exec .rti State.reset = .next t) ∧ (∃ t, step (ready 0xB1000000#32) = .next t) ∧
    ∃ t, State.reset.loadSegments [(0x000FFFFF, [1#8])] = some t :=
  ⟨⟨_, rfl⟩, exists_of_isNext (by decide), ⟨_, rfl⟩⟩

theorem wit_OnlyRamIsWritten :
    (∃ t, step (ready 0x1C250000#32) = .next t) ∧ (ready 0#32).cfg.ramSize ≤ 0x00100000 :=
  ⟨exists_of_isNext (by decide), by decide⟩

theorem wit_UnitStaysIdle : (ready 0#32).unitIdle ∧ ∃ t, step (ready 0#32) = .next t :=
  ⟨rfl, exists_of_isNext (by decide)⟩

/-- `read` on a host fd whose host never answers (93_implementation_defined.md S9); and a periodic timer whose period is 0, due in a wait and
at the boundary of a unit in user mode: the last two branches, each reached. -/
theorem wit_StepNeverRefuses :
    let h := { ready 0xB000000F#32 with
      regs := (regs [(0, 4#32)]).regs, host := { HostState.fresh with script := [.never] } }
    let e := { readyAs 0 0#32 with
      events := [⟨0, 0, .timerExpire 0⟩], seq := 1, dev := { State.reset.dev with tmrCtrl := 3#32 } }
    (h.nextAnswer = .never ∧ h.atUnit 0xB000000F#32 ∧ decodeUnit 0xB000000F#32 = .ok (.long (.trap h.cfg.syscallTrap)) ∧
      step h = .fault .hostNeverAnswers) ∧
    (e.endlessTimer 0 ∧ step { e with waiting := true } = .fault .endlessEventDrain) ∧
    (e.atUnit 0#32 ∧ pswSM e.cr.psw = false ∧ e.endlessTimer 1 ∧ step e = .fault .endlessEventDrain) :=
  ⟨⟨rfl, ⟨rfl, rfl, by decide⟩, by decide, eq_of_faultOf (by decide)⟩,
    ⟨by unfold State.endlessTimer; decide, eq_of_faultOf (by decide)⟩,
    ⟨⟨rfl, rfl, by decide⟩, by decide, by unfold State.endlessTimer; decide, eq_of_faultOf (by decide)⟩⟩

/-- A timer that is not periodic, and a periodic one at the last period that fits. -/
theorem wit_EventDrainEnds :
    (¬ State.reset.endlessTimer 0xFFFFFFFFFFFFFFFF) ∧
    ¬ ({ State.reset with dev := { State.reset.dev with tmrPeriod := 0xFFFFFFFF#32, tmrCtrl := 3#32 } } : State).endlessTimer
      0xFFFFFFFF00000000 := by
  unfold State.endlessTimer; decide

/-- The largest sum of ticks that fits 64 bits is exact (R550, R554). -/
theorem test_addTicks : addTicks 0xFFFFFFFFFFFFFFF0 15 = 0xFFFFFFFFFFFFFFFF := by decide

/-- Events in order, two at one instant; the largest sum that fits 64 bits; and for every callback its own generation and a stale
one, the enable set and clear, and both kinds of timer. -/
theorem wit_ScheduledEventsFireInOrder :
    let s := { State.reset with
      events := [⟨5, 0, .txDone 1#8⟩, ⟨5, 1, .txDone 2#8⟩, ⟨9, 2, .txDone 3#8⟩], seq := 3
      dev := { State.reset.dev with tmrCtrl := 3#32, wdtCtrl := 1#32, tgen := 1, wgen := 1 } }
    s.events.Pairwise Event.before ∧ (∀ e ∈ s.events, e.seq < s.seq) ∧ State.reset.events = [] ∧
    (0xFFFFFFFF00000000 : Ticks).toNat + 0xFFFFFFFF < 2 ^ 64 ∧
    (0 ≠ s.dev.tgen ∧ 1 = s.dev.tgen ∧ s.dev.tmrCtrl.getLsbD 0 = true ∧ s.dev.tmrCtrl.getLsbD 1 = true ∧
      (1#32 : Word).getLsbD 1 = false ∧ State.reset.dev.tmrCtrl.getLsbD 0 = false) ∧
    (0 ≠ s.dev.wgen ∧ 1 = s.dev.wgen ∧ s.dev.wdtCtrl.getLsbD 0 = true ∧ State.reset.dev.wdtCtrl.getLsbD 0 = false) :=
  ⟨by simp [Event.before], by simp, rfl, by decide, by decide, by decide⟩

/-- 95_test_vectors.md Q6: the byte is printed, and level 5 is asserted (R557); a level the controller lacks asserts nothing (R541). -/
theorem test_txDone :
    let s := { State.reset with dev := { State.reset.dev with uartCtrl := 0x51#32, uartStatus := 3#32 } }
    let t := s.fire ⟨10, 0, .txDone 0x41#8⟩
    t.host.calls = [.print [0x41#8]] ∧ t.dev.uartStatus = 2#32 ∧ t.dev.icPending = 0x20#32 ∧
    (({ s with cfg := { Config.reference with nlevels := 4 } } : State).fire ⟨10, 0, .txDone 0x41#8⟩).dev.icPending = 0#32 := by decide

/-- The clauses of the short forms read at 0, those of the long ones at the last bytes of RAM. -/
theorem wit_LoadResults :
    let s := regs [(3, 0x000FFFF0#32)]
    s.memRead (s.readReg 2#4) 1 = .ok 0 ∧ s.memRead (s.readReg 2#4) 2 = .ok 0 ∧ s.memRead (s.readReg 2#4) 4 = .ok 0 ∧
    s.memRead (s.readReg 2#4) 8 = .ok 0 ∧ evenReg 14#4 = true ∧
    s.memRead (s.readReg 3#4 + (15#16).signExtend 32) 1 = .ok 0 ∧ s.memRead (s.readReg 3#4 + (14#16).signExtend 32) 2 = .ok 0 ∧
    s.memRead (s.readReg 3#4 + (12#16).signExtend 32) 4 = .ok 0 ∧
    s.memRead (s.readReg 3#4 + (8#16).signExtend 32) 8 = .ok 0 := by decide

theorem wit_StoreResults :
    let s := regs [(3, 0x000FFFF0#32)]
    let ea := s.readReg 2#4
    let last := fun (i : BitVec 16) => s.readReg 3#4 + i.signExtend 32
    (segOf ea ≠ 0xF#4 ∧ s.chunks ea 1 .write true = .ok [⟨ea, ea, 1, .bytes⟩] ∧
      s.misaligned ea 2 = false ∧ s.chunks ea 2 .write true = .ok [⟨ea, ea, 2, .bytes⟩] ∧
      s.misaligned ea 4 = false ∧ s.chunks ea 4 .write true = .ok [⟨ea, ea, 4, .bytes⟩] ∧
      s.misaligned ea 8 = false ∧ s.chunks ea 8 .write true = .ok [⟨ea, ea, 8, .bytes⟩] ∧ evenReg 0#4 = true) ∧
    (segOf (last 15#16) ≠ 0xF#4 ∧ s.chunks (last 15#16) 1 .write true = .ok [⟨last 15#16, last 15#16, 1, .bytes⟩] ∧
      s.misaligned (last 14#16) 2 = false ∧ s.chunks (last 14#16) 2 .write true = .ok [⟨last 14#16, last 14#16, 2, .bytes⟩] ∧
      s.misaligned (last 12#16) 4 = false ∧ s.chunks (last 12#16) 4 .write true = .ok [⟨last 12#16, last 12#16, 4, .bytes⟩] ∧
      s.misaligned (last 8#16) 8 = false ∧ s.chunks (last 8#16) 8 .write true = .ok [⟨last 8#16, last 8#16, 8, .bytes⟩]) ∧
    s.unit.effSM = true := by decide

/-- The last words of RAM and ROM directly; the last bytes of a window onto RAM, of a read-only one onto RAM, and of one onto ROM; and a
fetch through a window. -/
theorem wit_DirectAndMappedAccess :
    let s := { State.reset with
      dev := { State.reset.dev with maps := [0x8000000F#32, 0xC0000000#32, 0x80000800#32] }, pc := 0x1000FFFC#32 }
    3 ≤ s.cfg.blockBits ∧
    (s.reaches 0x000FFFFC#32 0x000FFFFC#32 .write ∧ backed s.cfg 0x000FFFFC#32 4 .write) ∧
    (s.reaches 0x0800FFF8#32 0x0800FFF8#32 .read ∧ backed s.cfg 0x0800FFF8#32 8 .read) ∧
    (s.reaches 0x1000FFF8#32 0x000FFFF8#32 .write ∧ backed s.cfg 0x000FFFF8#32 8 .write) ∧
    (s.reaches 0x1001FFFF#32 0x0000FFFF#32 .read ∧ backed s.cfg 0x0000FFFF#32 1 .read) ∧
    (s.reaches 0x1002FFFE#32 0x0800FFFE#32 .read ∧ backed s.cfg 0x0800FFFE#32 2 .read) ∧
    (s.pc.toNat % 4 = 0 ∧ s.reaches s.pc 0x000FFFFC#32 .fetch ∧ backed s.cfg 0x000FFFFC#32 4 .fetch) := by
  dsimp only [State.reaches, backed]
  exact ⟨by decide, by decide, by decide, by decide, by decide, by decide, by decide⟩

/-- 95_test_vectors.md M42: `ldw r3, @r4` through `MAP[1]`, which names block 2. -/
theorem test_ldw_window :
    let s := { regs [(4, 0x10010010#32)] with mem := [(0x20010, 0x11#8), (0x20011, 0x22#8), (0x20012, 0x33#8), (0x20013, 0x44#8)] }
    x (run1 0x1A680000#32 { s with dev := { s.dev with maps := [0#32, 0x80000002#32] } }) 3 = 0x44332211#32 := by decide

/-- The first and the last listed register, and the last mapping register. -/
theorem wit_DeviceAccessResults :
    let s := regs [(2, 0xF0000000#32), (3, 0xF0000400#32)]
    s.unit.effSM = true ∧ 3 ≤ s.cfg.blockBits ∧ devRegAt s.cfg (s.readReg 2#4) = some (.map 0) ∧
    devRegAt s.cfg (s.readReg 2#4 + (60#16).signExtend 32) = some (.map 15) ∧
    devRegAt s.cfg (s.readReg 2#4 + (64#16).signExtend 32) = none ∧
    devRegAt s.cfg (s.readReg 3#4 + (12#16).signExtend 32) = some .wdtStatus := by decide

theorem wit_StoreThenLoad :
    Memory.wf State.reset.cfg State.reset.mem = true ∧ State.reset.unitIdle ∧ 3 ≤ State.reset.cfg.blockBits ∧
    segOf 0x000FFFF8#32 = 0x0#4 ∧ (0x000FFFF8#32 : Word).toNat % 8 = 0 ∧
    (0x000FFFF8#32 : Word).toNat + 8 ≤ State.reset.cfg.ramSize :=
  ⟨by decide, rfl, by decide, by decide, by decide, by decide⟩

/-- Each fault at a boundary: the first bytes past RAM and past ROM, the first ROM byte written, segments 2 and 14, the first window that
does not exist, a read-only window, windows onto ROM, just past RAM and onto the device addresses, and a device address that is not
listed. -/
theorem wit_AccessChecks :
    let s := { State.reset with
      dev := { State.reset.dev with maps := [0xC0000000#32, 0#32, 0x80000800#32, 0x80000010#32, 0x8000F000#32] } }
    let u := { State.reset with unit := UnitState.idle 0 }
    s.memRead 0x101#32 2 = .error .alignment ∧ s.memRead 0x20000000#32 1 = .error .segmentation ∧
    s.memRead 0xE0000000#32 1 = .error .segmentation ∧ s.memRead 0x10100000#32 4 = .error .segmentation ∧
    s.memRead 0x10010000#32 4 = .error .segmentation ∧ s.memWrite 0x10000000#32 4 1 = .error .segmentation ∧
    s.memRead 0x10000000#32 4 = .ok 0 ∧ u.memRead 0xF0000100#32 4 = .error .segmentation ∧
    s.memRead 0xF0000100#32 8 = .error .bus ∧ s.memRead 0xF0000114#32 4 = .error .bus ∧
    s.memRead 0x00100000#32 1 = .error .bus ∧ s.memRead 0x07FFFFFF#32 1 = .error .bus ∧
    s.memRead 0x08010000#32 1 = .error .bus ∧ s.memWrite 0x08000000#32 1 7 = .error .bus ∧
    s.memRead 0x08000000#32 1 = .ok 0 ∧
    (s.memRead 0x10020000#32 4 = .ok 0 ∧ s.memWrite 0x10020000#32 4 1 = .error .bus) ∧
    s.memRead 0x10030000#32 1 = .error .bus ∧ s.memWrite 0x10030000#32 1 1 = .error .bus ∧
    s.memRead 0x10040100#32 4 = .error .bus ∧ s.memWrite 0x10040100#32 4 1 = .error .bus := by decide

/-- Split accesses: backed on both sides, an unmapped second window, and an unbacked first one, which answers first. -/
theorem wit_AccessChecks_split :
    let s := { State.reset with
      cfg := { Config.reference with strictAlign := false }
      dev := { State.reset.dev with maps := [0x80000001#32, 0x80000000#32, 0#32, 0x80000010#32] } }
    (3 ≤ s.cfg.blockBits ∧ s.cfg.blockBits ≤ 28) ∧
    s.chunks 0x1000FFFE#32 8 .read true =
      .ok [⟨0x1000FFFE#32, 0x0001FFFE#32, 2, .bytes⟩, ⟨0x10010000#32, 0#32, 6, .bytes⟩] ∧
    s.chunks 0x1001FFFE#32 4 .read true = .error .segmentation ∧ s.chunks 0x1003FFFF#32 2 .write true = .error .bus ∧
    translate s.cfg s.dev.maps 0x10040000#32 1 .write true = .error .segmentation := by decide

/-- A load and a store for each of the three faults; reset's vectors are readable and hold 0. -/
theorem wit_AccessFaultsTaken :
    let s := regs [(1, 0x101#32), (2, 0x20000000#32), (3, 0x00100000#32)]
    s.cr.legal ∧ s.cfg.hasFaultVector = true ∧ s.readVector (faultCode .alignment) = some 0#32 ∧
    s.readVector (faultCode .segmentation) = some 0#32 ∧ s.readVector (faultCode .bus) = some 0#32 ∧
    s.memRead (s.readReg 1#4) 2 = .error .alignment ∧ s.memRead (s.readReg 2#4) 4 = .error .segmentation ∧
    s.memRead (s.readReg 3#4) 8 = .error .bus ∧ (∀ v, s.memWrite (s.readReg 1#4) 4 v = .error .alignment) ∧
    (∀ v, s.memWrite (s.readReg 2#4) 1 v = .error .segmentation) ∧ (∀ v, s.memWrite (s.readReg 3#4) 1 v = .error .bus) :=
  ⟨by unfold CRegs.legal; decide, by decide, by decide, by decide, by decide, by decide, by decide, by decide,
    fun _ => rfl, fun _ => rfl, fun _ => rfl⟩

theorem wit_MvtcResults : State.reset.unit.effSM = true ∧ CReg.bpc ≠ .psw := by decide

theorem wit_RtiResults : State.reset.unit.effSM = true := by decide

theorem wit_WaitStopBrkResults : State.reset.unit.effSM = true := by decide

/-- An exception and an interrupt whose vectors can be read. -/
theorem wit_RtiUndoesTrapEntry :
    State.reset.cr.legal ∧ State.reset.readVector (TrapKind.exception .busFault 0x100000).vector = some 0#32 ∧
    State.reset.readVector (TrapKind.interrupt 1).vector = some 0#32 :=
  ⟨by unfold CRegs.legal; decide, by decide, by decide⟩

/-- User mode, with a readable vector. -/
theorem wit_UserModePrivilege :
    let s := { State.reset with unit := UnitState.idle 0 }
    s.unit.effSM = false ∧ s.cr.legal ∧ s.cfg.hasFaultVector = true ∧ s.readVector 1 = some 0#32 :=
  ⟨by decide, by unfold CRegs.legal; decide, by decide, by decide⟩

/-- The four units that end a run, the last without a fault vector and in a quiet machine. -/
theorem wit_StopsEndTheRun :
    ((ready 0xB3000000#32).atUnit 0xB3000000#32 ∧ decodeUnit 0xB3000000#32 = .ok (.long .stop) ∧
      pswSM (ready 0xB3000000#32).cr.psw = true) ∧
    ((ready 0xB4000000#32).atUnit 0xB4000000#32 ∧ decodeUnit 0xB4000000#32 = .ok (.long .brk)) ∧
    (let s := { ready 0xB000000F#32 with regs := (regs [(0, 1#32)]).regs };
      s.atUnit 0xB000000F#32 ∧ decodeUnit 0xB000000F#32 = .ok (.long (.trap s.cfg.syscallTrap)) ∧
      tableLookup s.cfg.syscallMap (s.committedReg 0#4) = some .exit) ∧
    (let s := { ready 0xB0000003#32 with cfg := { Config.reference with hasFaultVector := false } };
      s.atUnit 0xB0000003#32 ∧ decodeUnit 0xB0000003#32 = .ok (.long (.trap 3#4)) ∧ 3#4 ≠ s.cfg.syscallTrap ∧
      s.cfg.hasFaultVector = false ∧ s.quiet) :=
  ⟨⟨⟨rfl, rfl, by decide⟩, by decide, by decide⟩, ⟨⟨rfl, rfl, by decide⟩, by decide⟩,
    ⟨⟨rfl, rfl, by decide⟩, by decide, by decide⟩,
    ⟨⟨rfl, rfl, by decide⟩, by decide, by decide, rfl, ⟨rfl, by decide, rfl, rfl, rfl⟩⟩⟩

theorem wit_SoftwareTrapResults :
    15#4 = State.reset.cfg.syscallTrap ∧ 14#4 ≠ State.reset.cfg.syscallTrap ∧ State.reset.cfg.hasFaultVector = true ∧
    State.reset.cr.legal ∧ State.reset.readVector 5 = some 0#32 ∧
    ({ Config.reference with hasFaultVector := false } : Config).hasFaultVector = false :=
  ⟨by decide, by decide, by decide, by unfold CRegs.legal; decide, by decide, by decide⟩

/-- Without a fault vector, and with vectors in segment 15 that cannot be read: a faulting access, a privileged instruction in user mode, a
software trap, and a unit that does not decode. -/
theorem wit_NoVectorStops :
    let s := { regs [(2, 0x20000000#32)] with cfg := { Config.reference with hasFaultVector := false } }
    let u := { regs [(2, 0x20000000#32)] with cr := { CRegs.reset with evb := 0xF0000000 }, unit := UnitState.idle 0 }
    let d := ready 0x80000000#32
    s.cfg.hasFaultVector = false ∧ s.memRead (s.readReg 2#4) 4 = .error .segmentation ∧
    (∀ v, s.memWrite (s.readReg 2#4) 4 v = .error .segmentation) ∧ u.readVector 3 = none ∧ u.readVector 1 = none ∧
    u.memRead (u.readReg 2#4) 4 = .error .segmentation ∧ u.unit.effSM = false ∧
    (u.cfg.hasFaultVector = true ∧ 14#4 ≠ u.cfg.syscallTrap ∧ u.readVector 5 = none) ∧
    (({ d with cfg := { Config.reference with hasFaultVector := false } } : State).atUnit 0x80000000#32 ∧
      ({ d with cr := { CRegs.reset with evb := 0xF0000000 } } : State).atUnit 0x80000000#32 ∧
      ({ d with cr := { CRegs.reset with evb := 0xF0000000 } } : State).readVector 1 = none ∧
      decodeUnit 0x80000000#32 = .error (.reservedLong 0#6)) :=
  ⟨by decide, by decide, fun _ => rfl, by decide, by decide, by decide, by decide, by decide,
    ⟨rfl, rfl, by decide⟩, ⟨rfl, rfl, by decide⟩, by decide, by decide⟩

/-- 95_test_vectors.md X1: the vector of `trap 0` is not backed. -/
theorem test_trap_without_vector :
    let s := { State.reset with pc := 0x100#32, cr := { CRegs.reset with evb := 0x02000000#32 } }
    let t := run1 0xB0000000#32 s
    t.run = .stopped (some (.signalled .sigbus)) ∧ t.pc = 0x100#32 ∧ t.time = 0 ∧ t.cr = s.cr := by decide

/-- A readable vector for an exception and for the highest level, a device address, and an address nothing backs. -/
theorem wit_TrapEntryWrites :
    let s := { State.reset with cr := { CRegs.reset with evb := 0xF0000100 } }
    let u := { State.reset with cr := { CRegs.reset with evb := 0x00100000 } }
    State.reset.cr.legal ∧ State.reset.readVector (TrapKind.exception (.softwareTrap 3#4) 0).vector = some 0#32 ∧
    State.reset.readVector (TrapKind.interrupt 15).vector = some 0#32 ∧ segOf (s.cr.evb + 4#32) = 0xF#4 ∧
    s.readVector 1 = none ∧ u.chunks (u.cr.evb + 4#32) 4 .read true = .error .bus ∧ u.readVector 1 = none ∧
    State.reset.chunks 0x7C#32 4 .read true = .ok [⟨0x7C#32, 0x7C#32, 4, .bytes⟩] :=
  ⟨by unfold CRegs.legal; decide, by decide, by decide, by decide, by decide, by decide, by decide, by decide⟩

/-- IE set and level 15 requested; the same with an unreadable vector; and nothing requested. -/
theorem wit_InterruptTaken :
    let s := { ready 0#32 with
      cr := { CRegs.reset with psw := 0x500 }
      dev := { State.reset.dev with icPending := 0x8000#32, icMask := 0#32 } }
    let u := { s with cr := { s.cr with evb := 0xF0000000 } }
    pswIE s.cr.psw = true ∧ s.icLevel = 15 ∧ s.run = .running ∧ s.cr.legal ∧ s.readVector (16 + 15) = some 0#32 ∧
    u.readVector (16 + 15) = none ∧ State.reset.icLevel = 0 ∧ pswIE State.reset.cr.psw = false :=
  ⟨by decide, by decide, by decide, by unfold CRegs.legal; decide, by decide, by decide, by decide, by decide⟩

/-- The controller on and off; and level 4 with 15 levels, and with 3, which has no such level. -/
theorem wit_IcLevelIsHighest :
    let s := { State.reset with dev := { State.reset.dev with icLatched := 0x0012#32, icMask := 0#32 } }
    s.dev.icControl.getLsbD 0 = true ∧ s.icLevel = 4 ∧
    ({ s with dev := { s.dev with icControl := 0#32 } } : State).dev.icControl.getLsbD 0 = false ∧
    ({ s with cfg := { Config.reference with nlevels := 3 } } : State).icLevel = 1 := by decide

/-- A user-mode unit that completes, and one that enters a handler. -/
theorem wit_UserModeKeepsControl :
    (readyAs 0 0#32).unitIdle ∧ pswSM (readyAs 0 0#32).cr.psw = false ∧ (∃ t, step (readyAs 0 0#32) = .next t) ∧
    pswSM (run1 0#32 (readyAs 0 0#32)).cr.psw = false ∧ pswSM (run1 0xB1000000#32 (readyAs 0 0#32)).cr.psw = true :=
  ⟨rfl, by decide, exists_of_isNext (by decide), by decide, by decide⟩

/-- Bank 1's r0 is no register of bank 0. -/
theorem wit_BankIsolation :
    State.reset.unit.queue = [] ∧ (∃ t, exec (.ldi 0#4 5#6) State.reset = .next t) ∧
    (∀ r, State.reset.physReg r ≠ 8) ∧ (∀ r, phys (pswRB (readyAs 0 0#32).cr.psw) r ≠ 15) ∧
    (readyAs 0 0#32).unitIdle ∧ pswSM (readyAs 0 0#32).cr.psw = false ∧ ∃ t, step (readyAs 0 0#32) = .next t :=
  ⟨rfl, ⟨_, rfl⟩, by decide, by decide, rfl, by decide, exists_of_isNext (by decide)⟩

/-- An instruction that does not raise, and one that does. -/
theorem wit_HalvesReadCommittedState :
    let s := regs [(2, 0x101#32)]
    s.unit.queue = [] ∧ s.unit.raised = false ∧ isNext (exec (.add 1#4 2#4) s) = true ∧
    isNext (exec (.ldw 1#4 2#4) s) = true ∧ s.memRead (s.readReg 2#4) 4 = .error .alignment := by decide

/-- A taken branch, a first half that is enabled and records nothing, and one whose predicate gates the second off. -/
theorem wit_SecondHalfSuppressed :
    let s := State.reset
    (gateOpen .nop s.cr.psw = true ∧ exec (.bra 0#10) s = .next (s.setNpc s.pc) ∧
      (s.setNpc s.pc).unit.raised = false ∧ (s.setNpc s.pc).unit.npc.isSome = true) ∧
    (exec .nop s = .next s ∧ s.unit.raised = false ∧ s.unit.npc = none ∧ s.unit.suppressed = false ∧
      gateOpen .nop s.cr.psw = true) ∧
    (exec .exet s = .next s ∧ gateOpen .exet s.cr.psw = false) :=
  ⟨⟨rfl, rfl, rfl, rfl⟩, ⟨rfl, rfl, rfl, rfl, rfl⟩, ⟨rfl, by decide⟩⟩

/-- Both values of both flags, and a partner that executes. -/
theorem wit_PredicatesGate :
    State.reset.unit.raised = false ∧ State.reset.unit.npc = none ∧ pswF0 State.reset.cr.psw = false ∧
    pswC State.reset.cr.psw = false ∧ pswF0 0x405#32 = true ∧ pswC 0x405#32 = true ∧
    isNext (exec (.ldi 1#4 1#6) State.reset) = true := by decide

theorem wit_StepRunsTheUnit :
    (ready 0x8110FFFE#32).atUnit 0x8110FFFE#32 ∧ decodeUnit 0x8110FFFE#32 = .ok (.long (.ldil 1#4 0xFFFE#16)) ∧
    (ready 0x02240000#32).atUnit 0x02240000#32 ∧
    decodeUnit 0x02240000#32 = .ok (.pair .leftFirst (.add 1#4 2#4) .nop) ∧
    (ready 0x4C209842#32).atUnit 0x4C209842#32 ∧
    decodeUnit 0x4C209842#32 = .ok (.pair .rightFirst (.ldi 1#4 1#6) (.ldi 1#4 2#6)) :=
  ⟨⟨rfl, rfl, by decide⟩, by decide, ⟨rfl, rfl, by decide⟩, by decide, ⟨rfl, rfl, by decide⟩, by decide⟩

/-- A unit of two `nop`, whose committed state is quiet; the same with a stop request, with one that arrives, with single step, and with
an interrupt whose vector stops the run. -/
theorem wit_QuietUnitAdvances :
    let s := ready 0#32
    let d := FetchUnit.pair .leftFirst .nop .nop
    let i := { s with
      cr := { CRegs.reset with psw := 0x500, evb := 0xF0000000 }, dev := { s.dev with icLatched := 2#32, icMask := 0#32 } }
    (s.atUnit 0#32 ∧ decodeUnit 0#32 = .ok d ∧ execUnit d (s.startUnit 0#32) = .next (s.startUnit 0#32) ∧
      (s.startUnit 0#32).unit.raised = false ∧ (s.startUnit 0#32).unit.req = none ∧ ((s.startUnit 0#32).commitUnit).quiet) ∧
    (s.requestStop.startUnit 0#32).stopRequest = true ∧
    ({ s with host := { s.host with arrivals := [true] } } : State).host.arrivals.headD false = true ∧
    ({ s with singleStep := true } : State).interruptCheck.singleStep = true ∧ i.interruptCheck.run ≠ .running ∧
    (s.advance s.time).isSome = true :=
  ⟨⟨⟨rfl, rfl, by decide⟩, by decide, rfl, rfl, rfl, ⟨rfl, by decide, rfl, rfl, rfl⟩⟩, rfl, rfl, rfl, by decide, rfl⟩

/-- R264, R267: a stop request that arrives in the step ends it with SIGINT, before the single step's SIGTRAP, and is used up. -/
theorem test_stop_request_arrives :
    let s := { ready 0#32 with singleStep := true, host := { HostState.fresh with arrivals := [true, false] } }
    (run1 0#32 s).run = .stopped (some (.stopped .sigint)) ∧ (run1 0#32 s).stopRequest = false ∧
    (run1 0#32 s).host.arrivals = [false] ∧
    (run1 0#32 { s with host := HostState.fresh }).run = .stopped (some (.stopped .sigtrap)) := by decide

theorem wit_IllegalUnitRaises :
    (ready 0x80000000#32).atUnit 0x80000000#32 ∧ decodeUnit 0x80000000#32 = .error (.reservedLong 0#6) ∧
    (ready 0x80000000#32).cr.legal ∧ (ready 0x80000000#32).cfg.hasFaultVector = true ∧
    (ready 0x80000000#32).readVector 1 = some 0#32 ∧ (ready 0x80000000#32).quiet :=
  ⟨⟨rfl, rfl, by decide⟩, by decide, by unfold CRegs.legal; decide, rfl, by decide, ⟨rfl, by decide, rfl, rfl, rfl⟩⟩

/-- A misaligned PC, and one just past RAM. -/
theorem wit_FetchFaultStops :
    let s := { ready 0#32 with pc := 2#32 }
    let u := { ready 0#32 with pc := 0x00100000#32 }
    s.pc.toNat % 4 ≠ 0 ∧ u.chunks u.pc 4 .fetch (pswSM u.cr.psw) = .error .bus ∧ u.run = .running ∧
    u.waiting = false ∧ u.fetch = none := by decide

/-- An access that crosses the end of the first block, and one that ends there. -/
theorem wit_TranslateClips :
    translate Config.reference [] 0x0000FFFE#32 8 .read true = .ok (0x0000FFFE#32, 2) ∧
    blockSize Config.reference < (0x0000FFFE#32 : Word).toNat % blockSize Config.reference + 8 ∧
    Config.reference.blockBits ≤ 28 ∧
    translate Config.reference [] 0x0000FFF8#32 8 .read true = .ok (0x0000FFF8#32, 8) := by decide

/-- Waiting with nothing requested, with a stop request, and with a level requested, IE 0, IE 1 and with no readable vector; and an event
that asserts no level, and one that asserts level 1 (R547). -/
theorem wit_WaitStepResults :
    let s := { ready 0#32 with waiting := true }
    let d := { s with dev := { s.dev with icLatched := 2#32, icMask := 0#32 } }
    let i := { d with cr := { d.cr with psw := 0x500 }, unit := UnitState.idle 0x500 }
    let n := { i with cr := { i.cr with evb := 0xF0000000 } }
    let e := { s with events := [⟨7, 0, .txDone 65#8⟩], seq := 1 }
    let a := { e with dev := { e.dev with icMask := 0#32, uartCtrl := 0x11#32 } }
    (s.run = .running ∧ s.waiting = true ∧ s.unitIdle ∧ s.icLevel = 0 ∧ s.stopRequest = false ∧ s.events = [] ∧
      s.singleStep = false) ∧ s.requestStop.stopRequest = true ∧
    (d.icLevel = 1 ∧ pswIE d.cr.psw = false ∧ d.unitIdle) ∧
    (i.icLevel = 1 ∧ pswIE i.cr.psw = true ∧ i.unitIdle ∧ i.cr.legal ∧ i.readVector (16 + 1) = some 0#32) ∧
    (n.icLevel = 1 ∧ pswIE n.cr.psw = true ∧ n.unitIdle ∧ n.readVector (16 + 1) = none) ∧
    (e.icLevel = 0 ∧ e.events = ⟨7, 0, .txDone 65#8⟩ :: [] ∧
      (({ e with time := 7 }).advance 7).map (fun u : State => (u.time, u.icLevel)) = some (7, 0)) ∧
    (a.icLevel = 0 ∧ (({ a with time := 7 }).advance 7).map (fun u : State => (u.time, u.icLevel)) = some (7, 1) ∧
      (¬ a.endlessTimer 7)) :=
  ⟨⟨rfl, rfl, rfl, by decide, rfl, rfl, rfl⟩, rfl, ⟨by decide, by decide, rfl⟩,
    ⟨by decide, by decide, rfl, by unfold CRegs.legal; decide, by decide⟩, ⟨by decide, by decide, rfl, by decide⟩,
    ⟨by decide, rfl, by decide⟩, ⟨by decide, by decide, by unfold State.endlessTimer; decide⟩⟩

/-- R547, as in 95_test_vectors.md I9: the wait jumps to time 7, and the level asserted there ends it, without a trap as IE is 0. -/
theorem test_wait_wakes :
    let s := { ready 0#32 with
      waiting := true, events := [⟨7, 0, .txDone 65#8⟩], seq := 1
      dev := { State.reset.dev with icMask := 0#32, uartCtrl := 0x61#32 } }
    (match step s with
      | .next t => (t.time, t.waiting, t.dev.icPending, t.pc, t.run)
      | .fault _ => (0, true, 0, 0, .running)
      | .refused _ => (0, true, 0, 0, .running)) = (7, false, 0x40#32, 0#32, .running) := by decide

/-- State.reset about to make a call: the number and three arguments in r0 to r3. -/
def calling (n a b c : Word) : State := regs [(0, n), (1, a), (2, b), (3, c)]

/-- An unknown number, an fd past the table, and the two ends of a pipe used the wrong way. -/
theorem wit_FailedCallsReportErrors :
    let p := fun (s : State) => { s with fds := [.pipeRd 0, .pipeWr 0], pipes := [(0, ⟨[], true, true⟩)] }
    tableLookup (calling 16 0 0 0).cfg.syscallMap ((calling 16 0 0 0).readReg 0#4) = none ∧
    tableLookup (calling 3 16 0 0).cfg.syscallMap ((calling 3 16 0 0).readReg 0#4) = some .close ∧
    (calling 3 16 0 0).slot ((calling 3 16 0 0).readReg 1#4) = .free ∧
    (p (calling 4 1 0 0)).slot ((calling 4 1 0 0).readReg 1#4) = .pipeWr 0 ∧
    tableLookup (calling 4 1 0 0).cfg.syscallMap ((calling 4 1 0 0).readReg 0#4) = some .read ∧
    (p (calling 5 0 0 0)).slot ((calling 5 0 0 0).readReg 1#4) = .pipeRd 0 ∧
    tableLookup (calling 5 0 0 0).cfg.syscallMap ((calling 5 0 0 0).readReg 0#4) = some .write ∧
    tableLookup (calling 6 0 0 0).cfg.syscallMap ((calling 6 0 0 0).readReg 0#4) = some .lseek := by decide

/-- A write that fills the pipe to its cap, one byte more, one to a pipe whose reader is closed, and one to an empty pipe; a read of what is
there, a read of no bytes, and a read of an empty pipe. -/
theorem wit_PipesCarryBytes :
    let s := { calling 5 1 0x100 2 with
      cfg := { Config.reference with pipeCap := 3 }
      fds := [.pipeRd 0, .pipeWr 0], pipes := [(0, ⟨[7#8], true, true⟩), (1, ⟨[], false, true⟩), (2, ⟨[], true, true⟩)] }
    let r := { calling 4 0 0x100 2 with fds := s.fds, pipes := s.pipes }
    tableLookup s.pipes 0 = some ⟨[7#8], true, true⟩ ∧
    tableLookup s.cfg.syscallMap (s.readReg 0#4) = some .write ∧ s.slot (s.readReg 1#4) = .pipeWr 0 ∧
    s.checkRange (s.readReg 2#4) 2 .read = true ∧ [7#8].length + 2 ≤ s.cfg.pipeCap ∧ s.cfg.pipeCap < [7#8].length + 3 ∧
    (tableLookup s.pipes 1 = some ⟨[], false, true⟩ ∧ tableLookup s.pipes 2 = some ⟨[], true, true⟩ ∧
      ({ s with fds := [.pipeRd 0, .pipeWr 1] } : State).slot (s.readReg 1#4) = .pipeWr 1 ∧
      ({ s with fds := [.pipeRd 2, .pipeWr 2] } : State).fds[0]? = some (.pipeRd 2) ∧ (∀ g, ¬ g < 0)) ∧
    tableLookup r.cfg.syscallMap (r.readReg 0#4) = some .read ∧ r.slot (r.readReg 1#4) = .pipeRd 0 ∧
    r.checkRange (r.readReg 2#4) 2 .write = true ∧ (r.readReg 3#4).toNat ≠ 0 ∧
    ((calling 4 0 0x100 0).readReg 3#4).toNat = 0 ∧ (calling 4 0 0x100 0).checkRange 0x100#32 0 .write = true ∧
    s.unit.queue = [] ∧ r.unit.queue = [] :=
  ⟨by decide, by decide, by decide, by decide, by decide, by decide,
    ⟨by decide, by decide, by decide, by decide, fun _ => Nat.not_lt_zero _⟩, by decide, by decide, by decide, by decide, by decide, by decide, rfl, rfl⟩

/-- Scenario A: the read returns the byte and stores it; and a write whose reader is closed is EPIPE (R465). -/
theorem test_pipe_read :
    let s := { calling 4 0 0x100 2 with fds := [.pipeRd 0, .pipeWr 0], pipes := [(0, ⟨[7#8], true, true⟩)] }
    let t := run1 0xB000000F#32 s
    (x t 0 = 1#32 ∧ x t 1 = 0#32 ∧ t.byteAt 0x100 = 7#8 ∧ (t.pipe 0).buf = [] ∧ t.host.notes = [.pipeEmpty 0]) ∧
    x (run1 0xB000000F#32 { calling 5 1 0x100 1 with fds := [.free, .pipeWr 0], pipes := [(0, ⟨[], false, true⟩)] }) 1 = 32#32 := by
  decide

/-- R474, scenario A: `pipe` gives fds 3 and 4. -/
theorem test_pipe_call :
    let t := run1 0xB000000F#32 (calling 14 0x200 0 0)
    x t 0 = 0#32 ∧ t.byteAt 0x200 = 3#8 ∧ t.byteAt 0x204 = 4#8 ∧ t.slot 3#32 = .pipeRd 0 ∧ t.slot 4#32 = .pipeWr 0 := by decide

/-- The call `n` with r1 = 0x100, where a path "a" stands, and r2 = 2; slots 0 to 2 in use, a pipe, and an answer of the host. -/
def tableCall (n : Word) (fds : List FdSlot) (e : Option HostErrno) : State :=
  { calling n 0x100 2 0 with
    mem := [(0x100, 0x61#8)], fds := fds, pipes := [(0, ⟨[7#8], true, true⟩), (1, ⟨[], false, true⟩)], nextPipe := 2
    host := { HostState.fresh with script := [.reply ⟨e, 9, [], ⟨[]⟩, false⟩] } }

/-- `open` and `pipe` with free slots, with one, and with none; an answer and an error of the host. -/
theorem wit_OpenUsesLowestSlot :
    let s := tableCall 2 (.host 0 :: List.replicate 15 .free) none
    let p := tableCall 14 [.host 0, .free, .host 1, .free] none
    (tableLookup s.cfg.syscallMap (s.readReg 0#4) = some .open_ ∧ s.copyInString (s.readReg 1#4) = .ok [0x61#8] ∧
      openFlags s.cfg (s.readReg 2#4) = some ⟨.readWrite, []⟩ ∧ s.fds[1]? = some .free ∧ s.fds[0]? ≠ some .free ∧
      s.nextAnswer = .reply ⟨none, 9, [], ⟨[]⟩, false⟩ ∧
      (tableCall 2 s.fds (some .eio)).nextAnswer = .reply ⟨some .eio, 9, [], ⟨[]⟩, false⟩) ∧
    (tableLookup p.cfg.syscallMap (p.readReg 0#4) = some .pipe ∧ p.checkRange (p.readReg 1#4) 8 .write = true ∧
      p.fds[1]? = some .free ∧ p.fds[2]? ≠ some .free ∧ p.fds[3]? = some .free ∧
      lowestFree ([.host 0, .free, .host 1].drop 2) 2 = none ∧ lowestFree [FdSlot.host 0, .host 1] 0 = none) :=
  ⟨⟨by decide, by rfl, by decide, by decide, by decide, rfl, rfl⟩, by decide⟩

/-- `close` of a host file, and of each end of a pipe: the other end open, and closed. -/
theorem wit_OpenUsesLowestSlot_close :
    let c := fun (fd : Word) (x : FdSlot) => { calling 3 fd 0 0 with
      pipes := (tableCall 3 [] none).pipes, nextPipe := 2, fds := (List.replicate 16 FdSlot.free).set fd.toNat x
      host := (tableCall 3 [] none).host }
    tableLookup (c 15 (.host 4)).cfg.syscallMap ((c 15 (.host 4)).readReg 0#4) = some .close ∧
    (c 15 (.host 4)).slot ((c 15 (.host 4)).readReg 1#4) = .host 4 ∧ (c 0 (.pipeRd 0)).slot 0#32 = .pipeRd 0 ∧
    (c 3 (.pipeWr 1)).slot 3#32 = .pipeWr 1 ∧ (c 3 (.pipeWr 1)).bridgeLegal ∧
    tableLookup (c 3 (.pipeWr 1)).pipes 1 = some ⟨[], false, true⟩ :=
  ⟨by decide, by decide, by decide, by decide, ⟨by decide, by decide, by decide, by decide⟩, by decide⟩

/-- R463: closing the last end releases the pipe, without a notification. -/
theorem test_close_releases :
    let t := run1 0xB000000F#32 { calling 3 1 0 0 with fds := [.host 0, .pipeWr 1], pipes := (tableCall 3 [] none).pipes, nextPipe := 2 }
    x t 0 = 0#32 ∧ t.fds = [.host 0, .free] ∧ t.pipes = [(0, ⟨[7#8], true, true⟩)] ∧ t.host.notes = [] := by decide

/-- Both arms of the timer, of the UART and of the watchdog, and a mapping register that exists. -/
theorem wit_DeviceWriteRules :
    15 < State.reset.dev.maps.length ∧ (1#32 : Word).getLsbD 0 = true ∧ (2#32 : Word).getLsbD 0 = false ∧
    State.reset.dev.tmrPeriod = 0#32 ∧ ({ State.reset.dev with tmrPeriod := 5#32 } : Devices).tmrPeriod ≠ 0#32 ∧
    State.reset.dev.uartStatus.getLsbD 0 = false ∧
    ({ State.reset.dev with uartStatus := 1#32 } : Devices).uartStatus.getLsbD 0 = true ∧ State.reset.cfg.nlevels = 15 ∧
    State.reset.dev.wdtReload = 0#32 := by decide

/-- R556, R558: arming the timer and kicking an enabled watchdog count their generations, and schedule at the write's time plus the period. -/
theorem test_arming :
    let s := { State.reset with dev := { State.reset.dev with tmrPeriod := 5#32, wdtCtrl := 1#32, wdtReload := 9#32 } }
    (s.devWrite .tmrCtrl 1#32 100).events = [⟨105, 0, .timerExpire 1⟩] ∧ (s.devWrite .tmrCtrl 1#32 100).dev.tgen = 1 ∧
    (s.devWrite .tmrCtrl 0#32 100).dev.tgen = 1 ∧ (s.devWrite .tmrCtrl 0#32 100).events = [] ∧
    (s.devWrite .wdtKick 0#32 100).events = [⟨109, 0, .wdtExpire 1⟩] ∧ (s.devWrite .wdtCtrl 0#32 100).dev.wgen = 1 ∧
    (s.devWrite .wdtCtrl 0#32 100).events = [] := by decide

/-- R606: the ids at the ends of each range, and the first unknown one. -/
theorem wit_DriverRegisters :
    let s := regs [(15, 0x0F#32), (23, 0x17#32)]
    s.readRegister 15 = [0x17#8, 0#8, 0#8, 0#8] ∧ s.readRegister 17 = [0#8, 4#8, 0#8, 0#8] ∧
    s.readRegister 23 = [0#8, 0#8, 0#8, 0#8] ∧ s.readRegister 39 = [0x0F#8, 0#8, 0#8, 0#8] ∧ s.readRegister 40 = [] ∧
    (s.writeRegister 0 [1#8, 2#8, 3#8]).2 = [] ∧ (s.writeRegister 0 [1#8, 2#8, 3#8, 4#8]).2 = [1#8, 2#8, 3#8, 4#8] := by decide

/-- The last byte of RAM and the first past it; a terminal stop, and one that is not. -/
theorem wit_LoadAndResume :
    loadable Config.reference 0x000FFFFF = true ∧ loadable Config.reference 0x00100000 = false ∧
    loadable Config.reference 0x0800FFFF = true ∧ Memory.wf State.reset.cfg State.reset.mem = true ∧
    (State.reset.stopRun (.exited 3#32)).run = .stopped (some (.exited 3#32)) ∧
    (State.reset.stopRun .trapped).run = .stopped (some .trapped) := by decide

/-! ### The assembler's operations (30_encoding.md R217 to R219) -/

/-- `bra +8` at 0x100 and `brf -4` at 0x008 (95_test_vectors.md K9 and the loop program): the fields of the words there. -/
theorem test_branchFields :
    shortBranchField 0x100 0x108 = some 2#10 ∧ shortBranchField 0x8 0x4 = some 0x3FF#10 ∧
    shortBranchField 0x100 0x106 = none ∧ shortBranchField 0 0x800 = none ∧
    longBranchField 0 0x800 = some 0x200#16 := by decide

/-- `addi r1, 1 <- bra +8` is `0x4A20_C002` (95_test_vectors.md K10). -/
theorem test_arrow :
    encodeUnit (arrowUnit (.addi 1#4 1#6) .left (.bra 2#10)) = 0x4A20C002#32 := by decide

/-- `nop` alone is `0x0000_0000`; `li` takes one unit or two (R219). -/
theorem test_pseudo :
    (Pseudo.nop.expand 0).map (·.map encodeUnit) = some [0#32] ∧
    (Pseudo.li 1#4 0xFFFF8000).expand 0 = some [.long (.ldil 1#4 0x8000#16)] ∧
    (Pseudo.li 1#4 0x12345678).expand 0 = some [.long (.ldil 1#4 0x5678#16), .long (.ldih 1#4 0x1234#16)] ∧
    Pseudo.sys.expand 0 = some [.long (.trap 15#4)] := by decide

end Sys2Proof.Tests.Slice0
end

section
/-! SUPPORT. What a step can do, said once: how a unit's execution, its end, the boundary and the wait step
compose (R250 to R263, R547), and the induction principle for what they all keep. -/

namespace Sys2Proof.Machine

/-! ### The stops and checks of a boundary -/

/-- The part of the state that the boundary's bookkeeping leaves alone: what is not here is the unit in progress, the PC, the
time, the queue of events, the host, and how the run stands. -/
structure ArchState where
  cfg : Config
  regs : Vector Word 24
  cr : CRegs
  dev : Devices
  mem : Memory
  fds : List FdSlot
  pipes : List (Nat × Pipe)
  nextPipe : Nat

/-- The registers, devices, memory and the bridge's tables of a state. -/
def State.arch (s : State) : ArchState :=
  ⟨s.cfg, s.regs, s.cr, s.dev, s.mem, s.fds, s.pipes, s.nextPipe⟩

theorem State.arch_eq_iff {s t : State} :
    t.arch = s.arch ↔ t.cfg = s.cfg ∧ t.regs = s.regs ∧ t.cr = s.cr ∧ t.dev = s.dev ∧ t.mem = s.mem ∧
      t.fds = s.fds ∧ t.pipes = s.pipes ∧ t.nextPipe = s.nextPipe := by
  simp [State.arch]

/-- The stops of a boundary concern the run and the stop request alone (R263, R264, R267). -/
theorem State.boundaryStops_arch (s : State) (trapped : Bool) : (s.boundaryStops trapped).arch = s.arch := by
  simp only [State.boundaryStops]
  split
  · rfl
  · split
    · rfl
    · split <;> rfl

/-- After its interrupt check, a boundary stops the run or not (R263). -/
theorem State.boundaryCheck_cases (s : State) (trapped : Bool) :
    s.boundaryCheck trapped = s.takeArrival.interruptCheck ∨
      s.boundaryCheck trapped = s.takeArrival.interruptCheck.boundaryStops trapped := by
  simp only [State.boundaryCheck]
  split
  · exact .inr rfl
  · exact .inl rfl

/-- Once its events are drained, a wait step goes on waiting or has woken to an interrupt check; then it stops the run or not
(R547). -/
theorem State.waitCheck_cases (s : State) :
    s.waitCheck = s.takeArrival.boundaryStops false ∨
      s.waitCheck = { s.takeArrival with waiting := false }.interruptCheck ∨
      s.waitCheck = { s.takeArrival with waiting := false }.interruptCheck.boundaryStops false := by
  simp only [State.waitCheck]
  split
  · exact .inl rfl
  · split
    · exact .inr (.inr rfl)
    · exact .inr (.inl rfl)

/-! ### The end of a unit, and the step -/

/-- How a unit that has executed to `u` ends (R250, R262, R265). -/
inductive UnitEnd (u : State) : State → Prop
  | raisedStop : u.unit.raised = true → u.isRunning = false → UnitEnd u u.endUnit
  | requestStop (r : StopReason) : u.unit.raised = false → UnitEnd u (u.commitUnit.stopRun r).endUnit
  | boundary {v : State} (trapped : Bool) : u.atBoundary.advance u.atBoundary.time = some v →
      UnitEnd u (v.boundaryCheck trapped).endUnit

theorem State.boundary_next {s t : State} {trapped : Bool} (h : s.boundary trapped = .next t) :
    ∃ v, s.advance s.time = some v ∧ t = (v.boundaryCheck trapped).endUnit := by
  simp only [State.boundary] at h
  split at h
  · cases h
  · next v hv => cases h; exact ⟨v, hv, rfl⟩

theorem State.finishUnit_next {u t : State} (h : u.finishUnit = .next t) : UnitEnd u t := by
  cases hr : u.unit.raised with
  | true =>
    have hb : u.atBoundary = u.tick := by simp [State.atBoundary, hr]
    simp only [State.finishUnit, hr, if_true, State.endRaised] at h
    split at h
    · obtain ⟨v, hv, rfl⟩ := State.boundary_next h
      exact .boundary false (hb ▸ hv)
    · next hrun => cases h; exact .raisedStop hr (Bool.eq_false_of_not_eq_true hrun)
  | false =>
    have hb : u.atBoundary = u.commitUnit.advancePc.tick := by simp [State.atBoundary, hr]
    simp only [State.finishUnit, hr, Bool.false_eq_true, if_false, State.completeUnit] at h
    split at h
    · cases h; exact .requestStop _ hr
    · cases h; exact .requestStop _ hr
    · obtain ⟨v, hv, rfl⟩ := State.boundary_next h
      exact .boundary true (hb ▸ hv)
    · obtain ⟨v, hv, rfl⟩ := State.boundary_next h
      exact .boundary false (hb ▸ hv)

/-- The states in which a wait step looks for a requested level: at once, or after the jump to the next event (R547). -/
inductive WaitDrained (s : State) : State → Prop
  | requested : s.icLevel ≠ 0 → WaitDrained s s
  | drained {e : Event} {rest : List Event} {u : State} : s.icLevel = 0 → s.stopRequest = false →
      s.events = e :: rest → { s with time := e.fireTime }.advance e.fireTime = some u → WaitDrained s u

/-- What a step that answers a next state has done (R250, R251, R547). -/
inductive StepOutcome (s : State) : State → Prop
  | halted : s.run ≠ .running → StepOutcome s s
  | fetchFault : s.fetch = none → StepOutcome s (s.stopRun (.signalled .sigbus)).endUnit
  | unit {w : Word} {u t : State} : s.atUnit w → s.unitAnswers w u → UnitEnd u t → StepOutcome s t
  | waitStop : s.waiting = true → s.stopRequest = true →
      StepOutcome s ({ s with stopRequest := false }.stopRun (.stopped .sigint)).endUnit
  | waitIdle : s.waiting = true → s.events = [] →
      StepOutcome s (if s.singleStep then s.stopRun (.stopped .sigtrap) else s).endUnit
  | waitCheck {u : State} : s.waiting = true → WaitDrained s u → StepOutcome s u.waitCheck.endUnit

theorem waitStep_next {s t : State} (hw : s.waiting = true) (h : waitStep s = .next t) : StepOutcome s t := by
  simp only [waitStep] at h
  split at h
  · next hl =>
    simp only [State.waitIdle] at h
    split at h
    · next hs => cases h; exact .waitStop hw hs
    · next hs =>
      split at h
      · next he => cases h; exact .waitIdle hw he
      · next e rest he =>
        split at h
        · cases h
        · next u hu =>
          cases h
          exact .waitCheck hw (.drained hl (Bool.eq_false_of_not_eq_true hs) he hu)
  · next hl => cases h; exact .waitCheck hw (.requested hl)

theorem andThen_next {o : Result} {f : State → Result} {t : State} (h : andThen o f = .next t) :
    ∃ u, o = .next u ∧ f u = .next t := by
  cases o with
  | next u => exact ⟨u, rfl, h⟩
  | fault r => cases h
  | refused r => cases h

theorem runWord_next {w : Word} {s t : State} (h : runWord w s = .next t) :
    ∃ u, s.unitAnswers w u ∧ UnitEnd u t := by
  simp only [runWord] at h
  split at h
  · next e he => exact ⟨_, .inl ⟨e, he, rfl⟩, State.finishUnit_next h⟩
  · next d hd =>
    obtain ⟨u, hu, ht⟩ := andThen_next h
    exact ⟨u, .inr ⟨d, hd, hu⟩, State.finishUnit_next ht⟩

/-- The inversion of `step`. -/
theorem step_outcome {s t : State} (h : step s = .next t) : StepOutcome s t := by
  simp only [step, engineStep] at h
  split at h
  · next r hr => cases h; exact .halted (by simp [hr])
  · next hrun =>
    split at h
    · next hw => exact waitStep_next hw h
    · next hw =>
      simp only [stepUnit] at h
      split at h
      · next hf => cases h; exact .fetchFault hf
      · next w hf =>
        obtain ⟨u, hu, ht⟩ := runWord_next h
        exact .unit ⟨hrun, Bool.eq_false_of_not_eq_true hw, hf⟩ hu ht

/-! ### Inductions over a unit and over a step -/

/-- What every instruction keeps where nothing has raised yet, and suppression and the illegal unit keep, the execution of a unit
keeps (R250 to R258). -/
theorem unitAnswers_induction {P : State → Prop} {s t : State} {w : Word}
    (hexec : ∀ i u v, P u → u.unit.raised = false → exec i u = .next v → P v)
    (hsup : ∀ u, P u → u.unit.raised = false → P u.suppress)
    (hill : P (s.startUnit w).raiseIllegal)
    (hs : P (s.startUnit w)) (h : s.unitAnswers w t) : P t := by
  have hhalf : ∀ b i u v, P u → u.unit.raised = false → execHalf b i u = .next v → P v := by
    intro b i u v hu hr h
    cases b with
    | true => exact hexec i u v hu hr h
    | false => cases h; exact hu
  have hpair : ∀ a b, execPair a b (s.startUnit w) = .next t → P t := by
    intro a b h
    obtain ⟨u, hu, ht⟩ := andThen_next h
    have hPu : P u := hhalf _ _ _ _ hs rfl hu
    simp only [secondHalf] at ht
    split at ht
    · cases ht; exact hPu
    · next hr =>
      have hr' := Bool.eq_false_of_not_eq_true hr
      split at ht
      · cases ht; exact hsup u hPu hr'
      · exact hhalf _ _ _ _ hPu hr' ht
  rcases h with ⟨_, _, rfl⟩ | ⟨d, _, hd⟩
  · exact hill
  · cases d with
    | long i => exact hexec i _ _ hs rfl hd
    | pair o l r => cases o with
      | leftFirst => exact hpair l r hd
      | rightFirst => exact hpair r l hd

/-- A property of the registers, devices, memory and tables that the callbacks of the devices and the interrupt check keep. -/
structure BoundaryInvariant (P : State → Prop) : Prop where
  same : ∀ {s t : State}, P s → t.arch = s.arch → P t
  fire : ∀ (s : State) (e : Event), P s → P (s.fire e)
  interrupt : ∀ s : State, P s → P s.interruptCheck

section
variable {P : State → Prop} (hP : BoundaryInvariant P)
include hP

theorem BoundaryInvariant.endUnit {s : State} (hs : P s) : P s.endUnit :=
  hP.same hs rfl

theorem BoundaryInvariant.stopped {s : State} (hs : P s) (r : StopReason) : P (s.stopRun r).endUnit :=
  hP.same hs rfl

theorem BoundaryInvariant.advance {s t : State} {upto : Ticks} (hs : P s)
    (h : s.advance upto = some t) : P t :=
  (State.advance_induction (fun _ _ _ hu _ _ =>
    hP.fire _ _ (hP.same hu rfl)) hs h).1

theorem BoundaryInvariant.boundaryCheck {s : State} (hs : P s) (trapped : Bool) :
    P (s.boundaryCheck trapped) := by
  have hi : P s.takeArrival.interruptCheck :=
    hP.interrupt _ (hP.same hs rfl)
  rcases s.boundaryCheck_cases trapped with h | h <;> rw [h]
  · exact hi
  · exact hP.same hi (State.boundaryStops_arch _ _)

theorem BoundaryInvariant.waitCheck {s : State} (hs : P s) : P s.waitCheck := by
  have ha : P s.takeArrival := hP.same hs rfl
  have hi : P ({ s.takeArrival with waiting := false } : State).interruptCheck :=
    hP.interrupt _ (hP.same ha rfl)
  rcases s.waitCheck_cases with h | h | h <;> rw [h]
  · exact hP.same ha (State.boundaryStops_arch _ _)
  · exact hi
  · exact hP.same hi (State.boundaryStops_arch _ _)

/-- What the unit has left is kept to its end: as it stands where the unit raised, else as committed. -/
theorem BoundaryInvariant.unitEnd {u t : State} (hr : u.unit.raised = true → P u)
    (hn : u.unit.raised = false → P u.commitUnit) (h : UnitEnd u t) : P t := by
  cases h with
  | raisedStop hru _ => exact hP.endUnit (hr hru)
  | requestStop r hru => exact hP.stopped (hn hru) r
  | boundary trapped hv =>
    refine hP.endUnit (hP.boundaryCheck (hP.advance ?_ hv) trapped)
    simp only [State.atBoundary]
    split
    · next hru => exact hP.same (hr hru) rfl
    · next hru =>
      exact hP.same (hn (Bool.eq_false_of_not_eq_true hru)) rfl

/-- The induction over a step: what the unit keeps and the boundary keeps, a step keeps. -/
theorem BoundaryInvariant.step {s t : State} (hs : P s)
    (hunit : ∀ w u, s.unitAnswers w u →
      (u.unit.raised = true → P u) ∧ (u.unit.raised = false → P u.commitUnit))
    (h : step s = .next t) : P t := by
  cases step_outcome h with
  | halted _ => exact hs
  | fetchFault _ => exact hP.stopped hs _
  | unit _ hu ht => exact hP.unitEnd (hunit _ _ hu).1 (hunit _ _ hu).2 ht
  | waitStop _ _ => exact hP.same hs rfl
  | waitIdle _ _ =>
    split
    · exact hP.stopped hs _
    · exact hP.endUnit hs
  | waitCheck _ hu =>
    refine hP.endUnit (hP.waitCheck ?_)
    cases hu with
    | requested _ => exact hs
    | drained _ _ _ ha => exact hP.advance (hP.same hs (by rfl)) ha

end

end Sys2Proof.Machine
end

section
/-! SUPPORT. The device registers and the configuration over an instruction, a unit and a step, and the statements about them
(R11, R126, R541 to R559). -/

namespace Sys2Proof.Machine

/-! ### What an instruction and a unit leave alone -/

theorem exec_cfg {i : Instr} {s t : State} (h : exec i s = .next t) : t.cfg = s.cfg := by
  rcases exec_effect h with ⟨_, _, _, rfl⟩ | hn | ⟨_, rfl⟩
  · exact State.takeException_cfg ..
  · exact hn.cfg
  · rfl

/-- An instruction reaches the device registers through the queue alone (R141). -/
theorem exec_dev {i : Instr} {s t : State} (h : exec i s = .next t) : t.dev = s.dev := by
  rcases exec_effect h with ⟨_, _, _, rfl⟩ | hn | ⟨_, rfl⟩
  · exact State.takeException_dev ..
  · exact hn.dev
  · rfl

theorem unitAnswers_cfg {s t : State} {w : Word} (h : s.unitAnswers w t) : t.cfg = s.cfg :=
  unitAnswers_induction (P := fun u => u.cfg = s.cfg) (fun _ _ _ hu _ he => (exec_cfg he).trans hu)
    (fun _ hu _ => hu) (State.takeException_cfg ..) rfl h

theorem unitAnswers_dev {s t : State} {w : Word} (h : s.unitAnswers w t) : t.dev = s.dev :=
  unitAnswers_induction (P := fun u => u.dev = s.dev) (fun _ _ _ hu _ he => (exec_dev he).trans hu)
    (fun _ hu _ => hu) (State.takeException_dev ..) rfl h

/-- Counting a suppressed half concerns SUPP alone (R76). -/
theorem State.countSuppressed_eq (s : State) :
    s.countSuppressed = { s with cr := { s.cr with supp := s.countSuppressed.cr.supp } } := by
  simp only [State.countSuppressed]
  split <;> rfl

@[simp] theorem State.commitUnit_cfg (s : State) : s.commitUnit.cfg = s.cfg := by
  rw [State.commitUnit, State.countSuppressed_eq]; exact s.commit_cfg

theorem State.commitUnit_dev (s : State) : s.commitUnit.dev = s.commit.dev := by
  rw [State.commitUnit, State.countSuppressed_eq]

@[simp] theorem State.interruptCheck_cfg (s : State) : s.interruptCheck.cfg = s.cfg := by
  rcases s.interruptCheck_cases with ⟨_, h⟩ | ⟨_, _, ⟨_, h⟩ | ⟨_, h⟩⟩ <;> simp [h]

/-! ### The configuration (R11) -/

theorem cfg_boundaryInvariant (c : Config) : BoundaryInvariant fun s => s.cfg = c where
  same hs h := (State.arch_eq_iff.1 h).1.trans hs
  fire s e hs := (s.fire_cfg e).trans hs
  interrupt s hs := s.interruptCheck_cfg.trans hs

theorem step_cfg {s t : State} (h : step s = .next t) : t.cfg = s.cfg :=
  (cfg_boundaryInvariant s.cfg).step rfl
    (fun _ u hu => ⟨fun _ => unitAnswers_cfg hu, fun _ => u.commitUnit_cfg.trans (unitAnswers_cfg hu)⟩) h

theorem State.resume_cfg (s : State) (b : Bool) : (s.resume b).cfg = s.cfg := by
  simp only [State.resume]
  split
  · split <;> rfl
  · rfl
  · rfl

theorem State.setDriverReg_cfg (s : State) (r : DriverReg) (v : Word) : (s.setDriverReg r v).cfg = s.cfg := by
  cases r with
  | gpr p => rfl
  | pc => rfl
  | cr n => simp only [State.setDriverReg]; split <;> rfl

theorem State.writeRegister_cfg (s : State) (id : Nat) (bs : List Byte) : (s.writeRegister id bs).1.cfg = s.cfg := by
  simp only [State.writeRegister]
  split
  · rfl
  · split
    · rfl
    · exact s.setDriverReg_cfg _ _

theorem State.loadSegments_cfg {s t : State} {segs : List (Nat × List Byte)} (h : s.loadSegments segs = some t) :
    t.cfg = s.cfg := by
  simp only [State.loadSegments] at h
  split at h
  · cases h; rfl
  · cases h

/-- Settles O12; the step is the induction over a step. -/
theorem configurationNeverChanges : Obligations.ConfigurationNeverChanges :=
  ⟨fun _ _ _ => exec_cfg, fun _ _ => step_cfg, fun _ _ => rfl, State.resume_cfg, State.writeRegister_cfg,
    fun _ _ _ => State.loadSegments_cfg⟩

/-! ### The reserved bits of the device registers (R559) -/

theorem applyEntries_dev_legal (es : List WbEntry) {s : State} (h : s.dev.legal s.cfg) :
    (applyEntries es s).dev.legal s.cfg := by
  induction es generalizing s with
  | nil => exact h
  | cons e es ih =>
    have he : (s.applyEntry e).dev.legal s.cfg := by
      rcases e with ⟨d, v, m⟩ | ⟨pa, bs⟩ | ⟨r, v⟩
      · cases d <;> exact h
      · exact h
      · exact State.devWrite_legal h r v s.time
    rw [← s.applyEntry_cfg e] at he ⊢
    exact ih he

theorem State.commitUnit_dev_legal {s : State} (h : s.dev.legal s.cfg) : s.commitUnit.dev.legal s.commitUnit.cfg := by
  rw [State.commitUnit_cfg, State.commitUnit_dev]
  exact applyEntries_dev_legal _ h

theorem State.interruptCheck_dev_legal {s : State} (h : s.dev.legal s.cfg) :
    s.interruptCheck.dev.legal s.cfg := by
  rcases s.interruptCheck_cases with ⟨_, hi⟩ | ⟨_, _, ⟨_, hi⟩ | ⟨_, hi⟩⟩ <;> rw [hi]
  · exact h
  · rw [State.trapEntry_dev]; exact h
  · exact Devices.acknowledge_legal h _

theorem dev_legal_boundaryInvariant : BoundaryInvariant fun s => s.dev.legal s.cfg where
  same hs h := by
    obtain ⟨hc, -, -, hd, -⟩ := State.arch_eq_iff.1 h
    rwa [hc, hd]
  fire s e hs := by rw [State.fire_cfg]; exact State.fire_legal hs e
  interrupt s hs := by rw [State.interruptCheck_cfg]; exact State.interruptCheck_dev_legal hs

/-- Settles O9, by the induction over a step: a unit reaches the device registers at its commit alone. -/
theorem devicesStayMasked : Obligations.DevicesStayMasked := by
  intro s t hs h
  refine dev_legal_boundaryInvariant.step hs (fun w u hu => ?_) h
  have hul : u.dev.legal u.cfg := by rwa [unitAnswers_dev hu, unitAnswers_cfg hu]
  exact ⟨fun _ => hul, fun _ => State.commitUnit_dev_legal hul⟩

end Sys2Proof.Machine
end

section
/-! SUPPORT. A step from user mode keeps the control state or enters a handler (R560 to R562). -/

namespace Sys2Proof.Machine

/-! ### What user mode keeps -/

/-- The PSW is a handler's: supervisor mode, IE clear, bank 1 (R528). -/
def InHandlerMode (psw : Word) : Prop := pswSM psw = true ∧ pswIE psw = false ∧ pswRB psw = true

/-- The saved registers, and every bit of the PSW but the flags, are as they were. -/
def SavedKept (r r' : CRegs) : Prop :=
  r'.bpsw = r.bpsw ∧ r'.bpc = r.bpc ∧ r'.cause = r.cause ∧ r'.badaddr = r.badaddr ∧
    ∀ i, 3 ≤ i → r'.psw.getLsbD i = r.psw.getLsbD i

/-- The control state in `t` is that of `s`, or a handler was entered since. -/
structure UserControl (s t : State) : Prop where
  settings : SettingsKept s t
  evb : t.cr.evb = s.cr.evb
  control : SavedKept s.cr t.cr ∨ InHandlerMode t.cr.psw

theorem SettingsKept.refl (s : State) : SettingsKept s s := ⟨rfl, rfl, rfl, rfl, rfl, rfl, rfl⟩

theorem SettingsKept.trans {s t u : State} (h : SettingsKept s t) (g : SettingsKept t u) : SettingsKept s u :=
  ⟨g.maps.trans h.maps, g.icMask.trans h.icMask, g.icControl.trans h.icControl, g.tmrPeriod.trans h.tmrPeriod,
    g.uartCtrl.trans h.uartCtrl, g.wdtCtrl.trans h.wdtCtrl, g.wdtReload.trans h.wdtReload⟩

theorem SettingsKept.of_dev {s t : State} (h : t.dev = s.dev) : SettingsKept s t := by
  refine ⟨?_, ?_, ?_, ?_, ?_, ?_, ?_⟩ <;> rw [h]

theorem UserControl.refl (s : State) : UserControl s s :=
  ⟨.refl s, rfl, .inl ⟨rfl, rfl, rfl, rfl, fun _ _ => rfl⟩⟩

/-- Where the control registers are the same, the control state is. -/
theorem UserControl.of_settings {s t u : State} (h : UserControl s t) (hd : SettingsKept t u) (hc : u.cr = t.cr) :
    UserControl s u :=
  ⟨h.settings.trans hd, hc ▸ h.evb, hc ▸ h.control⟩

/-- A write of flags keeps the control state, in a handler too. -/
theorem UserControl.of_flags {s t u : State} {p n : Word} (h : UserControl s t) (hd : u.dev = t.dev)
    (hc : u.cr = { t.cr with psw := p, supp := n })
    (hp : ∀ i, 3 ≤ i → p.getLsbD i = t.cr.psw.getLsbD i) : UserControl s u := by
  refine ⟨h.settings.trans (.of_dev hd), by rw [hc]; exact h.evb, ?_⟩
  rw [hc]
  rcases h.control with ⟨h1, h2, h3, h4, h5⟩ | ⟨hsm, hie, hrb⟩
  · exact .inl ⟨h1, h2, h3, h4, fun i hi => (hp i hi).trans (h5 i hi)⟩
  · exact .inr ⟨(hp 10 (by decide)).trans hsm, (hp 8 (by decide)).trans hie, (hp 9 (by decide)).trans hrb⟩

/-- The PSW that trap entry writes is a handler's, whatever it was (R528). -/
theorem trapCr_inHandlerMode (s : State) (k : TrapKind) (ret : Word) : InHandlerMode (trapCr s k ret).psw := by
  refine ⟨?_, ?_, ?_⟩ <;>
    exact (maskedWrite_getLsbD ..).trans (by simp [crMask, handlerPsw])

theorem UserControl.trapEntry {s t : State} (h : UserControl s t) (k : TrapKind) (ret : Word) :
    UserControl s (t.trapEntry k ret) := by
  rcases t.trapEntry_cases k ret with ⟨_, he⟩ | ⟨_, _, he⟩ <;> rw [he]
  · exact h.of_settings (.of_dev rfl) rfl
  · exact ⟨h.settings.trans (.of_dev rfl), h.evb, .inr (trapCr_inHandlerMode t k ret)⟩

theorem UserControl.takeException {s t : State} (h : UserControl s t) (e : Exc) (b ret : Word) :
    UserControl s (t.takeException e b ret) := by
  have hd : UserControl s t.discard.markRaised := h.of_settings (.of_dev rfl) rfl
  rcases t.takeException_cases e b ret with ⟨_, he⟩ | ⟨_, he⟩ <;> rw [he]
  · exact hd.trapEntry _ _
  · exact hd.of_settings (.of_dev rfl) rfl

/-! ### At the boundary -/

/-- A callback changes status registers, and never a setting (R556 to R558). -/
theorem State.fire_settings (s : State) (e : Event) : SettingsKept s (s.fire e) := by
  obtain ⟨ft, sq, cb⟩ := e
  cases cb with
  | timerExpire g =>
    simp only [State.fire, State.timerExpire]
    split
    · split <;> split <;> exact ⟨rfl, rfl, rfl, rfl, rfl, rfl, rfl⟩
    · exact .refl s
  | txDone b =>
    simp only [State.fire, State.txDone]
    split <;> exact ⟨rfl, rfl, rfl, rfl, rfl, rfl, rfl⟩
  | wdtExpire g =>
    simp only [State.fire, State.wdtExpire]
    split <;> exact ⟨rfl, rfl, rfl, rfl, rfl, rfl, rfl⟩

theorem UserControl.interruptCheck {s t : State} (h : UserControl s t) : UserControl s t.interruptCheck := by
  have ht : UserControl s (t.trapEntry (.interrupt t.icLevel) t.pc) := h.trapEntry _ _
  rcases t.interruptCheck_cases with ⟨_, hi⟩ | ⟨_, _, ⟨_, hi⟩ | ⟨_, hi⟩⟩ <;> rw [hi]
  · exact h
  · exact ht
  · refine ht.of_settings ?_ rfl
    have hd : (t.trapEntry (.interrupt t.icLevel) t.pc).dev = t.dev := State.trapEntry_dev ..
    refine ⟨?_, ?_, ?_, ?_, ?_, ?_, ?_⟩ <;> rw [hd] <;> rfl

theorem userControl_boundaryInvariant (s : State) : BoundaryInvariant (UserControl s) where
  same hs h := by
    obtain ⟨-, -, hc, hd, -⟩ := State.arch_eq_iff.1 h
    exact hs.of_settings (.of_dev hd) hc
  fire t e hs := hs.of_settings (t.fire_settings e) (t.fire_cr e)
  interrupt _ hs := hs.interruptCheck

/-! ### The unit in user mode -/

/-- An entry that an instruction may queue in user mode. -/
def UserEntry (e : WbEntry) : Prop := ∃ s : State, s.unit.effSM = false ∧ EntryOk s e

theorem flagMask_bit (f : Option Bool) {b : Word} {i : Nat} (hb : b.getLsbD i = false) :
    (flagMask f b).getLsbD i = false := by
  cases f with
  | none => exact BitVec.getLsbD_zero
  | some _ => exact hb

/-- Flags are the bits below 3 of the PSW (R58). -/
theorem flagsMask_bit (f : FlagWrites) {i : Nat} (hi : 3 ≤ i) :
    (flagMask f.c 1#32 ||| flagMask f.z 2#32 ||| flagMask f.f0 4#32).getLsbD i = false := by
  have hbit : ∀ n : Nat, n < 8 → (BitVec.ofNat 32 n).getLsbD i = false := by
    intro n hn
    have : n < 2 ^ i := Nat.lt_of_lt_of_le hn (Nat.pow_le_pow_right (n := 2) (by decide) hi)
    simp [BitVec.getLsbD_ofNat, Nat.testBit_lt_two_pow this]
  simp only [BitVec.getLsbD_or, flagMask_bit _ (hbit 1 (by decide)), flagMask_bit _ (hbit 2 (by decide)),
    flagMask_bit _ (hbit 4 (by decide)), Bool.or_self]

/-- In user mode the queue reaches no device and no control register but the flags (R561). -/
theorem UserControl.applyEntry {s t : State} (h : UserControl s t) {e : WbEntry} (he : UserEntry e) :
    UserControl s (t.applyEntry e) := by
  obtain ⟨r, hr, hok⟩ := he
  cases hok with
  | gpr j v => exact h.of_settings (.of_dev rfl) rfl
  | mem pa bs _ => exact h.of_settings (.of_dev rfl) rfl
  | flags f =>
    refine h.of_flags rfl rfl fun i hi => ?_
    rw [maskedWrite_getLsbD, flagsMask_bit f hi]
    rfl
  | cr n v hsm => rw [hr] at hsm; cases hsm
  | dev g v hsm => rw [hr] at hsm; cases hsm

theorem UserControl.applyEntries {s t : State} (h : UserControl s t) {es : List WbEntry}
    (hes : ∀ e ∈ es, UserEntry e) : UserControl s (applyEntries es t) := by
  induction es generalizing t with
  | nil => exact h
  | cons e es ih =>
    exact ih (h.applyEntry (hes e (List.mem_cons_self ..))) fun x hx => hes x (List.mem_cons_of_mem _ hx)

theorem UserControl.commitUnit {s t : State} (h : UserControl s t) (hes : ∀ e ∈ t.unit.queue, UserEntry e) :
    UserControl s t.commitUnit := by
  have hc : UserControl s t.commit := (h.applyEntries hes).of_settings (.of_dev rfl) rfl
  rw [State.commitUnit, State.countSuppressed_eq]
  exact hc.of_flags (p := t.commit.cr.psw) rfl rfl fun _ _ => rfl

/-- What a unit that started in user mode has done so far: it may have raised, and otherwise it is still in user mode with
nothing but writes of user mode queued. -/
structure UserUnit (s u : State) : Prop where
  control : UserControl s u
  user : u.unit.raised = false → u.unit.effSM = false ∧ ∀ e ∈ u.unit.queue, UserEntry e

theorem UserUnit.takeException {s u : State} (h : UserUnit s u) (e : Exc) (b ret : Word) :
    UserUnit s (u.takeException e b ret) :=
  ⟨h.control.takeException e b ret, fun hr => by rw [State.takeException_raised] at hr; cases hr⟩

theorem UserUnit.exec {s u v : State} {i : Instr} (h : UserUnit s u) (hr : u.unit.raised = false)
    (he : exec i u = .next v) : UserUnit s v := by
  obtain ⟨hsm, hq⟩ := h.user hr
  rcases exec_effect he with ⟨e, b, r, rfl⟩ | hn | ⟨hs, _⟩
  · exact h.takeException e b r
  · obtain ⟨es, hes, hok⟩ := hn.queue
    refine ⟨h.control.of_settings (.of_dev hn.dev) hn.cr, fun _ => ⟨(hn.eff hsm).2.trans hsm, fun e he => ?_⟩⟩
    rcases List.mem_append.1 (hes ▸ he) with he | he
    · exact hq e he
    · exact ⟨u, hsm, hok e he⟩
  · rw [hsm] at hs; cases hs

theorem unitAnswers_userUnit {s t : State} {w : Word} (hu : pswSM s.cr.psw = false) (h : s.unitAnswers w t) :
    UserUnit s t := by
  have hs : UserUnit s (s.startUnit w) :=
    ⟨(UserControl.refl s).of_settings (.of_dev rfl) rfl, fun _ => ⟨hu, fun e he => by cases he⟩⟩
  exact unitAnswers_induction (fun _ _ _ hu hr he => hu.exec hr he)
    (fun u hu _ => ⟨hu.control.of_settings (.of_dev rfl) rfl, hu.user⟩) (hs.takeException _ _ _) hs h

/-- Settles O44, by the induction over a step: in user mode a unit queues no control write, and the boundary's interrupt, like an
exception, enters a handler. -/
theorem userModeKeepsControl : Obligations.UserModeKeepsControl := by
  intro s t _ hu h
  obtain ⟨hd, he, hc⟩ := (userControl_boundaryInvariant s).step (.refl s) (fun w u hw => by
    obtain ⟨hcontrol, huser⟩ := unitAnswers_userUnit hu hw
    exact ⟨fun _ => hcontrol, fun hr => hcontrol.commitUnit (huser hr).2⟩) h
  exact ⟨hd, he, hc.imp_left fun ⟨h1, h2, h3, h4, h5⟩ => ⟨h1, h2, h3, h4, h5⟩⟩

end Sys2Proof.Machine
end

section
/-! SUPPORT. The interrupt level and the handler that the interrupt check enters, and the statements about them (R528, R540, R545). -/

namespace Sys2Proof.Machine

/-! ### The level (R545) -/

/-- The requests that are not masked. -/
def Devices.openLevels (d : Devices) : Word := (d.icPending ||| d.icLatched) &&& ~~~ d.icMask

theorem State.icLevel_of_off {s : State} (h : s.dev.icControl.getLsbD 0 = false) : s.icLevel = 0 := by
  rw [State.icLevel, h]
  rfl

theorem State.icLevel_of_on {s : State} (h : s.dev.icControl.getLsbD 0 = true) :
    s.icLevel = highestLevel s.dev.openLevels s.cfg.nlevels := by
  simp only [State.icLevel, h, if_true]
  rfl

/-- Settles O43, by the highest set bit of the requests that are not masked. -/
theorem icLevelIsHighest : Obligations.IcLevelIsHighest := by
  intro s v now
  refine ⟨rfl, rfl, rfl, State.icLevel_of_off, fun hon => ?_⟩
  rw [State.icLevel_of_on hon]
  exact highestLevel_spec _ _

/-- A level that is requested has a bit of its own, and its number is one of a word's bits. -/
theorem State.icLevel_bounds {s : State} (h : s.icLevel ≠ 0) :
    1 ≤ s.icLevel ∧ s.icLevel ≤ s.cfg.nlevels ∧ s.icLevel < 32 := by
  cases hc : s.dev.icControl.getLsbD 0 with
  | false => exact absurd (State.icLevel_of_off hc) h
  | true =>
    rw [State.icLevel_of_on hc] at h ⊢
    rcases highestLevel_spec s.dev.openLevels s.cfg.nlevels with ⟨h0, _⟩ | ⟨h1, h2, h3, _⟩
    · exact absurd h0 h
    · exact ⟨h1, h2, BitVec.lt_of_getLsbD h3⟩

theorem levelBit_of_le {c : Config} {l : Nat} (h1 : 1 ≤ l) (h2 : l ≤ c.nlevels) : levelBit c l = 1#32 <<< l :=
  if_pos ⟨h1, h2⟩

/-! ### Entering a handler (R528) -/

theorem handlerPsw_masked (psw : Word) : handlerPsw psw &&& 0x00000707#32 = handlerPsw psw := by
  simp only [handlerPsw, BitVec.and_or_distrib_right, BitVec.and_assoc]
  rfl

/-- Trap entry with a readable vector enters the handler (R528). -/
theorem State.trapEntry_entered {s : State} {k : TrapKind} {h : Word} (hl : s.cr.legal) (ret : Word)
    (hv : s.readVector k.vector = some h) :
    HandlerEntered s (s.trapEntry k ret) (k.cause &&& 0x80000F1F#32) (k.badaddr s.cr.badaddr) ret h := by
  rcases s.trapEntry_cases k ret with ⟨hn, _⟩ | ⟨g, hg, he⟩
  · rw [hv] at hn; cases hn
  · obtain rfl : h = g := Option.some.inj (hv.symm.trans hg)
    rw [he, trapCr_of_legal hl, handlerPsw_masked]
    exact ⟨rfl, rfl, rfl, rfl, rfl, rfl, rfl, rfl, rfl, rfl, rfl, rfl⟩

/-- What is said of an entered handler does not depend on the device registers. -/
theorem HandlerEntered.withDev {s t : State} {cause badaddr ret handler : Word}
    (h : HandlerEntered s t cause badaddr ret handler) (d : Devices) :
    HandlerEntered s { t with dev := d } cause badaddr ret handler :=
  ⟨h.pc, h.psw, h.bpsw, h.bpc, h.cause, h.badaddr, h.evb, h.supp, h.effRB, h.effSM, h.waiting, by rw [h.rest]⟩

/-- CAUSE has a bit for every bit of a level's number (R63, R528). -/
theorem interruptCause_masked {l : Nat} (h : l < 32) :
    (TrapKind.interrupt l).cause &&& 0x80000F1F#32 = 0x80000000#32 ||| BitVec.ofNat 32 l := by
  have hl : BitVec.ofNat 32 l &&& 0x80000F1F#32 = BitVec.ofNat 32 l := by
    interval_cases l <;> rfl
  rw [TrapKind.cause, BitVec.and_or_distrib_right, hl]
  rfl

/-! ### The interrupt check (R540) -/

/-- The run after an entry that found its vector is the run before it. -/
theorem State.trapEntry_run_of_vector {s : State} {k : TrapKind} {h : Word} (ret : Word)
    (hv : s.readVector k.vector = some h) : (s.trapEntry k ret).run = s.run := by
  rcases s.trapEntry_cases k ret with ⟨hn, _⟩ | ⟨_, _, he⟩
  · rw [hv] at hn; cases hn
  · rw [he]

theorem State.trapEntry_of_no_vector {s : State} {k : TrapKind} (ret : Word)
    (hv : s.readVector k.vector = none) : s.trapEntry k ret = s.stopRun (.signalled .sigbus) := by
  rcases s.trapEntry_cases k ret with ⟨_, he⟩ | ⟨_, hg, _⟩
  · exact he
  · rw [hv] at hg; cases hg

theorem State.interruptCheck_of_none {s : State} (h : pswIE s.cr.psw = false ∨ s.icLevel = 0) :
    s.interruptCheck = s := by
  rcases s.interruptCheck_cases with ⟨_, hi⟩ | ⟨hie, hl, _⟩
  · exact hi
  · rcases h with h | h
    · rw [hie] at h; cases h
    · exact absurd h hl

/-- An interrupt whose vector cannot be read stops the run, and nothing is acknowledged. -/
theorem State.interruptCheck_of_no_vector {s : State} (hie : pswIE s.cr.psw = true) (hl : s.icLevel ≠ 0)
    (hv : s.readVector (16 + s.icLevel) = none) : s.interruptCheck = s.stopRun (.signalled .sigbus) := by
  have he := State.trapEntry_of_no_vector (k := .interrupt s.icLevel) s.pc hv
  rcases s.interruptCheck_cases with ⟨h | h, _⟩ | ⟨_, _, ⟨_, hi⟩ | ⟨hr, _⟩⟩
  · rw [hie] at h; cases h
  · exact absurd h hl
  · rw [hi, he]
  · rw [he] at hr; cases hr

/-- An interrupt whose vector can be read is delivered: its handler is entered and its level acknowledged. -/
theorem State.interruptCheck_of_vector {s : State} {h : Word} (hie : pswIE s.cr.psw = true) (hl : s.icLevel ≠ 0)
    (hrun : s.run = .running) (hlegal : s.cr.legal) (hv : s.readVector (16 + s.icLevel) = some h) :
    HandlerEntered s s.interruptCheck (0x80000000#32 ||| BitVec.ofNat 32 s.icLevel) s.cr.badaddr s.pc h ∧
      s.interruptCheck.dev = { s.dev with icPending := s.dev.icPending &&& ~~~ (1#32 <<< s.icLevel),
                                          icLatched := s.dev.icLatched &&& ~~~ (1#32 <<< s.icLevel) } := by
  obtain ⟨h1, h2, h3⟩ := State.icLevel_bounds hl
  have hr : (s.trapEntry (.interrupt s.icLevel) s.pc).isRunning = true := by
    rw [State.isRunning, State.trapEntry_run_of_vector (k := .interrupt s.icLevel) _ hv, hrun]
    rfl
  have hi : s.interruptCheck =
      { s.trapEntry (.interrupt s.icLevel) s.pc with dev := s.dev.acknowledge s.cfg s.icLevel } := by
    rcases s.interruptCheck_cases with ⟨h | h, _⟩ | ⟨_, _, ⟨hn, _⟩ | ⟨_, hi⟩⟩
    · rw [hie] at h; cases h
    · exact absurd h hl
    · rw [hr] at hn; cases hn
    · exact hi
  have he := State.trapEntry_entered (k := .interrupt s.icLevel) hlegal s.pc hv
  rw [interruptCause_masked h3] at he
  rw [hi]
  refine ⟨he.withDev _, ?_⟩
  rw [Devices.acknowledge, levelBit_of_le h1 h2]

/-- Settles O42: the three cases of the interrupt check. -/
theorem interruptTaken : Obligations.InterruptTaken :=
  fun _ _ => ⟨State.interruptCheck_of_vector, State.interruptCheck_of_no_vector, State.interruptCheck_of_none⟩

end Sys2Proof.Machine
end

section
/-! SUPPORT. The device registers' write functions, the callbacks and the queue, one equation per case, and the statements about them
(R541 to R559); what a reset sets (R600). -/

namespace Sys2Proof.Machine

/-! ### Reset (R600) -/

theorem levelMask_reference {c : Config} (h : c.nlevels = 15) : levelMask c = 0x0000FFFE#32 := by
  rw [levelMask, h]
  rfl

theorem State.readPhys_driverReset (s : State) (entry : Word) (p : PReg) : (s.driverReset entry).readPhys p = 0#32 :=
  Vector.getElem_replicate ..

/-- Settles O5: each field is set by name, and the others are not named. -/
theorem resetSets : Obligations.ResetSets := by
  intro s entry
  refine ⟨s.readPhys_driverReset entry, rfl, rfl, rfl, rfl, rfl, rfl, rfl, rfl, rfl, rfl, rfl, rfl, rfl, rfl, rfl, rfl, rfl,
    rfl, rfl, levelMask_reference, rfl, rfl, rfl, rfl, rfl, rfl, rfl, rfl, rfl, rfl, rfl, rfl, rfl, fun _ => ⟨rfl, rfl⟩,
    rfl, rfl, rfl, rfl, rfl, rfl⟩

/-! ### Device writes (R541 to R544, R556 to R559) -/

theorem State.devRead_devWrite_map {s : State} {k : Nat} (h : k < s.dev.maps.length) (v : Word) (now : Ticks) :
    (s.devWrite (.map k) v now).devRead (.map k) = v &&& 0xC000FFFF#32 := by
  simp [State.devWrite, State.devRead, h]

/-- Arming the timer (R556). -/
theorem State.writeTmrCtrl_arm {s : State} {v : Word} (now : Ticks) (hv : v.getLsbD 0 = true)
    (hp : s.dev.tmrPeriod ≠ 0#32) :
    s.writeTmrCtrl v now =
      { s with dev := { s.dev with tmrCtrl := v &&& 0x000000F3#32, tgen := s.dev.tgen + 1 } }.schedule
        now s.dev.tmrPeriod.toNat (.timerExpire (s.dev.tgen + 1)) := by
  have hen : (v &&& 0x000000F3#32).getLsbD 0 = true := by rw [BitVec.getLsbD_and, hv]; rfl
  simp only [State.writeTmrCtrl, hen, if_true, hp, if_false]

/-- The control bits with EN kept 0. -/
theorem tmrCtrl_disabled (v : Word) : (v &&& 0x000000F3#32) &&& ~~~ 1#32 = v &&& 0x000000F2#32 := by
  rw [BitVec.and_assoc]
  rfl

theorem and_not_one_of_clear {v : Word} (h : v.getLsbD 0 = false) : v &&& ~~~ 1#32 = v := by
  apply BitVec.eq_of_getLsbD_eq
  intro i hi
  cases i with
  | zero => rw [BitVec.getLsbD_and, h]; rfl
  | succ i => rw [BitVec.getLsbD_and, BitVec.getLsbD_not, BitVec.getLsbD_one]; simp [hi]

/-- Disarming the timer, or arming it with no period (R556). -/
theorem State.writeTmrCtrl_disarm {s : State} {v : Word} (now : Ticks)
    (h : v.getLsbD 0 = false ∨ s.dev.tmrPeriod = 0#32) :
    s.writeTmrCtrl v now =
      { s with dev := { s.dev with tmrCtrl := v &&& 0x000000F2#32, tgen := s.dev.tgen + 1 } } := by
  simp only [State.writeTmrCtrl]
  split
  · next hen =>
    have hv : v.getLsbD 0 ≠ false := by
      intro hf
      rw [BitVec.getLsbD_and, hf] at hen
      cases hen
    rw [if_pos (h.resolve_left hv), tmrCtrl_disabled]
  · next hen => rw [← tmrCtrl_disabled, and_not_one_of_clear (Bool.eq_false_of_not_eq_true hen)]

/-- Settles O58: the timer needs its cases; the other writes are the write functions themselves. -/
theorem deviceWriteRules : Obligations.DeviceWriteRules := by
  intro s v now k rearmed
  refine ⟨fun hk => State.devRead_devWrite_map hk v now, rfl, rfl, rfl, levelMask_reference, rfl, rfl, rfl, rfl, rfl, rfl, rfl,
    rfl, rfl, rfl, State.writeTmrCtrl_arm now, State.writeTmrCtrl_disarm now, fun hbusy => if_pos hbusy,
    fun hfree => if_neg (by rw [hfree]; decide), rfl, rfl⟩

/-! ### The callbacks (R555 to R558) -/

theorem levelBit_zero (c : Config) : levelBit c 0 = 0#32 := if_neg (by omega)

/-- Level 0 asserts nothing. -/
theorem Devices.assertInterrupt_unless_zero (d : Devices) (c : Config) (l : Nat) :
    (if l ≠ 0 then d.assertInterrupt c l else d) = d.assertInterrupt c l := by
  split
  · rfl
  · next h => rw [not_ne_iff.1 h, Devices.assertInterrupt, levelBit_zero, BitVec.or_zero]

/-- The devices after a timer has expired, but for EN (R556). -/
def Devices.timerExpired (d : Devices) (c : Config) : Devices :=
  { d with tmrStatus := d.tmrStatus ||| 1#32 }.assertInterrupt c (levelField d.tmrCtrl)

theorem State.timerExpire_stale {s : State} {g : Nat} (now : Ticks)
    (h : g ≠ s.dev.tgen ∨ s.dev.tmrCtrl.getLsbD 0 = false) : s.timerExpire g now = s := by
  refine if_neg fun ⟨hg, hen⟩ => ?_
  rcases h with h | h
  · exact h hg
  · rw [h] at hen; cases hen

theorem State.timerExpire_current {s : State} {g : Nat} (now : Ticks) (hg : g = s.dev.tgen)
    (hen : s.dev.tmrCtrl.getLsbD 0 = true) :
    s.timerExpire g now =
      if s.dev.tmrCtrl.getLsbD 1 then
        { s with dev := s.dev.timerExpired s.cfg }.schedule now s.dev.tmrPeriod.toNat (.timerExpire s.dev.tgen)
      else { s with dev := { s.dev.timerExpired s.cfg with tmrCtrl := s.dev.tmrCtrl &&& ~~~ 1#32 } } := by
  simp only [State.timerExpire, hg, hen, and_self, if_true, Devices.assertInterrupt_unless_zero]
  rfl

theorem State.txDone_eq (s : State) (b : Byte) :
    s.txDone b = { s with
      dev := { s.dev with
        uartStatus := s.dev.uartStatus &&& ~~~ 1#32
        icPending := s.dev.icPending |||
          (if s.dev.uartCtrl.getLsbD 0 then levelBit s.cfg (levelField s.dev.uartCtrl) else 0#32) }
      host := { s.host with calls := s.host.calls ++ [.print [b]] } } := by
  simp only [State.txDone]
  cases hie : s.dev.uartCtrl.getLsbD 0 with
  | false => simp
  | true => simp only [true_and, Devices.assertInterrupt_unless_zero, if_true]; rfl

theorem State.wdtExpire_stale {s : State} {g : Nat} (h : g ≠ s.dev.wgen ∨ s.dev.wdtCtrl.getLsbD 0 = false) :
    s.wdtExpire g = s := by
  refine if_neg fun ⟨hg, hen⟩ => ?_
  rcases h with h | h
  · exact h hg
  · rw [h] at hen; cases hen

theorem State.wdtExpire_current {s : State} {g : Nat} (hg : g = s.dev.wgen) (hen : s.dev.wdtCtrl.getLsbD 0 = true) :
    s.wdtExpire g = { s with dev :=
      { s.dev with wdtStatus := s.dev.wdtStatus ||| 1#32 }.assertInterrupt s.cfg s.cfg.wdtLevel } :=
  if_pos ⟨hg, hen⟩

/-! ### The queue (R551 to R553) -/

/-- In an ordered queue an event goes after those that are due no later, and before the others (R551). -/
theorem insertEvent_eq_filter (e : Event) {l : List Event} (h : l.Pairwise Event.before) :
    insertEvent e l = l.filter (fun f => decide (f.fireTime ≤ e.fireTime)) ++ [e] ++
      l.filter (fun f => !decide (f.fireTime ≤ e.fireTime)) := by
  induction l with
  | nil => rfl
  | cons f l ih =>
    obtain ⟨hf, hl⟩ := List.pairwise_cons.1 h
    by_cases hle : f.fireTime ≤ e.fireTime
    · simp [insertEvent, hle, ih hl]
    · have hlater : ∀ g ∈ f :: l, ¬ g.fireTime ≤ e.fireTime := by
        intro g hg
        rcases List.mem_cons.1 hg with rfl | hg
        · exact hle
        · rcases hf g hg with hlt | ⟨heq, _⟩
          · bv_omega
          · exact heq ▸ hle
      rw [List.filter_eq_nil_iff.2 fun g hg => by simpa using hlater g hg,
        List.filter_eq_self.2 fun g hg => by simpa using hlater g hg]
      exact if_neg hle

/-- The completion of a transmitted byte, as it is queued. -/
def txEvent (x : Ticks × Nat × Byte) : Event := ⟨x.1, x.2.1, .txDone x.2.2⟩

/-- A drain of transmit completions prints their bytes in the order of the queue, and queues nothing (R553, R557). -/
theorem State.drain_txEvents {upto : Ticks} (l : List (Ticks × Nat × Byte)) {fuel : Nat} {s : State}
    (hs : s.events = l.map txEvent) (hdue : ∀ x ∈ l, x.1 ≤ upto) (hfuel : l.length ≤ fuel) :
    ∃ t, State.drain upto fuel s = some t ∧ t.events = [] ∧
      t.host.calls = s.host.calls ++ l.map fun x => .print [x.2.2] := by
  induction l generalizing fuel s with
  | nil => exact ⟨s, by cases fuel <;> simp [State.drain, hs, eventDue], hs, by simp⟩
  | cons x l ih =>
    cases fuel with
    | zero => cases hfuel
    | succ fuel =>
      have hfire : ({ s with events := l.map txEvent } : State).fire (txEvent x) =
          ({ s with events := l.map txEvent } : State).txDone x.2.2 := rfl
      obtain ⟨t, ht, he, hc⟩ := ih (fuel := fuel) (s := ({ s with events := l.map txEvent } : State).fire (txEvent x))
        (by rw [hfire, State.txDone_eq]) (fun y hy => hdue y (List.mem_cons_of_mem _ hy)) (Nat.le_of_succ_le_succ hfuel)
      refine ⟨t, ?_, he, ?_⟩
      · rw [State.drain, hs]
        exact (if_pos (hdue x (List.mem_cons_self ..))).trans ht
      · rw [hc, hfire, State.txDone_eq]
        simp

/-- A drain has fuel for every event that is due. -/
theorem length_le_drainBound {upto : Ticks} {l : List Event} (h : ∀ e ∈ l, e.fireTime ≤ upto) :
    l.length ≤ drainBound upto l := by
  induction l with
  | nil => exact Nat.le_refl _
  | cons e l ih =>
    have he : e.fireTime.toNat ≤ upto.toNat := h e (List.mem_cons_self ..)
    have hl := ih fun x hx => h x (List.mem_cons_of_mem _ hx)
    simp only [List.length_cons, drainBound]
    omega

theorem State.advance_txEvents {upto : Ticks} (l : List (Ticks × Nat × Byte)) {s : State}
    (hs : s.events = l.map txEvent) (hdue : ∀ x ∈ l, x.1 ≤ upto) :
    ∃ t, s.advance upto = some t ∧ t.events = [] ∧
      t.host.calls = s.host.calls ++ l.map fun x => .print [x.2.2] := by
  refine State.drain_txEvents l hs hdue ?_
  rw [hs]
  refine (l.length_map txEvent) ▸ length_le_drainBound fun e he => ?_
  obtain ⟨x, hx, rfl⟩ := List.mem_map.1 he
  exact hdue x hx

/-- Settles O17: the place of an inserted event, the drain of transmit completions, and the callbacks case by case. -/
theorem scheduledEventsFireInOrder : Obligations.ScheduledEventsFireInOrder := by
  refine ⟨?_, fun t n => ⟨le_addTicks t n, addTicks_toNat⟩, ?_, ?_⟩
  · intro s now delay cb ho hq due
    exact ⟨insertEvent_eq_filter _ ho, rfl, insertEvent_ordered ho hq⟩
  · intro s a b c hs
    refine State.advance_txEvents [(10, s.seq + 1, b), (20, s.seq + 1 + 1, c), (30, s.seq, a)] ?_ (by simp)
    have h10 : addTicks 0 10 = 10 := by decide
    have h20 : addTicks 0 20 = 20 := by decide
    have h30 : addTicks 0 30 = 30 := by decide
    simp only [State.schedule_frame, hs, h10, h20, h30]
    rfl
  · intro s at_ q g b bit expired
    refine ⟨State.timerExpire_stale at_, fun hg hen => ⟨fun hone => ?_, fun hper => ?_⟩, s.txDone_eq b,
      State.wdtExpire_stale, State.wdtExpire_current⟩
    · refine (State.timerExpire_current at_ hg hen).trans ?_
      rw [hone]
      rfl
    · refine (State.timerExpire_current at_ hg hen).trans ?_
      rw [hper, hg]
      rfl

end Sys2Proof.Machine
end

section
/-! SUPPORT. The driver's registers, the loader and `resume`, and the statements about them (R266, R603, R606, R607). -/

namespace Sys2Proof.Machine

/-! ### Register ids (R606) -/

theorem driverReg_current (rb : Bool) {id : Nat} (h : id < 16) :
    driverReg rb id = some (.gpr (phys rb (BitVec.ofNat 4 id))) :=
  if_pos h

theorem driverReg_cr (rb : Bool) (n : CReg) : driverReg rb (17 + n.number.toNat) = some (.cr n) := by
  cases n <;> rfl

theorem driverReg_bank (rb : Bool) (p : PReg) (h : p.val < 16) : driverReg rb (24 + p.val) = some (.gpr p) := by
  rw [driverReg, if_neg (by omega), if_neg (by omega), if_neg (by omega), dif_pos (by omega)]
  simp

theorem driverReg_unknown (rb : Bool) {id : Nat} (h : 40 ≤ id) : driverReg rb id = none := by
  rw [driverReg, if_neg (by omega), if_neg (by omega), if_neg (by omega), dif_neg (by omega)]

/-- The numbers below 7 are control registers (R63). -/
theorem exists_creg_number {k : Nat} (h : k < 7) : ∃ n : CReg, k = n.number.toNat := by
  interval_cases k
  exacts [⟨.psw, rfl⟩, ⟨.bpsw, rfl⟩, ⟨.bpc, rfl⟩, ⟨.evb, rfl⟩, ⟨.cause, rfl⟩, ⟨.badaddr, rfl⟩, ⟨.supp, rfl⟩]

/-- The ids below 40 are the ones that name a register. -/
theorem driverReg_known (rb : Bool) {id : Nat} (h : id < 40) : ∃ r, driverReg rb id = some r := by
  by_cases h1 : id < 16
  · exact ⟨_, driverReg_current rb h1⟩
  by_cases h2 : id = 16
  · exact ⟨.pc, by rw [h2]; rfl⟩
  by_cases h3 : id < 24
  · obtain ⟨n, hn⟩ := exists_creg_number (k := id - 17) (by omega)
    exact ⟨.cr n, by rw [show id = 17 + n.number.toNat by omega]; exact driverReg_cr rb n⟩
  · exact ⟨_, by rw [show id = 24 + (id - 24) by omega]; exact driverReg_bank rb ⟨id - 24, by omega⟩ (by simp; omega)⟩

theorem State.readRegister_of_reg {s : State} {id : Nat} {r : DriverReg} (h : driverReg (pswRB s.cr.psw) id = some r) :
    s.readRegister id = disassemble s.cfg.endian 4 (s.driverValue r).toNat := by
  rw [State.readRegister, h]

theorem State.readRegister_unknown {s : State} {id : Nat} (h : 40 ≤ id) : s.readRegister id = [] := by
  rw [State.readRegister, driverReg_unknown _ h]

/-- The word that a write of `bs` to a register gives it, before any mask (R606). -/
def State.driverWord (s : State) (bs : List Byte) : Word := BitVec.ofNat 32 (assemble s.cfg.endian (bs.take 4))

theorem State.writeRegister_of_reg {s : State} {id : Nat} {r : DriverReg} {bs : List Byte}
    (h : driverReg (pswRB s.cr.psw) id = some r) (hl : 4 ≤ bs.length) :
    s.writeRegister id bs = (s.setDriverReg r (s.driverWord bs), bs.take 4) := by
  rw [State.writeRegister, h]
  exact if_neg (by omega)

theorem State.writeRegister_unknown {s : State} {id : Nat} (h : 40 ≤ id) (bs : List Byte) :
    s.writeRegister id bs = (s, []) := by
  rw [State.writeRegister, driverReg_unknown _ h]

theorem State.writeRegister_short {s : State} {bs : List Byte} (h : bs.length < 4) (id : Nat) :
    s.writeRegister id bs = (s, []) := by
  simp only [State.writeRegister]
  split
  · rfl
  · exact if_pos h

theorem State.setDriverReg_cr (s : State) (n : CReg) (v : Word) :
    (s.setDriverReg (.cr n) v).cr = s.cr.set n (maskedWrite (s.readCr n) v (crMask n)) := by
  simp only [State.setDriverReg]
  split <;> rfl

/-- Settles O59, from the register that each id names. -/
theorem driverRegisters : Obligations.DriverRegisters := by
  intro s bs i
  refine ⟨fun hi => State.readRegister_of_reg (driverReg_current _ hi), rfl,
    fun n => State.readRegister_of_reg (driverReg_cr _ n), fun p hp => State.readRegister_of_reg (driverReg_bank _ p hp),
    fun hi => ⟨State.readRegister_unknown hi, State.writeRegister_unknown hi bs⟩,
    fun hl => State.writeRegister_short hl i, fun hl => ?_⟩
  have hpsw : s.writeRegister 17 bs = (s.setDriverReg (.cr .psw) (s.driverWord bs), bs.take 4) :=
    State.writeRegister_of_reg (driverReg_cr _ .psw) hl
  refine ⟨fun hi => ?_, fun hi => ?_, ?_, fun n => ?_, ?_, ?_, fun p hp => ?_⟩
  · obtain ⟨r, hr⟩ := driverReg_known (pswRB s.cr.psw) hi
    rw [State.writeRegister_of_reg hr hl]
  · rw [State.writeRegister_of_reg (driverReg_current _ hi) hl]
    rfl
  · rw [State.writeRegister_of_reg (r := .pc) rfl hl]
    rfl
  · rw [State.writeRegister_of_reg (driverReg_cr _ n) hl]
    exact s.setDriverReg_cr n _
  · rw [hpsw]
    rfl
  · rw [hpsw]
    rfl
  · rw [State.writeRegister_of_reg (driverReg_bank _ p hp) hl]
    rfl

/-! ### Loading (R603) -/

theorem segmentLoadable_iff {c : Config} {g : Nat × List Byte} :
    segmentLoadable c g = true ↔ ∀ i, i < g.2.length → loadable c (g.1 + i) = true := by
  simp [segmentLoadable]

theorem State.loadSegments_of_loadable {s : State} {segs : List (Nat × List Byte)}
    (h : ∀ g ∈ segs, ∀ i, i < g.2.length → loadable s.cfg (g.1 + i) = true) :
    s.loadSegments segs = some { s with mem := loadInOrder s.cfg segs s.mem } :=
  if_pos (List.all_eq_true.2 fun g hg => segmentLoadable_iff.2 (h g hg))

theorem State.loadSegments_refused {s : State} {segs : List (Nat × List Byte)}
    (h : ∃ g ∈ segs, ∃ i, i < g.2.length ∧ loadable s.cfg (g.1 + i) = false) : s.loadSegments segs = none := by
  obtain ⟨g, hg, i, hi, hf⟩ := h
  refine if_neg fun hall => ?_
  have := segmentLoadable_iff.1 (List.all_eq_true.1 hall g hg) i hi
  rw [hf] at this
  cases this

theorem loadInOrder_append (c : Config) (xs ys : List (Nat × List Byte)) (m : Memory) :
    loadInOrder c (xs ++ ys) m = loadInOrder c ys (loadInOrder c xs m) := by
  induction xs generalizing m with
  | nil => rfl
  | cons x xs ih => exact ih _

theorem wf_loadInOrder {c : Config} {m : Memory} (h : Memory.wf c m = true) (segs : List (Nat × List Byte)) :
    Memory.wf c (loadInOrder c segs m) = true := by
  induction segs generalizing m with
  | nil => exact h
  | cons g segs ih => exact ih (Memory.wf_writeBytes c h _ _)

/-! ### Resuming (R266, R607) -/

theorem State.resume_terminal {s : State} {r : StopReason} (b : Bool) (h : s.run = .stopped (some r))
    (ht : r.terminal = true) : s.resume b = s := by
  simp only [State.resume, h, ht, if_true]

theorem State.resume_stopped {s : State} {r : StopReason} (b : Bool) (h : s.run = .stopped (some r))
    (ht : r.terminal = false) : s.resume b = { s with run := .running, singleStep := b } := by
  simp only [State.resume, h, ht, Bool.false_eq_true, if_false]

theorem step_of_stopped {s : State} {r : Option StopReason} (h : s.run = .stopped r) : step s = .next s := by
  simp only [step, engineStep, h]

/-- Settles O60: the last segment is written over memory in canonical form, where a read after a write gives the byte written. -/
theorem loadAndResume : Obligations.LoadAndResume := by
  refine ⟨fun s segs => State.loadSegments_refused, fun s segs pa bs hm hl => ?_, fun s r b hr => ⟨?_, ?_, step_of_stopped hr⟩⟩
  · have hread : ∀ x, Memory.read s.cfg (loadInOrder s.cfg (segs ++ [(pa, bs)]) s.mem) x =
        if pa ≤ x ∧ x < pa + bs.length then bs.getD (x - pa) 0#8
        else Memory.read s.cfg (loadInOrder s.cfg segs s.mem) x := by
      rw [loadInOrder_append]
      exact Memory.read_writeBytes s.cfg (wf_loadInOrder hm segs) pa bs
    refine ⟨_, _, State.loadSegments_of_loadable fun g hg => hl g (List.mem_append_left _ hg),
      State.loadSegments_of_loadable hl, fun i hi => (hread (pa + i)).trans ?_, fun a ha => (hread a).trans ?_⟩
    · rw [if_pos (by omega), Nat.add_sub_cancel_left, List.getD_eq_getElem _ _ hi]
    · exact if_neg (by omega)
  · rintro (⟨code, rfl⟩ | ⟨sig, rfl⟩) <;> exact State.resume_terminal b hr rfl
  · rintro (⟨sig, rfl⟩ | rfl) <;> rw [State.resume_stopped b hr rfl] <;> exact ⟨rfl, rfl⟩

end Sys2Proof.Machine
end

section
/-! SUPPORT. Where a drain ends, the wait step case by case, and the statement about it (R546, R547, R552). -/

namespace Sys2Proof.Machine

/-! ### A drain that ends (R551, R552, R556) -/

theorem drainBound_insertEvent (upto : Ticks) (e : Event) (l : List Event) :
    drainBound upto (insertEvent e l) = (upto.toNat + 1 - e.fireTime.toNat) + drainBound upto l := by
  induction l with
  | nil => rfl
  | cons f l ih =>
    simp only [insertEvent]
    split
    · simp only [drainBound, ih]
      omega
    · rfl

theorem eventDue_of_drainBound {upto : Ticks} {l : List Event} (h : drainBound upto l = 0) : eventDue upto l = false := by
  cases l with
  | nil => rfl
  | cons e l =>
    simp only [drainBound] at h
    simp only [eventDue, decide_eq_false_iff_not, BitVec.le_def]
    omega

/-- A timer's callback does one of three things (R556): nothing; it reloads; or it stops. -/
theorem State.timerExpire_cases (s : State) (g : Nat) (now : Ticks) :
    s.timerExpire g now = s ∨
      (s.dev.tmrCtrl.getLsbD 1 = true ∧ s.timerExpire g now =
        { s with dev := s.dev.timerExpired s.cfg }.schedule now s.dev.tmrPeriod.toNat (.timerExpire s.dev.tgen)) ∨
      s.timerExpire g now =
        { s with dev := { s.dev.timerExpired s.cfg with tmrCtrl := s.dev.tmrCtrl &&& ~~~ 1#32 } } := by
  by_cases h : g = s.dev.tgen ∧ s.dev.tmrCtrl.getLsbD 0 = true
  · rw [State.timerExpire_current now h.1 h.2]
    split
    · next hp => exact .inr (.inl ⟨hp, rfl⟩)
    · exact .inr (.inr rfl)
  · exact .inl (if_neg h)

/-- A callback leaves PERIODIC as it is (R556). -/
theorem State.fire_periodic (s : State) (e : Event) :
    (s.fire e).dev.tmrCtrl.getLsbD 1 = s.dev.tmrCtrl.getLsbD 1 := by
  obtain ⟨ft, sq, cb⟩ := e
  cases cb with
  | timerExpire g =>
    simp only [State.fire]
    rcases s.timerExpire_cases g ft with h | ⟨_, h⟩ | h <;> rw [h]
    · rfl
    · exact (BitVec.getLsbD_and ..).trans (Bool.and_true _)
  | txDone b => simp only [State.fire, State.txDone_eq]
  | wdtExpire g =>
    simp only [State.fire, State.wdtExpire]
    split <;> rfl

theorem State.fire_endlessTimer (s : State) (e : Event) (upto : Ticks) :
    (s.fire e).endlessTimer upto ↔ s.endlessTimer upto := by
  rw [State.endlessTimer, State.endlessTimer, State.fire_periodic, (s.fire_settings e).tmrPeriod]

/-- All a callback does to the queue: a periodic timer reloads one period on, and nothing else is queued. -/
theorem State.fire_events (s : State) (e : Event) :
    (s.fire e).events = s.events ∨
      s.dev.tmrCtrl.getLsbD 1 = true ∧ ∃ q cb,
        (s.fire e).events = insertEvent ⟨addTicks e.fireTime s.dev.tmrPeriod.toNat, q, cb⟩ s.events := by
  obtain ⟨ft, sq, cb⟩ := e
  cases cb with
  | timerExpire g =>
    simp only [State.fire]
    rcases s.timerExpire_cases g ft with h | ⟨hp, h⟩ | h <;> rw [h]
    · exact .inl rfl
    · exact .inr ⟨hp, _, _, rfl⟩
    · exact .inl rfl
  | txDone b => simp only [State.fire, State.txDone_eq, true_or]
  | wdtExpire g =>
    simp only [State.fire, State.wdtExpire]
    split <;> exact .inl rfl

/-- Firing a due event brings a drain nearer to its end, unless the timer is endless. -/
theorem State.drainBound_fire {s : State} {e : Event} {upto : Ticks} (h : ¬ s.endlessTimer upto)
    (hdue : e.fireTime ≤ upto) :
    drainBound upto (s.fire e).events < drainBound upto (e :: s.events) := by
  have hle : e.fireTime.toNat ≤ upto.toNat := hdue
  rcases s.fire_events e with hf | ⟨hp, q, cb, hf⟩
  · rw [hf, drainBound]
    omega
  · have hper : s.dev.tmrPeriod ≠ 0#32 ∧ upto.toNat + s.dev.tmrPeriod.toNat < 2 ^ 64 := by
      simpa [State.endlessTimer, hp] using h
    have hpos : s.dev.tmrPeriod.toNat ≠ 0 := fun h0 => hper.1 (BitVec.eq_of_toNat_eq h0)
    have hsum : (addTicks e.fireTime s.dev.tmrPeriod.toNat).toNat = e.fireTime.toNat + s.dev.tmrPeriod.toNat :=
      addTicks_toNat (by omega)
    rw [hf, drainBound_insertEvent, drainBound, hsum]
    omega

/-- A drain ends within its bound, unless the timer is endless. -/
theorem State.drain_ends {upto : Ticks} {fuel : Nat} {s : State} (h : ¬ s.endlessTimer upto)
    (hb : drainBound upto s.events ≤ fuel) : ∃ t, State.drain upto fuel s = some t := by
  induction fuel generalizing s with
  | zero =>
    rw [State.drain, eventDue_of_drainBound (Nat.le_zero.1 hb)]
    exact ⟨s, rfl⟩
  | succ fuel ih =>
    simp only [State.drain]
    split
    · exact ⟨s, rfl⟩
    · next e rest he =>
      split
      · next hdue =>
        refine ih (mt (State.fire_endlessTimer ..).1 h) (Nat.le_of_lt_succ ?_)
        exact Nat.lt_of_lt_of_le (State.drainBound_fire (s := { s with events := rest }) h hdue) (he ▸ hb)
      · exact ⟨s, rfl⟩

/-- `Advance` ends and leaves nothing due, unless the timer is endless (R552). -/
theorem State.advance_ends {s : State} {upto : Ticks} (h : ¬ s.endlessTimer upto) :
    ∃ t, s.advance upto = some t ∧ eventDue upto t.events = false := by
  obtain ⟨t, ht⟩ := State.drain_ends h (Nat.le_refl _)
  exact ⟨t, ht, (State.advance_induction (P := fun _ => True) (fun _ _ _ _ _ _ => trivial) trivial ht).2⟩

/-! ### Ending a step with no unit in progress -/

theorem State.endUnit_of_idle {s : State} (h : s.unitIdle) : s.endUnit = s := by
  rw [State.endUnit, ← h]

theorem State.boundaryStops_endUnit (s : State) (trapped : Bool) :
    (s.boundaryStops trapped).endUnit = s.endUnit.boundaryStops trapped := by
  simp only [State.boundaryStops, apply_ite State.endUnit]
  rfl

/-! ### The wait step, case by case (R547) -/

theorem step_of_waiting {s : State} (hr : s.run = .running) (hw : s.waiting = true) : step s = waitStep s := by
  simp only [step, engineStep, hr, hw, if_true]

theorem waitStep_of_stopRequest {s : State} (hl : s.icLevel = 0) (hs : s.stopRequest = true) :
    waitStep s = .next ({ s with stopRequest := false }.stopRun (.stopped .sigint)).endUnit := by
  rw [waitStep, if_pos hl, State.waitIdle, if_pos hs]

theorem waitStep_of_no_event {s : State} (hl : s.icLevel = 0) (hs : s.stopRequest = false) (he : s.events = []) :
    waitStep s = .next (if s.singleStep then s.stopRun (.stopped .sigtrap) else s).endUnit := by
  simp only [waitStep, hl, if_true, State.waitIdle, hs, Bool.false_eq_true, if_false, he]

theorem waitStep_of_drained {s u : State} (h : WaitDrained s u) : waitStep s = .next u.waitCheck.endUnit := by
  cases h with
  | requested hl => exact if_neg hl
  | drained hl hs he ha =>
    rw [waitStep, if_pos hl, State.waitIdle, if_neg (by rw [hs]; decide)]
    split
    · next hn => rw [he] at hn; cases hn
    · next hc => rw [he] at hc; cases hc; rw [ha]

/-- What a drain leaves alone. -/
structure DrainFrame (s u : State) : Prop where
  pc : u.pc = s.pc
  cr : u.cr = s.cr
  unit : u.unit = s.unit
  run : u.run = s.run

theorem WaitDrained.frame {s u : State} (h : WaitDrained s u) : DrainFrame s u := by
  cases h with
  | requested _ => exact ⟨rfl, rfl, rfl, rfl⟩
  | drained _ _ _ ha =>
    exact ⟨(State.advance_pc ha :), (State.advance_cr ha :), (State.advance_unit ha :), (State.advance_run ha :)⟩

/-- The state in which a wait step checks for an interrupt once a level is requested: the wait is over (R547). -/
def State.woken (s : State) : State := { s.takeArrival with waiting := false }

theorem State.readVector_woken (s : State) (v : Nat) : s.woken.readVector v = s.readVector v :=
  State.readVector_congr (s := s) (t := s.woken) rfl rfl rfl rfl v

/-- Ending the step leaves the effective view of the handler as it is (R75). -/
theorem HandlerEntered.endUnit {s t : State} {cause badaddr ret handler : Word}
    (h : HandlerEntered s t cause badaddr ret handler) : HandlerEntered s t.endUnit cause badaddr ret handler :=
  ⟨h.pc, h.psw, h.bpsw, h.bpc, h.cause, h.badaddr, h.evb, h.supp, by simp [h.psw, UnitState.idle],
    by simp [h.psw, UnitState.idle], h.waiting, by rw [State.endUnit, h.rest]⟩

/-- What is said of an entered handler does not depend on whether the machine was waiting before. -/
theorem HandlerEntered.of_woken {s t : State} {cause badaddr ret handler : Word}
    (h : HandlerEntered s.woken t cause badaddr ret handler) :
    HandlerEntered s.takeArrival t cause badaddr ret handler :=
  ⟨h.pc, h.psw, h.bpsw, h.bpc, h.cause, h.badaddr, h.evb, h.supp, h.effRB, h.effSM, h.waiting, h.rest⟩

theorem State.waitCheck_of_running {u : State} (h : u.icLevel ≠ 0) (hr : u.woken.interruptCheck.run = .running) :
    u.waitCheck = u.woken.interruptCheck.boundaryStops false := by
  refine (if_neg h).trans (if_pos ?_)
  show u.woken.interruptCheck.isRunning = true
  rw [State.isRunning, hr]
  rfl

/-- Nothing requested: the wait goes on. -/
theorem State.waitCheck_of_no_level {u : State} (hidle : u.unitIdle) (h : u.icLevel = 0) :
    u.waitCheck.endUnit = u.takeArrival.boundaryStops false := by
  have hw : u.waitCheck = u.takeArrival.boundaryStops false := if_pos h
  rw [hw, State.boundaryStops_endUnit, State.endUnit_of_idle (s := u.takeArrival) hidle]

/-- A level requested with IE 0: the wait is over, and no handler is entered. -/
theorem State.waitCheck_of_disabled {u : State} (hidle : u.unitIdle) (hrun : u.run = .running) (h : u.icLevel ≠ 0)
    (hie : pswIE u.cr.psw = false) : u.waitCheck.endUnit = u.woken.boundaryStops false := by
  have hi : u.woken.interruptCheck = u.woken := State.interruptCheck_of_none (.inl hie)
  rw [State.waitCheck_of_running h (by rw [hi]; exact hrun), State.boundaryStops_endUnit, hi,
    State.endUnit_of_idle (s := u.woken) hidle]

/-- A level requested with IE 1: its handler is entered and the level acknowledged. -/
theorem State.waitCheck_of_vector {u : State} {h : Word} (hrun : u.run = .running) (hl : u.icLevel ≠ 0)
    (hie : pswIE u.cr.psw = true) (hlegal : u.cr.legal) (hv : u.readVector (16 + u.icLevel) = some h) :
    ∃ t, u.waitCheck.endUnit = t.boundaryStops false ∧
      HandlerEntered u.takeArrival t (0x80000000#32 ||| BitVec.ofNat 32 u.icLevel) u.cr.badaddr u.pc h ∧ t.unitIdle ∧
      t.dev = { u.dev with icPending := u.dev.icPending &&& ~~~ (1#32 <<< u.icLevel),
                           icLatched := u.dev.icLatched &&& ~~~ (1#32 <<< u.icLevel) } := by
  obtain ⟨hentered, hdev⟩ :=
    State.interruptCheck_of_vector (s := u.woken) hie hl hrun hlegal ((u.readVector_woken _).trans hv)
  have hirun : u.woken.interruptCheck.run = .running := (congrArg State.run hentered.rest).trans hrun
  refine ⟨u.woken.interruptCheck.endUnit, ?_, hentered.endUnit.of_woken, rfl, hdev⟩
  rw [State.waitCheck_of_running hl hirun, State.boundaryStops_endUnit]

/-- A level requested with IE 1, whose vector cannot be read: the run stops, and no other stop replaces it. -/
theorem State.waitCheck_of_no_vector {u : State} (hidle : u.unitIdle) (h : u.icLevel ≠ 0) (hie : pswIE u.cr.psw = true)
    (hv : u.readVector (16 + u.icLevel) = none) : u.waitCheck.endUnit = u.woken.stopRun (.signalled .sigbus) := by
  have hi : u.woken.interruptCheck = u.woken.stopRun (.signalled .sigbus) :=
    State.interruptCheck_of_no_vector (s := u.woken) hie h ((u.readVector_woken _).trans hv)
  have hw : u.waitCheck = u.woken.interruptCheck := by
    refine (if_neg h).trans (if_neg ?_)
    show ¬ u.woken.interruptCheck.isRunning = true
    rw [hi]
    exact Bool.false_ne_true
  rw [hw, hi, State.endUnit_of_idle (s := u.woken.stopRun _) hidle]

/-- Settles O54: what the step does before it looks for a level, and then the four ways the look can end. -/
theorem waitStepResults : Obligations.WaitStepResults := by
  intro s hrun hwait hidle stopped polled
  rw [step_of_waiting hrun hwait]
  refine ⟨fun hl hs => ?_, fun hl hs he => ?_, ?_, fun e rest _ _ _ hend => ?_⟩
  · rw [waitStep_of_stopRequest hl hs]
    exact congrArg Host.Outcome.next (State.endUnit_of_idle hidle)
  · rw [waitStep_of_no_event hl hs he]
    split <;> exact congrArg Host.Outcome.next (State.endUnit_of_idle hidle)
  · intro u hu r woken
    have hd : WaitDrained s u := by
      rcases hu with ⟨hl, rfl⟩ | ⟨hl, hs, e, rest, he, _, ha⟩
      · exact .requested hl
      · exact .drained hl hs he ha
    obtain ⟨hpc, hcr, hunit, hru⟩ := hd.frame
    have huidle : u.unitIdle := by rw [State.unitIdle, hunit, hcr]; exact hidle
    have hurun : u.run = .running := hru.trans hrun
    rw [waitStep_of_drained hd, ← hcr, ← hpc]
    refine ⟨fun hl => ?_, fun hl hie => ?_, fun h hl hie hlegal hv => ?_, fun hl hie hv => ?_⟩
    · exact congrArg Host.Outcome.next (State.waitCheck_of_no_level huidle hl)
    · exact congrArg Host.Outcome.next (State.waitCheck_of_disabled huidle hurun hl hie)
    · obtain ⟨t, ht, hentered⟩ := State.waitCheck_of_vector hurun hl hie hlegal hv
      exact ⟨t, congrArg Host.Outcome.next ht, hentered⟩
    · exact congrArg Host.Outcome.next (State.waitCheck_of_no_vector huidle hl hie hv)
  · obtain ⟨u, hu, hdue⟩ := State.advance_ends (s := { s with time := e.fireTime }) hend
    exact ⟨u, hu, State.advance_time hu, hdue⟩

end Sys2Proof.Machine
end

section
/-! SUPPORT. Between steps: no unit in progress, the reserved bits of the control registers 0, and in user mode the registers of
the other bank as they were (R55, R58, R64, R70, R75); what reset starts with (R80, R600). -/

namespace Sys2Proof.Machine

/-! ### Reset -/

/-- Settles O6: each register is read off; the queue of events and the pipes are empty, and every mapping register is 0. -/
theorem resetStateLegal : Obligations.ResetStateLegal := by
  have hmaps : ∀ m ∈ State.reset.dev.maps, m &&& ~~~ 0xC000FFFF#32 = 0#32 := fun m hm => by
    rw [List.eq_of_mem_replicate hm]; rfl
  have hdev : State.reset.dev.legal State.reset.cfg :=
    ⟨rfl, hmaps, rfl, rfl, rfl, rfl, rfl, rfl, rfl, rfl, rfl, rfl⟩
  have hevents : State.reset.eventsLegal := ⟨.nil, fun e he => by cases he⟩
  have hbridge : State.reset.bridgeLegal :=
    ⟨rfl, .nil, (fun e he => by cases he), (fun e he => by cases he)⟩
  exact ⟨by decide, rfl, ⟨rfl, rfl, rfl, rfl, rfl⟩, hdev, hevents, hbridge, rfl⟩

/-! ### No unit in progress (R70, R75) -/

theorem State.endUnit_idle (s : State) : s.endUnit.unitIdle := rfl

/-- Settles O14: but for a stopped machine, every way a step can go ends the unit. -/
theorem unitStaysIdle : Obligations.UnitStaysIdle := by
  intro s t hs h
  cases step_outcome h with
  | halted _ => exact hs
  | fetchFault _ => exact State.endUnit_idle _
  | unit _ _ ht => cases ht <;> exact State.endUnit_idle _
  | waitStop _ _ => exact State.endUnit_idle _
  | waitIdle _ _ => exact State.endUnit_idle _
  | waitCheck _ _ => exact State.endUnit_idle _

/-! ### What a unit queues (R70, R259) -/

/-- After an instruction the queue holds what it held, or less, and entries of the instruction's own. -/
theorem exec_queue {i : Instr} {s t : State} (h : exec i s = .next t) :
    ∀ e ∈ t.unit.queue, e ∈ s.unit.queue ∨ EntryOk s e := by
  intro e he
  rcases exec_effect h with ⟨_, _, _, rfl⟩ | hn | ⟨_, rfl⟩
  · rw [State.takeException_queue] at he; cases he
  · obtain ⟨es, hes, hok⟩ := hn.queue
    rw [hes] at he
    exact (List.mem_append.1 he).imp_right (hok e)
  · exact .inl he

/-- Everything that a unit has queued, an instruction has queued. -/
theorem unitAnswers_queue {s t : State} {w : Word} (h : s.unitAnswers w t) :
    ∀ e ∈ t.unit.queue, ∃ r, EntryOk r e := by
  have hraise : ∀ e ∈ (s.startUnit w).raiseIllegal.unit.queue, ∃ r, EntryOk r e := by
    rw [State.raiseIllegal, State.takeException_queue]
    exact fun e he => by cases he
  exact unitAnswers_induction (P := fun u => ∀ e ∈ u.unit.queue, ∃ r, EntryOk r e)
    (fun i u v hu _ hv e he => (exec_queue hv e he).elim (hu e) fun hok => ⟨u, hok⟩)
    (fun _ hu _ => hu) hraise (fun e he => by cases he) h

/-- What every entry of the queue keeps, applying the queue keeps (R72). -/
theorem applyEntries_induction {P : State → Prop} {es : List WbEntry} {s : State} (hs : P s)
    (h : ∀ e ∈ es, ∀ t, P t → P (t.applyEntry e)) : P (applyEntries es s) := by
  induction es generalizing s with
  | nil => exact hs
  | cons e es ih =>
    exact ih (h e (List.mem_cons_self ..) s hs) fun x hx => h x (List.mem_cons_of_mem _ hx)

/-! ### One register entry (R72) -/

theorem State.readPhys_applyEntry_gpr (s : State) (q : PReg) (v m : Word) (p : PReg) :
    (s.applyEntry (.reg (.gpr q) v m)).readPhys p =
      if p = q then maskedWrite (s.readPhys q) v m else s.readPhys p := by
  simp only [State.applyEntry, State.readPhys]
  split
  · next h => subst h; exact Vector.getElem_set_self ..
  · next h => exact Vector.getElem_set_ne _ _ fun hv => h (Fin.ext hv.symm)

theorem State.readCr_applyEntry_cr (s : State) (n : CReg) (v m : Word) (k : CReg) :
    (s.applyEntry (.reg (.cr n) v m)).readCr k =
      if k = n then maskedWrite (s.readCr k) v m else s.readCr k := by
  by_cases h : k = n
  · subst h; rw [if_pos rfl]; cases k <;> rfl
  · have hn : n ≠ k := Ne.symm h
    rw [if_neg h]
    cases k <;> simp [State.applyEntry, State.readCr, hn]

/-! ### The reserved bits of the control registers (R58, R63, R64) -/

/-- A masked write inside `m` sets no bit outside it. -/
theorem maskedWrite_masked {old mask m : Word} (h : old &&& ~~~ m = 0#32) (hm : mask &&& ~~~ m = 0#32) (v : Word) :
    maskedWrite old v mask &&& ~~~ m = 0#32 := by
  rw [maskedWrite, BitVec.and_comm v]
  exact masked_or (masked_left h _) (masked_left hm _)

theorem flagMask_masked {b m : Word} (h : b &&& ~~~ m = 0#32) (f : Option Bool) : flagMask f b &&& ~~~ m = 0#32 := by
  cases f with
  | none => exact BitVec.zero_and
  | some _ => exact h

/-- A write through the register's mask sets no reserved bit. -/
theorem CRegs.legal_set {s : State} (h : s.cr.legal) (n : CReg) (v : Word) :
    (s.cr.set n (maskedWrite (s.readCr n) v (crMask n))).legal := by
  obtain ⟨hpsw, hbpsw, hbpc, hevb, hcause⟩ := h
  cases n with
  | psw => exact ⟨maskedWrite_legal hpsw v, hbpsw, hbpc, hevb, hcause⟩
  | bpsw => exact ⟨hpsw, maskedWrite_legal hbpsw v, hbpc, hevb, hcause⟩
  | bpc => exact ⟨hpsw, hbpsw, maskedWrite_legal hbpc v, hevb, hcause⟩
  | evb => exact ⟨hpsw, hbpsw, hbpc, maskedWrite_legal hevb v, hcause⟩
  | cause => exact ⟨hpsw, hbpsw, hbpc, hevb, maskedWrite_legal hcause v⟩
  | badaddr => exact ⟨hpsw, hbpsw, hbpc, hevb, hcause⟩
  | supp => exact ⟨hpsw, hbpsw, hbpc, hevb, hcause⟩

/-- No entry that an instruction queues sets a reserved bit: a control register is written through its mask, the flags through
theirs. -/
theorem EntryOk.applyEntry_legal {s t : State} {e : WbEntry} (he : EntryOk s e) (h : t.cr.legal) :
    (t.applyEntry e).cr.legal := by
  cases he with
  | gpr j v => exact h
  | flags f =>
    obtain ⟨hpsw, hrest⟩ := h
    have hmask := masked_or (masked_or (flagMask_masked (b := 1#32) (m := 0x00000707#32) rfl f.c)
      (flagMask_masked (b := 2#32) rfl f.z)) (flagMask_masked (b := 4#32) rfl f.f0)
    exact ⟨maskedWrite_masked hpsw hmask _, hrest⟩
  | cr n v _ => exact CRegs.legal_set h n v
  | mem pa bs _ => exact h
  | dev r v _ => rw [State.applyEntry, State.devWrite_cr]; exact h

theorem exec_legal {i : Instr} {s t : State} (hs : s.cr.legal) (h : exec i s = .next t) : t.cr.legal := by
  rcases exec_effect h with ⟨_, _, _, rfl⟩ | hn | ⟨_, rfl⟩
  · exact State.takeException_legal hs _ _ _
  · rw [hn.cr]; exact hs
  · exact hs

theorem unitAnswers_legal {s t : State} {w : Word} (hs : s.cr.legal) (h : s.unitAnswers w t) : t.cr.legal :=
  unitAnswers_induction (P := fun u => u.cr.legal) (fun _ _ _ hu _ he => exec_legal hu he) (fun _ hu _ => hu)
    (State.takeException_legal (s := s.startUnit w) hs _ _ _) hs h

theorem State.commitUnit_legal {s : State} (h : s.cr.legal) (hq : ∀ e ∈ s.unit.queue, ∃ r, EntryOk r e) :
    s.commitUnit.cr.legal := by
  have hc : s.commit.cr.legal := applyEntries_induction (P := fun u => u.cr.legal) h fun e he _ hu => by
    obtain ⟨_, hok⟩ := hq e he
    exact hok.applyEntry_legal hu
  rw [State.commitUnit, State.countSuppressed_eq]
  exact hc

theorem State.interruptCheck_legal {s : State} (h : s.cr.legal) : s.interruptCheck.cr.legal := by
  rcases s.interruptCheck_cases with ⟨_, hi⟩ | ⟨_, _, ⟨_, hi⟩ | ⟨_, hi⟩⟩ <;> rw [hi]
  · exact h
  · exact State.trapEntry_legal h _ _
  · exact State.trapEntry_legal h _ _

theorem cr_legal_boundaryInvariant : BoundaryInvariant fun s => s.cr.legal where
  same hs h := by
    obtain ⟨-, -, hc, -⟩ := State.arch_eq_iff.1 h
    rwa [hc]
  fire s e hs := by rw [State.fire_cr]; exact hs
  interrupt _ hs := State.interruptCheck_legal hs

/-- Settles O8, by the induction over a step: a unit writes the control registers at its commit, or enters a handler. -/
theorem controlRegistersStayMasked : Obligations.ControlRegistersStayMasked := by
  intro s t hs h
  refine cr_legal_boundaryInvariant.step hs (fun w u hu => ?_) h
  have hul := unitAnswers_legal hs hu
  exact ⟨fun _ => hul, fun _ => State.commitUnit_legal hul (unitAnswers_queue hu)⟩

/-! ### The registers of the other bank (R55, R56) -/

/-- An instruction reaches the general registers through the queue alone (R14). -/
theorem exec_regs {i : Instr} {s t : State} (h : exec i s = .next t) : t.regs = s.regs := by
  rcases exec_effect h with ⟨_, _, _, rfl⟩ | hn | ⟨_, rfl⟩
  · exact State.takeException_regs ..
  · exact hn.regs
  · rfl

theorem unitAnswers_regs {s t : State} {w : Word} (h : s.unitAnswers w t) : t.regs = s.regs :=
  unitAnswers_induction (P := fun u => u.regs = s.regs) (fun _ _ _ hu _ he => (exec_regs he).trans hu)
    (fun _ hu _ => hu) (State.takeException_regs ..) rfl h

theorem State.readPhys_congr {s t : State} (h : t.regs = s.regs) (p : PReg) : t.readPhys p = s.readPhys p := by
  rw [State.readPhys, State.readPhys, h]

/-- An entry that an instruction may queue under the bank `rb`. -/
def BankEntry (rb : Bool) (e : WbEntry) : Prop := ∃ s : State, s.unit.effRB = rb ∧ EntryOk s e

/-- An entry queued under a bank writes no register that the bank does not name. -/
theorem BankEntry.readPhys_applyEntry {rb : Bool} {e : WbEntry} (he : BankEntry rb e) {p : PReg}
    (hp : ∀ r, phys rb r ≠ p) (t : State) : (t.applyEntry e).readPhys p = t.readPhys p := by
  obtain ⟨s, hs, hok⟩ := he
  cases hok with
  | gpr j v =>
    have hj : p ≠ s.physReg j := fun h => hp j (by rw [h, State.physReg, hs])
    rw [State.readPhys_applyEntry_gpr, if_neg hj]
  | flags f => rfl
  | cr n v _ => rfl
  | mem pa bs _ => rfl
  | dev r v _ => exact State.readPhys_congr (State.devWrite_regs ..) p

theorem State.readPhys_commit_of_bank {s : State} {rb : Bool} (h : ∀ e ∈ s.unit.queue, BankEntry rb e) {p : PReg}
    (hp : ∀ r, phys rb r ≠ p) : s.commit.readPhys p = s.readPhys p :=
  applyEntries_induction (P := fun u => u.readPhys p = s.readPhys p) rfl fun e he t ht =>
    ((h e he).readPhys_applyEntry hp t).trans ht

/-- An instruction writes no register that its bank does not name. -/
theorem exec_readPhys_commit {i : Instr} {s t : State} (hq : s.unit.queue = []) (h : exec i s = .next t) {p : PReg}
    (hp : ∀ r, s.physReg r ≠ p) : t.commit.readPhys p = s.readPhys p := by
  have hbank : ∀ e ∈ t.unit.queue, BankEntry s.unit.effRB e := fun e he =>
    (exec_queue h e he).elim (fun hs => by rw [hq] at hs; cases hs) fun hok => ⟨s, rfl, hok⟩
  rw [State.readPhys_commit_of_bank hbank hp]
  exact State.readPhys_congr (exec_regs h) p

/-- What a unit that started in user mode with the bank `rb` has done so far: what it queued names registers through that bank, and
unless it has raised it is still in user mode and in that bank. -/
structure BankUnit (rb : Bool) (u : State) : Prop where
  view : u.unit.raised = false → u.unit.effSM = false ∧ u.unit.effRB = rb
  queue : ∀ e ∈ u.unit.queue, BankEntry rb e

theorem BankUnit.of_raised {rb : Bool} {u : State} (hr : u.unit.raised = true) (hq : u.unit.queue = []) :
    BankUnit rb u :=
  ⟨(fun h => by rw [hr] at h; cases h), (fun e he => by rw [hq] at he; cases he)⟩

theorem BankUnit.exec {rb : Bool} {u v : State} {i : Instr} (h : BankUnit rb u) (hr : u.unit.raised = false)
    (he : exec i u = .next v) : BankUnit rb v := by
  obtain ⟨hsm, hrb⟩ := h.view hr
  refine ⟨fun hv => ?_, fun e hq => (exec_queue he e hq).elim (h.queue e) fun hok => ⟨u, hrb, hok⟩⟩
  rcases exec_effect he with ⟨_, _, _, rfl⟩ | hn | ⟨hs, _⟩
  · rw [State.takeException_raised] at hv; cases hv
  · obtain ⟨hrb', hsm'⟩ := hn.eff hsm
    exact ⟨hsm'.trans hsm, hrb'.trans hrb⟩
  · rw [hsm] at hs; cases hs

theorem unitAnswers_bankUnit {s t : State} {w : Word} (hu : pswSM s.cr.psw = false) (h : s.unitAnswers w t) :
    BankUnit (pswRB s.cr.psw) t :=
  unitAnswers_induction (fun _ _ _ hu hr he => hu.exec hr he) (fun _ hu _ => ⟨hu.view, hu.queue⟩)
    (.of_raised (State.takeException_raised ..) (State.takeException_queue ..))
    ⟨fun _ => ⟨hu, rfl⟩, fun e he => by cases he⟩ h

theorem State.readPhys_commitUnit (s : State) (p : PReg) : s.commitUnit.readPhys p = s.commit.readPhys p := by
  rw [State.commitUnit, State.countSuppressed_eq]
  rfl

theorem State.interruptCheck_regs (s : State) : s.interruptCheck.regs = s.regs := by
  rcases s.interruptCheck_cases with ⟨_, h⟩ | ⟨_, _, ⟨_, h⟩ | ⟨_, h⟩⟩ <;> simp [h]

/-- Neither the devices' callbacks nor an interrupt writes a general register. -/
theorem readPhys_boundaryInvariant (p : PReg) (v : Word) : BoundaryInvariant fun s => s.readPhys p = v where
  same hs h := by
    obtain ⟨-, hr, -⟩ := State.arch_eq_iff.1 h
    exact (State.readPhys_congr hr p).trans hs
  fire s e hs := (State.readPhys_congr (s.fire_regs e) p).trans hs
  interrupt s hs := (State.readPhys_congr s.interruptCheck_regs p).trans hs

/-- Settles O45: an instruction's entries name registers through its bank, and in user mode no instruction of a unit changes the
bank. -/
theorem bankIsolation : Obligations.BankIsolation := by
  refine ⟨fun i s t hq h p hp => exec_readPhys_commit hq h hp, fun s t _ hu h p hp => ?_⟩
  refine (readPhys_boundaryInvariant p (s.readPhys p)).step rfl (fun w u hw => ?_) h
  have hregs : u.readPhys p = s.readPhys p := State.readPhys_congr (unitAnswers_regs hw) p
  refine ⟨fun _ => hregs, fun _ => ?_⟩
  rw [State.readPhys_commitUnit, State.readPhys_commit_of_bank (unitAnswers_bankUnit hu hw).queue hp]
  exact hregs

end Sys2Proof.Machine
end

section
/-! SUPPORT. The commit after an instruction that queues one register write, and the statements about the link, MVTC and a
suppressed second half (R52, R64, R72, R76, R258, R383 to R385, R413). -/

namespace Sys2Proof.Machine

/-! ### The commit of one more register write (R72) -/

/-- A unit that queues a write of the general register `p` has that effect and no other, whatever else of the unit changes. -/
theorem RegisterEffect.of_gpr {s : State} {u : UnitState} {p : PReg} {v : Word}
    (h : u.queue = s.unit.queue ++ [.reg (.gpr p) v 0xFFFFFFFF#32]) :
    RegisterEffect s (s.withUnit u) (oneReg p v) none none none := by
  have hc := s.commit_after u _ h
  have hregs : RegsAfter s (s.withUnit u) (oneReg p v) := fun q => by
    rw [hc]
    refine (s.commit.readPhys_applyEntry_gpr p v _ q).trans ?_
    rw [maskedWrite_full, oneReg]
    split <;> rfl
  have hcr : (s.withUnit u).commit.cr = s.commit.cr := by rw [hc]; rfl
  refine ⟨rfl, hregs, ?_, fun n _ => by simp only [State.readCr, hcr], ?_, fun a => by rw [hc]; rfl⟩
  · constructor <;> simp [hcr]
  · constructor <;> rw [hc] <;> rfl

/-- What a queued write of a control register through its mask does at the commit: that register takes the value's bits inside the
mask, and no other register, byte or device changes (R64, R72). -/
structure ControlWrite (s t : State) (n : CReg) (v : Word) : Prop where
  crs : ∀ k, t.commit.readCr k =
    if k = n then (s.commit.readCr k &&& ~~~ crMask k) ||| (v &&& crMask k) else s.commit.readCr k
  regs : RegsAfter s t noReg
  bytes : BytesKept s t
  devices : DevicesKept s t

theorem ControlWrite.of_cr {s : State} {u : UnitState} {n : CReg} {v : Word}
    (h : u.queue = s.unit.queue ++ [.reg (.cr n) v (crMask n)]) : ControlWrite s (s.withUnit u) n v := by
  have hc := s.commit_after u _ h
  refine ⟨fun k => ?_, fun p => by rw [hc]; rfl, fun a => by rw [hc]; rfl, ?_⟩
  · rw [hc]
    refine (s.commit.readCr_applyEntry_cr n v _ k).trans ?_
    split
    · next hk => rw [hk, maskedWrite]
    · rfl
  · constructor <;> rw [hc] <;> rfl

/-! ### The link register (R52, R379) -/

/-- A transfer with a link records its target and writes `pc + 4` to `r14`. -/
theorem State.link_setNpc_effect (s : State) (a : Word) :
    QueueAndTarget s (s.link.setNpc a) a ∧
      RegisterEffect s (s.link.setNpc a) (oneReg (s.physReg 14#4) (s.pc + 4#32)) none none none :=
  ⟨rfl, RegisterEffect.of_gpr (u := { s.link.unit with npc := some a }) rfl⟩

/-- Settles O32: the three linking transfers differ in their target alone. -/
theorem linkAndJumpResults : Obligations.LinkAndJumpResults := fun s d l rb =>
  ⟨⟨_, rfl, s.link_setNpc_effect (s.pc + disp10 d)⟩, ⟨_, rfl, s.link_setNpc_effect (s.pc + disp16 l)⟩,
    ⟨_, rfl, s.link_setNpc_effect (s.readReg rb)⟩, ⟨_, rfl, rfl⟩⟩

/-! ### MVTC (R413) -/

theorem State.moveToCr_eq (s : State) (n : CReg) (v : Word) : s.moveToCr n v = s.withUnit (s.moveToCr n v).unit := by
  cases n <;> rfl

theorem State.moveToCr_queue (s : State) (n : CReg) (v : Word) :
    (s.moveToCr n v).unit.queue = s.unit.queue ++ [.reg (.cr n) v (crMask n)] := by
  cases n <;> rfl

/-- A move to any register but the PSW leaves the effective view (R74). -/
theorem State.moveToCr_queueOnly (s : State) {n : CReg} (h : n ≠ .psw) (v : Word) : QueueOnly s (s.moveToCr n v) := by
  cases n with
  | psw => exact absurd rfl h
  | bpsw | bpc | evb | cause | badaddr | supp => rfl

theorem State.moveToCr_controlWrite (s : State) (n : CReg) (v : Word) : ControlWrite s (s.moveToCr n v) n v := by
  rw [State.moveToCr_eq]
  exact .of_cr (s.moveToCr_queue n v)

theorem exec_mvtc_supervisor {s : State} (h : s.unit.effSM = true) (n : CReg) (rb : RegNum) :
    exec (.mvtc n rb) s = .next (s.moveToCr n (s.readReg rb)) :=
  congrArg Host.Outcome.next (if_pos h)

/-- Settles O33: in supervisor mode the move queues the one masked write. -/
theorem mvtcResults : Obligations.MvtcResults := by
  refine ⟨⟨rfl, rfl, rfl, rfl, rfl, rfl, rfl⟩, fun s n rb hsm => ?_⟩
  obtain ⟨hcrs, hregs, hbytes, hdevices⟩ := s.moveToCr_controlWrite n (s.readReg rb)
  exact ⟨_, exec_mvtc_supervisor hsm n rb, s.moveToCr_eq _ _, fun hn => s.moveToCr_queueOnly hn _,
    fun hn => by rw [hn]; rfl, hcrs, hregs, hbytes, hdevices⟩

/-! ### The suppressed second half (R258, R395) -/

theorem execHalf_of_open {i partner : Instr} {s : State} {psw : Word} (h : gateOpen partner psw = true) :
    execHalf (gateOpen partner psw) i s = exec i s := if_pos h

/-- A pair whose first half is let through and raises nothing goes on to the second, suppressed or gated. -/
theorem execPair_of_next {a b : Instr} {s t : State} (hgate : gateOpen b s.cr.psw = true) (ha : exec a s = .next t)
    (hr : t.unit.raised = false) :
    execPair a b s =
      if t.unit.npc.isSome then .next t.suppress else execHalf (gateOpen a s.cr.psw) b t := by
  rw [execPair, execHalf_of_open hgate, ha]
  show secondHalf _ b t = _
  rw [secondHalf, hr]
  rfl

/-- Suppression does not reach the commit: the mark stays, and all else is as without it. -/
theorem State.commit_suppress (s : State) : s.suppress.commit = s.commit.suppress := by
  rw [show s.suppress = s.withUnit { s.unit with suppressed := true } from rfl, State.commit_spec, State.commit_spec,
    applyEntries_unit_update]
  rfl

theorem State.commitUnit_of_suppressed {s : State} (h : s.unit.suppressed = true) :
    s.commitUnit = { s.commit with cr := { s.commit.cr with supp := s.commit.cr.supp + 1#32 } } := by
  have hc : s.commit.unit.suppressed = true := by rw [State.commit_spec]; exact h
  exact if_pos hc

theorem State.commitUnit_of_not_suppressed {s : State} (h : s.unit.suppressed = false) : s.commitUnit = s.commit := by
  have hc : s.commit.unit.suppressed = false := by rw [State.commit_spec]; exact h
  exact if_neg (by rw [hc]; exact Bool.false_ne_true)

/-- Settles O47: the pair after its first half, and the commit of a marked and of an unmarked unit. -/
theorem secondHalfSuppressed : Obligations.SecondHalfSuppressed := by
  intro a b s t hgate ha hr
  have hpair := execPair_of_next hgate ha hr
  refine ⟨fun hn => ⟨t.suppress, ?_, rfl, ?_⟩, fun hn hg => ?_, fun hn hg => ?_, fun hs => ?_⟩
  · rw [hpair, if_pos hn]
  · rw [State.commitUnit_of_suppressed (s := t.suppress) rfl, State.commit_suppress]
    exact ⟨rfl, rfl, rfl⟩
  · rw [hpair, hn, hg]; rfl
  · rw [hpair, hn, hg]; rfl
  · rw [State.commitUnit_of_not_suppressed hs]

end Sys2Proof.Machine
end

section
/-! SUPPORT. Memory over an instruction, a unit and a step, and the statements about it (R121, R124, R130, R458). -/

namespace Sys2Proof.Machine

/-! ### Only RAM is written -/

/-- Since `s`, memory has changed by writes of RAM alone, under the same parameters. -/
structure OnlyRamWritten (s t : State) : Prop where
  cfg : t.cfg = s.cfg
  mem : RamWrites s.cfg s.mem t.mem

theorem OnlyRamWritten.refl (s : State) : OnlyRamWritten s s := ⟨rfl, .refl⟩

/-- What leaves memory and the parameters as they are writes nothing. -/
theorem OnlyRamWritten.of_eq {s t u : State} (h : OnlyRamWritten s t) (hc : u.cfg = t.cfg) (hm : u.mem = t.mem) :
    OnlyRamWritten s u :=
  ⟨hc.trans h.cfg, hm ▸ h.mem⟩

theorem OnlyRamWritten.exec {s t u : State} {i : Instr} (h : OnlyRamWritten s t) (he : exec i t = .next u) :
    OnlyRamWritten s u := by
  rcases exec_effect he with ⟨_, _, _, rfl⟩ | hn | ⟨_, rfl⟩
  · exact h.of_eq (State.takeException_cfg ..) (State.takeException_mem ..)
  · exact ⟨hn.cfg.trans h.cfg, h.mem.trans (h.cfg ▸ hn.mem)⟩
  · exact h.of_eq rfl rfl

/-- The entry writes memory in RAM, if at all. -/
def WbEntry.InRam (c : Config) (e : WbEntry) : Prop :=
  ∀ pa bs, e = .mem pa bs → pa + bs.length ≤ c.ramSize

theorem EntryOk.inRam {s : State} {e : WbEntry} (h : EntryOk s e) : e.InRam s.cfg := by
  intro pa bs he
  cases h with
  | mem _ _ hb => cases he; exact hb
  | gpr _ _ | flags _ | cr _ _ _ | dev _ _ _ => cases he

theorem OnlyRamWritten.applyEntry {s t : State} {e : WbEntry} (h : OnlyRamWritten s t) (he : e.InRam s.cfg) :
    OnlyRamWritten s (t.applyEntry e) := by
  rcases e with ⟨d, v, m⟩ | ⟨pa, bs⟩ | ⟨r, v⟩
  · cases d <;> exact h.of_eq rfl rfl
  · refine ⟨h.cfg, ?_⟩
    rw [State.applyEntry, h.cfg]
    exact .write pa bs h.mem (he pa bs rfl)
  · exact h.of_eq (State.devWrite_cfg ..) (State.devWrite_mem ..)

theorem OnlyRamWritten.commitUnit {s t : State} (h : OnlyRamWritten s t) (hq : ∀ e ∈ t.unit.queue, e.InRam s.cfg) :
    OnlyRamWritten s t.commitUnit := by
  have hc : OnlyRamWritten s t.commit :=
    (applyEntries_induction (P := OnlyRamWritten s) h fun e he _ hu => hu.applyEntry (hq e he)).of_eq rfl rfl
  rw [State.commitUnit, State.countSuppressed_eq]
  exact hc.of_eq rfl rfl

/-- What a unit has done to memory so far, at once or in its queue, stays in RAM. -/
structure RamUnit (s t : State) : Prop where
  written : OnlyRamWritten s t
  queued : ∀ e ∈ t.unit.queue, e.InRam s.cfg

theorem RamUnit.exec {s t u : State} {i : Instr} (h : RamUnit s t) (he : exec i t = .next u) : RamUnit s u :=
  ⟨h.written.exec he, fun e hq => (exec_queue he e hq).elim (h.queued e) fun hok => h.written.cfg ▸ hok.inRam⟩

theorem unitAnswers_ramUnit {s t : State} {w : Word} (h : s.unitAnswers w t) : RamUnit s t := by
  have hraise : RamUnit s (s.startUnit w).raiseIllegal := by
    refine ⟨(OnlyRamWritten.refl s).of_eq (State.takeException_cfg ..) (State.takeException_mem ..), ?_⟩
    rw [State.raiseIllegal, State.takeException_queue]
    exact fun e he => by cases he
  exact unitAnswers_induction (fun _ _ _ hu _ he => hu.exec he)
    (fun _ hu _ => ⟨hu.written.of_eq rfl rfl, hu.queued⟩) hraise
    ⟨(OnlyRamWritten.refl s).of_eq rfl rfl, fun e he => by cases he⟩ h

theorem State.interruptCheck_mem (s : State) : s.interruptCheck.mem = s.mem := by
  rcases s.interruptCheck_cases with ⟨_, h⟩ | ⟨_, _, ⟨_, h⟩ | ⟨_, h⟩⟩ <;> simp [h]

theorem onlyRamWritten_boundaryInvariant (s : State) : BoundaryInvariant (OnlyRamWritten s) where
  same hs h := by
    obtain ⟨hc, -, -, -, hm, -⟩ := State.arch_eq_iff.1 h
    exact hs.of_eq hc hm
  fire t e hs := hs.of_eq (t.fire_cfg e) (t.fire_mem e)
  interrupt t hs := hs.of_eq t.interruptCheck_cfg t.interruptCheck_mem

/-- All that a step does to memory is to write bytes of RAM. -/
theorem step_onlyRamWritten {s t : State} (h : step s = .next t) : OnlyRamWritten s t :=
  (onlyRamWritten_boundaryInvariant s).step (.refl s) (fun _ _ hu =>
    have hr := unitAnswers_ramUnit hu
    ⟨fun _ => hr.written, fun _ => hr.written.commitUnit hr.queued⟩) h

/-- Settles O7: a step writes bytes of RAM, and every such write keeps the form. -/
theorem memoryStaysCanonical : Obligations.MemoryStaysCanonical := by
  intro s t hs h
  obtain ⟨hcfg, hmem⟩ := step_onlyRamWritten h
  rw [hcfg]
  exact hmem.wf hs

/-- Settles O13: what a step writes lies in RAM. -/
theorem onlyRamIsWritten : Obligations.OnlyRamIsWritten := by
  intro s t h a ha
  obtain ⟨hcfg, hmem⟩ := step_onlyRamWritten h
  rw [State.byteAt, hcfg]
  exact hmem.read_outside ha

end Sys2Proof.Machine
end

section
/-! SUPPORT. A fetch unit and its word and bytes (R135, R200 to R220). -/

namespace Sys2Proof

namespace Laws.EncodeRoundTrip

/-- The encoding of every well-formed instruction decodes to it (R208, R209, R220). -/
theorem holds : ∀ i : Instr, Statement i
  | .nop => nop
  | .hint ra rb => hint ra rb
  | .mv ra rb => mv ra rb
  | .not ra rb => not ra rb
  | .neg ra rb => neg ra rb
  | .add ra rb => add ra rb
  | .addc ra rb => addc ra rb
  | .sub ra rb => sub ra rb
  | .subb ra rb => subb ra rb
  | .and ra rb => and ra rb
  | .or ra rb => or ra rb
  | .xor ra rb => xor ra rb
  | .mul ra rb => mul ra rb
  | .sll ra rb => sll ra rb
  | .srl ra rb => srl ra rb
  | .sra ra rb => sra ra rb
  | .cmpeq ra rb => cmpeq ra rb
  | .cmplt ra rb => cmplt ra rb
  | .cmpltu ra rb => cmpltu ra rb
  | .addi ra imm => addi ra imm
  | .ldi ra imm => ldi ra imm
  | .slli ra sh => slli ra sh
  | .srli ra sh => srli ra sh
  | .srai ra sh => srai ra sh
  | .cmpeqi ra imm => cmpeqi ra imm
  | .cmplti ra imm => cmplti ra imm
  | .ldb ra rb => ldb ra rb
  | .ldbu ra rb => ldbu ra rb
  | .ldh ra rb => ldh ra rb
  | .ldhu ra rb => ldhu ra rb
  | .ldw ra rb => ldw ra rb
  | .ld2w ra rb => ld2w ra rb
  | .stb ra rb => stb ra rb
  | .sth ra rb => sth ra rb
  | .stw ra rb => stw ra rb
  | .st2w ra rb => st2w ra rb
  | .bra d => bra d
  | .brt d => brt d
  | .brf d => brf d
  | .bl d => bl d
  | .jmp rb => jmp rb
  | .jl rb => jl rb
  | .exet => exet
  | .exef => exef
  | .exect => exect
  | .execf => execf
  | .mvfc ra cr => mvfc ra cr
  | .mvtc cr rb => mvtc cr rb
  | .ldil ra imm => ldil ra imm
  | .ldih ra imm => ldih ra imm
  | .addil ra rb imm => addil ra rb imm
  | .andil ra rb imm => andil ra rb imm
  | .oril ra rb imm => oril ra rb imm
  | .xoril ra rb imm => xoril ra rb imm
  | .ldbD ra rb imm => ldbD ra rb imm
  | .ldbuD ra rb imm => ldbuD ra rb imm
  | .ldhD ra rb imm => ldhD ra rb imm
  | .ldhuD ra rb imm => ldhuD ra rb imm
  | .ldwD ra rb imm => ldwD ra rb imm
  | .ld2wD ra rb imm => ld2wD ra rb imm
  | .stbD ra rb imm => stbD ra rb imm
  | .sthD ra rb imm => sthD ra rb imm
  | .stwD ra rb imm => stwD ra rb imm
  | .st2wD ra rb imm => st2wD ra rb imm
  | .braL d => braL d
  | .brtL d => brtL d
  | .brfL d => brfL d
  | .blL d => blL d
  | .trap n => trap n
  | .rti => rti
  | .wait => wait
  | .stop => stop
  | .brk => brk

end Laws.EncodeRoundTrip

theorem decodeLong_encodeInstr {i : Instr} (hl : i.isLong = true) (hw : i.wf = true) :
    decodeLong (encodeInstr i) = .ok i :=
  (if_pos hl).mp (Laws.EncodeRoundTrip.holds i hw)

theorem decodeShort_encodeShort {i : Instr} (hl : i.isLong = false) (hw : i.wf = true) :
    decodeShort (encodeShort i) = .ok i := by
  have h := Laws.EncodeRoundTrip.holds i hw
  rwa [hl] at h

/-- A long instruction's word is in the long format (R201, R203). -/
theorem encodeInstr_format {i : Instr} (h : i.isLong = true) : (encodeInstr i).extractLsb' 30 2 = 2#2 := by
  cases i with
  | ldil | ldih | addil | andil | oril | xoril | ldbD | ldbuD | ldhD | ldhuD | ldwD | ld2wD | stbD | sthD | stwD
  | st2wD | braL | brtL | brfL | blL | trap | rti | wait | stop | brk => exact mkLong_format ..
  | _ => cases h

theorem decodeUnit_of_long {w : Word} {i : Instr} (hf : w.extractLsb' 30 2 = 2#2) (hd : decodeLong w = .ok i) :
    decodeUnit w = .ok (.long i) := by
  simp only [decodeUnit, hf, hd]

theorem decodeUnit_mkPair {o : Order} {l r : BitVec 15} {i j : Instr} (hl : decodeShort l = .ok i)
    (hr : decodeShort r = .ok j) : decodeUnit (mkPair o l r) = .ok (.pair o i j) := by
  have hp : decodePair o (mkPair o l r) = .ok (.pair o i j) := by
    simp only [decodePair, mkPair_left, mkPair_right, hl, hr]
  have hf := mkPair_format o l r
  cases o <;> simp only [decodeUnit, hf, hp]

theorem decodeUnit_encodeUnit {u : FetchUnit} (h : u.wf = true) : decodeUnit (encodeUnit u) = .ok u := by
  cases u with
  | pair o l r =>
    simp only [FetchUnit.wf, Bool.and_eq_true, Bool.not_eq_true'] at h
    obtain ⟨⟨⟨hl, hr⟩, hwl⟩, hwr⟩ := h
    exact decodeUnit_mkPair (decodeShort_encodeShort hl hwl) (decodeShort_encodeShort hr hwr)
  | long i =>
    simp only [FetchUnit.wf, Bool.and_eq_true] at h
    exact decodeUnit_of_long (encodeInstr_format h.1) (decodeLong_encodeInstr h.1 h.2)

/-- The four bytes of a word decode as the word does, and what follows them is left over (R135, R200). -/
theorem decodeBytes_disassemble (e : Endian) (w : Word) (rest : List Byte) {u : FetchUnit} (h : decodeUnit w = .ok u) :
    decodeBytes e (disassemble e 4 w.toNat ++ rest) = .ok (u, rest) := by
  have hlen := length_disassemble e 4 w.toNat
  have hword : BitVec.ofNat 32 (assemble e (disassemble e 4 w.toNat)) = w := by
    rw [assemble_disassemble]
    exact (congrArg _ (Nat.mod_eq_of_lt w.isLt)).trans (by simp)
  have hlong : ¬ (disassemble e 4 w.toNat ++ rest).length < 4 := by rw [List.length_append]; omega
  simp only [decodeBytes, if_neg hlong, List.take_left' hlen, List.drop_left' hlen, hword, h]

/-- Settles O2: a unit's word decodes to it, and its bytes are those of the word. -/
theorem unitRoundTrip : Obligations.UnitRoundTrip := fun _ hu =>
  have hd := decodeUnit_encodeUnit hu
  ⟨hd, fun e rest => decodeBytes_disassemble e _ rest hd⟩

end Sys2Proof
end

section
/-! SUPPORT. Where an access goes, what backs it and how it is cut into chunks (R125 to R130, R138), and the statements about
translation, the checks and aligned accesses. -/

namespace Sys2Proof.Machine

/-! ### Blocks (R128) -/

/-- An address below the end of its block lies in that block. -/
theorem div_blockSize_of_lt {c : Config} {va i : Nat} (h : i < blockSize c - va % blockSize c) :
    (va + i) / blockSize c = va / blockSize c := by
  have hva := Nat.div_add_mod' va (blockSize c)
  have hend := Nat.add_one_mul (va / blockSize c) (blockSize c)
  exact Nat.div_eq_of_lt_le (by omega) (by omega)

/-- A clipped access ends where its block ends. -/
theorem clip_end {c : Config} {va len l : Nat} (hl : l = min len (blockSize c - va % blockSize c)) (hlt : l < len) :
    va + l = (va / blockSize c + 1) * blockSize c := by
  have hva := Nat.div_add_mod' va (blockSize c)
  have hend := Nat.add_one_mul (va / blockSize c) (blockSize c)
  have hmod := Nat.mod_lt va (blockSize_pos c)
  omega

theorem blockSize_mul_of_le {c : Config} {b : Nat} (h : c.blockBits ≤ b) :
    blockSize c * 2 ^ (b - c.blockBits) = 2 ^ b := by
  rw [blockSize, ← Nat.pow_add, Nat.add_sub_cancel' h]

/-- Settles O53: what is left of the block bounds the length, and a block lies in one segment. -/
theorem translateClips : Obligations.TranslateClips := by
  intro c maps va len kind sm pa l h
  have hl := (translate_spec h).1
  refine ⟨hl, fun hcross => ?_, fun hb i hi => ?_⟩
  · have hmod := Nat.mod_lt va.toNat (blockSize_pos c)
    have hlt : l < len := by omega
    exact ⟨hlt, clip_end hl hlt⟩
  · have hblock : (va.toNat + i) / blockSize c = va.toNat / blockSize c := div_blockSize_of_lt (by omega)
    rw [← blockSize_mul_of_le hb, ← Nat.div_div_eq_div_mul, ← Nat.div_div_eq_div_mul, hblock]

/-- What follows a clipped access starts a block, so that 8 bytes more are not clipped again (R128). -/
theorem translate_after_clip {c : Config} {maps : List Word} {va a : Word} {n l d : Nat} {kind : AccessKind} {sm : Bool}
    {q : Word} (h3 : 3 ≤ c.blockBits) (h28 : c.blockBits ≤ 28) (hn : n ≤ 8)
    (hl : l = min n (blockSize c - va.toNat % blockSize c)) (hlt : l < n) (ha : a = va + BitVec.ofNat 32 l)
    (h : translate c maps a (n - l) kind sm = .ok (q, d)) : d = n - l := by
  have hdvd : blockSize c ∣ 2 ^ 32 := ⟨_, (blockSize_mul_of_le (by omega)).symm⟩
  have hsize : 2 ^ 3 ≤ blockSize c := Nat.pow_le_pow_right (by decide) h3
  have hlw : l < 2 ^ 32 := by omega
  have hstart : a.toNat % blockSize c = 0 := by
    rw [ha, BitVec.toNat_add, BitVec.toNat_ofNat, Nat.mod_eq_of_lt hlw, Nat.mod_mod_of_dvd _ hdvd, clip_end hl hlt,
      Nat.mul_mod_left]
  have hd := (translate_spec h).1
  omega

/-! ### Translation, segment by segment (R125, R127) -/

/-- The number of the mapping register that an address of the mapped segment goes through (R126). -/
theorem windowIndex (va : Word) : (va.extractLsb' 0 28).toNat = va.toNat % 2 ^ 28 := by
  simp

/-- The block number of a mapping register (R126). -/
theorem windowBlock (m : Word) : (m.extractLsb' 0 16).zeroExtend 32 = m &&& 0x0000FFFF#32 := by
  apply BitVec.eq_of_getLsbD_eq
  intro i hi
  interval_cases i <;> simp

section
variable {s : State} {va pa : Word} {len : Nat} {kind : AccessKind} {sm : Bool}

/-- Where an access reaches an address, translation answers it, clipped at the end of the block. -/
theorem State.reaches.translate (h : s.reaches va pa kind) :
    translate s.cfg s.dev.maps va len kind sm = .ok (pa, min len (blockSize s.cfg - va.toNat % blockSize s.cfg)) := by
  rcases h with ⟨h0, rfl⟩ | ⟨h1, hk, hv, hro, rfl⟩
  · simp [Machine.translate, h0]
  · have hw : ¬ (kind = .write ∧ (s.dev.maps.getD (va.toNat % 2 ^ 28 / blockSize s.cfg) 0#32).getLsbD 30 = true) :=
      fun hw => by rw [hro hw.1] at hw; exact absurd hw.2 (by decide)
    simp only [Machine.translate, h1, windowIndex, windowBlock, if_neg (Nat.not_le.2 hk), hv, if_neg hw]
    rfl

theorem State.reaches.segOf_ne (h : s.reaches va pa kind) : segOf va ≠ 0xF#4 := by
  rcases h with ⟨h0, _⟩ | ⟨h1, _⟩
  · rw [h0]; decide
  · rw [h1]; decide

/-- The device segment is reached from supervisor mode, by data accesses. -/
theorem translate_device {c : Config} {maps : List Word} (hF : segOf va = 0xF#4) (hk : kind ≠ .fetch) :
    translate c maps va len kind true = .ok (va, min len (blockSize c - va.toNat % blockSize c)) := by
  simp [translate, hF, hk]

/-- No segment, no window, or no right to the devices: whatever the access, a segmentation fault. -/
theorem translate_segmentation
    (h : (segOf va ≠ 0x0#4 ∧ segOf va ≠ 0x1#4 ∧ segOf va ≠ 0xF#4) ∨
      (segOf va = 0x1#4 ∧ (s.cfg.nmap ≤ va.toNat % 2 ^ 28 / blockSize s.cfg ∨
        (s.dev.maps.getD (va.toNat % 2 ^ 28 / blockSize s.cfg) 0#32).getLsbD 31 = false)) ∨
      (segOf va = 0xF#4 ∧ sm = false)) :
    translate s.cfg s.dev.maps va len kind sm = .error .segmentation := by
  rcases h with ⟨h0, h1, hF⟩ | ⟨h1, hk⟩ | ⟨hF, rfl⟩
  · simp only [translate, if_neg h0, if_neg h1, if_neg hF]
  · simp only [translate, h1, windowIndex]
    rcases hk with hk | hv
    · rw [if_pos hk]; rfl
    · simp only [hv, Bool.not_false, if_true, ite_self]; rfl
  · simp [translate, hF]

/-- A write through a read-only window, valid or not, is a segmentation fault. -/
theorem translate_readOnly (h1 : segOf va = 0x1#4)
    (hro : (s.dev.maps.getD (va.toNat % 2 ^ 28 / blockSize s.cfg) 0#32).getLsbD 30 = true) :
    translate s.cfg s.dev.maps va len .write sm = .error .segmentation := by
  simp only [translate, h1, windowIndex, hro, and_self, if_true, ite_self]
  rfl

end

/-! ### The physical check (R130, R138) -/

theorem physCheck_of_backed {c : Config} {a pa : Word} {n width : Nat} {kind : AccessKind} (hF : segOf a ≠ 0xF#4)
    (h : backed c pa n kind) : physCheck c a pa n width kind = .ok .bytes := by
  rw [physCheck, if_neg hF]
  rcases h with hram | ⟨hk, hrom⟩
  · rw [if_pos (by simpa [chunkInRam] using hram)]
  · have hin : chunkInRom c pa.toNat n = true := by simpa [chunkInRom] using hrom
    rw [hin, if_pos rfl, if_neg hk, ite_self]

/-- What starts past RAM and is not read from ROM is a bus fault, however long. -/
theorem physCheck_bus {c : Config} {a pa : Word} {len width : Nat} {kind : AccessKind} (hF : segOf a ≠ 0xF#4)
    (hl : 0 < len) (hram : c.ramSize ≤ pa.toNat)
    (hrom : kind = .write ∨ pa.toNat < c.romBase ∨ c.romBase + c.romSize ≤ pa.toNat) :
    physCheck c a pa len width kind = .error .bus := by
  have hnot : chunkInRam c pa.toNat len = false := by simp [chunkInRam]; omega
  rw [physCheck, if_neg hF, hnot, if_neg Bool.false_ne_true]
  rcases hrom with rfl | hrom
  · rw [if_pos rfl, ite_self]
  · rw [if_neg (by simp [chunkInRom]; omega)]

/-- A device access that is not a word, or names no listed register, is a bus fault. -/
theorem physCheck_device_bus {c : Config} {a : Word} {len width : Nat} {kind : AccessKind} (hF : segOf a = 0xF#4)
    (h : width ≠ 4 ∨ devRegAt c a = none) : physCheck c a a len width kind = .error .bus := by
  rw [physCheck, if_pos hF]
  split
  · next hw =>
    rw [h.resolve_left fun hne => hne hw.1]
  · rfl

/-! ### Chunk by chunk (R129) -/

section
variable {c : Config} {maps : List Word} {kind : AccessKind} {sm : Bool} {width fuel : Nat} {a p : Word} {rem l : Nat}

theorem chunksFrom_translate_error {f : MemFault} (hf : 0 < fuel) (hr : 0 < rem)
    (ht : translate c maps a rem kind sm = .error f) : chunksFrom c maps kind sm width fuel a rem = .error f := by
  obtain ⟨fuel, rfl⟩ := Nat.exists_eq_add_one.2 hf
  rw [chunksFrom, if_neg (Nat.pos_iff_ne_zero.1 hr), ht]

theorem chunksFrom_check_error {f : MemFault} (hf : 0 < fuel) (hr : 0 < rem)
    (ht : translate c maps a rem kind sm = .ok (p, l)) (hp : physCheck c a p l width kind = .error f) :
    chunksFrom c maps kind sm width fuel a rem = .error f := by
  obtain ⟨fuel, rfl⟩ := Nat.exists_eq_add_one.2 hf
  rw [chunksFrom, if_neg (Nat.pos_iff_ne_zero.1 hr), ht]
  simp only [hp]

/-- A first chunk that is accepted stands before what the rest of the access answers. -/
theorem chunksFrom_cons {b : Backing} (hr : 0 < rem) (ht : translate c maps a rem kind sm = .ok (p, l))
    (hp : physCheck c a p l width kind = .ok b) :
    chunksFrom c maps kind sm width (fuel + 1) a rem =
      (chunksFrom c maps kind sm width fuel (a + BitVec.ofNat 32 l) (rem - l)).map (⟨a, p, l, b⟩ :: ·) := by
  rw [chunksFrom, if_neg (Nat.pos_iff_ne_zero.1 hr), ht]
  simp only [hp]
  cases chunksFrom c maps kind sm width fuel (a + BitVec.ofNat 32 l) (rem - l) <;> rfl

@[simp] theorem chunksFrom_zero : chunksFrom c maps kind sm width fuel a 0 = .ok [] := by
  cases fuel <;> rfl

theorem chunksFrom_single {b : Backing} (hf : 0 < fuel) (hr : 0 < rem)
    (ht : translate c maps a rem kind sm = .ok (p, rem)) (hp : physCheck c a p rem width kind = .ok b) :
    chunksFrom c maps kind sm width fuel a rem = .ok [⟨a, p, rem, b⟩] := by
  obtain ⟨fuel, rfl⟩ := Nat.exists_eq_add_one.2 hf
  rw [chunksFrom_cons hr ht hp, Nat.sub_self, chunksFrom_zero]
  rfl

end

theorem State.chunks_translate_error {s : State} {va : Word} {n : Nat} {kind : AccessKind} {sm : Bool} {f : MemFault}
    (hn : 0 < n) (ht : translate s.cfg s.dev.maps va n kind sm = .error f) : s.chunks va n kind sm = .error f :=
  chunksFrom_translate_error hn hn ht

theorem State.chunks_check_error {s : State} {va p : Word} {n l : Nat} {kind : AccessKind} {sm : Bool} {f : MemFault}
    (hn : 0 < n) (ht : translate s.cfg s.dev.maps va n kind sm = .ok (p, l))
    (hp : physCheck s.cfg va p l n kind = .error f) : s.chunks va n kind sm = .error f :=
  chunksFrom_check_error hn hn ht hp

/-! ### Faulting accesses (R132, R136) -/

section
variable {s : State} {va pa : Word} {n v : Nat} {f : MemFault}

theorem State.memRead_of_error (hm : s.misaligned va n = false) (hc : s.chunks va n .read s.unit.effSM = .error f) :
    s.memRead va n = .error f := by
  simp [State.memRead, hm, hc]

theorem State.memWrite_of_error (hm : s.misaligned va n = false) (hc : s.chunks va n .write s.unit.effSM = .error f) :
    s.memWrite va n v = .error f := by
  simp [State.memWrite, hm, hc]

/-- A fault that data accesses of both kinds meet. -/
theorem State.access_of_error (hm : s.misaligned va n = false)
    (hc : ∀ kind, kind ≠ .fetch → s.chunks va n kind s.unit.effSM = .error f) :
    s.memRead va n = .error f ∧ s.memWrite va n v = .error f :=
  ⟨s.memRead_of_error hm (hc .read (by decide)), s.memWrite_of_error hm (hc .write (by decide))⟩

theorem State.misaligned_of_aligned (h : va.toNat % n = 0) : s.misaligned va n = false := by
  simp [State.misaligned, h]

/-- An access that reaches an address past RAM is a bus fault, but for a read of ROM. -/
theorem State.reaches.chunks_bus {kind : AccessKind} {sm : Bool} (h : s.reaches va pa kind) (hn : 0 < n)
    (hram : s.cfg.ramSize ≤ pa.toNat)
    (hrom : kind = .write ∨ pa.toNat < s.cfg.romBase ∨ s.cfg.romBase + s.cfg.romSize ≤ pa.toNat) :
    s.chunks va n kind sm = .error .bus :=
  State.chunks_check_error hn h.translate
    (physCheck_bus h.segOf_ne (translate_len hn (h.translate (sm := sm))).1 hram hrom)

end

/-- A device access that is not a word, or names no listed register, is a bus fault (R138). -/
theorem State.chunks_device_bus {s : State} {va : Word} {n : Nat} {kind : AccessKind} (hn : 0 < n)
    (hF : segOf va = 0xF#4) (hk : kind ≠ .fetch) (h : n ≠ 4 ∨ devRegAt s.cfg va = none) :
    s.chunks va n kind true = .error .bus :=
  State.chunks_check_error hn (translate_device hF hk) (physCheck_device_bus hF h)

/-- An access that is split has two chunks: the first is looked up and checked before the second (R129, R361). -/
theorem State.chunks_split {s : State} {va p : Word} {n l : Nat} {kind : AccessKind} {sm : Bool} {b : Backing}
    (h3 : 3 ≤ s.cfg.blockBits) (h28 : s.cfg.blockBits ≤ 28) (hn : n ≤ 8)
    (ht : translate s.cfg s.dev.maps va n kind sm = .ok (p, l)) (hp : physCheck s.cfg va p l n kind = .ok b)
    (hlt : l < n) {a : Word} (ha : a = va + BitVec.ofNat 32 l) :
    (∀ f, translate s.cfg s.dev.maps a (n - l) kind sm = .error f → s.chunks va n kind sm = .error f) ∧
    (∀ q d, translate s.cfg s.dev.maps a (n - l) kind sm = .ok (q, d) →
      (∀ f, physCheck s.cfg a q d n kind = .error f → s.chunks va n kind sm = .error f) ∧
      (∀ b', physCheck s.cfg a q d n kind = .ok b' →
        s.chunks va n kind sm = .ok [⟨va, p, l, b⟩, ⟨a, q, n - l, b'⟩])) := by
  have hpos := (translate_len (by omega) ht).1
  have hcons : s.chunks va n kind sm =
      (chunksFrom s.cfg s.dev.maps kind sm n (n - 1) a (n - l)).map (⟨va, p, l, b⟩ :: ·) := by
    obtain ⟨m, rfl⟩ := Nat.exists_eq_add_one.2 (Nat.zero_lt_of_lt hlt)
    rw [ha]
    exact chunksFrom_cons (by omega) ht hp
  rw [hcons]
  refine ⟨fun f hf => ?_, fun q d hq => ⟨fun f hf => ?_, fun b' hb => ?_⟩⟩
  · rw [chunksFrom_translate_error (by omega) (by omega) hf]; rfl
  · rw [chunksFrom_check_error (by omega) (by omega) hq hf]; rfl
  · obtain rfl := translate_after_clip h3 h28 hn (translate_spec ht).1 hlt ha hq
    rw [chunksFrom_single (by omega) (by omega) hq hb]; rfl

/-- Settles O29: each fault where translation or the check answers it, and the two chunks of a split access in order. -/
theorem accessChecks : Obligations.AccessChecks := by
  intro s ea n v hn
  dsimp only
  have hn18 : 0 < n ∧ n ≤ 8 := by
    simp only [List.mem_cons, List.not_mem_nil, or_false] at hn
    omega
  obtain ⟨hpos, hn8⟩ := hn18
  refine ⟨fun hs ha => ?_, fun ha => ?_, fun h3 h28 kind sm => ⟨fun f hf => ?_, fun p c hl => ?_⟩⟩
  · have hm : s.misaligned ea n = true := by simp [State.misaligned, hs, ha]
    simp [State.memRead, State.memWrite, hm]
  · have hm : s.misaligned ea n = false := by
      rcases ha with hs | ha
      · simp [State.misaligned, hs]
      · exact State.misaligned_of_aligned ha
    have hdirect : ∀ kind, segOf ea = 0x0#4 → s.reaches ea ea kind := fun _ h0 => .inl ⟨h0, rfl⟩
    refine ⟨fun h => ?_, fun h1 hro => ?_, fun h => ?_, fun h0 hram => ?_,
      fun h1 hk hv hram => ⟨fun hrom => ?_, fun hw => ?_⟩, fun f => ⟨State.memRead_of_error hm, State.memWrite_of_error hm⟩⟩
    · exact State.access_of_error hm fun kind _ => State.chunks_translate_error hpos (translate_segmentation h)
    · exact State.memWrite_of_error hm (State.chunks_translate_error hpos (translate_readOnly h1 hro))
    · refine State.access_of_error hm fun kind hk => ?_
      rcases h with ⟨hF, hsm, hbad⟩ | ⟨h0, hram, hrom⟩
      · rw [hsm]; exact State.chunks_device_bus hpos hF hk hbad
      · exact (hdirect kind h0).chunks_bus hpos hram (.inr hrom)
    · exact State.memWrite_of_error hm ((hdirect .write h0).chunks_bus hpos hram (.inl rfl))
    · have hr : s.reaches ea _ .read := .inr ⟨h1, hk, hv, (fun hw => by cases hw), rfl⟩
      exact State.memRead_of_error hm (hr.chunks_bus hpos hram (.inr hrom))
    · have hr : s.reaches ea _ .write := .inr ⟨h1, hk, hv, fun _ => hw, rfl⟩
      exact State.memWrite_of_error hm (hr.chunks_bus hpos hram (.inl rfl))
  · exact State.chunks_translate_error hpos hf
  · refine ⟨fun f hf => State.chunks_check_error hpos hl hf, fun b hb => ⟨fun hc => ?_, fun hlt => ?_⟩⟩
    · subst hc
      exact State.chunks_single hpos hl hb
    · exact State.chunks_split h3 h28 hn8 hl hb hlt rfl

/-! ### Aligned accesses that are backed -/

/-- An aligned access that is backed is one chunk (R129, R130). -/
theorem State.reaches.chunks {s : State} {va pa : Word} {n : Nat} {kind : AccessKind} {sm : Bool}
    (h : s.reaches va pa kind) (h3 : 3 ≤ s.cfg.blockBits) (hn : n ∈ [1, 2, 4, 8]) (ha : va.toNat % n = 0)
    (hb : backed s.cfg pa n kind) : s.chunks va n kind sm = .ok [⟨va, pa, n, .bytes⟩] := by
  have hn' : n = 1 ∨ n = 2 ∨ n = 4 ∨ n = 8 := by simpa using hn
  refine State.chunks_single (by omega) ?_ (physCheck_of_backed h.segOf_ne hb)
  rw [h.translate, aligned_in_block h3 hn' ha]

theorem Memory.readBytes_eq_map (c : Config) (m : Memory) (pa n : Nat) :
    Memory.readBytes c m pa n = (List.range n).map fun i => Memory.read c m (pa + i) :=
  List.ext_getElem (by simp) fun i _ _ => by simp [Memory.getElem_readBytes]

/-- The committed bytes of one chunk, one by one (R139). -/
theorem State.chunkBytes_single (s : State) (va pa : Word) (n : Nat) (b : Backing) :
    s.chunkBytes [⟨va, pa, n, b⟩] = (List.range n).map fun i => s.byteAt (pa.toNat + i) :=
  (List.append_nil _).trans (Memory.readBytes_eq_map ..)

/-- Settles O26: the access is one chunk, and a read and a fetch take its bytes. -/
theorem directAndMappedAccess : Obligations.DirectAndMappedAccess := by
  intro s va pa n sm h3 hn bytes
  refine ⟨fun kind ha hr hb => hr.chunks h3 hn ha hb, fun ha hr hb => ?_, fun ha hr hb => ?_⟩
  · rw [State.memRead_of_chunks (State.misaligned_of_aligned ha) (hr.chunks h3 hn ha hb)]
    exact congrArg (fun bs => Except.ok (assemble s.cfg.endian bs)) (s.chunkBytes_single va pa n .bytes)
  · have hc := hr.chunks (sm := pswSM s.cr.psw) h3 (by decide) ha hb
    simp only [State.fetch, ha, hc, State.chunkBytes_single]
    rfl

end Sys2Proof.Machine
end

section
/-! SUPPORT. Loads and stores: what a device access commits, what a store leaves to be loaded, and the handler that a faulting
access enters (R134, R138 to R143, R350, R520). -/

namespace Sys2Proof.Machine

/-! ### Device addresses (R138) -/

theorem devRegAt_bounds {c : Config} {pa : Word} {r : DevReg} (h : devRegAt c pa = some r) :
    0xF0000000 ≤ pa.toNat ∧ pa.toNat % 4 = 0 := by
  simp only [devRegAt] at h
  split at h
  any_goals omega
  split at h
  · next hmap => exact ⟨hmap.1, hmap.2.2⟩
  · cases h

theorem segOf_device {pa : Word} (h : 0xF0000000 ≤ pa.toNat) : segOf pa = 0xF#4 := by
  have hlt := pa.isLt
  apply BitVec.eq_of_toNat_eq
  simp only [segOf, BitVec.extractLsb'_toNat, Nat.shiftRight_eq_div_pow, BitVec.toNat_ofNat]
  omega

section
variable {s : State} {ea : Word} {r : DevReg}

/-- A listed device address is one chunk, its register (R129, R138). -/
theorem State.chunks_device {kind : AccessKind} (h3 : 3 ≤ s.cfg.blockBits) (hk : kind ≠ .fetch)
    (h : devRegAt s.cfg ea = some r) : s.chunks ea 4 kind true = .ok [⟨ea, ea, 4, .device r⟩] := by
  obtain ⟨hge, halign⟩ := devRegAt_bounds h
  have hF := segOf_device hge
  refine State.chunks_single (by decide) ?_ (by simp [physCheck, hF, h])
  rw [translate_device hF hk, aligned_in_block h3 (by decide) halign]

theorem State.memRead_device (hsm : s.unit.effSM = true) (h3 : 3 ≤ s.cfg.blockBits) (h : devRegAt s.cfg ea = some r) :
    s.memRead ea 4 = .ok (s.devRead r).toNat :=
  State.memRead_of_chunks (State.misaligned_of_aligned (devRegAt_bounds h).2)
    (hsm ▸ State.chunks_device h3 (by decide) h)

theorem State.memWrite_device (hsm : s.unit.effSM = true) (h3 : 3 ≤ s.cfg.blockBits) (h : devRegAt s.cfg ea = some r)
    (v : Nat) : s.memWrite ea 4 v = .ok [.dev r (BitVec.ofNat 32 v)] :=
  State.memWrite_of_chunks (State.misaligned_of_aligned (devRegAt_bounds h).2)
    (hsm ▸ State.chunks_device h3 (by decide) h)

end

/-! ### What a load and a device store commit (R141, R350, R551) -/

/-- A load whose read answers writes its destination alone, and counts as a data access. -/
theorem State.loadInto_effect {s : State} {n v : Nat} {ea : Word} (h : s.memRead ea n = .ok v) (ext : Nat → Word)
    (ra : RegNum) :
    QueueAndAccess s (s.loadInto n ext ra ea) ∧
      RegisterEffect s (s.loadInto n ext ra ea) (oneReg (s.physReg ra) (ext v)) none none none := by
  have hl : s.loadInto n ext ra ea = s.countAccess.pushReg ra (ext v) := by rw [State.loadInto, h]
  rw [hl]
  exact ⟨rfl, RegisterEffect.of_gpr (u := (s.countAccess.pushReg ra (ext v)).unit) rfl⟩

/-- A unit that queues a device write runs the write function at its commit, whatever else of the unit changes. -/
theorem DeviceStoreEffect.of_dev {s : State} {u : UnitState} {r : DevReg} {v : Word}
    (h : u.queue = s.unit.queue ++ [.dev r v]) : DeviceStoreEffect s (s.withUnit u) r v := by
  have hdev : applyEntries [.dev r v] s.commit = s.commit.devWrite r v s.time := by rw [← s.commit_time]; rfl
  have hc := s.commit_after u _ h
  rw [hdev] at hc
  have hcr : (s.withUnit u).commit.cr = s.commit.cr := by rw [hc]; exact State.devWrite_cr ..
  refine ⟨rfl, fun p => ?_, ?_, fun n _ => by simp only [State.readCr, hcr], fun a => ?_, ?_, ?_, ?_⟩
  · rw [hc]; exact State.readPhys_congr (State.devWrite_regs ..) p
  · constructor <;> simp [hcr]
  · rw [hc]; simp [State.byteAt]
  · rw [hc]; rfl
  · rw [hc]; rfl
  · rw [hc]; rfl

section
variable {s : State} {ea : Word} {r : DevReg}

/-- A word load at a listed device address, from supervisor mode. -/
theorem State.loadInto_device (hsm : s.unit.effSM = true) (h3 : 3 ≤ s.cfg.blockBits) (h : devRegAt s.cfg ea = some r)
    (ra : RegNum) :
    QueueAndAccess s (s.loadInto 4 wholeWord ra ea) ∧
      RegisterEffect s (s.loadInto 4 wholeWord ra ea) (oneReg (s.physReg ra) (s.devRead r)) none none none := by
  have hload := State.loadInto_effect (State.memRead_device hsm h3 h) wholeWord ra
  rwa [show wholeWord (s.devRead r).toNat = s.devRead r by simp [wholeWord]] at hload

/-- A word store at a listed device address, from supervisor mode. -/
theorem State.storeFrom_device (hsm : s.unit.effSM = true) (h3 : 3 ≤ s.cfg.blockBits) (h : devRegAt s.cfg ea = some r)
    (v : Word) :
    QueueAndAccess s (s.storeFrom 4 v.toNat ea) ∧ DeviceStoreEffect s (s.storeFrom 4 v.toNat ea) r v := by
  have hs : s.storeFrom 4 v.toNat ea = s.countAccess.pushAll [.dev r v] := by
    simp only [State.storeFrom, State.memWrite_device hsm h3 h, BitVec.ofNat_toNat, BitVec.setWidth_eq]
  rw [hs]
  exact ⟨rfl, DeviceStoreEffect.of_dev (u := (s.countAccess.pushAll [.dev r v]).unit) rfl⟩

end

/-- Settles O27: the two forms differ in their effective address alone. -/
theorem deviceAccessResults : Obligations.DeviceAccessResults := fun _ ra _ _ _ hsm h3 =>
  ⟨fun h => ⟨⟨_, rfl, State.loadInto_device hsm h3 h ra⟩, ⟨_, rfl, State.storeFrom_device hsm h3 h _⟩⟩,
    fun h => ⟨⟨_, rfl, State.loadInto_device hsm h3 h ra⟩, ⟨_, rfl, State.storeFrom_device hsm h3 h _⟩⟩⟩

/-! ### A store and then a load (R134, R139, R140) -/

theorem getElem_disassembleLittle (n v i : Nat) (h : i < (disassembleLittle n v).length) :
    (disassembleLittle n v)[i] = BitVec.ofNat 8 (v / 2 ^ (8 * i)) := by
  induction n generalizing v i with
  | zero => simp [disassembleLittle] at h
  | succ n ih =>
    cases i with
    | zero => simp [disassembleLittle]
    | succ i =>
      simp only [disassembleLittle, List.getElem_cons_succ]
      rw [ih, Nat.div_div_eq_div_mul, Nat.mul_add, Nat.add_comm (8 * i), Nat.pow_add]

/-- Little-endian, the bytes go from the low end of the value (R134). -/
theorem getD_disassemble_little {n i : Nat} (hi : i < n) (v : Nat) :
    (disassemble .little n v).getD i 0#8 = BitVec.ofNat 8 (v / 2 ^ (8 * i)) := by
  have hlen := length_disassembleLittle n v
  rw [disassemble, List.getD_eq_getElem _ _ (by omega), getElem_disassembleLittle]

/-- Big-endian, the bytes go from the high end of the value (R134). -/
theorem getD_disassemble_big {n i : Nat} (hi : i < n) (v : Nat) :
    (disassemble .big n v).getD i 0#8 = BitVec.ofNat 8 (v / 2 ^ (8 * (n - 1 - i))) := by
  have hlen := length_disassembleLittle n v
  rw [disassemble, List.getD_eq_getElem _ _ (by rw [List.length_reverse]; omega), List.getElem_reverse,
    getElem_disassembleLittle, hlen]

/-- The bytes just written at an address are read back there. -/
theorem Memory.readBytes_writeBytes (c : Config) {m : Memory} (hm : Memory.wf c m = true) (pa : Nat) (bs : List Byte) :
    Memory.readBytes c (Memory.writeBytes c m pa bs) pa bs.length = bs := by
  refine List.ext_getElem (by simp) fun i _ hi => ?_
  rw [Memory.getElem_readBytes, Memory.read_writeBytes c hm, if_pos ⟨by omega, by omega⟩, Nat.add_sub_cancel_left,
    List.getD_eq_getElem _ _ hi]

/-- The commit of one memory entry, where no unit was in progress. -/
theorem State.commit_mem_of_idle {s : State} (h : s.unitIdle) (pa : Nat) (bs : List Byte) :
    (s.pushAll [.mem pa bs]).commit.mem = Memory.writeBytes s.cfg s.mem pa bs := by
  have hq : s.unit.queue = [] := by rw [h]; rfl
  rw [State.commit_pushAll, State.commit_empty s hq]
  rfl

/-- Once committed, the stored bytes are those of the chunk they were stored to. -/
theorem State.chunkBytes_stored {s : State} (hidle : s.unitIdle) (hwf : Memory.wf s.cfg s.mem = true) (va pa : Word)
    (b : Backing) (bs : List Byte) :
    (s.pushAll [.mem pa.toNat bs]).commit.chunkBytes [⟨va, pa, bs.length, b⟩] = bs := by
  refine (List.append_nil _).trans ?_
  rw [State.commit_cfg, State.pushAll_cfg, State.commit_mem_of_idle hidle]
  exact Memory.readBytes_writeBytes s.cfg hwf pa.toNat bs

/-- A write to one chunk of memory queues its bytes in the target's order (R140). -/
theorem writeEntries_single (e : Endian) (n v : Nat) (va pa : Word) :
    writeEntries e n v [⟨va, pa, n, .bytes⟩] = [.mem pa.toNat (disassemble e n v)] :=
  congrArg (fun bs => [WbEntry.mem pa.toNat bs]) (List.take_of_length_le (Nat.le_of_eq (length_disassemble ..)))

/-- Settles O28: both accesses are the one chunk at the address, and its bytes are those of the value. -/
theorem storeThenLoad : Obligations.StoreThenLoad := by
  intro s va n v hn h3 hwf hidle hseg ha hram
  have hchunk : ∀ (t : State) (kind : AccessKind), t.cfg = s.cfg →
      t.chunks va n kind t.unit.effSM = .ok [⟨va, va, n, .bytes⟩] := fun t kind ht =>
    State.reaches.chunks (.inl ⟨hseg, rfl⟩) (ht ▸ h3) hn ha (.inl (ht ▸ hram))
  have hw := State.memWrite_of_chunks (v := v) (State.misaligned_of_aligned ha) (hchunk s .write rfl)
  have hstored := State.chunkBytes_stored hidle hwf va va .bytes (disassemble s.cfg.endian n v)
  rw [writeEntries_single] at hw
  rw [length_disassemble] at hstored
  refine ⟨_, hw, ?_⟩
  have hcfg := State.commit_cfg (s.pushAll [.mem va.toNat (disassemble s.cfg.endian n v)])
  generalize (s.pushAll [.mem va.toNat (disassemble s.cfg.endian n v)]).commit = t at hstored hcfg ⊢
  refine ⟨?_, fun i hi => ?_⟩
  · have hvalue : t.valueOf [⟨va, va, n, .bytes⟩] = v % 2 ^ (8 * n) := by
      rw [← assemble_disassemble s.cfg.endian, ← hstored]
      exact congrArg (fun c => assemble c.endian _) hcfg
    rw [State.memRead_of_chunks (State.misaligned_of_aligned ha) (hchunk t .read hcfg), hvalue]
  · have hbyte : t.byteAt (va.toNat + i) = (disassemble s.cfg.endian n v).getD i 0#8 := by
      rw [← hstored, State.chunkBytes_single]
      simp [hi]
    rw [hbyte]
    cases s.cfg.endian with
    | little => exact getD_disassemble_little hi v
    | big => exact getD_disassemble_big hi v

/-! ### A faulting access (R262, R350, R520) -/

/-- A vectored exception discards the unit and enters its handler. -/
theorem State.takeException_taken {s : State} {e : Exc} {h : Word} (hl : s.cr.legal) (hv : s.cfg.hasFaultVector = true)
    (hr : s.readVector e.code = some h) (b ret : Word) :
    ExceptionTaken s (s.takeException e b ret) ((TrapKind.exception e b).cause &&& 0x80000F1F#32) b ret h := by
  refine ⟨?_, State.takeException_dev .., State.takeException_queue .., State.takeException_raised ..⟩
  rcases s.takeException_cases e b ret with ⟨_, he⟩ | ⟨hn, _⟩
  · have hvec : (s.discard.markRaised).readVector e.code = some h := by
      rw [← hr]
      exact State.readVector_congr (s := s) (t := s.discard.markRaised) rfl rfl rfl rfl _
    obtain ⟨hpc, hpsw, hbpsw, hbpc, hcause, hbad, hevb, hsupp, hrb, hsm, hwait, hrest⟩ :=
      State.trapEntry_entered (s := s.discard.markRaised) (k := .exception e b) hl ret hvec
    rw [he]
    exact ⟨hpc, hpsw, hbpsw, hbpc, hcause, hbad, hevb, hsupp, hrb, hsm, hwait, hrest⟩
  · rw [hv] at hn; cases hn

theorem excOf_code (f : MemFault) : (excOf f).code = faultCode f := by cases f <;> rfl

theorem excOf_cause (f : MemFault) (ea : Word) :
    (TrapKind.exception (excOf f) ea).cause &&& 0x80000F1F#32 = BitVec.ofNat 32 (faultCode f) := by
  cases f <;> simp [TrapKind.cause, excOf, Exc.trapNo, Exc.code, faultCode]

theorem State.raiseAccess_taken {s : State} {f : MemFault} {h : Word} (hl : s.cr.legal)
    (hv : s.cfg.hasFaultVector = true) (hr : s.readVector (faultCode f) = some h) (ea : Word) :
    ExceptionTaken s (s.raiseAccess f ea) (BitVec.ofNat 32 (faultCode f)) ea s.pc h := by
  rw [← excOf_cause f ea]
  exact State.takeException_taken hl hv (excOf_code f ▸ hr) ea s.pc

section
variable {s : State} {n : Nat} {ea : Word} {f : MemFault}

theorem State.loadInto_of_error (h : s.memRead ea n = .error f) (ext : Nat → Word) (ra : RegNum) :
    s.loadInto n ext ra ea = s.raiseAccess f ea := by rw [State.loadInto, h]

theorem State.loadPair_of_error (h : s.memRead ea 8 = .error f) (ra : RegNum) :
    s.loadPair ra ea = s.raiseAccess f ea := by rw [State.loadPair, h]

theorem State.storeFrom_of_error {v : Nat} (h : s.memWrite ea n v = .error f) :
    s.storeFrom n v ea = s.raiseAccess f ea := by rw [State.storeFrom, h]

end

/-- Every load whose read faults raises that fault at its effective address (R350). -/
theorem exec_load_fault (s : State) (ra rb : RegNum) (imm : BitVec 16) (f : MemFault) :
    ∀ x ∈ loadForms s ra rb imm, s.memRead x.2.2 x.2.1 = .error f → exec x.1 s = .next (s.raiseAccess f x.2.2) := by
  have into : ∀ n ext ea, s.memRead ea n = .error f → (.next (s.loadInto n ext ra ea) : Result) =
      .next (s.raiseAccess f ea) := fun _ ext _ h => by rw [State.loadInto_of_error h]
  have pair : ∀ ea, s.memRead ea 8 = .error f → (.next (s.loadPair ra ea) : Result) =
      .next (s.raiseAccess f ea) := fun _ h => by rw [State.loadPair_of_error h]
  simp only [loadForms, List.forall_mem_cons]
  exact ⟨into _ _ _, into _ _ _, into _ _ _, into _ _ _, into _ _ _, pair _, into _ _ _, into _ _ _, into _ _ _,
    into _ _ _, into _ _ _, pair _, fun x hx => by cases hx⟩

/-- Every store whose write faults raises that fault at its effective address (R350). -/
theorem exec_store_fault (s : State) (ra rb : RegNum) (imm : BitVec 16) (f : MemFault) :
    ∀ x ∈ storeForms s ra rb imm, (∀ v, s.memWrite x.2.2 x.2.1 v = .error f) →
      exec x.1 s = .next (s.raiseAccess f x.2.2) := by
  have store : ∀ n v ea, (∀ v, s.memWrite ea n v = .error f) → (.next (s.storeFrom n v ea) : Result) =
      .next (s.raiseAccess f ea) := fun _ v _ h => by rw [State.storeFrom_of_error (h v)]
  simp only [storeForms, List.forall_mem_cons]
  exact ⟨store _ _ _, store _ _ _, store _ _ _, store _ _ _, store _ _ _, store _ _ _, store _ _ _, store _ _ _,
    fun x hx => by cases hx⟩

/-- Settles O30: the instruction raises the access's fault, and the handler of that fault is entered. -/
theorem accessFaultsTaken : Obligations.AccessFaultsTaken := by
  intro s ra rb imm f h hl hv hr
  exact ⟨fun x hx hf => ⟨_, exec_load_fault s ra rb imm f x hx hf, State.raiseAccess_taken hl hv hr _⟩,
    fun x hx hf => ⟨_, exec_store_fault s ra rb imm f x hx hf, State.raiseAccess_taken hl hv hr _⟩⟩

end Sys2Proof.Machine
end

section
/-! SUPPORT. From a word back to its unit: the fields of a container build it again, every entry of the opcode maps keeps each bit it
reads, and what the maps leave out is illegal (R201 to R216). -/

namespace Sys2Proof

/-! ### A container is its fields -/

theorem mkImm_append (op : BitVec 5) (ra rb : BitVec 4) (fn : BitVec 2) :
    mkImm op ra (rb ++ fn) = mkShort op ra rb fn := by
  rw [mkImm]
  congr 1
  · exact BitVec.extractLsb'_append_eq_left
  · exact BitVec.extractLsb'_append_eq_right

theorem mkBranch_append (op : BitVec 5) (ra rb : BitVec 4) (fn : BitVec 2) :
    mkBranch op (ra ++ rb ++ fn) = mkShort op ra rb fn := by
  rw [mkBranch]
  congr 1
  · exact (BitVec.extractLsb'_append_eq_of_le (by decide)).trans BitVec.extractLsb'_append_eq_left
  · exact (BitVec.extractLsb'_append_eq_of_le (by decide)).trans BitVec.extractLsb'_append_eq_right
  · exact BitVec.extractLsb'_append_eq_right

/-- A value whose high part is 0 is its low part, extended. -/
theorem zero_append_extractLsb' {m n : Nat} {x : BitVec (m + n)} (h : x.extractLsb' n m = 0#m) :
    0#m ++ x.extractLsb' 0 n = x := by
  rw [← h, BitVec.extractLsb'_append_extractLsb'_eq_extractLsb' (by omega)]
  exact BitVec.extractLsb'_eq_self

/-- A shift whose top amount bit is 0 loses nothing (R213). -/
theorem mkShift_extractLsb' {rb : BitVec 4} (h : rb.getLsbD 3 = false) (op : BitVec 5) (ra : BitVec 4) (fn : BitVec 2) :
    mkShift op ra ((rb ++ fn).extractLsb' 0 5) = mkShort op ra rb fn := by
  have htop : (rb ++ fn : BitVec 6).extractLsb' 5 1 = 0#1 := by
    apply BitVec.eq_of_getLsbD_eq
    intro i hi
    obtain rfl : i = 0 := by omega
    rw [BitVec.getLsbD_extractLsb', BitVec.getLsbD_append]
    simpa using h
  rw [mkShift, zero_append_extractLsb' (m := 1) (n := 5) htop, mkImm_append]

theorem number_of_cregOf {n : BitVec 4} {c : CReg} (h : cregOf n = some c) : c.number = n := by
  fun_cases cregOf n with
  | case8 => simp [cregOf] at h
  | _ => cases h; rfl

theorem mkShort_fields (s : BitVec 15) :
    mkShort (s.extractLsb' 10 5) (s.extractLsb' 6 4) (s.extractLsb' 2 4) (s.extractLsb' 0 2) = s := by
  simp (disch := rfl) only [mkShort, BitVec.extractLsb'_append_extractLsb'_eq_extractLsb']
  exact BitVec.extractLsb'_eq_self

theorem mkLong_fields {w : Word} (h : w.extractLsb' 30 2 = 2#2) :
    mkLong (w.extractLsb' 24 6) (w.extractLsb' 20 4) (w.extractLsb' 16 4) (w.extractLsb' 0 16) = w := by
  simp (disch := rfl) only [mkLong, ← h, BitVec.extractLsb'_append_extractLsb'_eq_extractLsb']
  exact BitVec.extractLsb'_eq_self

/-- `FM` of a pair in each order (R201). -/
def Order.format : Order → BitVec 2
  | .leftFirst => 0#2
  | .rightFirst => 1#2

theorem mkPair_eq (o : Order) (l r : BitVec 15) : mkPair o l r = o.format ++ l ++ r := by
  cases o <;> rfl

theorem mkPair_halves {o : Order} {w : Word} (h : w.extractLsb' 30 2 = o.format) :
    mkPair o (w.extractLsb' 15 15) (w.extractLsb' 0 15) = w := by
  simp (disch := rfl) only [mkPair_eq, ← h, BitVec.extractLsb'_append_extractLsb'_eq_extractLsb']
  exact BitVec.extractLsb'_eq_self

/-! ### The opcode maps keep every bit they read (R208 to R213) -/

/-- Where `r` is an instruction, it is a well-formed one of the kind `long`, and `encode` gives `bits` for it. -/
def Reencodes {n : Nat} (encode : Instr → BitVec n) (long : Bool) (bits : BitVec n) (r : Except DecodeError Instr) : Prop :=
  ∀ i, r = .ok i → i.isLong = long ∧ i.wf = true ∧ encode i = bits

namespace Reencodes

variable {n : Nat} {encode : Instr → BitVec n} {long : Bool} {bits : BitVec n} {i : Instr}

theorem ok (hl : i.isLong = long) (hw : i.wf = true) (he : encode i = bits) : Reencodes encode long bits (.ok i) := by
  intro j hj
  cases hj
  exact ⟨hl, hw, he⟩

theorem error (e : DecodeError) : Reencodes encode long bits (.error e) := fun _ h => by cases h

theorem of_requireZero {b : Bool} (h : b = true → Reencodes encode long bits (.ok i)) :
    Reencodes encode long bits (requireZero b i) := by
  cases b with
  | true => exact h rfl
  | false => exact error _

theorem of_requireEven {ra : RegNum} (hl : i.isLong = long) (hw : i.wf = evenReg ra) (he : encode i = bits) :
    Reencodes encode long bits (requireEven ra i) := by
  rw [requireEven]
  split
  · next h => exact ok hl (hw.trans h) he
  · exact error _

end Reencodes

/-- The short map (R208), entry by entry: an entry keeps its fields, joined or apart, and where it drops one it asks for it to be 0. -/
theorem shortOf_reencodes (op : BitVec 5) (ra rb : BitVec 4) (fn : BitVec 2) :
    Reencodes encodeShort false (mkShort op ra rb fn) (shortOf op ra rb fn) := by
  fun_cases shortOf op ra rb fn with
  -- NOP and the hints
  | case1 =>
    split
    · next h => exact .ok rfl h rfl
    · next h =>
      obtain ⟨rfl, rfl⟩ : ra = 0#4 ∧ rb = 0#4 := by simpa [hintFields] using h
      exact .ok rfl rfl rfl
  -- ADDI, LDI, CMPEQI, CMPLTI
  | case19 | case20 | case24 | case25 => exact .ok rfl rfl (mkImm_append ..)
  -- SLLI, SRLI, SRAI
  | case21 | case22 | case23 => exact .of_requireZero fun h => .ok rfl rfl (mkShift_extractLsb' (by simpa using h) ..)
  -- LD2W, ST2W
  | case31 | case35 => exact .of_requireEven rfl rfl rfl
  -- BRA, BRT, BRF, BL
  | case36 | case37 | case38 | case39 => exact .ok rfl rfl (mkBranch_append ..)
  -- JMP, JL
  | case40 | case41 =>
    refine .of_requireZero fun h => ?_
    obtain rfl : ra = 0#4 := by simpa using h
    exact .ok rfl rfl rfl
  -- EXET, EXEF, EXECT, EXECF
  | case42 | case43 | case44 | case45 =>
    refine .of_requireZero fun h => ?_
    obtain ⟨rfl, rfl⟩ : ra = 0#4 ∧ rb = 0#4 := by simpa using h
    exact .ok rfl rfl rfl
  -- MVFC, MVTC
  | case46 c h => exact .ok rfl rfl (congrArg (mkShort _ ra · _) (number_of_cregOf h))
  | case48 c h => exact .ok rfl rfl (congrArg (mkShort _ · rb _) (number_of_cregOf h))
  -- no control register, and what the map does not list
  | case47 | case49 | case50 => exact .error _
  -- two registers
  | _ => exact .ok rfl rfl rfl

/-- The long map (R209), entry by entry, in the same way. -/
theorem longOf_reencodes (op6 : BitVec 6) (ra rb : BitVec 4) (imm : BitVec 16) :
    Reencodes encodeInstr true (mkLong op6 ra rb imm) (longOf op6 ra rb imm) := by
  fun_cases longOf op6 ra rb imm with
  -- LDIL, LDIH
  | case1 | case2 =>
    refine .of_requireZero fun h => ?_
    obtain rfl : rb = 0#4 := by simpa using h
    exact .ok rfl rfl rfl
  -- LD2W.D, ST2W.D
  | case12 | case16 => exact .of_requireEven rfl rfl rfl
  -- BRA.L, BRT.L, BRF.L, BL.L
  | case17 | case18 | case19 | case20 =>
    refine .of_requireZero fun h => ?_
    obtain ⟨rfl, rfl⟩ : ra = 0#4 ∧ rb = 0#4 := by simpa using h
    exact .ok rfl rfl rfl
  -- TRAP
  | case21 =>
    refine .of_requireZero fun h => ?_
    obtain ⟨⟨rfl, rfl⟩, hn⟩ : (ra = 0#4 ∧ rb = 0#4) ∧ imm.extractLsb' 4 12 = 0#12 := by simpa using h
    exact .ok rfl rfl (congrArg (mkLong _ _ _) (zero_append_extractLsb' (m := 12) (n := 4) hn))
  -- RTI, WAIT, STOP, BRK
  | case22 | case23 | case24 | case25 =>
    refine .of_requireZero fun h => ?_
    obtain ⟨⟨rfl, rfl⟩, rfl⟩ : (ra = 0#4 ∧ rb = 0#4) ∧ imm = 0#16 := by simpa using h
    exact .ok rfl rfl rfl
  -- what the map does not list
  | case26 => exact .error _
  -- every field used
  | _ => exact .ok rfl rfl rfl

theorem decodeShort_reencodes (s : BitVec 15) : Reencodes encodeShort false s (decodeShort s) := by
  have h := shortOf_reencodes (s.extractLsb' 10 5) (s.extractLsb' 6 4) (s.extractLsb' 2 4) (s.extractLsb' 0 2)
  rwa [mkShort_fields] at h

theorem decodeLong_reencodes {w : Word} (h : w.extractLsb' 30 2 = 2#2) : Reencodes encodeInstr true w (decodeLong w) := by
  have h' := longOf_reencodes (w.extractLsb' 24 6) (w.extractLsb' 20 4) (w.extractLsb' 16 4) (w.extractLsb' 0 16)
  rwa [mkLong_fields h] at h'

/-! ### Units -/

theorem decodePair_reencodes {o : Order} {w : Word} {u : FetchUnit} (hf : w.extractLsb' 30 2 = o.format)
    (h : decodePair o w = .ok u) : u.wf = true ∧ encodeUnit u = w := by
  rw [decodePair] at h
  split at h
  · cases h
  · next l hl =>
    split at h
    · cases h
    · next r hr =>
      cases h
      obtain ⟨hl1, hl2, hl3⟩ := decodeShort_reencodes _ l hl
      obtain ⟨hr1, hr2, hr3⟩ := decodeShort_reencodes _ r hr
      refine ⟨by simp [FetchUnit.wf, hl1, hl2, hr1, hr2], ?_⟩
      rw [encodeUnit, hl3, hr3, mkPair_halves hf]

/-- Settles O3: by the format, a pair of halves or a long instruction, each of which the opcode maps give back. -/
theorem decodedUnitsReencode : Obligations.DecodedUnitsReencode := by
  intro w u h
  rw [decodeUnit] at h
  split at h
  · next hf => exact decodePair_reencodes (o := .leftFirst) hf h
  · next hf => exact decodePair_reencodes (o := .rightFirst) hf h
  · next hf =>
    split at h
    · cases h
    · next i hi =>
      cases h
      obtain ⟨hl, hw, he⟩ := decodeLong_reencodes hf i hi
      exact ⟨by rw [FetchUnit.wf, hl, hw]; rfl, he⟩
  · cases h

/-! ### What is illegal (R211, R212, R214) -/

theorem shortOf_reserved {op : BitVec 5} {fn : BitVec 2}
    (h : op = 0x0F#5 ∨ 0x17 ≤ op.toNat ∨ (fn = 3#2 ∧ (op = 0x03#5 ∨ op = 0x04#5)) ∨
      (2 ≤ fn.toNat ∧ (op = 0x0D#5 ∨ op = 0x14#5 ∨ op = 0x16#5))) (ra rb : RegNum) :
    shortOf op ra rb fn = .error (.reservedShort op fn) := by
  fun_cases shortOf op ra rb fn with
  | case50 => rfl
  | _ => simp at h

theorem longOf_reserved {op6 : BitVec 6}
    (h : op6 = 0x00#6 ∨ op6 = 0x07#6 ∨ op6 = 0x0E#6 ∨ op6 = 0x0F#6 ∨ (0x14 ≤ op6.toNat ∧ op6.toNat ≤ 0x17) ∨
      (0x1C ≤ op6.toNat ∧ op6.toNat ≤ 0x2F) ∨ 0x35 ≤ op6.toNat) (ra rb : RegNum) (imm : BitVec 16) :
    longOf op6 ra rb imm = .error (.reservedLong op6) := by
  fun_cases longOf op6 ra rb imm with
  | case26 => rfl
  | _ => simp at h

theorem decodeUnit_of_long_error {w : Word} {e : DecodeError} (hf : w.extractLsb' 30 2 = 2#2) (hd : decodeLong w = .error e) :
    decodeUnit w = .error e := by
  simp only [decodeUnit, hf, hd]

theorem decodeUnit_of_reserved {w : Word} (h : w.extractLsb' 30 2 = 3#2) : decodeUnit w = .error .reservedFormat := by
  rw [decodeUnit, h]
  rfl

theorem decodeUnit_mkPair_eq (o : Order) (l r : BitVec 15) : decodeUnit (mkPair o l r) = decodePair o (mkPair o l r) := by
  have hf := mkPair_format o l r
  cases o <;> simp only [decodeUnit, hf]

/-- A half that does not decode makes its unit illegal, whatever the other half is (R214). -/
theorem decodeUnit_mkPair_error (o : Order) {l r : BitVec 15}
    (h : (∃ e, decodeShort l = .error e) ∨ ∃ e, decodeShort r = .error e) : ∃ e, decodeUnit (mkPair o l r) = .error e := by
  rw [decodeUnit_mkPair_eq, decodePair, mkPair_left, mkPair_right]
  rcases h with ⟨e, hl⟩ | ⟨e, hr⟩
  · exact ⟨e, by rw [hl]⟩
  · rw [hr]
    cases decodeShort l with
    | error e' => exact ⟨e', rfl⟩
    | ok i => exact ⟨e, rfl⟩

/-- Settles O4: the maps answer an error for what they do not list. -/
theorem illegalEncodingsRefused : Obligations.IllegalEncodingsRefused :=
  ⟨fun _ ra rb _ h => ⟨_, (decodeShort_mkShort ..).trans (shortOf_reserved h ra rb)⟩,
    fun _ ra rb imm h =>
      ⟨_, decodeUnit_of_long_error (mkLong_format ..) ((decodeLong_mkLong ..).trans (longOf_reserved h ra rb imm))⟩,
    fun _ h => ⟨_, decodeUnit_of_reserved h⟩,
    fun o _ _ h => decodeUnit_mkPair_error o h⟩

/-! ### Words of the spec (R216) -/

/-- A word that is the encoding of a well-formed unit decodes to it. -/
theorem decodeUnit_of_encodeUnit {w : Word} {u : FetchUnit} (hw : u.wf = true) (he : encodeUnit u = w) :
    decodeUnit w = .ok u :=
  he ▸ decodeUnit_encodeUnit hw

/-- Settles O1: each word is the encoding of its unit, and the two illegal kinds are a reserved `op6` and `FM = 11`. -/
theorem specWordsDecode : Obligations.SpecWordsDecode :=
  have illegal : ∃ e, decodeUnit 0x80000000#32 = .error e :=
    ⟨_, decodeUnit_of_long_error rfl (longOf_reserved (.inl rfl) 0 0 0)⟩
  have decodes := @decodeUnit_of_encodeUnit
  ⟨decodes rfl rfl, illegal, fun _ h => ⟨_, decodeUnit_of_reserved h⟩, decodes rfl rfl, decodes rfl rfl, decodes rfl rfl,
    decodes rfl rfl, decodes rfl rfl, decodes rfl rfl, decodes rfl rfl, decodes rfl rfl, decodes rfl rfl, decodes rfl rfl⟩

end Sys2Proof
end

section
/-! SUPPORT. Branches (R379 to R388); how a unit that raised ends: with the run stopped, or past a quiet boundary (R261 to R266); and the
unit that does not decode (R214, R252). -/

namespace Sys2Proof.Machine

/-! ### Branches -/

theorem State.branchIf_not (s : State) (c : Bool) (d : Word) : s.branchIf (!c) d = if c then s else s.branchBy d := by
  cases c <;> rfl

/-- Settles O31: a branch is its transfer under its condition, which for BRF is F0 clear. -/
theorem branchResults : Obligations.BranchResults := fun s _ _ =>
  ⟨rfl, rfl, congrArg Host.Outcome.next (s.branchIf_not ..), rfl, rfl, congrArg Host.Outcome.next (s.branchIf_not ..)⟩

/-! ### A raise that nothing can vector (R262, R266, R526, R528) -/

section
variable {s : State} {e : Exc}

/-- A raise that stops the run ends its unit there: no tick and no boundary. -/
theorem State.takeException_finishUnit_of_stops (b ret : Word)
    (h : s.cfg.hasFaultVector = false ∨ s.readVector e.code = none) :
    (s.takeException e b ret).finishUnit = .next (s.takeException e b ret).endUnit := by
  have hrun : (s.takeException e b ret).isRunning = false := by
    rw [State.takeException_stops b ret h]
    rfl
  rw [State.finishUnit, if_pos (State.takeException_raised ..), State.endRaised, hrun]
  rfl

/-- An instruction that raises where nothing can be vectored leaves a discarded unit and a stopped run. The signal is that of the exception,
which matters only without vectors. -/
theorem exec_raise_stops {i : Instr} {b ret : Word} {sig : Signal} (hx : exec i s = .next (s.takeException e b ret))
    (hsig : s.cfg.hasFaultVector = false → e.signal = sig)
    (h : s.cfg.hasFaultVector = false ∨ s.readVector e.code = none) :
    ∃ t, exec i s = .next t ∧ t.unit.queue = [] ∧
      t = { s with unit := t.unit,
                   run := .stopped (some (.signalled (if s.cfg.hasFaultVector then .sigbus else sig))) } ∧
      t.finishUnit = .next t.endUnit := by
  refine ⟨_, hx, State.takeException_queue .., ?_, State.takeException_finishUnit_of_stops b ret h⟩
  have hstop := State.takeException_stops b ret h
  cases hv : s.cfg.hasFaultVector with
  | true => rwa [hv] at hstop
  | false => rwa [hv, hsig hv] at hstop

end

theorem excOf_signal (f : MemFault) : (excOf f).signal = faultSignal f := by cases f <;> rfl

/-- In user mode every privileged instruction raises IllegalInstruction (R269, R561). -/
theorem exec_privileged_user {s : State} (h : s.unit.effSM = false) (cr : CReg) (rb : RegNum) :
    ∀ i ∈ privilegedForms cr rb, exec i s = .next s.raiseIllegal := by
  have refused : ∀ f, (.next (s.privileged f) : Result) = .next s.raiseIllegal := fun _ => by
    rw [State.privileged, h]
    rfl
  simp only [privilegedForms, List.forall_mem_cons]
  exact ⟨refused _, refused _, refused _, refused _, fun i hi => by cases hi⟩

/-- With vectored faults a trap that is no system call raises (R415). -/
theorem exec_trap_vectored {s : State} {n : BitVec 4} (hv : s.cfg.hasFaultVector = true) (hn : n ≠ s.cfg.syscallTrap) :
    exec (.trap n) s = .next (s.takeException (.softwareTrap n) s.unit.word (s.pc + 4#32)) :=
  (if_neg hn).trans (if_pos hv)

/-! ### A unit that does not decode (R214, R252) -/

theorem State.readVector_startUnit (s : State) (w : Word) (v : Nat) : (s.startUnit w).readVector v = s.readVector v :=
  State.readVector_congr (s := s) (t := s.startUnit w) rfl rfl rfl rfl v

theorem step_of_atUnit {s : State} {w : Word} (h : s.atUnit w) : step s = runWord w s := by
  simp only [step, engineStep, stepUnit, h.running, h.awake, h.fetched, Bool.false_eq_true, if_false]

theorem step_of_undecodable {s : State} {w : Word} {e : DecodeError} (h : s.atUnit w) (hd : decodeUnit w = .error e) :
    step s = ((s.startUnit w).takeException .illegalInstruction w s.pc).finishUnit := by
  rw [step_of_atUnit h, runWord, hd]
  rfl

theorem step_undecodable_stops {s : State} {w : Word} {e : DecodeError} (h : s.atUnit w) (hd : decodeUnit w = .error e)
    (hv : s.cfg.hasFaultVector = false ∨ s.readVector 1 = none) :
    step s = .next { s with
      run := .stopped (some (.signalled (if s.cfg.hasFaultVector then .sigbus else .sigill)))
      unit := UnitState.idle s.cr.psw } := by
  have hv' : (s.startUnit w).cfg.hasFaultVector = false ∨ (s.startUnit w).readVector Exc.illegalInstruction.code = none := by
    rwa [State.readVector_startUnit]
  rw [step_of_undecodable h hd, State.takeException_finishUnit_of_stops _ _ hv', State.takeException_stops _ _ hv']
  rfl

/-- Settles O39: each form raises its exception, and the raise can only stop the run. -/
theorem noVectorStops : Obligations.NoVectorStops := by
  intro s ra rb imm cr f
  refine ⟨fun x hx hf hv => ?_, fun x hx hf hv => ?_, fun hu i hi hv => ?_, fun hvec n hn hv => ?_,
    fun w e => step_undecodable_stops⟩
  · exact exec_raise_stops (exec_load_fault s ra rb imm f x hx hf) (fun _ => excOf_signal f) (excOf_code f ▸ hv)
  · exact exec_raise_stops (exec_store_fault s ra rb imm f x hx hf) (fun _ => excOf_signal f) (excOf_code f ▸ hv)
  · exact exec_raise_stops (exec_privileged_user hu cr rb i hi) (fun _ => rfl) hv
  · exact exec_raise_stops (exec_trap_vectored hvec hn) (fun hoff => by rw [hvec] at hoff; cases hoff) hv

/-! ### A raise that enters its handler (R261, R262) -/

/-- A raise whose vector can be read, written out (R262, R528). -/
theorem State.takeException_of_vector {s : State} {e : Exc} {h : Word} (hv : s.cfg.hasFaultVector = true)
    (hr : s.readVector e.code = some h) (b ret : Word) :
    s.takeException e b ret =
      { s with
        cr := trapCr s (.exception e b) ret
        unit := { s.unit with queue := [], effRB := true, effSM := true, raised := true }
        pc := h
        waiting := false } := by
  have hvec : (s.discard.markRaised).readVector e.code = some h :=
    (State.readVector_congr (s := s) (t := s.discard.markRaised) rfl rfl rfl rfl _).trans hr
  rcases s.takeException_cases e b ret with ⟨_, he⟩ | ⟨hn, _⟩
  · rw [he]
    rcases State.trapEntry_cases (s.discard.markRaised) (.exception e b) ret with ⟨hn, _⟩ | ⟨g, hg, ht⟩
    · rw [TrapKind.vector, hvec] at hn; cases hn
    · obtain rfl : h = g := Option.some.inj (hvec.symm.trans hg)
      rw [ht]
      rfl
  · rw [hv] at hn; cases hn

/-- The boundary of a quiet machine changes nothing (R263). -/
theorem State.boundary_of_quiet {s : State} (h : s.quiet) : s.boundary false = .next s.endUnit := by
  have hadv : s.advance s.time = some s := State.advance_of_not_due (by rw [h.events]; rfl)
  have hchk : s.boundaryCheck false = s := by
    simp [State.boundaryCheck, State.takeArrival_of_nil s h.arrivals, State.interruptCheck_of_none (.inr h.level),
      State.boundaryStops, h.stopRequest, h.singleStep]
  rw [State.boundary, hadv]
  exact congrArg (fun t : State => Host.Outcome.next t.endUnit) hchk

/-- In a quiet machine a unit that raised, and goes on, ends with its ticks alone (R261, R262). -/
theorem State.finishUnit_of_raised {s : State} (hr : s.unit.raised = true) (hrun : s.run = .running) (hq : s.quiet) :
    s.finishUnit = .next s.tick.endUnit := by
  have hquiet : s.tick.quiet := ⟨hq.events, hq.level, hq.stopRequest, hq.singleStep, hq.arrivals⟩
  have hon : s.isRunning = true := by rw [State.isRunning, hrun]; rfl
  rw [State.finishUnit, if_pos hr, State.endRaised, if_pos hon, State.boundary_of_quiet hquiet]

/-- A unit without a completed data access costs its unit cost alone (R261). -/
theorem State.tick_of_no_access {s : State} (h : s.unit.acc = 0) :
    s.tick = { s with time := addTicks s.time s.cfg.unitCost } := by
  rw [State.tick, h, Nat.mul_zero, Nat.add_zero]

/-- CAUSE of an illegal unit is its code alone (R520). -/
theorem illegalInstruction_cause (w : Word) :
    (TrapKind.exception .illegalInstruction w).cause &&& 0x80000F1F#32 = 0x00000001#32 := by
  simp [TrapKind.cause, Exc.trapNo, Exc.code]

/-- Settles O51: the illegal unit raises from a fresh unit, the handler is entered, and the quiet boundary adds the tick alone. -/
theorem illegalUnitRaises : Obligations.IllegalUnitRaises := by
  intro s w h e hu hd hl hv hr hq
  have hvec : (s.startUnit w).readVector Exc.illegalInstruction.code = some h := by
    rwa [State.readVector_startUnit]
  have hcr := trapCr_of_legal (s := s.startUnit w) hl (.exception .illegalInstruction w) s.pc
  rw [handlerPsw_masked, illegalInstruction_cause] at hcr
  rw [step_of_undecodable hu hd, State.takeException_of_vector (s := s.startUnit w) hv hvec, hcr, State.finishUnit_of_raised]
  · rw [State.tick_of_no_access rfl, hu.awake]
    rfl
  · rfl
  · exact hu.running
  · exact ⟨hq.events, hq.level, hq.stopRequest, hq.singleStep, hq.arrivals⟩

end Sys2Proof.Machine
end

section
/-! SUPPORT. The unit and its end, case by case: a fetch fault, the order of the format, predicates, requests and the boundary; and the
statements about them (R250 to R267, R391 to R394, R415, R420, R421, R461). -/

namespace Sys2Proof.Machine

/-! ### A fetch fault (R251) -/

theorem State.fetch_of_misaligned {s : State} (h : s.pc.toNat % 4 ≠ 0) : s.fetch = none := if_pos h

theorem State.fetch_of_chunks_error {s : State} {f : MemFault} (h : s.chunks s.pc 4 .fetch (pswSM s.cr.psw) = .error f) :
    s.fetch = none := by
  rw [State.fetch, h]
  exact ite_self none

theorem step_of_awake {s : State} (hr : s.run = .running) (hw : s.waiting = false) : step s = stepUnit s := by
  simp only [step, engineStep, hr, hw, Bool.false_eq_true, if_false]

/-- Settles O52: both kinds of fault leave nothing fetched, and then a step stops the run. -/
theorem fetchFaultStops : Obligations.FetchFaultStops :=
  ⟨fun _ => State.fetch_of_misaligned, fun _ _ => State.fetch_of_chunks_error, fun s hr hw hf => by
    rw [step_of_awake hr hw, stepUnit, hf]
    rfl⟩

/-! ### The unit in the order of its format (R253, R254) -/

theorem step_of_decoded {s : State} {w : Word} {u : FetchUnit} (h : s.atUnit w) (hd : decodeUnit w = .ok u) :
    step s = andThen (execUnit u (s.startUnit w)) State.finishUnit := by
  rw [step_of_atUnit h, runWord, hd]

/-- Settles O49: the three shapes that a decoded unit can have. -/
theorem stepRunsTheUnit : Obligations.StepRunsTheUnit := fun _ _ h =>
  ⟨fun _ hd => step_of_decoded h hd, fun _ _ hd => step_of_decoded h hd, fun _ _ hd => step_of_decoded h hd⟩

/-! ### Predicates (R255, R391 to R394) -/

/-- The predicates with their conditions on a committed PSW (R391 to R394). -/
def predicateForms (psw : Word) : List (Instr × Bool) :=
  [(.exet, pswF0 psw), (.exef, !pswF0 psw), (.exect, pswC psw), (.execf, !pswC psw)]

theorem gateOpen_predicate (psw : Word) : ∀ x ∈ predicateForms psw, gateOpen x.1 psw = x.2 := by
  simp [predicateForms, gateOpen]

/-- A predicate has no effect of its own, enabled or not. -/
theorem execHalf_predicate (psw : Word) (b : Bool) (s : State) :
    ∀ x ∈ predicateForms psw, execHalf b x.1 s = .next s := by
  cases b <;> simp [predicateForms, execHalf, exec, execExet, execExef, execExect, execExecf]

/-- After a half that has neither raised nor recorded a next PC, the second half is only gated (R258). -/
theorem secondHalf_of_plain {s : State} (hr : s.unit.raised = false) (hn : s.unit.npc = none) (b : Bool) (i : Instr) :
    secondHalf b i s = execHalf b i s := by
  simp [secondHalf, hr, hn]

/-- Settles O48: the predicate's own half does nothing, and its partner's half is gated by its condition. -/
theorem predicatesGate : Obligations.PredicatesGate := by
  intro s i hr hn x hx
  have hgate := gateOpen_predicate s.cr.psw x hx
  have hnop := fun b t => execHalf_predicate s.cr.psw b t x hx
  have hfirst : execPair x.1 i s = execHalf x.2 i s := by
    rw [execPair, hnop, hgate]
    exact secondHalf_of_plain hr hn _ i
  have hsecond : execPair i x.1 s = andThen (execHalf x.2 i s) (secondHalf (gateOpen i s.cr.psw) x.1) := by
    rw [execPair, hgate]
  have hplain : ∀ t : State, t.unit.raised = false → t.unit.npc = none →
      secondHalf (gateOpen i s.cr.psw) x.1 t = .next t := fun t ht hnt => by
    rw [secondHalf_of_plain ht hnt, hnop]
  rw [hfirst, hsecond]
  refine ⟨fun hx => ?_, fun hx => ?_⟩ <;> rw [hx]
  · exact ⟨rfl, hplain s hr hn⟩
  · refine ⟨rfl, fun t ht htr htn => ?_⟩
    rw [execHalf, if_pos rfl, ht]
    exact hplain t htr htn

/-! ### Privilege (R269, R561) -/

/-- Settles O37: every privileged form raises IllegalInstruction, whose handler is entered. -/
theorem userModePrivilege : Obligations.UserModePrivilege := by
  intro s cr rb h hu hl hv hr i hi
  have htaken : ExceptionTaken s s.raiseIllegal _ s.unit.word s.pc h :=
    State.takeException_taken (e := .illegalInstruction) hl hv hr s.unit.word s.pc
  rw [illegalInstruction_cause] at htaken
  exact ⟨_, exec_privileged_user hu cr rb i hi, htaken⟩

/-! ### What a unit that has not raised keeps (R250) -/

/-- What only the end of a unit changes, while the unit does not raise. -/
structure UnitFrame (s t : State) : Prop where
  cfg : t.cfg = s.cfg
  pc : t.pc = s.pc
  time : t.time = s.time
  singleStep : t.singleStep = s.singleStep

theorem UnitFrame.trans {s t u : State} (h : UnitFrame s t) (g : UnitFrame t u) : UnitFrame s u :=
  ⟨g.cfg.trans h.cfg, g.pc.trans h.pc, g.time.trans h.time, g.singleStep.trans h.singleStep⟩

theorem exec_frame {i : Instr} {s t : State} (h : exec i s = .next t) (hr : t.unit.raised = false) : UnitFrame s t := by
  rcases exec_effect h with ⟨e, b, r, rfl⟩ | hn | ⟨_, rfl⟩
  · rw [State.takeException_raised] at hr; cases hr
  · exact ⟨hn.cfg, hn.pc, hn.time, hn.singleStep⟩
  · exact ⟨rfl, rfl, rfl, rfl⟩

theorem unitAnswers_frame {s t : State} {w : Word} (h : s.unitAnswers w t) : t.unit.raised = false → UnitFrame s t :=
  unitAnswers_induction (P := fun u => u.unit.raised = false → UnitFrame s u)
    (fun _ _ _ hu hr he hv => (hu hr).trans (exec_frame he hv))
    (fun _ hu hr _ => (hu hr).trans ⟨rfl, rfl, rfl, rfl⟩)
    (fun hr => by rw [State.raiseIllegal, State.takeException_raised] at hr; cases hr)
    (fun _ => ⟨rfl, rfl, rfl, rfl⟩) h

/-! ### What the commit of a unit keeps (R250, R259) -/

theorem State.commitUnit_frame (s : State) : UnitFrame s s.commitUnit := by
  rw [State.commitUnit, State.countSuppressed_eq]
  exact ⟨s.commit_cfg, s.commit_pc, s.commit_time, s.commit_singleStep⟩

theorem State.commitUnit_stopRequest (s : State) : s.commitUnit.stopRequest = s.stopRequest := by
  rw [State.commitUnit, State.countSuppressed_eq]
  exact s.commit_stopRequest

theorem State.commitUnit_host (s : State) : s.commitUnit.host = s.host := by
  rw [State.commitUnit, State.countSuppressed_eq]
  exact s.commit_host

theorem State.commitUnit_unit (s : State) : s.commitUnit.unit = s.commit.unit := by
  rw [State.commitUnit, State.countSuppressed_eq]

theorem State.commitUnit_npc (s : State) : s.commitUnit.unit.npc = s.unit.npc := by
  rw [State.commitUnit_unit, State.commit_spec]; rfl

theorem State.commitUnit_req (s : State) : s.commitUnit.unit.req = s.unit.req := by
  rw [State.commitUnit_unit, State.commit_spec]; rfl

theorem State.commitUnit_acc (s : State) : s.commitUnit.unit.acc = s.unit.acc := by
  rw [State.commitUnit_unit, State.commit_spec]; rfl

/-- What follows a unit's commit, written out: the PC and the ticks (R260, R261). -/
theorem State.advancePc_tick_commitUnit {s t : State} (h : UnitFrame s t) :
    t.commitUnit.advancePc.tick = { t.commitUnit with
      pc := t.unit.npc.getD (s.pc + 4#32)
      time := addTicks s.time (s.cfg.unitCost + s.cfg.memWait * t.unit.acc) } := by
  obtain ⟨hcfg, hpc, htime, -⟩ := h.trans t.commitUnit_frame
  simp only [State.tick, State.advancePc, State.commitUnit_npc, State.commitUnit_acc, hcfg, hpc, htime]

/-! ### The end of a unit that has not raised (R250, R265) -/

section
variable {s : State} (hr : s.unit.raised = false)
include hr

theorem State.finishUnit_of_no_request (hq : s.unit.req = none) :
    s.finishUnit = s.commitUnit.advancePc.tick.boundary false := by
  simp only [State.finishUnit, hr, Bool.false_eq_true, if_false, State.completeUnit, State.commitUnit_req, hq, State.goOn]

theorem State.finishUnit_of_exit {c : Word} (hq : s.unit.req = some (.exit c)) :
    s.finishUnit = .next (s.commitUnit.stopRun (.exited c)).endUnit := by
  simp only [State.finishUnit, hr, Bool.false_eq_true, if_false, State.completeUnit, State.commitUnit_req, hq]

theorem State.finishUnit_of_brk (hq : s.unit.req = some .brk) :
    s.finishUnit = .next (s.commitUnit.stopRun (.stopped .sigtrap)).endUnit := by
  simp only [State.finishUnit, hr, Bool.false_eq_true, if_false, State.completeUnit, State.commitUnit_req, hq]

theorem State.finishUnit_of_trapped (hq : s.unit.req = some .trapped) :
    s.finishUnit = s.commitUnit.advancePc.tick.boundary true := by
  simp only [State.finishUnit, hr, Bool.false_eq_true, if_false, State.completeUnit, State.commitUnit_req, hq, State.goOn]

end

/-! ### Units that end the run (R265, R266) -/

theorem step_of_long {s : State} {w : Word} {i : Instr} (h : s.atUnit w) (hd : decodeUnit w = .ok (.long i)) :
    step s = andThen (exec i (s.startUnit w)) State.finishUnit :=
  step_of_decoded h hd

theorem exec_stop_supervisor {s : State} (h : s.unit.effSM = true) :
    exec .stop s = .next (s.setReq (.exit (s.readReg 0#4))) :=
  congrArg Host.Outcome.next (if_pos h)

/-- The `exit` call of the bridge asks for the exit alone (R461). -/
theorem exec_trap_exit {s : State} (h : tableLookup s.cfg.syscallMap (s.readReg 0#4) = some .exit) :
    exec (.trap s.cfg.syscallTrap) s = .next (s.setReq (.exit (s.readReg 1#4))) := by
  have hb : exec (.trap s.cfg.syscallTrap) s = bridge s := if_pos rfl
  rw [hb, bridge, h]
  rfl

/-- Without vectored faults a trap that is no system call asks for the stop (R415). -/
theorem exec_trap_unvectored {s : State} {n : BitVec 4} (hv : s.cfg.hasFaultVector = false) (hn : n ≠ s.cfg.syscallTrap) :
    exec (.trap n) s = .next (s.setReq .trapped) :=
  (if_neg hn).trans (if_neg (by rw [hv]; exact Bool.false_ne_true))

/-- The boundary of a quiet machine stops the run where the unit asked for that (R263). -/
theorem State.boundary_trapped_of_quiet {s : State} (hrun : s.run = .running) (h : s.quiet) :
    s.boundary true = .next (s.stopRun .trapped).endUnit := by
  have hadv : s.advance s.time = some s := State.advance_of_not_due (by rw [h.events]; rfl)
  have hchk : s.boundaryCheck true = s.stopRun .trapped := by
    simp [State.boundaryCheck, State.takeArrival_of_nil s h.arrivals, State.interruptCheck_of_none (.inr h.level),
      State.boundaryStops, State.isRunning, hrun]
  rw [State.boundary, hadv]
  exact congrArg (fun t : State => Host.Outcome.next t.endUnit) hchk

/-- A unit that has done nothing but ask has nothing to commit. -/
theorem State.commitUnit_startUnit_setReq (s : State) (w : Word) (r : Request) :
    ((s.startUnit w).setReq r).commitUnit = (s.startUnit w).setReq r := rfl

/-- In a quiet machine a unit that has done nothing but ask for the stop goes past its end, and stops there (R265). -/
theorem State.finishUnit_of_asking_trapped {s : State} (w : Word) (hrun : s.run = .running) (h : s.quiet) :
    ((s.startUnit w).setReq .trapped).finishUnit = .next { s with
      run := .stopped (some .trapped)
      unit := UnitState.idle s.cr.psw
      pc := s.pc + 4#32
      time := addTicks s.time s.cfg.unitCost } := by
  have hquiet : ((s.startUnit w).setReq .trapped).advancePc.tick.quiet :=
    ⟨h.events, h.level, h.stopRequest, h.singleStep, h.arrivals⟩
  have hend := State.boundary_trapped_of_quiet (s := ((s.startUnit w).setReq .trapped).advancePc.tick) hrun hquiet
  rw [State.finishUnit_of_trapped rfl rfl, State.commitUnit_startUnit_setReq, hend, State.tick_of_no_access rfl]
  rfl

/-- A register that a unit reads as it starts is one of the committed bank (R55, R74). -/
theorem State.readReg_startUnit (s : State) (w : Word) (i : RegNum) : (s.startUnit w).readReg i = s.committedReg i := rfl

theorem State.finishUnit_of_asking_exit (s : State) (w c : Word) :
    ((s.startUnit w).setReq (.exit c)).finishUnit =
      .next { s with run := .stopped (some (.exited c)), unit := UnitState.idle s.cr.psw } :=
  State.finishUnit_of_exit rfl rfl

theorem State.finishUnit_of_asking_brk (s : State) (w : Word) :
    ((s.startUnit w).setReq .brk).finishUnit =
      .next { s with run := .stopped (some (.stopped .sigtrap)), unit := UnitState.idle s.cr.psw } :=
  State.finishUnit_of_brk rfl rfl

/-- Where a long instruction does nothing but ask, the step is the end of a unit that asks. -/
theorem step_of_request {s : State} {w : Word} {i : Instr} {r : Request} (h : s.atUnit w) (hd : decodeUnit w = .ok (.long i))
    (hi : exec i (s.startUnit w) = .next ((s.startUnit w).setReq r)) :
    step s = ((s.startUnit w).setReq r).finishUnit := by
  rw [step_of_long h hd, hi, andThen]

/-- Settles O36: each unit queues nothing and leaves its request, which its end answers. -/
theorem stopsEndTheRun : Obligations.StopsEndTheRun := by
  intro s w h
  refine ⟨fun hd hsm => ?_, fun hd => ?_, fun hd hx => ?_, fun n hd hn hv hq => ?_⟩
  · rw [step_of_request h hd (exec_stop_supervisor hsm), State.readReg_startUnit]
    exact s.finishUnit_of_asking_exit w _
  · rw [step_of_request h hd rfl]
    exact s.finishUnit_of_asking_brk w
  · rw [step_of_request h hd (exec_trap_exit (s := s.startUnit w) hx), State.readReg_startUnit]
    exact s.finishUnit_of_asking_exit w _
  · rw [step_of_request h hd (exec_trap_unvectored hv hn)]
    exact State.finishUnit_of_asking_trapped w h.running hq

/-! ### The boundary after its events (R263, R264, R267) -/

@[simp] theorem State.interruptCheck_stopRequest (s : State) : s.interruptCheck.stopRequest = s.stopRequest := by
  rcases s.interruptCheck_cases with ⟨_, h⟩ | ⟨_, _, ⟨_, h⟩ | ⟨_, h⟩⟩ <;> simp [h]

@[simp] theorem State.interruptCheck_singleStep (s : State) : s.interruptCheck.singleStep = s.singleStep := by
  rcases s.interruptCheck_cases with ⟨_, h⟩ | ⟨_, _, ⟨_, h⟩ | ⟨_, h⟩⟩ <;> simp [h]

theorem State.boundary_of_advance {s v : State} (h : s.advance s.time = some v) (trapped : Bool) :
    s.boundary trapped = .next (v.boundaryCheck trapped).endUnit := by
  rw [State.boundary, h]

theorem State.isRunning_iff (s : State) : s.isRunning = true ↔ s.run = .running := by
  rw [State.isRunning, beq_iff_eq]

/-- A run that the interrupt's entry has ended meets no further stop. -/
theorem State.boundaryCheck_of_stopped {s : State} (h : s.takeArrival.interruptCheck.run ≠ .running) (trapped : Bool) :
    s.boundaryCheck trapped = s.takeArrival.interruptCheck :=
  if_neg (mt (State.isRunning_iff _).1 h)

theorem State.boundaryCheck_of_running {s : State} (h : s.takeArrival.interruptCheck.run = .running) (trapped : Bool) :
    s.boundaryCheck trapped = s.takeArrival.interruptCheck.boundaryStops trapped :=
  if_pos ((State.isRunning_iff _).2 h)

section
variable {s : State}

theorem State.boundaryStops_of_stopRequest (h : s.stopRequest = true) :
    s.boundaryStops false = { s with stopRequest := false }.stopRun (.stopped .sigint) := by
  simp [State.boundaryStops, h]

theorem State.boundaryStops_of_singleStep (h : s.stopRequest = false) (hs : s.singleStep = true) :
    s.boundaryStops false = s.stopRun (.stopped .sigtrap) := by
  simp [State.boundaryStops, h, hs]

theorem State.boundaryStops_of_none (h : s.stopRequest = false) (hs : s.singleStep = false) :
    s.boundaryStops false = s := by
  simp [State.boundaryStops, h, hs]

end

/-- Settles O50: the unit goes on to the boundary from its committed state; then the stops, one at a time. -/
theorem quietUnitAdvances : Obligations.QuietUnitAdvances := by
  intro s t w d h hd hx hr hq u
  have hframe : UnitFrame s t := unitAnswers_frame (.inr ⟨d, hd, hx⟩) hr
  have hu : t.commitUnit.advancePc.tick = u := State.advancePc_tick_commitUnit hframe
  have hstep : step s = u.boundary false := by
    rw [step_of_decoded h hd]
    exact (congrArg (andThen · State.finishUnit) hx).trans ((State.finishUnit_of_no_request hr hq).trans (hu ▸ rfl))
  refine ⟨hstep, fun hquiet => hstep.trans (State.boundary_of_quiet hquiet), fun v hv => ?_⟩
  intro r idle
  rw [hstep, State.boundary_of_advance hv]
  refine ⟨?_, ?_, fun hrun => ?_, fun hrun hs => ?_, fun hrun hs hss => ?_, fun hrun hs hss => ?_⟩
  · have hstop : v.stopRequest = t.stopRequest := (State.advance_stopRequest hv).trans t.commitUnit_stopRequest
    have harr : v.host.arrivals = t.host.arrivals :=
      (State.advance_arrivals hv).trans (congrArg HostState.arrivals t.commitUnit_host)
    rw [State.interruptCheck_stopRequest, State.takeArrival_stopRequest, hstop, harr]
  · rw [State.interruptCheck_singleStep, State.takeArrival_singleStep]
    exact (State.advance_singleStep hv).trans (hframe.trans t.commitUnit_frame).singleStep
  · rw [State.boundaryCheck_of_stopped hrun]
    rfl
  · rw [State.boundaryCheck_of_running hrun, State.boundaryStops_of_stopRequest hs]
    rfl
  · rw [State.boundaryCheck_of_running hrun, State.boundaryStops_of_singleStep hs hss]
    rfl
  · rw [State.boundaryCheck_of_running hrun, State.boundaryStops_of_none hs hss]
    rfl

end Sys2Proof.Machine
end

section
/-! SUPPORT. Where a step answers no state: a host call that never answers, and an event drain that never ends; and the statement about
it (R464, R552, R556). -/

namespace Sys2Proof.Machine

/-! ### The instructions of a unit (R464) -/

/-- An instruction that faults is the system call (R464). -/
theorem exec_fault {i : Instr} {s : State} {f : Fault} (h : exec i s = .fault f) : i = .trap s.cfg.syscallTrap := by
  cases i with
  | trap n =>
    by_cases hn : n = s.cfg.syscallTrap
    · rw [hn]
    · have ht : exec (.trap n) s = if s.cfg.hasFaultVector then
          .next (s.takeException (.softwareTrap n) s.unit.word (s.pc + 4#32)) else .next (s.setReq .trapped) := if_neg hn
      rw [ht] at h
      split at h <;> cases h
  | _ => cases h

/-- A short instruction always answers a state: the system call is long (R209). -/
theorem exec_short_next {i : Instr} (h : i.isLong = false) (s : State) : ∃ t, exec i s = .next t := by
  rcases exec_ends i s with hn | ⟨hf, _⟩
  · exact hn
  · rw [exec_fault hf] at h; cases h

theorem execHalf_short_next {i : Instr} (h : i.isLong = false) (b : Bool) (s : State) : ∃ t, execHalf b i s = .next t := by
  cases b with
  | true => exact exec_short_next h s
  | false => exact ⟨s, rfl⟩

theorem execPair_short_next {a b : Instr} (ha : a.isLong = false) (hb : b.isLong = false) (s : State) :
    ∃ t, execPair a b s = .next t := by
  obtain ⟨u, hu⟩ := execHalf_short_next ha (gateOpen b s.cr.psw) s
  rw [execPair, hu]
  simp only [andThen, secondHalf]
  split
  · exact ⟨_, rfl⟩
  · split
    · exact ⟨_, rfl⟩
    · exact execHalf_short_next hb _ u

/-- How a decoded unit ends: in a state, or stuck in the system call's host (R464). -/
theorem execUnit_ends {w : Word} {u : FetchUnit} (hd : decodeUnit w = .ok u) (s : State) :
    (∃ t, execUnit u s = .next t) ∨
      (execUnit u s = .fault .hostNeverAnswers ∧ s.nextAnswer = .never ∧ u = .long (.trap s.cfg.syscallTrap)) := by
  cases u with
  | long i =>
    rcases exec_ends i s with hn | ⟨hf, ha⟩
    · exact .inl hn
    · exact .inr ⟨hf, ha, congrArg FetchUnit.long (exec_fault hf)⟩
  | pair o l r =>
    obtain ⟨hwf, -⟩ := decodedUnitsReencode w _ hd
    obtain ⟨⟨⟨hl, hr⟩, -⟩, -⟩ : ((l.isLong = false ∧ r.isLong = false) ∧ l.wf = true) ∧ r.wf = true := by
      simpa [FetchUnit.wf] using hwf
    cases o with
    | leftFirst => exact .inl (execPair_short_next hl hr s)
    | rightFirst => exact .inl (execPair_short_next hr hl s)

/-! ### The drain of the boundary (R552) -/

/-- An event drain that answers no state is one of an endless timer (R552). -/
theorem State.endlessTimer_of_advance {s : State} {upto : Ticks} (h : s.advance upto = none) : s.endlessTimer upto := by
  by_contra hn
  obtain ⟨t, ht, -⟩ := State.advance_ends hn
  rw [h] at ht; cases ht

theorem State.boundary_ends (s : State) (trapped : Bool) :
    (∃ t, s.boundary trapped = .next t) ∨ (s.boundary trapped = .fault .endlessEventDrain ∧ s.endlessTimer s.time) := by
  cases h : s.advance s.time with
  | none => exact .inr ⟨by rw [State.boundary, h], State.endlessTimer_of_advance h⟩
  | some v => exact .inl ⟨_, State.boundary_of_advance h trapped⟩

/-- How the end of a unit ends: in a state, or in the drain of its boundary. -/
theorem State.finishUnit_ends (s : State) :
    (∃ t, s.finishUnit = .next t) ∨
      (s.finishUnit = .fault .endlessEventDrain ∧ s.atBoundary.endlessTimer s.atBoundary.time) := by
  cases hr : s.unit.raised with
  | true =>
    have hb : s.atBoundary = s.tick := if_pos hr
    have hf : s.finishUnit = s.endRaised := if_pos hr
    rw [hb, hf, State.endRaised]
    split
    · exact s.tick.boundary_ends false
    · exact .inl ⟨_, rfl⟩
  | false =>
    have hb : s.atBoundary = s.commitUnit.advancePc.tick := if_neg (by rw [hr]; exact Bool.false_ne_true)
    rw [hb]
    cases hq : s.unit.req with
    | none => rw [State.finishUnit_of_no_request hr hq]; exact State.boundary_ends _ _
    | some q =>
      cases q with
      | exit c => exact .inl ⟨_, State.finishUnit_of_exit hr hq⟩
      | brk => exact .inl ⟨_, State.finishUnit_of_brk hr hq⟩
      | trapped => rw [State.finishUnit_of_trapped hr hq]; exact State.boundary_ends _ _

/-! ### The devices at the boundary of a unit in user mode (R561) -/

/-- Committed in user mode, an entry reaches no device register (R561). -/
theorem UserEntry.applyEntry_dev {e : WbEntry} (he : UserEntry e) (t : State) : (t.applyEntry e).dev = t.dev := by
  obtain ⟨r, hr, hok⟩ := he
  cases hok with
  | gpr j v => rfl
  | flags f => rfl
  | mem pa bs _ => rfl
  | cr n v hsm => rw [hr] at hsm; cases hsm
  | dev g v hsm => rw [hr] at hsm; cases hsm

/-- A unit in user mode reaches its boundary with the devices as they were (R561). -/
theorem atBoundary_dev_of_user {s t : State} {w : Word} (hu : pswSM s.cr.psw = false) (h : s.unitAnswers w t) :
    t.atBoundary.dev = s.dev := by
  have hdev : t.dev = s.dev := unitAnswers_dev h
  cases hr : t.unit.raised with
  | true =>
    have hb : t.atBoundary = t.tick := if_pos hr
    rw [hb]
    exact hdev
  | false =>
    have hb : t.atBoundary = t.commitUnit.advancePc.tick := if_neg (by rw [hr]; exact Bool.false_ne_true)
    have hq : ∀ e ∈ t.unit.queue, UserEntry e := ((unitAnswers_userUnit hu h).user hr).2
    have hc : t.commitUnit.dev = s.dev := by
      rw [State.commitUnit_dev]
      exact applyEntries_induction (P := fun v => v.dev = s.dev) hdev fun e he v hv => ((hq e he).applyEntry_dev v).trans hv
    rw [hb]
    exact hc

/-! ### The step -/

/-- How a wait step ends: in a state, or in the drain after its jump to the next event (R547). -/
theorem waitStep_ends (s : State) :
    (∃ t, waitStep s = .next t) ∨
      (waitStep s = .fault .endlessEventDrain ∧ ∃ e rest, s.events = e :: rest ∧ s.endlessTimer e.fireTime) := by
  simp only [waitStep, State.waitIdle]
  split
  · split
    · exact .inl ⟨_, rfl⟩
    · split
      · exact .inl ⟨_, rfl⟩
      · next e rest he =>
        split
        · next hn => exact .inr ⟨rfl, e, rest, he, State.endlessTimer_of_advance (s := { s with time := e.fireTime }) hn⟩
        · exact .inl ⟨_, rfl⟩
  · exact .inl ⟨_, rfl⟩

/-- How the unit at the PC ends: in a state, stuck in the system call's host, or in the drain of its boundary (R464, R552). -/
theorem runWord_ends (s : State) (w : Word) :
    (∃ t, runWord w s = .next t) ∨
      (runWord w s = .fault .hostNeverAnswers ∧ s.nextAnswer = .never ∧
        decodeUnit w = .ok (.long (.trap s.cfg.syscallTrap))) ∨
      (runWord w s = .fault .endlessEventDrain ∧ ∃ t, s.unitAnswers w t ∧ t.atBoundary.endlessTimer t.atBoundary.time) := by
  cases hd : decodeUnit w with
  | error e =>
    have hw : runWord w s = (s.startUnit w).raiseIllegal.finishUnit := by rw [runWord, hd]
    rw [hw]
    exact (State.finishUnit_ends _).imp_right fun ⟨hf, hend⟩ => .inr ⟨hf, _, .inl ⟨e, hd, rfl⟩, hend⟩
  | ok u =>
    have hw : runWord w s = andThen (execUnit u (s.startUnit w)) State.finishUnit := by rw [runWord, hd]
    rcases execUnit_ends hd (s.startUnit w) with ⟨t, ht⟩ | ⟨hf, ha, rfl⟩
    · rw [hw, ht]
      exact t.finishUnit_ends.imp_right fun ⟨hf, hend⟩ => .inr ⟨hf, t, .inr ⟨u, hd, ht⟩, hend⟩
    · exact .inr (.inl ⟨by rw [hw, hf]; rfl, ha, rfl⟩)

/-- Settles O15: a stopped engine keeps its state; a wait step and a unit end as said above. -/
theorem stepNeverRefuses : Obligations.StepNeverRefuses := by
  intro s
  cases hrun : s.run with
  | stopped r => exact .inl ⟨s, by simp only [step, engineStep, hrun]⟩
  | running =>
    cases hw : s.waiting with
    | true =>
      rw [step_of_waiting hrun hw]
      exact (waitStep_ends s).imp_right fun ⟨hf, hend⟩ => .inr ⟨hf, rfl, .inl ⟨rfl, hend⟩⟩
    | false =>
      cases hfetch : s.fetch with
      | none => exact .inl ⟨_, fetchFaultStops.2.2 s hrun hw hfetch⟩
      | some w =>
        have hat : s.atUnit w := ⟨hrun, hw, hfetch⟩
        rw [step_of_atUnit hat]
        rcases runWord_ends s w with hn | ⟨hf, ha, hd⟩ | ⟨hf, t, ht, hend⟩
        · exact .inl hn
        · exact .inr (.inl ⟨hf, ha, w, hat, hd⟩)
        · exact .inr (.inr ⟨hf, rfl, .inr ⟨rfl, w, t, hat, ht, hend, fun hu => atBoundary_dev_of_user hu ht⟩⟩)

end Sys2Proof.Machine
end

section
/-! SUPPORT. An instruction with entries of its partner queued before it: it reads none of them and adds its own behind them, and the
statement about it (R257, R259, R262). -/

namespace Sys2Proof.Machine

/-! ### Entries queued before (R70) -/

/-- The state with `q` queued before what the unit has queued. -/
def State.queued (s : State) (q : List WbEntry) : State :=
  s.withUnit { s.unit with queue := q ++ s.unit.queue }

section
variable (s : State) (q : List WbEntry)

@[simp] theorem State.queued_cfg : (s.queued q).cfg = s.cfg := rfl
@[simp] theorem State.queued_fds : (s.queued q).fds = s.fds := rfl
@[simp] theorem State.queued_slot (fd : Word) : (s.queued q).slot fd = s.slot fd := rfl
@[simp] theorem State.queued_pipe (p : Nat) : (s.queued q).pipe p = s.pipe p := rfl
@[simp] theorem State.queued_readReg (i : RegNum) : (s.queued q).readReg i = s.readReg i := rfl
@[simp] theorem State.queued_nextAnswer : (s.queued q).nextAnswer = s.nextAnswer := rfl
@[simp] theorem State.queued_memWrite (va : Word) (n v : Nat) : (s.queued q).memWrite va n v = s.memWrite va n v := rfl
@[simp] theorem State.queued_bridgeChunks (va : Word) (n : Nat) (kind : AccessKind) :
    (s.queued q).bridgeChunks va n kind = s.bridgeChunks va n kind := rfl
@[simp] theorem State.queued_checkRange (va : Word) (n : Nat) (kind : AccessKind) :
    (s.queued q).checkRange va n kind = s.checkRange va n kind := rfl

@[simp] theorem State.queued_chunkBytes (cs : List Chunk) : (s.queued q).chunkBytes cs = s.chunkBytes cs := by
  induction cs with
  | nil => rfl
  | cons k cs ih => rw [State.chunkBytes, State.chunkBytes, ih]; rfl

@[simp] theorem State.queued_memRead (va : Word) (n : Nat) : (s.queued q).memRead va n = s.memRead va n := by
  have hv : (s.queued q).valueOf = s.valueOf := by
    funext cs
    simp only [State.valueOf, State.queued_chunkBytes]
    rfl
  simp only [State.memRead, hv]
  rfl

@[simp] theorem State.queued_copyIn (va : Word) (n : Nat) : (s.queued q).copyIn va n = s.copyIn va n := by
  simp only [State.copyIn, State.queued_bridgeChunks, State.queued_chunkBytes]

@[simp] theorem State.queued_copyInString (va : Word) : (s.queued q).copyInString va = s.copyInString va := by
  have h : ∀ n va, (s.queued q).copyInStringFrom n va = s.copyInStringFrom n va := by
    intro n
    induction n with
    | zero => exact fun _ => rfl
    | succ n ih => intro va; simp only [State.copyInStringFrom, State.queued_copyIn, ih]
  exact h _ va

/-! What the unit adds comes behind them. -/

theorem State.queued_pushAll (es : List WbEntry) : (s.queued q).pushAll es = (s.pushAll es).queued q := by
  simp [State.queued, State.pushAll_unit_eq]

theorem State.queued_pushReg (i : RegNum) (v : Word) : (s.queued q).pushReg i v = (s.pushReg i v).queued q :=
  s.queued_pushAll q _

theorem State.queued_complete (v : Word) : (s.queued q).complete v = (s.complete v).queued q := by
  simp only [State.complete, State.queued_pushReg]

theorem State.queued_failWith (e : Word) : (s.queued q).failWith e = (s.failWith e).queued q := by
  simp only [State.failWith, State.queued_pushReg]

theorem State.queued_hostFail : (s.queued q).hostFail = s.hostFail.queued q :=
  (s.recordCall .getLastErrno).queued_failWith q _

theorem State.queued_askHost (c : HostCall) :
    (s.queued q).askHost c = (s.askHost c).map fun x => (x.1, x.2.queued q) := by
  simp only [State.askHost, State.queued_nextAnswer]
  split <;> rfl

/-! What the bridge does at once is beside them (R458). -/

theorem State.queued_copyOut (va : Word) (bs : List Byte) : (s.queued q).copyOut va bs = (s.copyOut va bs).queued q := by
  simp only [State.copyOut, State.queued_bridgeChunks]
  split <;> rfl

theorem State.queued_statDone (va : Word) (r : HostReply) : (s.queued q).statDone va r = (s.statDone va r).queued q := by
  simp only [State.statDone, State.queued_copyOut, State.queued_complete]
  rfl

theorem State.queued_drainPipe (p n fd : Nat) (va : Word) :
    (s.queued q).drainPipe p n fd va = (s.drainPipe p n fd va).queued q := by
  simp only [State.drainPipe, State.queued_copyOut, State.queued_pipe]
  split <;> rfl

theorem State.queued_readPipe (p fd : Nat) (va : Word) (len : Nat) :
    (s.queued q).readPipe p fd va len = (s.readPipe p fd va len).queued q := by
  simp only [State.readPipe, State.queued_pipe, State.queued_drainPipe, State.queued_complete, State.fail, State.queued_failWith,
    apply_ite (State.queued · q)]

theorem State.queued_writePipe (p : Nat) (b : List Byte) : (s.queued q).writePipe p b = (s.writePipe p b).queued q := by
  simp only [State.writePipe, State.queued_pipe, State.queued_fds, State.queued_cfg, State.fail, State.queued_failWith,
    apply_ite (State.queued · q), ← State.queued_complete]
  cases readerFd p s.fds 0 <;> rfl

theorem State.queued_newPipe (rd wr : Nat) (va : Word) : (s.queued q).newPipe rd wr va = (s.newPipe rd wr va).queued q := by
  simp only [State.newPipe, ← State.queued_complete, ← State.queued_copyOut]
  rfl

end

/-! ### The system calls (R257, R450) -/

/-- `o'` answers what `o` does, with `q` queued before. -/
def QueuedResult (q : List WbEntry) (o o' : Result) : Prop := o' = andThen o fun t => .next (t.queued q)

section
variable {s : State} {q : List WbEntry}

theorem QueuedResult.of_next {t t' : State} (h : t' = t.queued q) : QueuedResult q (.next t) (.next t') := congrArg _ h

theorem QueuedResult.complete (t : State) (v : Word) : QueuedResult q (.next (t.complete v)) (.next ((t.queued q).complete v)) :=
  .of_next (t.queued_complete q v)

theorem QueuedResult.fail (t : State) (e : BridgeError) : QueuedResult q (.next (t.fail e)) (.next ((t.queued q).fail e)) :=
  .of_next (t.queued_failWith q _)

theorem QueuedResult.ite {c : Prop} [Decidable c] {a b a' b' : Result} (ha : QueuedResult q a a') (hb : QueuedResult q b b') :
    QueuedResult q (if c then a else b) (if c then a' else b') := by
  split
  · exact ha
  · exact hb

/-- A host call reads nothing that is queued. -/
theorem QueuedResult.withHost (c : HostCall) {ok ok' : HostReply → State → State}
    (h : ∀ r t, ok' r (t.queued q) = (ok r t).queued q) :
    QueuedResult q (s.withHost c ok) ((s.queued q).withHost c ok') := by
  rw [State.withHost, State.withHost, State.queued_askHost]
  cases s.askHost c with
  | none => rfl
  | some x =>
    obtain ⟨r, t⟩ := x
    simp only [Option.map_some]
    split
    · exact .of_next (h r t)
    · exact .of_next (t.queued_hostFail q)

theorem sysOpen_queued (a1 a2 a3 : Word) : QueuedResult q (sysOpen a1 a2 a3 s) (sysOpen a1 a2 a3 (s.queued q)) := by
  simp only [sysOpen, State.queued_copyInString, State.queued_cfg, State.queued_fds]
  split
  · exact .fail s _
  · split
    · exact .fail s _
    · split
      · exact .fail s _
      · exact .withHost _ fun r t => (t.setSlot _ _).queued_complete q _

theorem sysClose_queued (a1 : Word) : QueuedResult q (sysClose a1 s) (sysClose a1 (s.queued q)) := by
  simp only [sysClose, State.queued_slot, State.queued_pipe]
  split
  · exact .fail s _
  · exact .withHost _ fun r t => (t.setSlot _ _).queued_complete q _
  · exact .complete ((s.setSlot _ _).putPipe _ _) _
  · exact .complete ((s.setSlot _ _).putPipe _ _) _

theorem sysRead_queued (a1 a2 a3 : Word) : QueuedResult q (sysRead a1 a2 a3 s) (sysRead a1 a2 a3 (s.queued q)) := by
  simp only [sysRead, State.queued_slot, State.queued_checkRange]
  split
  · exact .fail s _
  · exact .fail s _
  · exact .ite (.withHost _ fun r t => by rw [State.queued_copyOut, State.queued_complete]) (.fail s _)
  · exact .ite (.of_next (s.queued_readPipe q _ _ _ _)) (.fail s _)

theorem sysWrite_queued (a1 a2 a3 : Word) : QueuedResult q (sysWrite a1 a2 a3 s) (sysWrite a1 a2 a3 (s.queued q)) := by
  simp only [sysWrite, State.queued_slot, State.queued_checkRange, State.queued_copyIn]
  split
  · exact .fail s _
  · exact .fail s _
  · exact .ite (.withHost _ fun r t => t.queued_complete q _) (.fail s _)
  · exact .ite (.of_next (s.queued_writePipe q _ _)) (.fail s _)

theorem sysLseek_queued (a1 a2 a3 : Word) : QueuedResult q (sysLseek a1 a2 a3 s) (sysLseek a1 a2 a3 (s.queued q)) := by
  simp only [sysLseek, State.queued_slot]
  split
  · exact .fail s _
  · exact .fail s _
  · exact .fail s _
  · exact .ite (.withHost _ fun r t => t.queued_complete q _) (.fail s _)

theorem sysUnlink_queued (a1 : Word) : QueuedResult q (sysUnlink a1 s) (sysUnlink a1 (s.queued q)) := by
  simp only [sysUnlink, State.queued_copyInString, State.queued_cfg]
  split
  · exact .fail s _
  · exact .withHost _ fun r t => t.queued_complete q _

theorem sysRename_queued (a1 a2 : Word) : QueuedResult q (sysRename a1 a2 s) (sysRename a1 a2 (s.queued q)) := by
  simp only [sysRename, State.queued_copyInString, State.queued_cfg]
  split
  · exact .fail s _
  · split
    · exact .fail s _
    · exact .withHost _ fun r t => t.queued_complete q _

theorem sysStat_queued (a1 a2 : Word) : QueuedResult q (sysStat a1 a2 s) (sysStat a1 a2 (s.queued q)) := by
  simp only [sysStat, State.queued_copyInString, State.queued_cfg, State.queued_checkRange]
  split
  · exact .fail s _
  · exact .ite (.withHost _ fun r t => t.queued_statDone q _ _) (.fail s _)

theorem sysLstat_queued (a1 a2 : Word) : QueuedResult q (sysLstat a1 a2 s) (sysLstat a1 a2 (s.queued q)) := by
  simp only [sysLstat, State.queued_copyInString, State.queued_cfg, State.queued_checkRange]
  split
  · exact .fail s _
  · exact .ite (.withHost _ fun r t => t.queued_statDone q _ _) (.fail s _)

theorem sysFstat_queued (a1 a2 : Word) : QueuedResult q (sysFstat a1 a2 s) (sysFstat a1 a2 (s.queued q)) := by
  simp only [sysFstat, State.queued_slot, State.queued_cfg, State.queued_checkRange]
  split
  · exact .fail s _
  · exact .fail s _
  · exact .fail s _
  · exact .ite (.withHost _ fun r t => t.queued_statDone q _ _) (.fail s _)

theorem sysTruncate_queued (a1 a2 : Word) : QueuedResult q (sysTruncate a1 a2 s) (sysTruncate a1 a2 (s.queued q)) := by
  simp only [sysTruncate, State.queued_copyInString, State.queued_cfg]
  split
  · exact .fail s _
  · exact .withHost _ fun r t => t.queued_complete q _

theorem sysFtruncate_queued (a1 a2 : Word) : QueuedResult q (sysFtruncate a1 a2 s) (sysFtruncate a1 a2 (s.queued q)) := by
  simp only [sysFtruncate, State.queued_slot]
  split
  · exact .fail s _
  · exact .fail s _
  · exact .fail s _
  · exact .withHost _ fun r t => t.queued_complete q _

theorem sysPipe_queued (a1 : Word) : QueuedResult q (sysPipe a1 s) (sysPipe a1 (s.queued q)) := by
  simp only [sysPipe, State.queued_checkRange, State.queued_fds]
  refine .ite ?_ (.fail s _)
  split
  · exact .fail s _
  · split
    · exact .fail s _
    · exact .of_next (s.queued_newPipe q _ _ _)

theorem sysTime_queued (a1 : Word) : QueuedResult q (sysTime a1 s) (sysTime a1 (s.queued q)) := by
  simp only [sysTime, State.queued_checkRange]
  refine .ite (.fail s _) (.withHost _ fun r t => ?_)
  split
  · exact t.queued_complete q _
  · rw [State.queued_cfg, State.queued_copyOut, State.queued_complete]

theorem runSyscall_queued (c : Syscall) (a1 a2 a3 : Word) :
    QueuedResult q (runSyscall c a1 a2 a3 s) (runSyscall c a1 a2 a3 (s.queued q)) := by
  cases c with
  | exit => exact .of_next rfl
  | open_ => exact sysOpen_queued a1 a2 a3
  | close => exact sysClose_queued a1
  | read => exact sysRead_queued a1 a2 a3
  | write => exact sysWrite_queued a1 a2 a3
  | lseek => exact sysLseek_queued a1 a2 a3
  | unlink => exact sysUnlink_queued a1
  | rename => exact sysRename_queued a1 a2
  | stat => exact sysStat_queued a1 a2
  | fstat => exact sysFstat_queued a1 a2
  | lstat => exact sysLstat_queued a1 a2
  | truncate => exact sysTruncate_queued a1 a2
  | ftruncate => exact sysFtruncate_queued a1 a2
  | pipe => exact sysPipe_queued a1
  | time => exact sysTime_queued a1

theorem bridge_queued : QueuedResult q (bridge s) (bridge (s.queued q)) := by
  simp only [bridge, State.queued_cfg, State.queued_readReg]
  split
  · exact .fail s _
  · exact runSyscall_queued _ _ _ _

end

/-! ### The other instructions, shape by shape (R257, R262) -/

/-- What is left with `q` queued before: where the unit has raised, it is discarded and `q` with it (R262). -/
def State.behind (t : State) (q : List WbEntry) : State := if t.unit.raised then t else t.queued q

theorem State.behind_of_raised {t : State} (h : t.unit.raised = true) (q : List WbEntry) : t.behind q = t := if_pos h

theorem State.behind_of_not_raised {t : State} (h : t.unit.raised = false) (q : List WbEntry) : t.behind q = t.queued q :=
  if_neg (by rw [h]; exact Bool.false_ne_true)

/-- Raising discards whatever was queued (R262). -/
theorem State.takeException_behind (s : State) (q : List WbEntry) (e : Exc) (b ret : Word) :
    (s.queued q).takeException e b ret = (s.takeException e b ret).behind q := by
  rw [State.behind_of_raised (s.takeException_raised e b ret)]
  exact s.takeException_withQueue _ e b ret

/-- Privilege is decided by the effective view, which is not queued (R561). -/
theorem State.privileged_behind {s : State} {q : List WbEntry} {f g : State → State} (h : g (s.queued q) = (f s).behind q) :
    (s.queued q).privileged g = (s.privileged f).behind q := by
  have hsm : (s.queued q).unit.effSM = s.unit.effSM := rfl
  rw [State.privileged, State.privileged, hsm]
  split
  · exact h
  · exact s.takeException_behind q _ _ _

section
variable {s : State} (hr : s.unit.raised = false) (q : List WbEntry)
include hr

theorem State.self_behind : s.queued q = s.behind q := (State.behind_of_not_raised hr q).symm

theorem State.pushAll_behind (es : List WbEntry) : (s.queued q).pushAll es = (s.pushAll es).behind q := by
  rw [State.queued_pushAll, State.behind_of_not_raised (t := s.pushAll es) hr]

theorem State.pushReg_behind (i : RegNum) (v : Word) : (s.queued q).pushReg i v = (s.pushReg i v).behind q :=
  State.pushAll_behind hr q _

theorem State.pushFlags_behind (f : FlagWrites) : (s.queued q).pushFlags f = (s.pushFlags f).behind q :=
  State.pushAll_behind hr q _

theorem State.pushCr_behind (n : CReg) (v : Word) : (s.queued q).pushCr n v = (s.pushCr n v).behind q :=
  State.pushAll_behind hr q _

theorem State.pushResult_behind (ra : RegNum) (r : Word) (f : FlagWrites) :
    (s.queued q).pushResult ra r f = (s.pushResult ra r f).behind q := by
  rw [State.pushResult_eq, State.pushResult_eq]
  exact State.pushAll_behind hr q _

theorem State.setNpc_behind (a : Word) : (s.queued q).setNpc a = (s.setNpc a).behind q :=
  State.self_behind (s := s.setNpc a) hr q

theorem State.setReq_behind (r : Request) : (s.queued q).setReq r = (s.setReq r).behind q :=
  State.self_behind (s := s.setReq r) hr q

theorem State.branchIf_behind (c : Bool) (d : Word) : (s.queued q).branchIf c d = (s.branchIf c d).behind q := by
  cases c with
  | true => exact State.setNpc_behind hr q _
  | false => exact State.self_behind hr q

/-- A transfer with a link is the same push, once the target is recorded. -/
theorem State.linkTo_behind (a : Word) : (s.queued q).link.setNpc a = (s.link.setNpc a).behind q :=
  State.pushAll_behind (s := s.setNpc a) hr q _

theorem State.loadInto_behind (n : Nat) (ext : Nat → Word) (ra : RegNum) (ea : Word) :
    (s.queued q).loadInto n ext ra ea = (s.loadInto n ext ra ea).behind q := by
  simp only [State.loadInto, State.queued_memRead]
  split
  · exact s.takeException_behind q _ _ _
  · exact State.pushReg_behind (s := s.countAccess) hr q _ _

theorem State.loadPair_behind (ra : RegNum) (ea : Word) : (s.queued q).loadPair ra ea = (s.loadPair ra ea).behind q := by
  simp only [State.loadPair, State.queued_memRead]
  split
  · exact s.takeException_behind q _ _ _
  · simp only [State.pushReg_eq, State.pushAll_append]
    exact State.pushAll_behind (s := s.countAccess) hr q _

theorem State.storeFrom_behind (n v : Nat) (ea : Word) : (s.queued q).storeFrom n v ea = (s.storeFrom n v ea).behind q := by
  simp only [State.storeFrom, State.queued_memWrite]
  split
  · exact s.takeException_behind q _ _ _
  · exact State.pushAll_behind (s := s.countAccess) hr q _

theorem State.moveToCr_behind (n : CReg) (v : Word) : (s.queued q).moveToCr n v = (s.moveToCr n v).behind q := by
  cases n with
  | psw => exact State.pushCr_behind (s := s.setEff (pswRB v) (pswSM v)) hr q _ _
  | bpsw | bpc | evb | cause | badaddr | supp => exact State.pushCr_behind hr q _ _

theorem State.returnFromTrap_behind : (s.queued q).returnFromTrap = s.returnFromTrap.behind q :=
  State.pushCr_behind (s := s.setNpc s.cr.bpc) hr q _ _

theorem exec_trap_behind {n : BitVec 4} {t : State} (h : exec (.trap n) s = .next t) :
    exec (.trap n) (s.queued q) = .next (t.behind q) := by
  by_cases hn : n = s.cfg.syscallTrap
  · have hs : exec (.trap n) s = bridge s := if_pos hn
    have hsq : exec (.trap n) (s.queued q) = bridge (s.queued q) := if_pos hn
    have hb : bridge (s.queued q) = andThen (bridge s) fun t => .next (t.queued q) := bridge_queued
    rw [hs] at h
    have ht : t.unit.raised = false := (bridge_effect h).raised.trans hr
    rw [hsq, hb, h, andThen, State.behind_of_not_raised ht]
  · cases hv : s.cfg.hasFaultVector with
    | true =>
      rw [exec_trap_vectored hv hn] at h
      cases h
      rw [exec_trap_vectored (s := s.queued q) hv hn]
      exact congrArg _ (s.takeException_behind q _ _ _)
    | false =>
      rw [exec_trap_unvectored hv hn] at h
      cases h
      rw [exec_trap_unvectored (s := s.queued q) hv hn]
      exact congrArg _ (State.setReq_behind hr q _)

/-- Whatever is queued before, an instruction does what it does with nothing queued. -/
theorem exec_behind {i : Instr} {t : State} (h : exec i s = .next t) : exec i (s.queued q) = .next (t.behind q) := by
  cases i with
  | trap n => exact exec_trap_behind hr q h
  | nop | hint | exet | exef | exect | execf => cases h; exact congrArg _ (State.self_behind hr q)
  | mv | ldi | mvfc | ldil | ldih => cases h; exact congrArg _ (State.pushReg_behind hr q _ _)
  | not | neg | add | addc | sub | subb | and | or | xor | mul | sll | srl | sra | addi | slli | srli | srai | addil | andil | oril
  | xoril => cases h; exact congrArg _ (State.pushResult_behind hr q _ _ _)
  | cmpeq | cmplt | cmpltu | cmpeqi | cmplti => cases h; exact congrArg _ (State.pushFlags_behind hr q _)
  | ldb | ldbu | ldh | ldhu | ldw | ldbD | ldbuD | ldhD | ldhuD | ldwD =>
    cases h; exact congrArg _ (State.loadInto_behind hr q _ _ _ _)
  | ld2w | ld2wD => cases h; exact congrArg _ (State.loadPair_behind hr q _ _)
  | stb | sth | stw | st2w | stbD | sthD | stwD | st2wD => cases h; exact congrArg _ (State.storeFrom_behind hr q _ _ _)
  | bra | braL | jmp => cases h; exact congrArg _ (State.setNpc_behind hr q _)
  | brt | brf | brtL | brfL => cases h; exact congrArg _ (State.branchIf_behind hr q _ _)
  | bl | blL | jl => cases h; exact congrArg _ (State.linkTo_behind hr q _)
  | mvtc => cases h; exact congrArg _ (State.privileged_behind (State.moveToCr_behind hr q _ _))
  | rti => cases h; exact congrArg _ (State.privileged_behind (State.returnFromTrap_behind hr q))
  | wait => cases h; exact congrArg _ (State.privileged_behind (State.self_behind (s := { s with waiting := true }) hr q))
  | stop => cases h; exact congrArg _ (State.privileged_behind (State.setReq_behind hr q _))
  | brk => cases h; exact congrArg _ (State.setReq_behind hr q _)

end

/-- Settles O46: from an empty queue, queueing `q` before is having `q` queued. -/
theorem halvesReadCommittedState : Obligations.HalvesReadCommittedState := by
  intro i s t q hq hr h
  have hs : s.queued q = { s with unit := { s.unit with queue := q } } := by
    rw [State.queued, hq, List.append_nil]
    rfl
  rw [← hs]
  exact exec_behind hr q h

end Sys2Proof.Machine
end

section
/-! SUPPORT. The register and ALU instructions: what a queued write of flags commits, their results, carries and amounts, and the
statements about them (R71, R300 to R330, R412). -/

namespace Sys2Proof.Machine

/-- The 15 bits that are the encoding of a well-formed short instruction decode to it. -/
theorem decodeShort_of_encodeShort {w : BitVec 15} {i : Instr} (hl : i.isLong = false) (hw : i.wf = true)
    (he : encodeShort i = w) : decodeShort w = .ok i :=
  he ▸ decodeShort_encodeShort hl hw

/-! ### The commit of a write of flags (R71, R72) -/

theorem flagBit_getLsbD (f : Option Bool) (b : Word) (i : Nat) :
    (flagBit f b).getLsbD i = (f.getD false && b.getLsbD i) := by
  rcases f with _ | _ | _
  · exact BitVec.getLsbD_zero
  · exact BitVec.getLsbD_zero
  · rfl

theorem flagMask_getLsbD (f : Option Bool) (b : Word) (i : Nat) :
    (flagMask f b).getLsbD i = (f.isSome && b.getLsbD i) := by
  cases f with
  | none => exact BitVec.getLsbD_zero
  | some _ => rfl

/-- A PSW after the masked write of the flags `f`. -/
def pswWithFlags (f : FlagWrites) (psw : Word) : Word :=
  maskedWrite psw (flagBit f.c 1#32 ||| flagBit f.z 2#32 ||| flagBit f.f0 4#32)
    (flagMask f.c 1#32 ||| flagMask f.z 2#32 ||| flagMask f.f0 4#32)

/-- The masked write bit by bit: a bit is taken from the flags where one that stands there is written. -/
theorem pswWithFlags_bit (f : FlagWrites) (psw : Word) (i : Nat) :
    (pswWithFlags f psw).getLsbD i =
      if (f.c.isSome && (1#32).getLsbD i || f.z.isSome && (2#32).getLsbD i || f.f0.isSome && (4#32).getLsbD i) = true then
        (f.c.getD false && (1#32).getLsbD i || f.z.getD false && (2#32).getLsbD i || f.f0.getD false && (4#32).getLsbD i)
      else psw.getLsbD i := by
  simp only [pswWithFlags, maskedWrite_getLsbD, BitVec.getLsbD_or, flagBit_getLsbD, flagMask_getLsbD]

theorem pswC_pswWithFlags (f : FlagWrites) (psw : Word) : pswC (pswWithFlags f psw) = f.c.getD (pswC psw) := by
  rw [pswC, pswWithFlags_bit]
  cases f.c <;> simp [pswC]

theorem pswZ_pswWithFlags (f : FlagWrites) (psw : Word) : pswZ (pswWithFlags f psw) = f.z.getD (pswZ psw) := by
  rw [pswZ, pswWithFlags_bit]
  cases f.z <;> simp [pswZ]

theorem pswF0_pswWithFlags (f : FlagWrites) (psw : Word) : pswF0 (pswWithFlags f psw) = f.f0.getD (pswF0 psw) := by
  rw [pswF0, pswWithFlags_bit]
  cases f.f0 <;> simp [pswF0]

theorem pswWithFlags_getLsbD (f : FlagWrites) (psw : Word) {i : Nat} (hi : 3 ≤ i) :
    (pswWithFlags f psw).getLsbD i = psw.getLsbD i := by
  rw [pswWithFlags, maskedWrite_getLsbD, flagsMask_bit f hi, if_neg Bool.false_ne_true]

/-- The commit after one more write of flags is the commit without it, but for the PSW's flags and the unit. -/
theorem State.commit_pushFlags (s : State) (f : FlagWrites) :
    (s.pushFlags f).commit =
      { s.commit with cr := { s.commit.cr with psw := pswWithFlags f s.commit.cr.psw }, unit := (s.pushFlags f).commit.unit } := by
  rw [State.pushFlags_eq, State.commit_pushAll]
  rfl

/-- A write of flags after register writes adds the flags to their effect. -/
theorem RegisterEffect.pushFlags {s t : State} {dest : PReg → Option Word} (h : RegisterEffect s t dest none none none)
    (f : FlagWrites) : RegisterEffect s (t.pushFlags f) dest f.c f.z f.f0 := by
  obtain ⟨outside, regs, ⟨carry, zero, pred, rest⟩, crs, ⟨dev, events, seq⟩, bytes⟩ := h
  have hc := t.commit_pushFlags f
  have hpsw : (t.pushFlags f).commit.cr.psw = pswWithFlags f t.commit.cr.psw := by rw [hc]
  have houtside : t.withUnit (t.pushFlags f).unit = { s with unit := t.unit }.withUnit (t.pushFlags f).unit :=
    congrArg (State.withUnit · (t.pushFlags f).unit) outside
  refine ⟨houtside, fun p => ?_, ⟨?_, ?_, ?_, fun i hi => ?_⟩, fun n hn => ?_,
    ⟨?_, ?_, ?_⟩, fun a => ?_⟩
  · rw [hc]; exact regs p
  · rw [hpsw, pswC_pswWithFlags, carry]; rfl
  · rw [hpsw, pswZ_pswWithFlags, zero]; rfl
  · rw [hpsw, pswF0_pswWithFlags, pred]; rfl
  · rw [hpsw, pswWithFlags_getLsbD f _ hi, rest i hi]
  · refine Eq.trans ?_ (crs n hn)
    rw [hc]
    cases n with
    | psw => exact absurd rfl hn
    | bpsw | bpc | evb | cause | badaddr | supp => rfl
  · rw [hc]; exact dev
  · rw [hc]; exact events
  · rw [hc]; exact seq
  · rw [hc]; exact bytes a

theorem RegisterEffect.refl (s : State) : RegisterEffect s s noReg none none none :=
  ⟨rfl, fun _ => rfl, ⟨rfl, rfl, rfl, fun _ _ => rfl⟩, fun _ _ => rfl, ⟨rfl, rfl, rfl⟩, fun _ => rfl⟩

/-! ### What the instructions queue (R70, R71) -/

theorem State.pushReg_effect (s : State) (ra : RegNum) (v : Word) :
    QueueOnly s (s.pushReg ra v) ∧ RegisterEffect s (s.pushReg ra v) (oneReg (s.physReg ra) v) none none none :=
  ⟨rfl, RegisterEffect.of_gpr (u := (s.pushReg ra v).unit) rfl⟩

theorem State.pushResult_effect (s : State) (ra : RegNum) (r : Word) (f : FlagWrites) :
    QueueOnly s (s.pushResult ra r f) ∧ RegisterEffect s (s.pushResult ra r f) (oneReg (s.physReg ra) r) f.c f.z f.f0 :=
  ⟨rfl, (s.pushReg_effect ra r).2.pushFlags f⟩

theorem State.pushZ_effect (s : State) (ra : RegNum) (r : Word) :
    QueueOnly s (s.pushZ ra r) ∧
      RegisterEffect s (s.pushZ ra r) (oneReg (s.physReg ra) r) none (some (r == 0#32)) none :=
  s.pushResult_effect ra r (flagsZ r)

theorem State.pushF0_effect (s : State) (b : Bool) :
    QueueOnly s (s.pushFlags (flagsF0 b)) ∧ RegisterEffect s (s.pushFlags (flagsF0 b)) noReg none none (some b) :=
  ⟨rfl, (RegisterEffect.refl s).pushFlags (flagsF0 b)⟩

/-! ### Sums (R303, R304, R317, R326) -/

/-- The 33-bit sum of two words and a carry. -/
def sum33 (a b : Word) (c : Bool) : BitVec 33 :=
  a.zeroExtend 33 + b.zeroExtend 33 + (BitVec.ofBool c).zeroExtend 33

theorem sum33_toNat (a b : Word) (c : Bool) : (sum33 a b c).toNat = a.toNat + b.toNat + c.toNat := by
  have ha := a.isLt
  have hb := b.isLt
  have hc := c.toNat_le
  simp only [sum33, BitVec.toNat_add, BitVec.zeroExtend, BitVec.toNat_setWidth, BitVec.toNat_ofBool]
  omega

theorem sum33_false (a b : Word) : sum33 a b false = a.zeroExtend 33 + b.zeroExtend 33 :=
  BitVec.add_zero _

theorem boolWord_toNat (c : Bool) : (boolWord c).toNat = c.toNat := by cases c <;> rfl

theorem sum33_low (a b : Word) (c : Bool) : (sum33 a b c).extractLsb' 0 32 = a + b + boolWord c := by
  apply BitVec.eq_of_toNat_eq
  simp only [BitVec.extractLsb'_toNat, sum33_toNat, BitVec.toNat_add, boolWord_toNat, Nat.shiftRight_zero]
  omega

/-- Bit 32 of the sum is its carry: the sum is below `2 ^ 33`. -/
theorem sum33_carry (a b : Word) (c : Bool) : (sum33 a b c).getLsbD 32 = addCarry a b c := by
  have ha := a.isLt
  have hb := b.isLt
  have hc := c.toNat_le
  rw [BitVec.getLsbD, sum33_toNat, addCarry, Nat.testBit_eq_decide_div_mod_eq]
  exact decide_eq_decide.2 (by omega)

theorem State.pushSum_effect (s : State) (ra : RegNum) (a b : Word) (c : Bool) :
    QueueOnly s (s.pushSum ra a b c) ∧
      RegisterEffect s (s.pushSum ra a b c) (oneReg (s.physReg ra) ((sum33 a b c).extractLsb' 0 32))
        (some ((sum33 a b c).getLsbD 32)) (some ((sum33 a b c).extractLsb' 0 32 == 0#32)) none := by
  rw [sum33_low, sum33_carry]
  exact s.pushResult_effect ra _ (flagsCZ (addCarry a b c) _)

/-- Without a carry in, the sum of two operands alone. -/
theorem State.pushSum_false_effect (s : State) (ra : RegNum) (a b : Word) :
    let w := a.zeroExtend 33 + b.zeroExtend 33
    QueueOnly s (s.pushSum ra a b false) ∧
      RegisterEffect s (s.pushSum ra a b false) (oneReg (s.physReg ra) (w.extractLsb' 0 32)) (some (w.getLsbD 32))
        (some (w.extractLsb' 0 32 == 0#32)) none :=
  sum33_false a b ▸ s.pushSum_effect ra a b false

/-! ### Differences (R302, R305, R306) -/

theorem boolWord_eq_zeroExtend (c : Bool) : boolWord c = (BitVec.ofBool c).zeroExtend 32 := by cases c <;> rfl

/-- A borrow is a difference below 0. -/
theorem subBorrow_eq (a b : Word) (c : Bool) :
    subBorrow a b c = decide ((a.toNat : Int) - (b.toNat : Int) - ((BitVec.ofBool c).toNat : Int) < 0) := by
  rw [subBorrow, BitVec.toNat_ofBool]
  exact decide_eq_decide.2 (by omega)

theorem State.pushDiff_effect (s : State) (ra : RegNum) (a b : Word) (c : Bool) :
    QueueOnly s (s.pushDiff ra a b c) ∧
      RegisterEffect s (s.pushDiff ra a b c) (oneReg (s.physReg ra) (a - b - boolWord c)) (some (subBorrow a b c))
        (some (a - b - boolWord c == 0#32)) none :=
  s.pushResult_effect ra _ (flagsCZ (subBorrow a b c) _)

theorem sub_boolWord_false (a b : Word) : a - b - boolWord false = a - b := BitVec.sub_zero _

/-- `0 - b` borrows unless `b` is 0. -/
theorem subBorrow_zero_left (b : Word) : subBorrow 0#32 b false = (b != 0#32) := by
  rw [subBorrow, Bool.eq_iff_iff, decide_eq_true_iff, bne_iff_ne, ← BitVec.toNat_ne_iff_ne]
  exact Nat.pos_iff_ne_zero

theorem sub_beq_zero (a b : Word) : (a - b == 0#32) = (a == b) := by
  rw [Bool.eq_iff_iff, beq_iff_eq, beq_iff_eq]
  exact sub_eq_zero

/-- Settles O18: the sums and differences with their carries, and the encodings by the round trip. -/
theorem addAndSubtractResults : Obligations.AddAndSubtractResults := by
  intro s ra rb imm6 imm16 a b c
  have diff := s.pushDiff_effect ra
  have sum := s.pushSum_false_effect ra
  refine ⟨⟨decodeShort_of_encodeShort rfl rfl rfl, _, rfl, ?neg⟩,
    ⟨decodeShort_of_encodeShort rfl rfl rfl, _, rfl, sum a b⟩,
    ⟨decodeShort_of_encodeShort rfl rfl rfl, _, rfl, s.pushSum_effect ra a b (pswC s.cr.psw)⟩,
    ⟨decodeShort_of_encodeShort rfl rfl rfl, _, rfl, ?sub⟩,
    ⟨decodeShort_of_encodeShort rfl rfl rfl, _, rfl, ?subb⟩,
    ⟨decodeShort_of_encodeShort rfl rfl rfl, _, rfl, sum a _⟩,
    ⟨decodeUnit_of_encodeUnit rfl rfl, _, rfl, sum b _⟩⟩
  case neg =>
    have h := diff 0#32 b false
    rwa [sub_boolWord_false, subBorrow_zero_left] at h
  case sub =>
    have h := diff a b false
    rwa [sub_boolWord_false, sub_beq_zero] at h
  case subb =>
    have h := diff a b (pswC s.cr.psw)
    rwa [boolWord_eq_zeroExtend, subBorrow_eq] at h

/-! ### Logic (R301, R307 to R309, R327 to R329) -/

/-- Settles O19: the operations differ in the word they compute alone. -/
theorem logicResults : Obligations.LogicResults := fun s ra _ _ =>
  have z := s.pushZ_effect ra
  ⟨⟨decodeShort_of_encodeShort rfl rfl rfl, _, rfl, z _⟩,
    ⟨decodeShort_of_encodeShort rfl rfl rfl, _, rfl, z _⟩,
    ⟨decodeShort_of_encodeShort rfl rfl rfl, _, rfl, z _⟩,
    ⟨decodeShort_of_encodeShort rfl rfl rfl, _, rfl, z _⟩,
    ⟨decodeUnit_of_encodeUnit rfl rfl, _, rfl, z _⟩,
    ⟨decodeUnit_of_encodeUnit rfl rfl, _, rfl, z _⟩,
    ⟨decodeUnit_of_encodeUnit rfl rfl, _, rfl, z _⟩⟩

/-! ### Products and shifts (R310 to R313, R319 to R321) -/

/-- A register amount counts modulo 32. -/
theorem shiftAmount_eq (v : Word) : shiftAmount v = v.toNat % 32 := by
  simp [shiftAmount]

/-- An amount with `s[5] = 1` leaves the top bit of its field 1. -/
theorem shift_top_set (sh : BitVec 5) : ((1#1 ++ sh : BitVec 6).extractLsb' 2 4).getLsbD 3 = true := by
  rw [BitVec.getLsbD_extractLsb']
  change (decide (3 < 4) && BitVec.getLsbD (1#1 ++ sh) 5) = true
  rw [BitVec.getLsbD_append]
  rfl

/-- The three shifts by an amount refuse one with `s[5] = 1` (R213). -/
theorem decodeShort_shift_refused {op : BitVec 5} (h : op = 0x07#5 ∨ op = 0x08#5 ∨ op = 0x09#5) (ra : RegNum) (sh : BitVec 5) :
    ∃ e, decodeShort (mkImm op ra (1#1 ++ sh)) = .error e := by
  refine ⟨.nonZeroField, ?_⟩
  rw [decodeShort_mkImm]
  rcases h with rfl | rfl | rfl <;> simp only [shortOf, shift_top_set, requireZero] <;> rfl

/-- Settles O20: the product is that of `BitVec`, and a register's amount is its value modulo 32. -/
theorem multiplyAndShiftResults : Obligations.MultiplyAndShiftResults := by
  intro s ra rb sh a b n
  have z := s.pushZ_effect ra
  have hn : shiftAmount b = n := shiftAmount_eq b
  exact ⟨⟨decodeShort_of_encodeShort rfl rfl rfl, _, rfl, z (a * b)⟩,
    ⟨decodeShort_of_encodeShort rfl rfl rfl, _, rfl, hn ▸ z _⟩,
    ⟨decodeShort_of_encodeShort rfl rfl rfl, _, rfl, hn ▸ z _⟩,
    ⟨decodeShort_of_encodeShort rfl rfl rfl, _, rfl, hn ▸ z _⟩,
    ⟨decodeShort_of_encodeShort rfl rfl rfl, decodeShort_shift_refused (.inl rfl) ra sh, _, rfl, z _⟩,
    ⟨decodeShort_of_encodeShort rfl rfl rfl, decodeShort_shift_refused (.inr (.inl rfl)) ra sh, _, rfl, z _⟩,
    ⟨decodeShort_of_encodeShort rfl rfl rfl, decodeShort_shift_refused (.inr (.inr rfl)) ra sh, _, rfl, z _⟩⟩

/-! ### Compares (R314 to R316, R322, R323) -/

/-- Settles O21: a compare queues its comparison as F0 and no register. -/
theorem compareResults : Obligations.CompareResults := fun s _ _ _ =>
  have f0 := s.pushF0_effect
  ⟨⟨decodeShort_of_encodeShort rfl rfl rfl, _, rfl, f0 _⟩,
    ⟨decodeShort_of_encodeShort rfl rfl rfl, _, rfl, f0 _⟩,
    ⟨decodeShort_of_encodeShort rfl rfl rfl, _, rfl, f0 _⟩,
    ⟨decodeShort_of_encodeShort rfl rfl rfl, _, rfl, f0 _⟩,
    ⟨decodeShort_of_encodeShort rfl rfl rfl, _, rfl, f0 _⟩⟩

/-! ### Moves (R300, R318, R324, R325, R412) -/

/-- Extending the low half of a word is masking the word. -/
theorem zeroExtend_low_half (v : Word) : (v.extractLsb' 0 16).zeroExtend 32 = v &&& 0x0000FFFF#32 := by
  have hmask : ∀ i < 32, (0x0000FFFF#32 : Word).getLsbD i = decide (i < 16) := by decide
  apply BitVec.eq_of_getLsbD_eq
  intro i hi
  rw [BitVec.zeroExtend, BitVec.getLsbD_setWidth, BitVec.getLsbD_extractLsb', BitVec.getLsbD_and, hmask i hi, Nat.zero_add,
    decide_eq_true hi, Bool.true_and, Bool.and_comm]

/-- Settles O22: a move queues one register write; LDIH keeps the low half by masking. -/
theorem moveResults : Obligations.MoveResults := by
  intro s ra rb imm6 imm16 cr a
  have r := s.pushReg_effect ra
  have hlow : highHalf imm16 a = (imm16.zeroExtend 32 <<< 16) ||| (a &&& 0x0000FFFF#32) :=
    congrArg (imm16.zeroExtend 32 <<< 16 ||| ·) (zeroExtend_low_half a)
  exact ⟨⟨decodeShort_of_encodeShort rfl rfl rfl, _, rfl, r _⟩,
    ⟨decodeShort_of_encodeShort rfl rfl rfl, _, rfl, r _⟩,
    ⟨decodeUnit_of_encodeUnit rfl rfl, _, rfl, r _⟩,
    ⟨decodeUnit_of_encodeUnit rfl rfl, _, rfl, hlow ▸ r _⟩,
    ⟨decodeShort_of_encodeShort rfl rfl rfl, _, rfl, r _⟩⟩

end Sys2Proof.Machine
end

section
/-! SUPPORT. The loads and stores that complete: a pair of destinations, which entries a store to memory queues and what they
commit, and the statements about them (R140, R350 to R360). -/

namespace Sys2Proof.Machine

/-! ### Loads (R139, R350 to R356) -/

theorem OnlyTheUnit.trans {s t u : State} (h : OnlyTheUnit s t) (g : OnlyTheUnit t u) : OnlyTheUnit s u :=
  have hs : t.withUnit u.unit = { s with unit := t.unit }.withUnit u.unit := congrArg (State.withUnit · u.unit) h
  Eq.trans g hs

/-- One more register written, after an effect on registers and flags: a later write of the same register wins (R72). -/
theorem RegisterEffect.trans_oneReg {s t u : State} {dest : PReg → Option Word} {c z f0 : Option Bool} {p : PReg} {v : Word}
    (h : RegisterEffect s t dest c z f0) (g : RegisterEffect t u (oneReg p v) none none none) :
    RegisterEffect s u (fun r => if r = p then some v else dest r) c z f0 where
  outside := h.outside.trans g.outside
  regs r := by
    simp only [g.regs r, h.regs r, oneReg]
    split <;> rfl
  flags := ⟨g.flags.carry.trans h.flags.carry, g.flags.zero.trans h.flags.zero, g.flags.pred.trans h.flags.pred,
    fun i hi => (g.flags.rest i hi).trans (h.flags.rest i hi)⟩
  crs n hn := (g.crs n hn).trans (h.crs n hn)
  devices := ⟨g.devices.dev.trans h.devices.dev, g.devices.events.trans h.devices.events,
    g.devices.seq.trans h.devices.seq⟩
  bytes a := (g.bytes a).trans (h.bytes a)

/-- A doubleword load whose read answers writes its pair, the upper word first, and counts as one data access. -/
theorem State.loadPair_effect {s : State} {v : Nat} {ea : Word} (h : s.memRead ea 8 = .ok v) (ra : RegNum) :
    QueueAndAccess s (s.loadPair ra ea) ∧
      RegisterEffect s (s.loadPair ra ea)
        (twoRegs (s.physReg ra) (upperWord v) (s.physReg (ra + 1#4)) (lowerWord v)) none none none := by
  have hl : s.loadPair ra ea = (s.loadInto 8 upperWord ra ea).pushReg (ra + 1#4) (lowerWord v) := by
    rw [State.loadPair, State.loadInto, h]
  have hp : (s.loadInto 8 upperWord ra ea).physReg (ra + 1#4) = s.physReg (ra + 1#4) := by
    rw [State.loadInto, h]; rfl
  obtain ⟨hunit, heff⟩ := State.loadInto_effect h upperWord ra
  obtain ⟨hqueue, hlow⟩ := (s.loadInto 8 upperWord ra ea).pushReg_effect (ra + 1#4) (lowerWord v)
  rw [hp] at hlow
  rw [hl]
  refine ⟨?_, heff.trans_oneReg hlow⟩
  rw [QueueOnly, hunit] at hqueue
  exact hqueue

/-- Settles O24: what MemRead answers goes to the destination through the load's extension; the two forms of a load differ in their
effective address alone. -/
theorem loadResults : Obligations.LoadResults := fun _ ra _ _ _ =>
  ⟨fun h => ⟨⟨_, rfl, State.loadInto_effect h signByte ra⟩, ⟨_, rfl, State.loadInto_effect h zeroByte ra⟩⟩,
    fun h => ⟨⟨_, rfl, State.loadInto_effect h signHalf ra⟩, ⟨_, rfl, State.loadInto_effect h zeroHalf ra⟩⟩,
    fun h => ⟨_, rfl, State.loadInto_effect h wholeWord ra⟩,
    fun h _ => ⟨_, rfl, State.loadPair_effect h ra⟩,
    fun h => ⟨⟨_, rfl, State.loadInto_effect h signByte ra⟩, ⟨_, rfl, State.loadInto_effect h zeroByte ra⟩⟩,
    fun h => ⟨⟨_, rfl, State.loadInto_effect h signHalf ra⟩, ⟨_, rfl, State.loadInto_effect h zeroHalf ra⟩⟩,
    fun h => ⟨_, rfl, State.loadInto_effect h wholeWord ra⟩,
    fun h _ => ⟨_, rfl, State.loadPair_effect h ra⟩⟩

/-! ### Stores to memory (R140, R350, R357 to R360) -/

/-- The first chunk of an access starts at its address (R129). -/
theorem chunksFrom_head_va {c : Config} {maps : List Word} {kind : AccessKind} {sm : Bool} {width fuel : Nat} {a : Word}
    {rem : Nat} {k : Chunk} {cs : List Chunk} (h : chunksFrom c maps kind sm width fuel a rem = .ok (k :: cs)) :
    k.va = a := by
  cases fuel with
  | zero => cases h
  | succ fuel =>
    rw [chunksFrom] at h
    split at h
    · cases h
    · split at h
      · cases h
      · split at h
        · cases h
        · split at h
          · cases h
          · cases h; rfl

/-- A write outside segment 15 queues memory entries, one for each chunk (R138, R140). -/
theorem State.writeEntries_memory {s : State} {ea : Word} {n : Nat} {kind : AccessKind} {sm : Bool} {cs : List Chunk}
    (hF : segOf ea ≠ 0xF#4) (hc : s.chunks ea n kind sm = .ok cs) (e : Endian) (v : Nat) :
    writeEntries e n v cs = chunkEntries cs (disassemble e n v) := by
  cases cs with
  | nil => rfl
  | cons k cs =>
    have hva : k.va = ea := chunksFrom_head_va hc
    obtain ⟨va, pa, len, b⟩ := k
    cases b with
    | bytes => rfl
    | device r =>
      rcases ((State.chunks_spec hc).2 _ List.mem_cons_self).backed with ⟨_, _, hseg, _⟩ | ⟨hbytes, _⟩
      · exact absurd (hva ▸ hseg) hF
      · cases hbytes

/-- A unit that queues the memory entries of chunks writes those chunks at its commit and nothing else, whatever else of the unit
changes. -/
theorem StoreEffect.of_chunkEntries {s : State} {u : UnitState} {cs : List Chunk} {n v : Nat}
    (h : u.queue = s.unit.queue ++ chunkEntries cs (disassemble s.cfg.endian n v)) :
    StoreEffect s (s.withUnit u) cs n v := by
  have hc := s.commit_after u _ h
  rw [applyEntries_chunkEntries, State.commit_cfg] at hc
  have hcr : (s.withUnit u).commit.cr = s.commit.cr := by rw [hc]; rfl
  have hmem : (s.withUnit u).commit.mem = writeChunks s.cfg cs (disassemble s.cfg.endian n v) s.commit.mem := by
    rw [hc]; rfl
  refine ⟨rfl, fun p => by rw [hc]; rfl, ?_, fun k _ => by simp only [State.readCr, hcr], ?_, hmem, fun a ha => ?_⟩
  · constructor <;> simp [hcr]
  · constructor <;> rw [hc] <;> rfl
  · rw [State.byteAt, hmem, State.commit_cfg, State.withUnit_cfg, State.byteAt, State.commit_cfg]
    exact read_writeChunks_other s.cfg _ cs _ a fun k hk hin => ha ⟨k, hk, hin⟩

/-- A store whose chunks are backed by memory writes them at its commit, and counts as one data access. -/
theorem State.storeFrom_effect {s : State} {ea : Word} {n : Nat} {cs : List Chunk} (hF : segOf ea ≠ 0xF#4)
    (hm : s.misaligned ea n = false) (hc : s.chunks ea n .write s.unit.effSM = .ok cs) (v : Nat) :
    QueueAndAccess s (s.storeFrom n v ea) ∧ StoreEffect s (s.storeFrom n v ea) cs n v := by
  have hs : s.storeFrom n v ea = s.countAccess.pushAll (chunkEntries cs (disassemble s.cfg.endian n v)) := by
    rw [State.storeFrom, State.memWrite_of_chunks hm hc, State.writeEntries_memory hF hc]
  rw [hs]
  exact ⟨rfl, StoreEffect.of_chunkEntries
    (u := (s.countAccess.pushAll (chunkEntries cs (disassemble s.cfg.endian n v))).unit) rfl⟩

/-- Settles O25: a byte is always aligned; the two forms of a store differ in their effective address alone. -/
theorem storeResults : Obligations.StoreResults := by
  intro s ra rb imm cs v d sm ea ed
  have aligned (a : Word) : s.misaligned a 1 = false := State.misaligned_of_aligned (Nat.mod_one _)
  exact ⟨fun hF =>
      ⟨fun hc => ⟨_, rfl, State.storeFrom_effect hF (aligned ea) hc v⟩,
        fun hm hc => ⟨_, rfl, State.storeFrom_effect hF hm hc v⟩,
        fun hm hc => ⟨_, rfl, State.storeFrom_effect hF hm hc v⟩,
        fun hm hc _ => ⟨_, rfl, State.storeFrom_effect hF hm hc d⟩⟩,
    fun hF =>
      ⟨fun hc => ⟨_, rfl, State.storeFrom_effect hF (aligned ed) hc v⟩,
        fun hm hc => ⟨_, rfl, State.storeFrom_effect hF hm hc v⟩,
        fun hm hc => ⟨_, rfl, State.storeFrom_effect hF hm hc v⟩,
        fun hm hc _ => ⟨_, rfl, State.storeFrom_effect hF hm hc d⟩⟩⟩

end Sys2Proof.Machine
end

section
/-! SUPPORT. The instructions with no effect of their own: a predicate gates its partner's half only (R255, R391 to R394), and HINT
runs as NOP (R411). -/

namespace Sys2Proof.Machine

/-- Settles O23: each of the six, in the statement's order, answers its argument: NOP (R410), HINT without reading its fields (R411), and
the four predicates, whose gate is the unit's (R391 to R394). -/
theorem noEffectInstructions : Obligations.NoEffectInstructions := fun _ _ _ =>
  ⟨rfl, rfl, rfl, rfl, rfl, rfl⟩

end Sys2Proof.Machine
end

section
/-! SUPPORT. The system instructions in supervisor mode, the software trap, and RTI as the inverse of a trap entry (R415, R418 to R421,
R528 to R531). -/

namespace Sys2Proof.Machine

/-! ### WAIT, STOP and BRK (R419 to R421) -/

theorem exec_wait_supervisor {s : State} (h : s.unit.effSM = true) : exec .wait s = .next { s with waiting := true } :=
  congrArg Host.Outcome.next (if_pos h)

/-- Settles O35: the two privileged instructions pass their check; BRK has none. -/
theorem waitStopBrkResults : Obligations.WaitStopBrkResults := fun _ =>
  ⟨exec_wait_supervisor, exec_stop_supervisor, rfl⟩

/-! ### TRAP (R415, R520) -/

/-- CAUSE has a bit for every bit of a trap's number and of its code (R63, R68). -/
theorem softwareTrap_cause (n : BitVec 4) (w : Word) :
    (TrapKind.exception (.softwareTrap n) w).cause &&& 0x80000F1F#32 = (n.zeroExtend 32 <<< 8) ||| 0x00000005#32 := by
  have hmask : ∀ n : BitVec 4, (n.zeroExtend 32 <<< 8 ||| 5#32) &&& 0x80000F1F#32 = n.zeroExtend 32 <<< 8 ||| 5#32 := by
    decide
  exact hmask n

/-- Settles O38: the three branches of TRAP; in the second the exception enters its handler. -/
theorem softwareTrapResults : Obligations.SoftwareTrapResults := by
  intro s n h
  refine ⟨fun hn => if_pos hn, fun hn hv hl hr => ⟨_, exec_trap_vectored hv hn, ?_⟩, fun hn hv => exec_trap_unvectored hv hn⟩
  rw [← softwareTrap_cause n s.unit.word]
  exact State.takeException_taken (e := .softwareTrap n) hl hv hr s.unit.word (s.pc + 4#32)

/-! ### RTI (R418, R530) -/

theorem exec_rti_supervisor {s : State} (h : s.unit.effSM = true) : exec .rti s = .next s.returnFromTrap :=
  congrArg Host.Outcome.next (if_pos h)

theorem State.returnFromTrap_queueAndTarget (s : State) : QueueAndTarget s s.returnFromTrap s.cr.bpc := rfl

theorem State.returnFromTrap_controlWrite (s : State) : ControlWrite s s.returnFromTrap .psw s.cr.bpsw :=
  .of_cr (u := s.returnFromTrap.unit) rfl

/-- Settles O34: in supervisor mode RTI records BPC and queues the one masked write of the PSW. -/
theorem rtiResults : Obligations.RtiResults := by
  intro s hsm
  obtain ⟨hcrs, hregs, hbytes, hdevices⟩ := s.returnFromTrap_controlWrite
  exact ⟨_, exec_rti_supervisor hsm, rfl, s.returnFromTrap_queueAndTarget, (hcrs .psw).trans (if_pos rfl),
    fun n hn => (hcrs n).trans (if_neg hn), hregs, hbytes, hdevices⟩

/-! ### RTI after a trap entry (R529 to R531) -/

/-- The commit of a unit that was RTI alone. -/
theorem State.commitUnit_endUnit_returnFromTrap (s : State) :
    s.endUnit.returnFromTrap.commitUnit = { s with
      cr := { s.cr with psw := maskedWrite s.cr.psw s.cr.bpsw (crMask .psw) }
      unit := s.endUnit.returnFromTrap.commitUnit.unit } := rfl

theorem State.advancePc_returnFromTrap (s : State) : s.returnFromTrap.commitUnit.advancePc.pc = s.cr.bpc := by
  rw [State.advancePc, State.commitUnit_npc]
  rfl

theorem maskedWrite_self (v mask : Word) : maskedWrite v v mask = v := by
  apply BitVec.eq_of_getLsbD_eq
  intro i _
  rw [maskedWrite_getLsbD, ite_self]

/-- A masked write of a value with no bit outside the mask, over a register with none, gives the value. -/
theorem maskedWrite_of_both_legal {old v mask : Word} (hold : old &&& ~~~ mask = 0#32) (hv : v &&& ~~~ mask = 0#32) :
    maskedWrite old v mask = v := by
  rw [maskedWrite_of_legal hold, ← maskedWrite_of_legal hv, maskedWrite_self]

/-- Settles O41: the entry saved the PSW and the return address, and RTI, in the handler's supervisor mode, brings them back. -/
theorem rtiUndoesTrapEntry : Obligations.RtiUndoesTrapEntry := by
  intro s k ret h hl hv
  have hin := State.trapEntry_entered hl ret hv
  obtain ⟨hentry, -⟩ := State.trapEntry_legal hl k ret
  have hpsw : (s.trapEntry k ret).endUnit.returnFromTrap.commitUnit.cr.psw = s.cr.psw := by
    rw [State.commitUnit_endUnit_returnFromTrap, ← maskedWrite_of_both_legal hentry hl.1, ← hin.bpsw]
    rfl
  refine ⟨_, exec_rti_supervisor hin.endUnit.effSM, hpsw, ?_, ?_, ?_⟩
  · rw [State.advancePc_returnFromTrap]
    exact hin.bpc
  · rw [State.commitUnit_endUnit_returnFromTrap]
    exact State.trapEntry_regs ..
  · rw [State.commitUnit_endUnit_returnFromTrap]
    exact State.trapEntry_mem ..

end Sys2Proof.Machine
end

section
/-! SUPPORT. The fd table and the pipes over an instruction, a unit and a step, and the statement about them (R452, R454, R465). -/

namespace Sys2Proof.Machine

/-- What is legal of the bridge, in the form in which the effect of an instruction speaks of the pipes. -/
theorem State.bridgeLegal_iff {s : State} :
    s.bridgeLegal ↔ s.fds.length = s.cfg.nfd ∧ PipesOk s.cfg s.nextPipe s.pipes :=
  ⟨fun ⟨hfds, hnodup, hnamed, hbounded⟩ => ⟨hfds, hbounded, hnamed, hnodup⟩,
    fun ⟨hfds, hbounded, hnamed, hnodup⟩ => ⟨hfds, hnodup, hnamed, hbounded⟩⟩

/-- The bridge's legality concerns its tables and the parameters alone. -/
theorem State.bridgeLegal.of_eq {s t : State} (h : s.bridgeLegal) (hcfg : t.cfg = s.cfg) (hfds : t.fds = s.fds)
    (hpipes : t.pipes = s.pipes) (hnext : t.nextPipe = s.nextPipe) : t.bridgeLegal := by
  rwa [State.bridgeLegal, hcfg, hfds, hpipes, hnext]

/-- Raising reaches no table of the bridge (R262). -/
theorem State.bridgeLegal.takeException {s : State} (h : s.bridgeLegal) (e : Exc) (b ret : Word) :
    (s.takeException e b ret).bridgeLegal :=
  h.of_eq (State.takeException_cfg ..) (State.takeException_fds ..) (State.takeException_pipes ..)
    (State.takeException_nextPipe ..)

/-- A system call keeps the table's size and the bounds of the pipes; every other instruction keeps the tables. -/
theorem State.bridgeLegal.exec {s t : State} {i : Instr} (h : s.bridgeLegal) (he : exec i s = .next t) : t.bridgeLegal := by
  rcases exec_effect he with ⟨e, b, ret, rfl⟩ | hn | ⟨_, rfl⟩
  · exact h.takeException e b ret
  · obtain ⟨hfds, hpipes⟩ := State.bridgeLegal_iff.1 h
    rw [State.bridgeLegal_iff, hn.cfg]
    exact ⟨hn.fds.trans hfds, hn.pipes hpipes⟩
  · exact h.of_eq rfl rfl rfl rfl

theorem unitAnswers_bridgeLegal {s t : State} {w : Word} (hs : s.bridgeLegal) (h : s.unitAnswers w t) : t.bridgeLegal :=
  have hstart : (s.startUnit w).bridgeLegal := hs.of_eq rfl rfl rfl rfl
  unitAnswers_induction (fun _ _ _ hu _ he => hu.exec he) (fun _ hu _ => hu.of_eq rfl rfl rfl rfl)
    (hstart.takeException _ _ _) hstart h

/-- No entry of the queue is one of the bridge's tables (R458). -/
theorem State.bridgeLegal.commitUnit {s : State} (h : s.bridgeLegal) : s.commitUnit.bridgeLegal := by
  rw [State.commitUnit, State.countSuppressed_eq]
  exact h.of_eq s.commit_cfg s.commit_fds s.commit_pipes s.commit_nextPipe

theorem State.bridgeLegal.interruptCheck {s : State} (h : s.bridgeLegal) : s.interruptCheck.bridgeLegal := by
  have hentry : (s.trapEntry (.interrupt s.icLevel) s.pc).bridgeLegal :=
    h.of_eq (State.trapEntry_cfg ..) (State.trapEntry_fds ..) (State.trapEntry_pipes ..) (State.trapEntry_nextPipe ..)
  rcases s.interruptCheck_cases with ⟨_, hi⟩ | ⟨_, _, ⟨_, hi⟩ | ⟨_, hi⟩⟩ <;> rw [hi]
  · exact h
  · exact hentry
  · exact hentry.of_eq rfl rfl rfl rfl

theorem bridgeLegal_boundaryInvariant : BoundaryInvariant State.bridgeLegal where
  same hs h := by
    obtain ⟨hcfg, -, -, -, -, hfds, hpipes, hnext⟩ := State.arch_eq_iff.1 h
    exact hs.of_eq hcfg hfds hpipes hnext
  fire s e hs := hs.of_eq (s.fire_cfg e) (s.fire_fds e) (s.fire_pipes e) (s.fire_nextPipe e)
  interrupt _ hs := hs.interruptCheck

/-- Settles O11, by the induction over a step: what a unit has left, raised or not, is legal, and its commit keeps that. -/
theorem bridgeStaysBounded : Obligations.BridgeStaysBounded := by
  intro s t hs h
  refine bridgeLegal_boundaryInvariant.step hs (fun w u hu => ?_) h
  have hlegal := unitAnswers_bridgeLegal hs hu
  exact ⟨fun _ => hlegal, fun _ => hlegal.commitUnit⟩

end Sys2Proof.Machine
end

section
/-! SUPPORT. The calls of the syscall bridge that write their result registers and nothing else, and the statement about those that
fail their first checks (R450 to R453, R485). -/

namespace Sys2Proof.Machine

/-! ### Calls that write their results alone (R451) -/

/-- A call that has left memory and everything else outside the unit as it was has the effect of two register writes. -/
theorem CallEffect.registerEffect {s t : State} {results : PReg → Option Word} (h : CallEffect s t results s.mem)
    (ho : OnlyTheUnit s t) : RegisterEffect s t results none none none := by
  have hcfg : t.cfg = s.cfg := (congrArg State.cfg ho :)
  refine ⟨ho, h.regs, h.flags, h.crs, h.devices, fun a => ?_⟩
  rw [State.byteAt, State.byteAt, h.mem, State.commit_cfg, State.commit_cfg, hcfg]

/-- A call in `s` ends in `o` having queued `r0` and `r1` for the result registers, and nothing else. -/
def ResultsOnly (s : State) (o : Result) (r0 r1 : Word) : Prop :=
  ∃ t, o = .next t ∧ QueueOnly s t ∧ RegisterEffect s t (twoRegs (s.physReg 0#4) r0 (s.physReg 1#4) r1) none none none

theorem ResultsOnly.of_pushes {s : State} {o : Result} {r0 r1 : Word} (h : o = .next ((s.pushReg 0#4 r0).pushReg 1#4 r1)) :
    ResultsOnly s o r0 r1 :=
  have hcall := (EnvChange.refl s).results r0 r1
  ⟨_, h, hcall.queue, hcall.registerEffect rfl⟩

theorem ResultsOnly.fail {s : State} {o : Result} (e : BridgeError) (h : o = .next (s.fail e)) :
    ResultsOnly s o 0xFFFFFFFF#32 e.number :=
  .of_pushes h

theorem ResultsOnly.complete {s : State} {o : Result} (v : Word) (h : o = .next (s.complete v)) : ResultsOnly s o v 0#32 :=
  .of_pushes h

/-! ### Which call a trap makes (R450) -/

theorem exec_trap_syscall {s : State} {c : Syscall} (h : tableLookup s.cfg.syscallMap (s.readReg 0#4) = some c) :
    exec (.trap s.cfg.syscallTrap) s = runSyscall c (s.readReg 1#4) (s.readReg 2#4) (s.readReg 3#4) s := by
  have hb : exec (.trap s.cfg.syscallTrap) s = bridge s := if_pos rfl
  rw [hb, bridge, h]

theorem exec_trap_unknown {s : State} (h : tableLookup s.cfg.syscallMap (s.readReg 0#4) = none) :
    exec (.trap s.cfg.syscallTrap) s = .next (s.fail .enosys) := by
  have hb : exec (.trap s.cfg.syscallTrap) s = bridge s := if_pos rfl
  rw [hb, bridge, h]

/-! ### Calls on a slot of the wrong kind (R453, R463 to R466, R470, R473) -/

theorem runSyscall_of_free {c : Syscall} {s : State} {a1 : Word} (h : s.slot a1 = .free) (a2 a3 : Word)
    (hc : c ∈ [Syscall.close, .read, .write, .lseek, .fstat, .ftruncate]) :
    runSyscall c a1 a2 a3 s = .next (s.fail .einval) := by
  simp only [List.mem_cons, List.not_mem_nil, or_false] at hc
  rcases hc with rfl | rfl | rfl | rfl | rfl | rfl
  · rw [runSyscall, sysClose, h]
  · rw [runSyscall, sysRead, h]
  · rw [runSyscall, sysWrite, h]
  · rw [runSyscall, sysLseek, h]
  · rw [runSyscall, sysFstat, h]
  · rw [runSyscall, sysFtruncate, h]

theorem sysRead_of_writer {s : State} {a1 : Word} {p : Nat} (h : s.slot a1 = .pipeWr p) (a2 a3 : Word) :
    sysRead a1 a2 a3 s = .next (s.fail .ebadf) := by
  rw [sysRead, h]

theorem sysWrite_of_reader {s : State} {a1 : Word} {p : Nat} (h : s.slot a1 = .pipeRd p) (a2 a3 : Word) :
    sysWrite a1 a2 a3 s = .next (s.fail .ebadf) := by
  rw [sysWrite, h]

theorem sysLseek_of_pipe {s : State} {a1 : Word} {p : Nat} (h : s.slot a1 = .pipeRd p ∨ s.slot a1 = .pipeWr p)
    (a2 a3 : Word) : sysLseek a1 a2 a3 s = .next (s.fail .espipe) := by
  rcases h with h | h <;> rw [sysLseek, h]

/-- Settles O55: each of these calls comes down to one failure of the bridge's own, which queues -1 and its number. -/
theorem failedCallsReportErrors : Obligations.FailedCallsReportErrors := by
  intro s
  refine ⟨fun hcall => ?_, fun c hc hcall hslot => ?_, fun p hcall hslot => ?_, fun p hcall hslot => ?_,
    fun p hcall hslot => ?_⟩
  · exact ResultsOnly.fail .enosys (exec_trap_unknown hcall)
  · exact ResultsOnly.fail .einval ((exec_trap_syscall hcall).trans (runSyscall_of_free hslot _ _ hc))
  · exact ResultsOnly.fail .ebadf ((exec_trap_syscall hcall).trans (sysRead_of_writer hslot _ _))
  · exact ResultsOnly.fail .ebadf ((exec_trap_syscall hcall).trans (sysWrite_of_reader hslot _ _))
  · exact ResultsOnly.fail .espipe ((exec_trap_syscall hcall).trans (sysLseek_of_pipe hslot _ _))

end Sys2Proof.Machine
end

section
/-! SUPPORT. A pipe's bytes: what a write appends and a read drains, with the notifications, and the statement about them (R454, R458,
R464, R465, R479). -/

namespace Sys2Proof.Machine

/-! ### The pipes by name (R454) -/

theorem tableLookup_setPipe {ps : List (Nat × Pipe)} {p : Nat} {x : Pipe} (h : tableLookup ps p = some x) (y : Pipe) :
    tableLookup (setPipe p y ps) p = some y := by
  induction ps with
  | nil => cases h
  | cons e ps ih =>
    obtain ⟨k, v⟩ := e
    by_cases hk : k = p
    · simp [setPipe, tableLookup, hk]
    · have hk' : ¬ p = k := fun h => hk h.symm
      simp only [tableLookup, if_neg hk'] at h
      simp [setPipe, tableLookup, hk, hk', ih h]

theorem tableLookup_setPipe_of_ne (ps : List (Nat × Pipe)) {p q : Nat} (h : q ≠ p) (y : Pipe) :
    tableLookup (setPipe p y ps) q = tableLookup ps q := by
  induction ps with
  | nil => rfl
  | cons e ps ih =>
    obtain ⟨k, v⟩ := e
    by_cases hk : k = p
    · simp [setPipe, tableLookup, hk, h]
    · simp [setPipe, tableLookup, hk, ih]

theorem State.pipe_of_lookup {s : State} {p : Nat} {x : Pipe} (h : tableLookup s.pipes p = some x) : s.pipe p = x := by
  rw [State.pipe, h, Option.getD_some]

/-- Where the record of one pipe has been replaced, that pipe is what was put there and every other as before. -/
theorem State.pipe_of_setPipe {s t : State} {p : Nat} {x y : Pipe} (h : tableLookup s.pipes p = some x)
    (ht : t.pipes = setPipe p y s.pipes) : t.pipe p = y ∧ ∀ q, q ≠ p → t.pipe q = s.pipe q :=
  ⟨State.pipe_of_lookup (ht ▸ tableLookup_setPipe h y), fun q hq => by
    rw [State.pipe, State.pipe, ht, tableLookup_setPipe_of_ne _ hq]⟩

theorem State.putPipe_of_open (s : State) (p : Nat) {x : Pipe} (h : x.rdOpen = true ∨ x.wrOpen = true) :
    s.putPipe p x = { s with pipes := setPipe p x s.pipes } := by
  rw [State.putPipe, if_pos (by simpa using h)]

/-! ### The notifications (R479) -/

/-- The state with more notifications in the log. -/
def State.logNotes (s : State) (notes : List Notification) : State :=
  { s with host := { s.host with notes := s.host.notes ++ notes } }

theorem State.logNotes_nil (s : State) : s.logNotes [] = s := by
  rw [State.logNotes, List.append_nil]

theorem EnvChange.logNotes (s : State) (notes : List Notification) : EnvChange s (s.logNotes notes) :=
  ⟨rfl, rfl, rfl, rfl, rfl, rfl, rfl, rfl, rfl, rfl, rfl, rfl, rfl, .refl, rfl, id⟩

/-- A search from the front finds the first slot that is `x`. -/
theorem findIdx?_first {fds : List FdSlot} {x : FdSlot} {f : Nat} (hf : fds[f]? = some x)
    (hlt : ∀ g, g < f → fds[g]? ≠ some x) : fds.findIdx? (· = x) = some f := by
  obtain ⟨hlen, hx⟩ := List.getElem?_eq_some_iff.1 hf
  refine List.findIdx?_eq_some_iff_getElem.2 ⟨hlen, by simpa using hx, fun g hg heq => hlt g hg ?_⟩
  rw [List.getElem?_eq_getElem (hg.trans hlen)]
  simpa using heq

/-- A search that counts its slots from a base is the library's search. -/
theorem search_eq_findIdx? {search : List FdSlot → Nat → Option Nat} {x : FdSlot} (hnil : ∀ base, search [] base = none)
    (hcons : ∀ y fds base, search (y :: fds) base = if y = x then some base else search fds (base + 1))
    (fds : List FdSlot) (base : Nat) : search fds base = (fds.findIdx? (· = x)).map (· + base) := by
  induction fds generalizing base with
  | nil => exact hnil base
  | cons y fds ih =>
    rw [hcons, ih, List.findIdx?_cons]
    by_cases hy : y = x
    · simp [hy]
    · simp [hy, Function.comp_def, Nat.add_right_comm, Nat.add_assoc]

theorem readerFd_eq_findIdx? (p : Nat) (fds : List FdSlot) (base : Nat) :
    readerFd p fds base = (fds.findIdx? (· = .pipeRd p)).map (· + base) :=
  search_eq_findIdx? (search := readerFd p) (fun _ => rfl) (fun _ _ _ => rfl) fds base

/-- What a write of `b` to the pipe `p`, which holds `buf`, notifies. -/
def writeNotes (fds : List FdSlot) (p : Nat) (buf b : List Byte) : List Notification :=
  if buf.isEmpty && !b.isEmpty then ((readerFd p fds 0).map .pipeNonEmpty).toList else []

theorem writeNotes_eq_nil (fds : List FdSlot) (p : Nat) {buf b : List Byte} (h : buf ≠ [] ∨ b = []) :
    writeNotes fds p buf b = [] := by
  refine if_neg ?_
  rcases h with h | h <;> simp [h]

theorem writeNotes_eq_singleton {fds : List FdSlot} {p fd : Nat} {b : List Byte} (hb : b ≠ [])
    (hfd : fds[fd]? = some (.pipeRd p)) (hlt : ∀ g, g < fd → fds[g]? ≠ some (.pipeRd p)) :
    writeNotes fds p [] b = [.pipeNonEmpty fd] := by
  rw [writeNotes, if_pos (by simpa using hb), readerFd_eq_findIdx?, findIdx?_first hfd hlt]
  rfl

/-! ### Copies (R458) -/

theorem State.length_copyIn {s : State} {va : Word} {n : Nat} (h : s.checkRange va n .read = true) :
    (s.copyIn va n).length = n := by
  obtain ⟨cs, hcs, hbridge⟩ := State.checkRange_prefix (Nat.le_refl n) h
  rw [State.copyIn, hbridge]
  simpa using (State.chunks_spec hcs).1

/-- A copy to a range that has been checked, or to its beginning, writes its chunks. -/
theorem State.copyOut_of_checkRange {s : State} {va : Word} {n : Nat} {bs : List Byte}
    (h : s.checkRange va n .write = true) (hlen : bs.length ≤ n) :
    ∃ cs, s.chunks va bs.length .write s.unit.effSM = .ok cs ∧
      s.copyOut va bs = { s with mem := writeChunks s.cfg cs bs s.mem } := by
  obtain ⟨cs, hcs, hbridge⟩ := State.checkRange_prefix hlen h
  exact ⟨cs, hcs, by rw [State.copyOut, hbridge]⟩

/-! ### Write (R465) -/

theorem sysWrite_of_writer {s : State} {a1 a2 a3 : Word} {p : Nat} (h : s.slot a1 = .pipeWr p)
    (hc : s.checkRange a2 a3.toNat .read = true) :
    sysWrite a1 a2 a3 s = .next (s.writePipe p (s.copyIn a2 a3.toNat)) := by
  simp only [sysWrite, h, hc, if_true]

section
variable {s : State} {p : Nat} {x : Pipe} (hx : tableLookup s.pipes p = some x) {b : List Byte}
include hx

theorem State.writePipe_of_closed (h : x.rdOpen = false) : s.writePipe p b = s.fail .epipe := by
  simp [State.writePipe, State.pipe_of_lookup hx, h]

theorem State.writePipe_of_full (h : x.rdOpen = true) (hcap : s.cfg.pipeCap < x.buf.length + b.length) :
    s.writePipe p b = s.fail .efbig := by
  simp [State.writePipe, State.pipe_of_lookup hx, h, hcap]

/-- A write within the cap appends its bytes and notifies. -/
theorem State.writePipe_of_room (h : x.rdOpen = true) (hcap : x.buf.length + b.length ≤ s.cfg.pipeCap) :
    s.writePipe p b =
      ((s.putPipe p { x with buf := x.buf ++ b }).logNotes (writeNotes s.fds p x.buf b)).complete
        (BitVec.ofNat 32 b.length) := by
  simp only [State.writePipe, State.pipe_of_lookup hx, h, Bool.not_true, Bool.false_eq_true, if_false,
    if_neg (Nat.not_lt.2 hcap), writeNotes]
  split
  · cases readerFd p s.fds 0 with
    | none => simp [State.logNotes_nil]
    | some fd => rfl
  · rw [State.logNotes_nil]

/-- What a write within the cap leaves, at once and at the commit. -/
theorem State.writePipe_appends (h : x.rdOpen = true) (hcap : x.buf.length + b.length ≤ s.cfg.pipeCap) :
    s.writePipe p b = { s with
        unit := (s.writePipe p b).unit
        pipes := setPipe p { x with buf := x.buf ++ b } s.pipes
        host := { s.host with notes := s.host.notes ++ writeNotes s.fds p x.buf b } } ∧
      CallEffect s (s.writePipe p b)
        (twoRegs (s.physReg 0#4) (BitVec.ofNat 32 b.length) (s.physReg 1#4) 0#32) s.mem := by
  have henv := (EnvChange.putPipe s p { x with buf := x.buf ++ b } fun _ => by simpa using hcap).trans
    (.logNotes _ (writeNotes s.fds p x.buf b))
  rw [State.writePipe_of_room hx h hcap]
  refine ⟨?_, henv.complete _⟩
  rw [State.putPipe_of_open s p (x := { x with buf := x.buf ++ b }) (.inl h)]
  rfl

end

/-! ### Read (R464) -/

theorem sysRead_of_reader {s : State} {a1 a2 a3 : Word} {p : Nat} (h : s.slot a1 = .pipeRd p)
    (hc : s.checkRange a2 a3.toNat .write = true) :
    sysRead a1 a2 a3 s = .next (s.readPipe p a1.toNat a2 a3.toNat) := by
  simp only [sysRead, h, hc, if_true]

theorem State.readPipe_zero (s : State) (p fd : Nat) (va : Word) : s.readPipe p fd va 0 = s.complete 0#32 := rfl

section
variable {s : State} {p : Nat} {x : Pipe} (hx : tableLookup s.pipes p = some x) {fd n : Nat} {va : Word}
include hx

theorem State.readPipe_of_empty (hb : x.buf = []) (hn : n ≠ 0) :
    s.readPipe p fd va n = if x.wrOpen then s.fail .eagain else s.complete 0#32 := by
  simp [State.readPipe, State.pipe_of_lookup hx, hb, hn]

theorem State.readPipe_of_bytes (hb : x.buf ≠ []) (hn : n ≠ 0) :
    s.readPipe p fd va n = (s.drainPipe p (min n x.buf.length) fd va).complete (BitVec.ofNat 32 (min n x.buf.length)) := by
  simp [State.readPipe, State.pipe_of_lookup hx, hb, hn]

/-- Draining all that `n` bytes can hold writes them to memory, drops them, and notifies where nothing is left. -/
theorem State.drainPipe_eq (ho : x.rdOpen = true ∨ x.wrOpen = true) (hc : s.checkRange va n .write = true) :
    ∃ cs, s.chunks va (min n x.buf.length) .write s.unit.effSM = .ok cs ∧
      s.drainPipe p (min n x.buf.length) fd va = { s with
        pipes := setPipe p { x with buf := x.buf.drop n } s.pipes
        mem := writeChunks s.cfg cs (x.buf.take n) s.mem
        host := { s.host with
          notes := s.host.notes ++ (if x.buf.length ≤ n then [.pipeEmpty fd] else []) } } := by
  obtain ⟨cs, hcs, hcopy⟩ := State.copyOut_of_checkRange (bs := x.buf.take n) hc (by simp)
  refine ⟨cs, by simpa using hcs, ?_⟩
  simp only [State.drainPipe, State.pipe_of_lookup hx, ← List.take_eq_take_min, ← List.drop_eq_drop_min, hcopy,
    List.isEmpty_iff, List.drop_eq_nil_iff]
  rw [State.putPipe_of_open _ p (x := { x with buf := x.buf.drop n }) ho]
  split
  · rfl
  · rw [List.append_nil]

end

/-- Settles O56: a call on a pipe comes down to `writePipe` or `readPipe`, and each case of these either queues its results alone or
puts the pipe back with its bytes changed. -/
theorem pipesCarryBytes : Obligations.PipesCarryBytes := by
  intro s p x va n call slot results OnlyResults hx
  refine ⟨fun hcall hslot hc => ?_, fun hcall hslot hc => ?_⟩
  · have hlen : (s.copyIn va n).length = n := State.length_copyIn hc
    have hexec : exec (.trap s.cfg.syscallTrap) s = .next (s.writePipe p (s.copyIn va n)) :=
      (exec_trap_syscall hcall).trans (sysWrite_of_writer hslot hc)
    refine ⟨fun hr => ?_, fun hr hcap => ?_, fun hr hcap => ?_⟩
    · rw [State.writePipe_of_closed hx hr] at hexec
      exact ResultsOnly.fail .epipe hexec
    · rw [State.writePipe_of_full hx hr (by rwa [hlen])] at hexec
      exact ResultsOnly.fail .efbig hexec
    · obtain ⟨ht, heffect⟩ := State.writePipe_appends (b := s.copyIn va n) hx hr (by rwa [hlen])
      have hpipes := congrArg State.pipes ht
      obtain ⟨hp, hq⟩ := State.pipe_of_setPipe hx hpipes
      rw [hlen] at heffect
      exact ⟨_, _, hexec, hlen, by rwa [hpipes], hp, hq,
        fun h => writeNotes_eq_nil _ _ (h.imp_right fun hn => List.length_eq_zero_iff.1 (hlen.trans hn)),
        fun fd hb hn hfd hlt => by
          rw [hb]
          exact writeNotes_eq_singleton (fun h => hn (hlen ▸ List.length_eq_zero_iff.2 h)) hfd hlt,
        heffect⟩
  · have hexec : exec (.trap s.cfg.syscallTrap) s = .next (s.readPipe p (s.readReg 1#4).toNat va n) :=
      (exec_trap_syscall hcall).trans (sysRead_of_reader hslot hc)
    refine ⟨fun hn => ?_, fun ho hb hn => ?_, fun hb hn => ?_⟩
    · rw [hn, State.readPipe_zero] at hexec
      exact ResultsOnly.complete 0#32 hexec
    · obtain ⟨cs, hcs, hdrain⟩ := State.drainPipe_eq (fd := (s.readReg 1#4).toNat) hx ho hc
      have hpipes := congrArg State.pipes hdrain
      have heffect := (EnvChange.drainPipe s p (min n x.buf.length) (s.readReg 1#4).toNat va).complete
        (BitVec.ofNat 32 (min n x.buf.length))
      rw [State.readPipe_of_bytes hx hb hn] at hexec
      obtain ⟨hp, hq⟩ := State.pipe_of_setPipe hx hpipes
      rw [hdrain] at hexec heffect hp hq
      exact ⟨_, cs, hexec, hcs, rfl, hp, hq, heffect⟩
    · rw [State.readPipe_of_empty hx hb hn] at hexec
      cases hw : x.wrOpen with
      | true =>
        rw [hw] at hexec
        exact ResultsOnly.fail .eagain hexec
      | false =>
        rw [hw] at hexec
        exact ResultsOnly.complete 0#32 hexec

end Sys2Proof.Machine
end

section
/-! SUPPORT. The calls that change the fd table, over the lowest free slots and the host's answer, and the statement about them (R451 to
R454, R462, R463, R474, R482). -/

namespace Sys2Proof.Machine

/-! ### The lowest free slot (R453) -/

theorem lowestFree_eq_findIdx? (fds : List FdSlot) (base : Nat) :
    lowestFree fds base = (fds.findIdx? (· = .free)).map (· + base) :=
  search_eq_findIdx? (fun _ => rfl) (fun y _ _ => by cases y <;> rfl) fds base

section
variable {fds : List FdSlot} {base : Nat}

/-- The search from `base` on finds the first free slot there. -/
theorem lowestFree_drop {f : Nat} (hle : base ≤ f) (hf : fds[f]? = some .free)
    (hlt : ∀ g, base ≤ g → g < f → fds[g]? ≠ some .free) : lowestFree (fds.drop base) base = some f := by
  obtain ⟨d, rfl⟩ := Nat.exists_eq_add_of_le hle
  have hd : (fds.drop base).findIdx? (· = .free) = some d :=
    findIdx?_first (by rwa [List.getElem?_drop]) fun g hg => by
      rw [List.getElem?_drop]
      exact hlt _ (by omega) (by omega)
  rw [lowestFree_eq_findIdx?, hd, Option.map_some, Nat.add_comm]

theorem lowestFree_drop_eq_none (h : ∀ g, base ≤ g → fds[g]? ≠ some .free) : lowestFree (fds.drop base) base = none := by
  rw [lowestFree_eq_findIdx?, Option.map_eq_none_iff, List.findIdx?_eq_none_iff]
  intro x hx
  obtain ⟨i, hi⟩ := List.mem_iff_getElem?.1 hx
  rw [List.getElem?_drop] at hi
  refine decide_eq_false fun hfree => h (base + i) (Nat.le_add_right ..) ?_
  rw [hi, hfree]

end

/-! ### The host's answer (R451, R482) -/

/-- The state after the host has answered `r` to the call `c`. -/
def State.answered (s : State) (c : HostCall) (r : HostReply) : State :=
  { s with
    stopRequest := s.stopRequest || r.stop
    host := { s.host with
      script := s.host.script.tail
      served := s.host.served + 1
      calls := s.host.calls ++ [c]
      lastErrno := r.error.or s.host.lastErrno } }

theorem EnvChange.answered (s : State) (c : HostCall) (r : HostReply) : EnvChange s (s.answered c r) :=
  ⟨rfl, rfl, rfl, rfl, rfl, rfl, rfl, rfl, rfl, rfl, rfl, rfl, rfl, .refl, rfl, id⟩

section
variable {s : State} {r : HostReply} (hr : s.nextAnswer = .reply r)
include hr

theorem State.askHost_of_reply (c : HostCall) : s.askHost c = some (r, s.answered c r) := by
  simp only [State.askHost, hr, State.answered]
  cases r.error <;> rfl

theorem State.withHost_of_ok (he : r.error = none) (c : HostCall) (ok : HostReply → State → State) :
    s.withHost c ok = .next (ok r (s.answered c r)) := by
  simp only [State.withHost, State.askHost_of_reply hr, he]

theorem State.withHost_of_error {e : HostErrno} (he : r.error = some e) (c : HostCall) (ok : HostReply → State → State) :
    s.withHost c ok = .next (s.answered c r).hostFail := by
  simp only [State.withHost, State.askHost_of_reply hr, he]

end

/-- What a host call `c`, answered `r`, has done from `s` to `t` where an `Ok` sets the slot `fd` to `x` and gives `v` (R451, R462,
R463). -/
structure SlotCall (s : State) (c : HostCall) (r : HostReply) (fd : Nat) (x : FdSlot) (v : Word) (t : State) : Prop where
  outside : t = { s with fds := t.fds, unit := t.unit, host := t.host, stopRequest := s.stopRequest || r.stop }
  ok : r.error = none →
    t.fds = s.fds.set fd x ∧
    t.host = { s.host with
      script := s.host.script.tail, served := s.host.served + 1, calls := s.host.calls ++ [c] } ∧
    CallEffect s t (twoRegs (s.physReg 0#4) v (s.physReg 1#4) 0#32) s.mem
  error : ∀ e, r.error = some e →
    t.fds = s.fds ∧
    t.host = { s.host with
      script := s.host.script.tail, served := s.host.served + 1
      calls := s.host.calls ++ [c, .getLastErrno], lastErrno := some e } ∧
    CallEffect s t
      (twoRegs (s.physReg 0#4) 0xFFFFFFFF#32 (s.physReg 1#4) ((tableLookup s.cfg.errnoMap e).getD 0#32)) s.mem

theorem State.withHost_setSlot {s : State} {r : HostReply} (hr : s.nextAnswer = .reply r) (c : HostCall) (fd : Nat)
    (x : HostReply → FdSlot) (v : Word) :
    ∃ t, s.withHost c (fun r t => (t.setSlot fd (x r)).complete v) = .next t ∧ SlotCall s c r fd (x r) v t := by
  have henv := EnvChange.answered s c r
  cases he : r.error with
  | none =>
    refine ⟨_, State.withHost_of_ok hr he _ _, rfl, fun _ => ⟨rfl, ?_, (henv.trans (.setSlot _ _ _)).complete v⟩,
      fun _ h => nomatch he.symm.trans h⟩
    show (s.answered c r).host = _
    rw [State.answered, he, Option.none_or]
  | some e =>
    have hlast : (s.answered c r).host.lastErrno = some e := by
      rw [State.answered, he, Option.some_or]
    have hfail : (s.answered c r).hostFail =
        ((s.answered c r).recordCall .getLastErrno).failWith ((tableLookup s.cfg.errnoMap e).getD 0#32) := by
      rw [State.hostFail, hlast]
      rfl
    refine ⟨_, State.withHost_of_error hr he _ _, ?_⟩
    rw [hfail]
    refine ⟨rfl, fun h => (nomatch he.symm.trans h), fun e' h => ?_⟩
    obtain rfl : e = e' := Option.some.inj (he.symm.trans h)
    refine ⟨rfl, ?_, (henv.trans (.recordCall _ _)).failWith _⟩
    show ((s.answered c r).recordCall .getLastErrno).host = _
    simp [State.recordCall, State.answered, he]

/-! ### open (R462) -/

theorem sysOpen_of_slot {s : State} {a1 a2 a3 : Word} {path : List Byte} {fl : HostOpenFlags} {f : Nat}
    (hp : s.copyInString a1 = .ok path) (hfl : openFlags s.cfg a2 = some fl) (hf : lowestFree s.fds 0 = some f) :
    sysOpen a1 a2 a3 s = s.withHost (.open_ (hostPath s.cfg path) fl a3) fun r t =>
      (t.setSlot f (.host r.value.toNat)).complete (BitVec.ofNat 32 f) := by
  simp only [sysOpen, hp, hfl, hf]

theorem sysOpen_of_full {s : State} {a1 a2 a3 : Word} {path : List Byte} {fl : HostOpenFlags}
    (hp : s.copyInString a1 = .ok path) (hfl : openFlags s.cfg a2 = some fl) (hf : lowestFree s.fds 0 = none) :
    sysOpen a1 a2 a3 s = .next (s.fail .emfile) := by
  simp only [sysOpen, hp, hfl, hf]

/-! ### pipe (R474) -/

section
variable {s : State} {a1 : Word} (hc : s.checkRange a1 8 .write = true)
include hc

theorem sysPipe_of_slots {rd wr : Nat} (hrd : lowestFree s.fds 0 = some rd)
    (hwr : lowestFree (s.fds.drop (rd + 1)) (rd + 1) = some wr) : sysPipe a1 s = .next (s.newPipe rd wr a1) := by
  simp only [sysPipe, hc, if_true, hrd, hwr]

theorem sysPipe_of_one_slot {rd : Nat} (hrd : lowestFree s.fds 0 = some rd)
    (hwr : lowestFree (s.fds.drop (rd + 1)) (rd + 1) = none) : sysPipe a1 s = .next (s.fail .emfile) := by
  simp only [sysPipe, hc, if_true, hrd, hwr]

theorem sysPipe_of_full (hrd : lowestFree s.fds 0 = none) : sysPipe a1 s = .next (s.fail .emfile) := by
  simp only [sysPipe, hc, if_true, hrd]

/-- A new pipe where its numbers can be written. -/
theorem State.newPipe_eq (rd wr : Nat) :
    ∃ cs, s.chunks a1 8 .write s.unit.effSM = .ok cs ∧
      s.newPipe rd wr a1 = State.complete { s with
        fds := (s.fds.set rd (.pipeRd s.nextPipe)).set wr (.pipeWr s.nextPipe)
        pipes := s.pipes ++ [(s.nextPipe, ⟨[], true, true⟩)]
        nextPipe := s.nextPipe + 1
        mem := writeChunks s.cfg cs (disassemble s.cfg.endian 4 rd ++ disassemble s.cfg.endian 4 wr) s.mem } 0#32 := by
  have hlen : (disassemble s.cfg.endian 4 rd ++ disassemble s.cfg.endian 4 wr).length = 8 := by simp
  obtain ⟨cs, hcs, hcopy⟩ := State.copyOut_of_checkRange
    (s := { s with
      fds := (s.fds.set rd (.pipeRd s.nextPipe)).set wr (.pipeWr s.nextPipe)
      pipes := s.pipes ++ [(s.nextPipe, ⟨[], true, true⟩)]
      nextPipe := s.nextPipe + 1 }) hc hlen.le
  rw [hlen] at hcs
  exact ⟨cs, hcs, congrArg (State.complete · 0#32) hcopy⟩

end

/-- What a call has changed before it queued its result is a change of the environment. -/
theorem EnvChange.of_complete {s u : State} {v : Word} (h : NormalEffect s (u.complete v)) (hunit : u.unit = s.unit)
    (hwaiting : u.waiting = s.waiting) : EnvChange s u :=
  ⟨h.cfg, h.regs, h.pc, h.cr, hunit, h.run, h.singleStep, hwaiting, h.time, h.events, h.seq, h.dev, h.arrivals, h.mem,
    h.fds, h.pipes⟩

/-! ### close (R454, R463) -/

theorem tableLookup_of_not_mem {ps : List (Nat × Pipe)} {p : Nat} (h : p ∉ ps.map Prod.fst) : tableLookup ps p = none := by
  cases hp : tableLookup ps p with
  | none => rfl
  | some x => exact absurd (List.mem_map_of_mem (tableLookup_mem hp)) h

/-- A pipe released is gone: no other has its name. -/
theorem tableLookup_dropPipe {ps : List (Nat × Pipe)} (h : (ps.map Prod.fst).Nodup) (p : Nat) :
    tableLookup (dropPipe p ps) p = none := by
  induction ps with
  | nil => rfl
  | cons e ps ih =>
    obtain ⟨k, v⟩ := e
    obtain ⟨hk, hps⟩ := List.nodup_cons.1 h
    by_cases hkp : k = p
    · simp only [dropPipe, if_pos hkp]
      exact tableLookup_of_not_mem (hkp ▸ hk)
    · have hpk : ¬ p = k := fun h => hkp h.symm
      simp only [dropPipe, if_neg hkp, tableLookup, if_neg hpk]
      exact ih hps

theorem tableLookup_dropPipe_of_ne (ps : List (Nat × Pipe)) {p q : Nat} (h : q ≠ p) :
    tableLookup (dropPipe p ps) q = tableLookup ps q := by
  induction ps with
  | nil => rfl
  | cons e ps ih =>
    obtain ⟨k, v⟩ := e
    by_cases hk : k = p
    · simp [dropPipe, tableLookup, hk, h]
    · simp [dropPipe, tableLookup, hk, ih]

/-- Putting a pipe back keeps it while an end is open, releases it otherwise, and leaves the others. -/
theorem State.putPipe_lookup {s : State} {p : Nat} {x : Pipe} (hs : (s.pipes.map Prod.fst).Nodup)
    (hx : tableLookup s.pipes p = some x) (y : Pipe) :
    tableLookup (s.putPipe p y).pipes p = (if y.rdOpen = false ∧ y.wrOpen = false then none else some y) ∧
      ∀ q, q ≠ p → tableLookup (s.putPipe p y).pipes q = tableLookup s.pipes q := by
  rw [State.putPipe_pipes]
  by_cases ho : y.rdOpen = false ∧ y.wrOpen = false
  · rw [if_pos ho, if_neg (by simp [ho])]
    exact ⟨tableLookup_dropPipe hs p, fun q hq => tableLookup_dropPipe_of_ne _ hq⟩
  · rw [if_neg ho, if_pos (by simpa [or_iff_not_imp_left] using ho)]
    exact ⟨tableLookup_setPipe hx y, fun q hq => tableLookup_setPipe_of_ne _ hq y⟩

/-- The state after one end of the pipe `p` has been closed at the slot `fd`, which leaves the record `y`. -/
def State.closeEnd (s : State) (fd p : Nat) (y : Pipe) : State := ((s.setSlot fd .free).putPipe p y).complete 0#32

theorem sysClose_of_host {s : State} {a1 : Word} {h : Nat} (hs : s.slot a1 = .host h) :
    sysClose a1 s = s.withHost (.close h) fun _ t => (t.setSlot a1.toNat .free).complete 0#32 := by
  rw [sysClose, hs]

section
variable {s : State} {p : Nat} {x : Pipe} (hx : tableLookup s.pipes p = some x)
include hx

theorem sysClose_of_reader {a1 : Word} (hs : s.slot a1 = .pipeRd p) :
    sysClose a1 s = .next (s.closeEnd a1.toNat p { x with rdOpen := false }) := by
  rw [sysClose, hs, ← State.pipe_of_lookup hx]
  rfl

theorem sysClose_of_writer {a1 : Word} (hs : s.slot a1 = .pipeWr p) :
    sysClose a1 s = .next (s.closeEnd a1.toNat p { x with wrOpen := false }) := by
  rw [sysClose, hs, ← State.pipe_of_lookup hx]
  rfl

theorem State.closeEnd_callEffect (fd : Nat) {y : Pipe} (hy : y.buf = x.buf) :
    CallEffect s (s.closeEnd fd p y) (twoRegs (s.physReg 0#4) 0#32 (s.physReg 1#4) 0#32) s.mem :=
  (EnvChange.closeEnd s fd p y (by rw [hy, State.pipe_of_lookup hx])).complete 0#32

end

/-- Settles O57: `open` and `close` of a file turn on the host's answer, `pipe` on the two lowest free slots, and the close of an end on
what putting its pipe back leaves. -/
theorem openUsesLowestSlot : Obligations.OpenUsesLowestSlot := by
  intro s call lowest results fd asked HostError TableFull
  have hlowest : ∀ {base f}, lowest base f → lowestFree (s.fds.drop base) base = some f :=
    fun ⟨hle, hf, hlt⟩ => lowestFree_drop hle hf hlt
  refine ⟨fun path fl f r hcall hp hfl hf hr => ?_, fun rd hcall hc hrd => ⟨fun wr hwr => ?_, fun hnone => ?_⟩,
    fun hnone => ?_, fun h r hcall hs hr => ?_, fun p x hcall hlegal hx => ?_⟩
  · obtain ⟨t, ht, houtside, hok, herror⟩ := State.withHost_setSlot hr
      (.open_ (hostPath s.cfg path) fl (s.readReg 3#4)) f (fun r => .host r.value.toNat) (BitVec.ofNat 32 f)
    exact ⟨t, ((exec_trap_syscall hcall).trans (sysOpen_of_slot hp hfl (hlowest hf))).trans ht, houtside, hok, herror⟩
  · obtain ⟨cs, hcs, hnew⟩ := State.newPipe_eq hc rd wr
    have heffect := State.newPipe_effect s rd wr (s.readReg 1#4)
    rw [hnew] at heffect
    exact ⟨_, cs, ((exec_trap_syscall hcall).trans (sysPipe_of_slots hc (hlowest hrd) (hlowest hwr))).trans
      (congrArg Host.Outcome.next hnew), hcs, rfl, (EnvChange.of_complete heffect rfl rfl).complete 0#32⟩
  · exact ResultsOnly.fail .emfile ((exec_trap_syscall hcall).trans
      (sysPipe_of_one_slot hc (hlowest hrd) (lowestFree_drop_eq_none fun g hg => hnone g hg)))
  · have hfull : lowestFree s.fds 0 = none := lowestFree_drop_eq_none (base := 0) fun g _ => hnone g
    exact ⟨fun hcall hc => ResultsOnly.fail .emfile ((exec_trap_syscall hcall).trans (sysPipe_of_full hc hfull)),
      fun path fl hcall hp hfl => ResultsOnly.fail .emfile ((exec_trap_syscall hcall).trans (sysOpen_of_full hp hfl hfull))⟩
  · obtain ⟨t, ht, houtside, hok, herror⟩ := State.withHost_setSlot hr (.close h) fd (fun _ => .free) 0#32
    exact ⟨t, ((exec_trap_syscall hcall).trans (sysClose_of_host hs)).trans ht, houtside, hok, herror⟩
  · intro left
    obtain ⟨-, hnodup, -, -⟩ := hlegal
    have hleft : ∀ y : Pipe, y.buf = x.buf → sysClose (s.readReg 1#4) s = .next (s.closeEnd fd p y) → left y := by
      intro y hy hclose
      obtain ⟨hp, hq⟩ := State.putPipe_lookup (s := s.setSlot fd .free) hnodup hx y
      exact ⟨_, (exec_trap_syscall hcall).trans hclose, rfl, hp, hq, State.closeEnd_callEffect hx fd hy⟩
    exact ⟨fun hs => hleft _ rfl (sysClose_of_reader hx hs), fun hs => hleft _ rfl (sysClose_of_writer hx hs)⟩

end Sys2Proof.Machine
end

section
/-! SUPPORT. The time and the queue of events over an instruction, a unit, a boundary and a step; the drain that ends; what trap entry reads
and writes; and the statements about them (R525, R528, R550 to R556). -/

namespace Sys2Proof.Machine

/-! ### What the order of the events speaks of (R550, R551) -/

/-- The time, the queue of events and the next `seq`: all that the queue's legality concerns. -/
def State.clock (s : State) : Ticks × List Event × Nat := (s.time, s.events, s.seq)

theorem State.clock_eq_iff {s t : State} :
    t.clock = s.clock ↔ t.time = s.time ∧ t.events = s.events ∧ t.seq = s.seq := by
  simp [State.clock]

/-- The queue is ordered and every `seq` has been given out, whatever lies in the past: what holds while a drain is due. -/
def State.eventsOrdered (s : State) : Prop :=
  s.events.Pairwise Event.before ∧ ∀ e ∈ s.events, e.seq < s.seq

theorem State.eventsLegal.ordered {s : State} (h : s.eventsLegal) : s.eventsOrdered :=
  ⟨h.1, fun e he => (h.2 e he).1⟩

theorem State.eventsLegal.of_clock {s t : State} (h : s.eventsLegal) (hc : t.clock = s.clock) : t.eventsLegal := by
  obtain ⟨htime, hevents, hseq⟩ := State.clock_eq_iff.1 hc
  rwa [State.eventsLegal, htime, hevents, hseq]

/-- `t` has a legal queue, and its time is `now` or later (R554). -/
structure OrderedSince (now : Ticks) (t : State) : Prop where
  legal : t.eventsLegal
  time : now ≤ t.time

theorem OrderedSince.of_clock {now : Ticks} {s t : State} (h : OrderedSince now s) (hc : t.clock = s.clock) :
    OrderedSince now t :=
  ⟨h.legal.of_clock hc, (State.clock_eq_iff.1 hc).1 ▸ h.time⟩

/-! ### Executing a unit leaves the clock alone (R141, R261) -/

theorem exec_clock {i : Instr} {s t : State} (h : exec i s = .next t) : t.clock = s.clock := by
  rw [State.clock_eq_iff]
  rcases exec_effect h with ⟨_, _, _, rfl⟩ | hn | ⟨_, rfl⟩
  · exact ⟨State.takeException_time .., State.takeException_events .., State.takeException_seq ..⟩
  · exact ⟨hn.time, hn.events, hn.seq⟩
  · exact ⟨rfl, rfl, rfl⟩

theorem unitAnswers_clock {s t : State} {w : Word} (h : s.unitAnswers w t) : t.clock = s.clock :=
  have hraise : (s.startUnit w).raiseIllegal.clock = s.clock :=
    State.clock_eq_iff.2 ⟨State.takeException_time .., State.takeException_events .., State.takeException_seq ..⟩
  unitAnswers_induction (P := fun u => u.clock = s.clock) (fun _ _ _ hu _ he => (exec_clock he).trans hu)
    (fun _ hu _ => hu) hraise rfl h

/-! ### The commit schedules at its time or later (R141, R551) -/

theorem State.eventsLegal.devWrite {s : State} (h : s.eventsLegal) (r : DevReg) (v : Word) {now : Ticks}
    (hnow : s.time ≤ now) : (s.devWrite r v now).eventsLegal := by
  obtain ⟨d, hd | ⟨delay, cb, hd⟩⟩ := s.devWrite_spec r v now <;> rw [hd]
  · exact h.of_clock rfl
  · exact State.schedule_legal (s := { s with dev := d }) h cb (BitVec.le_trans hnow (le_addTicks now delay))

theorem State.eventsLegal.applyEntry {s : State} (h : s.eventsLegal) (e : WbEntry) : (s.applyEntry e).eventsLegal := by
  rcases e with ⟨d, v, m⟩ | ⟨pa, bs⟩ | ⟨r, v⟩
  · cases d <;> exact h.of_clock rfl
  · exact h.of_clock rfl
  · exact h.devWrite r v (BitVec.le_refl s.time)

theorem State.eventsLegal.commitUnit {s : State} (h : s.eventsLegal) : s.commitUnit.eventsLegal := by
  have hqueue : (applyEntries s.unit.queue s).eventsLegal :=
    applyEntries_induction (P := State.eventsLegal) h fun e _ _ hu => hu.applyEntry e
  rw [State.commitUnit, State.countSuppressed_eq]
  exact hqueue.of_clock rfl

theorem State.commitUnit_time (s : State) : s.commitUnit.time = s.time := by
  rw [State.commitUnit, State.countSuppressed_eq]
  exact s.commit_time

/-! ### The boundary and the wait (R263, R547, R552) -/

/-- A drain up to the present leaves nothing in the past. -/
theorem State.advance_eventsLegal {s t : State} (hs : s.eventsOrdered) (h : s.advance s.time = some t) :
    t.eventsLegal := by
  obtain ⟨⟨horder, hseq⟩, hlater⟩ := State.advance_ordered hs h
  refine ⟨horder, fun e he => ⟨hseq e he, ?_⟩⟩
  rw [State.advance_time h]
  exact BitVec.le_of_lt (hlater e he)

theorem State.interruptCheck_clock (s : State) : s.interruptCheck.clock = s.clock := by
  have hentry : (s.trapEntry (.interrupt s.icLevel) s.pc).clock = s.clock :=
    State.clock_eq_iff.2 ⟨State.trapEntry_time .., State.trapEntry_events .., State.trapEntry_seq ..⟩
  rcases s.interruptCheck_cases with ⟨_, h⟩ | ⟨_, _, ⟨_, h⟩ | ⟨_, h⟩⟩ <;> rw [h]
  · exact hentry
  · exact hentry

theorem State.boundaryStops_clock (s : State) (trapped : Bool) : (s.boundaryStops trapped).clock = s.clock := by
  simp only [State.boundaryStops]
  split
  · rfl
  · split
    · rfl
    · split <;> rfl

theorem State.boundaryCheck_clock (s : State) (trapped : Bool) : (s.boundaryCheck trapped).clock = s.clock := by
  have hcheck : s.takeArrival.interruptCheck.clock = s.clock := State.interruptCheck_clock _
  rcases s.boundaryCheck_cases trapped with h | h <;> rw [h]
  · exact hcheck
  · exact (State.boundaryStops_clock ..).trans hcheck

theorem State.waitCheck_clock (s : State) : s.waitCheck.clock = s.clock := by
  have hcheck : ({ s.takeArrival with waiting := false } : State).interruptCheck.clock = s.clock :=
    State.interruptCheck_clock _
  rcases s.waitCheck_cases with h | h | h <;> rw [h]
  · exact State.boundaryStops_clock ..
  · exact hcheck
  · exact (State.boundaryStops_clock ..).trans hcheck

/-- What the boundary drains is ordered, and the unit's ticks have not taken time back (R261, R554). -/
theorem State.eventsLegal.atBoundary {u : State} (h : u.eventsLegal) :
    u.atBoundary.eventsOrdered ∧ u.time ≤ u.atBoundary.time := by
  simp only [State.atBoundary]
  split
  · exact ⟨h.ordered, le_addTicks ..⟩
  · refine ⟨h.commitUnit.ordered, ?_⟩
    rw [State.tick_time, State.advancePc_time, State.commitUnit_time]
    exact le_addTicks ..

theorem UnitEnd.orderedSince {u t : State} (hu : u.eventsLegal) (h : UnitEnd u t) : OrderedSince u.time t := by
  cases h with
  | raisedStop _ _ => exact ⟨hu.of_clock rfl, BitVec.le_refl _⟩
  | requestStop r _ => exact ⟨hu.commitUnit.of_clock rfl, (State.commitUnit_time u).symm ▸ BitVec.le_refl _⟩
  | @boundary v trapped hv =>
    obtain ⟨hordered, htime⟩ := hu.atBoundary
    have hdrained : OrderedSince u.time v :=
      ⟨State.advance_eventsLegal hordered hv, (State.advance_time hv).symm ▸ htime⟩
    exact hdrained.of_clock (v.boundaryCheck_clock trapped)

/-- A wait step moves the time to its next event alone, and that event did not lie in the past (R547). -/
theorem WaitDrained.orderedSince {s u : State} (hs : s.eventsLegal) (h : WaitDrained s u) : OrderedSince s.time u := by
  cases h with
  | requested _ => exact ⟨hs, BitVec.le_refl _⟩
  | @drained e rest _ _ _ he hu =>
    have hfuture : s.time ≤ e.fireTime := (hs.2 e (he ▸ List.mem_cons_self ..)).2
    exact ⟨State.advance_eventsLegal (s := { s with time := e.fireTime }) hs.ordered hu,
      (State.advance_time hu).symm ▸ hfuture⟩

/-- Settles O10: the commit schedules at its time or later, and time moves only to where the drain that follows leaves nothing in the
past. -/
theorem eventsStayOrdered : Obligations.EventsStayOrdered := by
  intro s t hs h
  have hstart : OrderedSince s.time s := ⟨hs, BitVec.le_refl _⟩
  have hend : OrderedSince s.time t := by
    cases step_outcome h with
    | halted _ => exact hstart
    | fetchFault _ => exact hstart.of_clock rfl
    | unit _ hu ht =>
      have hunit := hstart.of_clock (unitAnswers_clock hu)
      obtain ⟨hlegal, htime⟩ := ht.orderedSince hunit.legal
      exact ⟨hlegal, BitVec.le_trans hunit.time htime⟩
    | waitStop _ _ => exact hstart.of_clock rfl
    | waitIdle _ _ => split <;> exact hstart.of_clock rfl
    | waitCheck _ hu => exact (hu.orderedSince hs).of_clock (State.waitCheck_clock _)
  exact ⟨hend.legal, hend.time⟩

/-- Settles O16: each firing of a due event brings the drain nearer to its bound (`State.drainBound_fire`). -/
theorem eventDrainEnds : Obligations.EventDrainEnds := fun _ _ => State.advance_ends

/-! ### Trap entry (R525, R528) -/

theorem State.readVector_of_device {s : State} {v : Nat} (h : segOf (s.cr.evb + BitVec.ofNat 32 (4 * v)) = 0xF#4) :
    s.readVector v = none :=
  if_pos h

theorem State.readVector_of_fault {s : State} {v : Nat} {f : MemFault}
    (h : s.chunks (s.cr.evb + BitVec.ofNat 32 (4 * v)) 4 .read true = .error f) : s.readVector v = none := by
  simp only [State.readVector, h, ite_self]

theorem State.readVector_of_chunks {s : State} {v : Nat} {cs : List Chunk}
    (hF : segOf (s.cr.evb + BitVec.ofNat 32 (4 * v)) ≠ 0xF#4)
    (h : s.chunks (s.cr.evb + BitVec.ofNat 32 (4 * v)) 4 .read true = .ok cs) :
    s.readVector v = some (BitVec.ofNat 32 (assemble s.cfg.endian (s.chunkBytes cs))) := by
  simp only [State.readVector, if_neg hF, h]

/-- CAUSE of an exception without a trap number is its code alone (R68, R520). -/
theorem exception_cause {e : Exc} (h : e.trapNo = 0#4) (b : Word) :
    (TrapKind.exception e b).cause &&& 0x80000F1F#32 = BitVec.ofNat 32 e.code := by
  have hfield : (0#4).zeroExtend 32 <<< 8 = 0#32 := by decide
  rw [TrapKind.cause, h, hfield, BitVec.zero_or]
  cases e <;> simp [Exc.code]

/-- Settles O40: the vector's number and the three outcomes of its read; the entry, with CAUSE by kind; the stop. -/
theorem trapEntryWrites : Obligations.TrapEntryWrites := by
  refine ⟨fun _ _ => ⟨rfl, rfl, rfl, rfl, rfl⟩, fun _ => rfl,
    fun s v => ⟨State.readVector_of_device, fun _ => State.readVector_of_fault, fun _ => State.readVector_of_chunks⟩,
    fun s k ret h hl hv => ⟨?_, State.trapEntry_dev ..⟩, fun _ _ ret hv => State.trapEntry_of_no_vector ret hv⟩
  have hentered := State.trapEntry_entered hl ret hv
  cases k with
  | interrupt l => exact hentered
  | exception e b =>
    cases e with
    | softwareTrap n => rw [softwareTrap_cause] at hentered; exact hentered
    | illegalInstruction | busFault | segmentationFault | alignmentFault =>
      rw [exception_cause rfl] at hentered
      exact hentered

end Sys2Proof.Machine
end
